-- ==== Sys2Proof/Word.lean ====
section
/-! DEFINITION. The plain types of 00_scope.md R9 and R10: bytes, symbols, counts and bitstrings. -/

namespace Sys2Proof

/-- A byte, bits numbered 7 down to 0 (R9). -/
abbrev Byte := BitVec 8

/-- A symbol register of SYM_W = 21 bits (R7, R10); the ones that are symbols satisfy `isScalar`. -/
abbrev Symbol := BitVec 21

/-- A signed count (R10). Counts never wrap (R12), so they are exact integers; the bounds of CNT_W bits are those of
`Config.cntMin` and `Config.cntMax`. -/
abbrev Count := Int

/-- A finite sequence of bits, the leftmost character first (R10). -/
abbrev Bits := List Bool

/-- Whether a 21-bit value is a Unicode scalar value: 0..0xD7FF or 0xE000..0x10FFFF (R10). -/
def isScalar (s : Symbol) : Bool :=
  decide (s.toNat < 0xD800) || (decide (0xE000 ≤ s.toNat) && decide (s.toNat ≤ 0x10FFFF))

end Sys2Proof
end

