-- ==== Sys2Proof/Config.lean ====
section
/-! DEFINITION. What the spec leaves to the implementation (00_scope.md R7, the OPEN parameters of 92_eei_decisions.md),
and the free values. -/

namespace Sys2Proof

/-- The parameters of R7 and the switches of D9, D12 and D19. A capacity `none` is unbounded, which R7 allows; then
CapacityExceeded never comes from it. DESIGN CHOICE: they stand in State as a record no step writes, so that every
statement is about every configuration (log entry 1, safe). -/
structure Config where
  /-- SRC_CAP, bytes of SRC. -/
  srcCap : Option Nat
  /-- DST_CAP, bytes of DST. -/
  dstCap : Option Nat
  /-- SYMS_CAP, symbols of SYMS. -/
  symsCap : Option Nat
  /-- TBUF_CAP, bytes of TBUF. -/
  tbufCap : Option Nat
  /-- PAY_CAP, bytes of PAY. -/
  payCap : Option Nat
  /-- N_MAX, entries of FREQ, PTAB, LUT and leaves of TREE. -/
  nMax : Option Nat
  /-- TB_W, bits of TOTAL_BITS. -/
  tbW : Option Nat
  /-- The deepest recursion of SERIALIZE, DESERIALIZE and DERIVE that the implementation's stack holds (R256). -/
  stackMax : Option Nat
  /-- CNT_W, bits of a count. -/
  cntW : Nat
  /-- INTERNAL_BEFORE_NUL (D9): an Internal orders before every Leaf of equal count. -/
  internalBeforeNul : Bool
  /-- SHORT_SYMBOL_ERROR (D12): a leaf symbol cut short raises InvalidSymbolEncoding, not TruncatedTree. -/
  shortSymbolInvalid : Bool
  /-- STRICT_MARKER_OFFSET (D19): a blob whose byte 1 is not 0x1F raises TreeStartNotFound. -/
  strictMarkerOffset : Bool
  deriving DecidableEq, Repr

/-- The defaults of 92_eei_decisions.md: every capacity unbounded, CNT_W = 64, every switch false. -/
def Config.default : Config where
  srcCap := none
  dstCap := none
  symsCap := none
  tbufCap := none
  payCap := none
  nMax := none
  tbW := none
  stackMax := none
  cntW := 64
  internalBeforeNul := false
  shortSymbolInvalid := false
  strictMarkerOffset := false

/-- CNT_MAX = 2^(CNT_W-1) - 1 (R7). -/
def Config.cntMax (cfg : Config) : Count := 2 ^ (cfg.cntW - 1) - 1

/-- The least count that CNT_W bits of two's complement hold (R10). -/
def Config.cntMin (cfg : Config) : Count := -(2 ^ (cfg.cntW - 1))

/-- CODE_MAX = N_MAX - 1 (R7). -/
def Config.codeMax (cfg : Config) : Option Nat := cfg.nMax.map (· - 1)

/-- The largest TOTAL_BITS, 2^TB_W - 1 (R12). -/
def Config.bitsMax (cfg : Config) : Option Nat := cfg.tbW.map (2 ^ · - 1)

/-- Whether `n` is within a capacity (R7). -/
def withinCap (cap : Option Nat) (n : Nat) : Bool :=
  match cap with
  | none => true
  | some c => decide (n ≤ c)

/-- A configuration whose capacities are all unbounded (R7, "a model may take each capacity as unbounded"). -/
def Config.unbounded (cfg : Config) : Bool :=
  cfg.srcCap.isNone && cfg.dstCap.isNone && cfg.symsCap.isNone && cfg.tbufCap.isNone && cfg.payCap.isNone
    && cfg.nMax.isNone && cfg.tbW.isNone && cfg.stackMax.isNone

/-- The same machine with every capacity unbounded; CNT_W and the switches stay. -/
def Config.widened (cfg : Config) : Config :=
  { cfg with srcCap := none, dstCap := none, symsCap := none, tbufCap := none, payCap := none, nMax := none, tbW := none,
             stackMax := none }

/-- The configuration the rules are written for: unbounded, every switch at its default (R7). -/
def Config.plain (cfg : Config) : Prop :=
  cfg.unbounded = true ∧ cfg.internalBeforeNul = false ∧ cfg.shortSymbolInvalid = false
    ∧ cfg.strictMarkerOffset = false

/-- The byte that stands at an element no one has given a value (U19): a free value, nothing constrains it
(log entry 6). -/
opaque Config.freeByte : Nat → Byte

/-- The 21 bits behind `Config.freeSymbol` (log entry 6). -/
opaque Config.freeSymbolBits : Nat → Symbol

/-- The symbol that stands at an element of SYMS no one has given a value (U19): any scalar value, the type R24 gives
the list (log entry 6). -/
def Config.freeSymbol (n : Nat) : Symbol :=
  if isScalar (Config.freeSymbolBits n) then Config.freeSymbolBits n else 0

end Sys2Proof
end

