-- ==== Sys2Proof/Syntax.lean ====
section
/-! DEFINITION. What the block decodes: one constructor per row of spec/opcode_table.json. -/

namespace Sys2Proof

/-- Which decoder of the block reads next (30_encoding.md R90): the sequencer reads a command word, DESERIALIZE a node
token, PARSE one of the three delimited fields of its states 1 to 3 (R220). The payload's codes (format CODE) and the
symbols (format UTF8) are read by the commands themselves and have no row in the opcode table. -/
inductive Site where
  /-- The sequencer, at a command word (format CMD). -/
  | command
  /-- DESERIALIZE, at a node token (format TREE). -/
  | treeToken
  /-- PARSE in state 1, at the valid-bit byte at offset 0 (format BLOB). -/
  | blobHeader
  /-- PARSE in state 2, scanning for the tree-start marker (format BLOB). -/
  | blobStart
  /-- PARSE in state 3, scanning for the tree-end delimiter (format BLOB). -/
  | blobEnd
  deriving DecidableEq, Repr

/-- The rows of the opcode table. The command rows have no operand fields (R91); a token carries what follows or fills
its fixed bits. -/
inductive Instr where
  /-- ANALYZE, command 0x01 (R130). -/
  | analyze
  /-- BUILD, command 0x02 (R140). -/
  | build
  /-- DERIVE, command 0x03 (R160). -/
  | derive
  /-- SERIALIZE, command 0x04 (R170). -/
  | serialize
  /-- DESERIALIZE, command 0x05 (R180). -/
  | deserialize
  /-- ENCODE, command 0x06 (R190). -/
  | encode
  /-- DECODE, command 0x07 (R200). -/
  | decode
  /-- ASSEMBLE, command 0x08 (R215). -/
  | assemble
  /-- PARSE, command 0x09 (R219). -/
  | parse
  /-- EMIT, command 0x0A (R225). -/
  | emit
  /-- CLEAR, command 0x0F (R240). -/
  | clear
  /-- COMPRESS, command 0x10 (R230). -/
  | compress
  /-- DECOMPRESS, command 0x11 (R235). -/
  | decompress
  /-- ILLEGAL, any command code R91 does not list (R93). -/
  | illegal (code : Byte)
  /-- NODE_INTERNAL, marker 0x00 (R106, R181). -/
  | nodeInternal
  /-- NODE_LEAF, marker 0x01 and one symbol (R106, R182). -/
  | nodeLeaf (sym : Symbol)
  /-- NODE_ILLEGAL, any other marker (R106, R184). -/
  | nodeIllegal (marker : Byte)
  /-- TREE_START, the byte 0x1F (R111). -/
  | treeStart
  /-- TREE_END, the bytes 0x25 0x25 (R111). -/
  | treeEnd
  /-- VALID_BITS_HEADER, the byte at offset 0, 1 to 8 (R112). -/
  | validBitsHeader (validBits : Byte)
  deriving DecidableEq, Repr

/-- The decoder that reads an instruction: the "format" column of the opcode table, PARSE's three states apart. -/
def Instr.site : Instr → Site
  | .analyze | .build | .derive | .serialize | .deserialize | .encode | .decode | .assemble | .parse | .emit
  | .clear | .compress | .decompress | .illegal _ => .command
  | .nodeInternal | .nodeLeaf _ | .nodeIllegal _ => .treeToken
  | .treeStart => .blobStart
  | .treeEnd => .blobEnd
  | .validBitsHeader _ => .blobHeader

end Sys2Proof
end

