-- ==== Sys2Proof/WellFormed.lean ====
section
/-! DEFINITION. Which terms of `Instr` are rows of the opcode table. -/

namespace Sys2Proof

/-- The thirteen command codes of 30_encoding.md R91. -/
def commandCodes : List Byte :=
  [0x01, 0x02, 0x03, 0x04, 0x05, 0x06, 0x07, 0x08, 0x09, 0x0A, 0x0F, 0x10, 0x11]

/-- An instruction is well formed when its operands are in the ranges of its row: an illegal code is none of R91's
(R93), a leaf carries a scalar value (R10), an illegal marker is neither 0 nor 1 (R106), a header byte is 1 to 8
(R112). -/
def Instr.wf : Instr → Bool
  | .analyze | .build | .derive | .serialize | .deserialize | .encode | .decode | .assemble | .parse | .emit
  | .clear | .compress | .decompress | .nodeInternal | .treeStart | .treeEnd => true
  | .illegal code => !commandCodes.contains code
  | .nodeLeaf sym => isScalar sym
  | .nodeIllegal marker => decide (2 ≤ marker.toNat)
  | .validBitsHeader vb => decide (1 ≤ vb.toNat) && decide (vb.toNat ≤ 8)

end Sys2Proof
end

