-- ==== Sys2Proof/Decode.lean ====
section
/-! DEFINITION. The text encoding of a symbol (30_encoding.md R100 to R104), the decoders of the five formats' rows
(R91 to R93, R106, R111, R112), the encoder, and the reading of a word of spec/opcode_table.json. -/

namespace Sys2Proof

/-! ### The text encoding -/

/-- The four outcomes of Utf8Decode (R101). -/
inductive Utf8Result where
  | ok (sym : Symbol) (width : Nat)
  | ended
  | truncated
  | invalid
  deriving DecidableEq, Repr

/-- What a lead byte of two to four bytes promises (R101): how many bytes follow, the range of the first of them, and
the payload bits of the lead byte. -/
structure Utf8Lead where
  follow : Nat
  lo : Byte
  hi : Byte
  bits : Symbol
  deriving DecidableEq, Repr

/-- The lead-byte table of R101 for sequences of two to four bytes; `none` where R101 returns Invalid. -/
def utf8Lead (b0 : Byte) : Option Utf8Lead :=
  if 0xC2 ≤ b0.toNat ∧ b0.toNat ≤ 0xDF then some ⟨1, 0x80, 0xBF, (b0 &&& 0x1F).setWidth 21⟩
  else if b0.toNat = 0xE0 then some ⟨2, 0xA0, 0xBF, (b0 &&& 0x0F).setWidth 21⟩
  else if 0xE1 ≤ b0.toNat ∧ b0.toNat ≤ 0xEC then some ⟨2, 0x80, 0xBF, (b0 &&& 0x0F).setWidth 21⟩
  else if b0.toNat = 0xED then some ⟨2, 0x80, 0x9F, (b0 &&& 0x0F).setWidth 21⟩
  else if 0xEE ≤ b0.toNat ∧ b0.toNat ≤ 0xEF then some ⟨2, 0x80, 0xBF, (b0 &&& 0x0F).setWidth 21⟩
  else if b0.toNat = 0xF0 then some ⟨3, 0x90, 0xBF, (b0 &&& 0x07).setWidth 21⟩
  else if 0xF1 ≤ b0.toNat ∧ b0.toNat ≤ 0xF3 then some ⟨3, 0x80, 0xBF, (b0 &&& 0x07).setWidth 21⟩
  else if b0.toNat = 0xF4 then some ⟨3, 0x80, 0x8F, (b0 &&& 0x07).setWidth 21⟩
  else none

/-- One turn of R101's loop: six more payload bits. -/
def utf8Push (v : Symbol) (c : Byte) : Symbol := (v <<< 6) ||| (c &&& 0x3F).setWidth 21

/-- R101's loop over the bytes after the lead byte, left to right, the first defect deciding; only the first of them
has a narrowed range. -/
def utf8Tail : Nat → Byte → Byte → Symbol → Nat → List Byte → Utf8Result
  | 0, _, _, v, width, _ => .ok v width
  | _ + 1, _, _, _, _, [] => .truncated
  | k + 1, lo, hi, v, width, c :: rest =>
    if lo.toNat ≤ c.toNat ∧ c.toNat ≤ hi.toNat then utf8Tail k 0x80 0xBF (utf8Push v c) width rest else .invalid

/-- Utf8Decode (R101) of the bytes from the cursor to the end of the buffer. -/
def utf8Decode : List Byte → Utf8Result
  | [] => .ended
  | b0 :: rest =>
    if b0.toNat ≤ 0x7F then .ok (b0.setWidth 21) 1
    else match utf8Lead b0 with
      | none => .invalid
      | some l => utf8Tail l.follow l.lo l.hi l.bits (l.follow + 1) rest

/-- Utf8Width (R102). -/
def utf8Width (s : Symbol) : Nat :=
  if s.toNat ≤ 0x7F then 1 else if s.toNat ≤ 0x7FF then 2 else if s.toNat ≤ 0xFFFF then 3 else 4

/-- The bits `[lo+len-1 : lo]` of a symbol under the fixed high bits `mark` of one byte (R103). -/
def utf8Byte (mark : Byte) (lo len : Nat) (s : Symbol) : Byte := mark ||| (s.extractLsb' lo len).setWidth 8

/-- Utf8Encode (R103). -/
def utf8Encode (s : Symbol) : List Byte :=
  if s.toNat ≤ 0x7F then [s.setWidth 8]
  else if s.toNat ≤ 0x7FF then [utf8Byte 0xC0 6 5 s, utf8Byte 0x80 0 6 s]
  else if s.toNat ≤ 0xFFFF then [utf8Byte 0xE0 12 4 s, utf8Byte 0x80 6 6 s, utf8Byte 0x80 0 6 s]
  else [utf8Byte 0xF0 18 3 s, utf8Byte 0x80 12 6 s, utf8Byte 0x80 6 6 s, utf8Byte 0x80 0 6 s]

/-! ### The decoders -/

/-- TREE_START (R111). -/
def treeStartByte : Byte := 0x1F

/-- Each of the two bytes of TREE_END (R111). -/
def treeEndByte : Byte := 0x25

/-- The command decoder (R91 to R93): all eight bits are compared, and every other code is illegal. -/
def decodeCommand (code : Byte) : Instr :=
  if code = 0x01 then .analyze
  else if code = 0x02 then .build
  else if code = 0x03 then .derive
  else if code = 0x04 then .serialize
  else if code = 0x05 then .deserialize
  else if code = 0x06 then .encode
  else if code = 0x07 then .decode
  else if code = 0x08 then .assemble
  else if code = 0x09 then .parse
  else if code = 0x0A then .emit
  else if code = 0x0F then .clear
  else if code = 0x10 then .compress
  else if code = 0x11 then .decompress
  else .illegal code

/-- Why a decoder finds no instruction (R118). -/
inductive DecodeError where
  /-- No byte is left. -/
  | ended
  /-- A leaf's symbol ends with the buffer (R101, Truncated). -/
  | shortSymbol
  /-- A leaf's symbol holds an unacceptable byte (R101, Invalid). -/
  | badSymbol
  /-- The header byte is not 1 to 8 (R112). -/
  | badHeader
  /-- The byte is not the tree-start marker. -/
  | notTreeStart
  /-- The two bytes are not the tree-end delimiter. -/
  | notTreeEnd
  deriving DecidableEq, Repr

/-- The node-token decoder (R106, R181, R182). -/
def decodeTreeToken : List Byte → Except DecodeError (Instr × List Byte)
  | [] => .error .ended
  | m :: rest =>
    if m = 0x00 then .ok (.nodeInternal, rest)
    else if m = 0x01 then
      match utf8Decode rest with
      | .ok s w => .ok (.nodeLeaf s, rest.drop w)
      | .ended => .error .ended
      | .truncated => .error .shortSymbol
      | .invalid => .error .badSymbol
    else .ok (.nodeIllegal m, rest)

/-- The decoder of the valid-bit byte (R112). -/
def decodeHeader : List Byte → Except DecodeError (Instr × List Byte)
  | [] => .error .ended
  | b :: rest => if 1 ≤ b.toNat ∧ b.toNat ≤ 8 then .ok (.validBitsHeader b, rest) else .error .badHeader

/-- The decoder of the tree-start marker at one place of the blob (R111). -/
def decodeTreeStart : List Byte → Except DecodeError (Instr × List Byte)
  | [] => .error .ended
  | b :: rest => if b = treeStartByte then .ok (.treeStart, rest) else .error .notTreeStart

/-- The decoder of the tree-end delimiter at one place of the blob (R111). -/
def decodeTreeEnd : List Byte → Except DecodeError (Instr × List Byte)
  | [] => .error .ended
  | [_] => .error .ended
  | b :: c :: rest => if b = treeEndByte ∧ c = treeEndByte then .ok (.treeEnd, rest) else .error .notTreeEnd

/-- Decoding, total on any bytes: the instruction the decoder at `site` reads, and the bytes after it. -/
def decode (site : Site) (bytes : List Byte) : Except DecodeError (Instr × List Byte) :=
  match site with
  | .command =>
    match bytes with
    | [] => .error .ended
    | c :: rest => .ok (decodeCommand c, rest)
  | .treeToken => decodeTreeToken bytes
  | .blobHeader => decodeHeader bytes
  | .blobStart => decodeTreeStart bytes
  | .blobEnd => decodeTreeEnd bytes

/-! ### The encoder -/

/-- The bytes of an instruction, from the tables of R91, R106, R111 and R112. -/
def encode : Instr → List Byte
  | .analyze => [0x01]
  | .build => [0x02]
  | .derive => [0x03]
  | .serialize => [0x04]
  | .deserialize => [0x05]
  | .encode => [0x06]
  | .decode => [0x07]
  | .assemble => [0x08]
  | .parse => [0x09]
  | .emit => [0x0A]
  | .clear => [0x0F]
  | .compress => [0x10]
  | .decompress => [0x11]
  | .illegal code => [code]
  | .nodeInternal => [0x00]
  | .nodeLeaf s => 0x01 :: utf8Encode s
  | .nodeIllegal m => [m]
  | .treeStart => [treeStartByte]
  | .treeEnd => [treeEndByte, treeEndByte]
  | .validBitsHeader b => [b]

/-! ### Words of the opcode table -/

/-- The bytes of a word of the opcode table: the first byte is bits 7..0, the second bits 15..8, and every bit above
`nbits` is 0 up to the longest instruction (NODE_LEAF, five bytes). -/
def tableBytes (nbits w : Nat) : List Byte :=
  let low := w % 2 ^ nbits
  [BitVec.ofNat 8 low, BitVec.ofNat 8 (low / 2 ^ 8), BitVec.ofNat 8 (low / 2 ^ 16), BitVec.ofNat 8 (low / 2 ^ 24),
    BitVec.ofNat 8 (low / 2 ^ 32)]

/-- Which decoder a word of the opcode table is put before. The rows of three formats share values (0x01 is ANALYZE and
NODE_LEAF, 0x00 NODE_INTERNAL and an illegal code, 0x1F TREE_START and an illegal code); a word alone does not tell the
format. DESIGN CHOICE (log entry 5): a legal command code is a command; otherwise the TREE or BLOB row with that fixed
value; otherwise a command. A host that writes 0x00 or 0x1F to CMD gets IllegalCommand as R93 says: this function has
no part in that. -/
def tableSite (nbits w : Nat) : Site :=
  let low := w % 2 ^ nbits
  if nbits = 16 ∧ low = 0x2525 then .blobEnd
  else if nbits = 8 ∧ low = 0x00 then .treeToken
  else if nbits = 8 ∧ low = 0x1F then .blobStart
  else .command

/-- What the decoder reads from a word of spec/opcode_table.json. -/
def decodeTableWord (nbits w : Nat) : Option Instr :=
  match decode (tableSite nbits w) (tableBytes nbits w) with
  | .ok (i, _) => some i
  | .error _ => none

end Sys2Proof
end

