-- ==== Sys2Proof/Machine/State.lean ====
section
/-! DEFINITION. The state of the block as 10_state.md gives it, the host's actions, the reasons a step can stop, and
the state after reset (R41). -/

namespace Sys2Proof.Machine

/-- STATUS (10_state.md R34): IDLE 0, BUSY 1, OK 2, ERR 3. -/
inductive Status where
  | idle
  | busy
  | ok
  | err
  deriving DecidableEq, Repr

/-- PHASE (10_state.md R31): P_IDLE, the five phases of COMPRESS, the five of DECOMPRESS. -/
inductive Phase where
  | pIdle
  | cAnalyze
  | cBuild
  | cSerialize
  | cEncode
  | cAssemble
  | dParse
  | dDeserialize
  | dDerive
  | dDecode
  | dEmit
  deriving DecidableEq, Repr

/-- The sixteen error kinds (60_exceptions.md R251) and the two refusals the spec adds (R256, R257); each is an
ordinary result of a command, a next state with STATUS = ERR. -/
inductive ErrKind where
  | invalidEncoding
  | emptyFrequencyMap
  | nonPositiveFrequency
  | insufficientSymbols
  | inputTooShort
  | invalidBitLength
  | treeStartNotFound
  | treeEndNotFound
  | emptyTreeBytes
  | encodedDataNotFound
  | truncatedTree
  | malformedTreeMarker
  | invalidSymbolEncoding
  | undecodableBitstream
  | unknownSymbol
  | nullNode
  | capacityExceeded
  | illegalCommand
  deriving DecidableEq, Repr

/-- A node of the tree (00_scope.md R10). -/
inductive Node where
  | leaf (sym : Symbol) (cnt : Count)
  | internal (cnt : Count) (left right : Node)
  deriving DecidableEq, Repr

/-- One pending Internal of DESERIALIZE's internal stack (20_memory.md R60): its Left subtree is being read, or its Left
subtree is known and its Right is being read (R181). -/
inductive Frame where
  | left
  | right (l : Node)
  deriving DecidableEq, Repr

/-- An entry of the builder's priority queue (41_tree_builder.md R142). `symkey` is an integer so that the other reading
of R146 (an Internal before every Leaf) has a value below 0. -/
structure PQEntry where
  cnt : Count
  symkey : Int
  seq : Nat
  node : Node
  deriving DecidableEq, Repr

/-- A buffer: an address space of its own with a length register (20_memory.md R60). `cells` lists the elements that
have a value, indices strictly rising; an unlisted index has no value. Only elements below `len` have a meaning (R61). -/
structure Buffer (α : Type) where
  cells : List (Nat × α)
  len : Nat
  deriving DecidableEq, Repr

/-- A buffer of length 0 of whose elements nothing is known (R41, U19). -/
def Buffer.empty {α : Type} : Buffer α := ⟨[], 0⟩

/-- The byte buffers the host may write (R40). -/
inductive HostBuf where
  | src
  | tbuf
  | pay
  deriving DecidableEq, Repr

/-- The byte buffers the host may read (R40). -/
inductive ReadBuf where
  | src
  | dst
  | tbuf
  | pay
  deriving DecidableEq, Repr

/-- What the host may read (R40): an element, a length register, a table, the tree, a register. -/
inductive HostRead where
  | byte (b : ReadBuf) (i : Nat)
  | len (b : ReadBuf)
  | sym (i : Nat)
  | symsLen
  | freq
  | tree
  | ptab
  | lut
  | validBits
  | cmd
  | status
  | err
  deriving DecidableEq, Repr

/-- What a host read gives. -/
inductive HostValue where
  | byte (v : Byte)
  | number (n : Nat)
  | sym (s : Symbol)
  | freq (m : List (Symbol × Count))
  | tree (t : Option Node)
  | ptab (m : List (Symbol × Bits))
  | lut (m : List (Bits × Symbol))
  | validBits (v : BitVec 4)
  | status (v : BitVec 2)
  deriving DecidableEq, Repr

/-- What the host does (10_state.md R20 b, R40; 30_encoding.md R94; 70_reset_and_hazards.md R283). -/
inductive HostAction where
  /-- Wait until STATUS is not BUSY (the second half of R94's `cmd`). -/
  | wait
  /-- Write a code to CMD (R27, R34). -/
  | writeCmd (code : Byte)
  /-- R94's `load`: write the bytes from index 0 and set the length to their number. -/
  | load (b : HostBuf) (bytes : List Byte)
  /-- Write one byte of a buffer (R40). -/
  | writeByte (b : HostBuf) (i : Nat) (v : Byte)
  /-- Write a length register (R40). -/
  | setLen (b : HostBuf) (n : Nat)
  /-- R94's `set SYMS`. -/
  | setSyms (l : List Symbol)
  /-- Write one symbol of SYMS (R40). -/
  | writeSym (i : Nat) (s : Symbol)
  /-- Write SYMS_LEN (R40). -/
  | setSymsLen (n : Nat)
  /-- R94's `set FREQ`. -/
  | setFreq (m : List (Symbol × Count))
  /-- R94's `set TREE`. -/
  | setTree (t : Option Node)
  /-- R94's `set PTAB`. -/
  | setPtab (m : List (Symbol × Bits))
  /-- R94's `set LUT`. -/
  | setLut (m : List (Bits × Symbol))
  /-- R94's `set VALID_BITS`. -/
  | setValidBits (v : BitVec 4)
  /-- A read, which leaves the state as it is (R62). -/
  | read (r : HostRead)
  /-- Assert the reset input (R280). -/
  | reset
  deriving DecidableEq, Repr

/-- The state of the block (10_state.md R21), the transients of its walks, and the model's own fields `cfg`, `host` and
`freeNext`. -/
structure State where
  /-- SRC, SRC_LEN (R22). -/
  src : Buffer Byte
  /-- DST, DST_LEN (R23). -/
  dst : Buffer Byte
  /-- SYMS, SYMS_LEN (R24). -/
  syms : Buffer Symbol
  /-- FREQ (R25), keys ascending. -/
  freq : List (Symbol × Count)
  /-- TREE (R28). -/
  tree : Option Node
  /-- PTAB (R29), keys ascending. -/
  ptab : List (Symbol × Bits)
  /-- LUT (R29), keys in the order of `bitsKey`. -/
  lut : List (Bits × Symbol)
  /-- TBUF, TBUF_LEN (R32). -/
  tbuf : Buffer Byte
  /-- PAY, PAY_LEN (R33). -/
  pay : Buffer Byte
  /-- VALID_BITS (R33). -/
  validBits : BitVec 4
  /-- CMD (R34). -/
  cmd : Byte
  /-- STATUS (R34). -/
  status : Status
  /-- ERR (R34). -/
  err : Byte
  /-- PHASE (R31). -/
  phase : Phase
  /-- Which decoder reads next (R90); `command` whenever no walk of DESERIALIZE or PARSE is under way (log entry 3). -/
  site : Site
  /-- PQ (R37), least key first. -/
  pq : List PQEntry
  /-- SEQ (R37). -/
  seq : Nat
  /-- CURSOR (R37). -/
  cursor : Nat
  /-- The internal stack of DESERIALIZE, innermost first (R60). -/
  stack : List Frame
  /-- The leaves DESERIALIZE has made (R180, N_MAX). -/
  leaves : Nat
  /-- PARSE's `vb` (R220). -/
  header : Byte
  /-- PARSE's `s+1`, where the tree bytes begin (R220). -/
  treeAt : Nat
  /-- ACC (R36). -/
  acc : Byte
  /-- NBITS (R36). -/
  nbits : BitVec 4
  /-- TOTAL_BITS (R36). -/
  totalBits : Nat
  /-- CAND (R38). -/
  cand : Bits
  /-- BITPOS (R38). -/
  bitpos : Nat
  /-- USABLE (R38). -/
  usable : Nat
  /-- The machine's parameters (R7, R42), which no step writes. -/
  cfg : Config
  /-- The host's pending actions, oldest first (R20 b, log entry 2). -/
  host : List HostAction
  /-- The number of the next free value (log entry 6). -/
  freeNext : Nat
  deriving DecidableEq, Repr

/-- The only fault. -/
inductive Fault where
  /-- Raised by a host read of an element at or beyond the buffer's length, which the spec says is not addressable
  (20_memory.md R61). No instruction raises it. Safe: the model stops where a bus would give some value. -/
  | notAddressable (i : Nat)
  deriving DecidableEq, Repr

/-- Why a step is refused. -/
inductive Refusal where
  /-- Raised by a rejected arm of `exec`; no arm is rejected. Safe. -/
  | notModelled (mnemonic : String)
  /-- Raised by a host access, other than of CMD and STATUS, while STATUS is BUSY (10_state.md R40, U21: "a model gives
  such an access no meaning"). Safe: the model stops. -/
  | hostAccessWhileBusy
  /-- Raised by a host write that breaks a structure's type (10_state.md R40, U22: "a model refuses it"). Safe: the model
  stops. -/
  | hostWriteBreaksType
  deriving DecidableEq, Repr

/-- The state after reset (10_state.md R41). The transients, which R41 leaves unspecified, are at the values of log
entry 7; `cfg`, `host` and `freeNext` are the model's own (log entries 1, 2 and 6). -/
def State.reset : State where
  src := Buffer.empty
  dst := Buffer.empty
  syms := Buffer.empty
  freq := []
  tree := none
  ptab := []
  lut := []
  tbuf := Buffer.empty
  pay := Buffer.empty
  validBits := 8
  cmd := 0x00
  status := .idle
  err := 0
  phase := .pIdle
  site := .command
  pq := []
  seq := 0
  cursor := 0
  stack := []
  leaves := 0
  header := 0
  treeAt := 0
  acc := 0
  nbits := 0
  totalBits := 0
  cand := []
  bitpos := 0
  usable := 0
  cfg := Config.default
  host := []
  freeNext := 0

end Sys2Proof.Machine
end

