-- ==== Sys2Proof/Machine/Flags.lean ====
section
/-! DEFINITION. STATUS and ERR: the block has no other flag or condition code (10_state.md R39). -/

namespace Sys2Proof.Machine

/-- The two bits of STATUS (R34). -/
def Status.code : Status → BitVec 2
  | .idle => 0
  | .busy => 1
  | .ok => 2
  | .err => 3

/-- The code of an error kind or refusal (60_exceptions.md R251, R256, R257). -/
def ErrKind.code : ErrKind → Byte
  | .invalidEncoding => 0x01
  | .emptyFrequencyMap => 0x02
  | .nonPositiveFrequency => 0x03
  | .insufficientSymbols => 0x04
  | .inputTooShort => 0x05
  | .invalidBitLength => 0x06
  | .treeStartNotFound => 0x07
  | .treeEndNotFound => 0x08
  | .emptyTreeBytes => 0x09
  | .encodedDataNotFound => 0x0A
  | .truncatedTree => 0x0B
  | .malformedTreeMarker => 0x0C
  | .invalidSymbolEncoding => 0x0D
  | .undecodableBitstream => 0x0E
  | .unknownSymbol => 0x0F
  | .nullNode => 0x10
  | .capacityExceeded => 0x80
  | .illegalCommand => 0x81

/-- The classes of R251 and R253, and the spec's own refusals. -/
inductive ErrClass where
  | inputValidation
  | formatParsing
  | decodeIntegrity
  | internalInvariant
  | refusal
  deriving DecidableEq, Repr

/-- The class column of R251; the class changes nothing in the block's behaviour (R253). -/
def ErrKind.errClass : ErrKind → ErrClass
  | .invalidEncoding | .emptyFrequencyMap | .nonPositiveFrequency | .insufficientSymbols => .inputValidation
  | .inputTooShort | .invalidBitLength | .treeStartNotFound | .treeEndNotFound | .emptyTreeBytes
  | .encodedDataNotFound | .truncatedTree | .malformedTreeMarker | .invalidSymbolEncoding => .formatParsing
  | .undecodableBitstream | .unknownSymbol => .decodeIntegrity
  | .nullNode => .internalInvariant
  | .capacityExceeded | .illegalCommand => .refusal

/-- A command's end in success: STATUS <- OK, ERR <- 0 (10_state.md R27). -/
def State.succeed (s : State) : State := { s with status := .ok, err := 0 }

/-- A command's end on `raise K`: STATUS <- ERR, ERR <- code(K) (R27, R260 step 4). -/
def State.report (k : ErrKind) (s : State) : State := { s with status := .err, err := k.code }

end Sys2Proof.Machine
end

