-- ==== Sys2Proof/Machine/Ops.lean ====
section
/-! DEFINITION. The named operations: finite maps, buffers, the capacity checks of 60_exceptions.md R256, ClearWork
(10_state.md R26), and taking an error (60_exceptions.md R260), the one exception the spec describes. There is no return
from it (R261). -/

namespace Sys2Proof.Machine

/-! ### Finite maps

A map (00_scope.md R10) is a list of (key, value) pairs whose keys, numbered by an injective `key`, strictly rise: equal
maps are equal lists, and the order in which entries were written cannot be seen (R25). -/

section
variable {κ ν : Type}

/-- The number of a symbol as a key: its value. -/
def symKey (s : Symbol) : Nat := s.toNat

/-- The number of a bitstring as a key: the bits after a leading 1, so that different bitstrings differ. -/
def bitsKey (c : Bits) : Nat := c.foldl (fun n b => 2 * n + b.toNat) 1

/-- `m[k]`, or `none` when `k` is not a key. -/
def Table.lookup (key : κ → Nat) (k : κ) : List (κ × ν) → Option ν
  | [] => none
  | (k', v) :: rest => if key k = key k' then some v else Table.lookup key k rest

/-- `m[k] <- v`: insert, or replace the earlier entry. -/
def Table.insert (key : κ → Nat) (k : κ) (v : ν) : List (κ × ν) → List (κ × ν)
  | [] => [(k, v)]
  | (k', v') :: rest =>
    if key k < key k' then (k, v) :: (k', v') :: rest
    else if key k = key k' then (k, v) :: rest
    else (k', v') :: Table.insert key k v rest

/-- The map with the given entries, later ones replacing earlier ones. -/
def Table.ofEntries (key : κ → Nat) (entries : List (κ × ν)) : List (κ × ν) :=
  entries.foldl (fun m e => Table.insert key e.1 e.2 m) []

/-- Whether no key stands twice (R40, "unique map keys"). -/
def Table.uniqueKeys (key : κ → Nat) : List (κ × ν) → Bool
  | [] => true
  | (k, _) :: rest => rest.all (fun e => decide (key k ≠ key e.1)) && Table.uniqueKeys key rest

/-- The canonical form: keys strictly rising. -/
def Table.wf (key : κ → Nat) : List (κ × ν) → Bool
  | [] => true
  | (k, _) :: rest => rest.all (fun e => decide (key k < key e.1)) && Table.wf key rest

/-- `m[k] <- v` in a table of at most `cap` entries (R256, "a table beyond N_MAX entries"). -/
def Table.put (key : κ → Nat) (cap : Option Nat) (k : κ) (v : ν) (m : List (κ × ν)) :
    Except ErrKind (List (κ × ν)) :=
  if (Table.lookup key k m).isSome || withinCap cap (m.length + 1) then .ok (Table.insert key k v m)
  else .error .capacityExceeded

end

/-! ### Buffers -/

section
variable {α : Type}

/-- The canonical form of a buffer's cells: indices strictly rising. -/
abbrev Memory.wf (cells : List (Nat × α)) : Prop := Table.wf id cells = true

/-- A buffer in canonical form: every index below the length is listed, and every listed index is below the capacity. -/
def Buffer.wf (cap : Option Nat) (b : Buffer α) : Bool :=
  Table.wf id b.cells && decide ((b.cells.take b.len).map Prod.fst = List.range b.len)
    && withinCap cap b.len && b.cells.all (fun e => withinCap cap (e.1 + 1))

/-- The elements below the length, in index order: all that has a meaning (20_memory.md R61). -/
def Buffer.elems (b : Buffer α) : List α := (b.cells.take b.len).map Prod.snd

/-- `BufRead(B, i)` (00_scope.md R11): `none` at or beyond the length, where no read happens (R61). -/
def Buffer.read (b : Buffer α) (i : Nat) : Option α := if i < b.len then Table.lookup id i b.cells else none

/-- The buffer that holds exactly the given elements. -/
def Buffer.ofList (l : List α) : Buffer α := ⟨(List.range l.length).zip l, l.length⟩

/-- `BufAppend(B, v)` (R11): `B[B_LEN] <- v; B_LEN <- B_LEN + 1`, or CapacityExceeded when `B_LEN = B_CAP`. -/
def Buffer.append (cap : Option Nat) (b : Buffer α) (v : α) : Except ErrKind (Buffer α) :=
  if withinCap cap (b.len + 1) then .ok ⟨Table.insert id b.len v b.cells, b.len + 1⟩ else .error .capacityExceeded

/-- A run of appends, in order. -/
def Buffer.appendAll (cap : Option Nat) : Buffer α → List α → Except ErrKind (Buffer α)
  | b, [] => .ok b
  | b, v :: vs =>
    match Buffer.append cap b v with
    | .ok b' => Buffer.appendAll cap b' vs
    | .error k => .error k

/-- A host write of one element (R40): the length stays. -/
def Buffer.writeAt (b : Buffer α) (i : Nat) (v : α) : Buffer α := ⟨Table.insert id i v b.cells, b.len⟩

/-- The cells with a value at every index of `is`: those that had none get the free value of that index (U19). -/
def Buffer.fill (fresh : Nat → α) (cells : List (Nat × α)) (is : List Nat) : List (Nat × α) :=
  is.foldl (fun m i => if (Table.lookup id i m).isSome then m else Table.insert id i (fresh i) m) cells

/-- A host write of the length register (R40). Lowering it forgets the elements at or beyond it; raising it exposes
elements, of which those no one has written are free values (U19, log entry 6). -/
def Buffer.setLen (fresh : Nat → α) (b : Buffer α) (n : Nat) : Buffer α :=
  if n < b.len then ⟨b.cells.filter (fun e => decide (e.1 < n)), n⟩ else ⟨Buffer.fill fresh b.cells (List.range n), n⟩

end

/-! ### Capacities (60_exceptions.md R256) -/

/-- A count that a command makes, checked against CNT_MAX. -/
def checkCount (cfg : Config) (c : Count) : Except ErrKind Count :=
  if c ≤ cfg.cntMax then .ok c else .error .capacityExceeded

/-- A number a command reaches, checked against a capacity. -/
def checkCap (cap : Option Nat) (n : Nat) : Except ErrKind Nat :=
  if withinCap cap n then .ok n else .error .capacityExceeded

/-! ### The working set (10_state.md R26) -/

/-- ClearWork(). -/
def clearWork (s : State) : State :=
  { s with syms := Buffer.empty, freq := [], tree := none, ptab := [], lut := [], tbuf := Buffer.empty,
           pay := Buffer.empty, validBits := 8 }

/-! ### Taking an error (60_exceptions.md R260) -/

/-- Step 2 of R260: each structure the command writes is set to its empty value. A composite command leaves its sequence
(10_state.md R31). A token's structures are those of the unit that reads it. -/
def emptyOutputs (i : Instr) (s : State) : State :=
  match i with
  | .analyze => { s with syms := Buffer.empty, freq := [] }
  | .build => { s with tree := none, ptab := [], lut := [] }
  | .derive => { s with ptab := [], lut := [] }
  | .serialize => { s with tbuf := Buffer.empty }
  | .deserialize | .nodeInternal | .nodeLeaf _ | .nodeIllegal _ => { s with tree := none }
  | .encode => { s with pay := Buffer.empty, validBits := 8 }
  | .decode => { s with syms := Buffer.empty }
  | .assemble | .emit => { s with dst := Buffer.empty }
  | .parse | .treeStart | .treeEnd | .validBitsHeader _ =>
    { s with tbuf := Buffer.empty, pay := Buffer.empty, validBits := 8 }
  | .compress | .decompress => { clearWork s with dst := Buffer.empty, phase := .pIdle, site := .command }
  | .clear => { clearWork s with dst := Buffer.empty }
  | .illegal _ => s

/-- Error entry: `raise K` in the command `i` issued in state `s`. Nothing is saved and control goes nowhere: the block
waits for the next command. The transients stay as they were (log entry 7). -/
def errorEntry (i : Instr) (k : ErrKind) (s : State) : State := (emptyOutputs i s).report k

/-- The end of a command `i` issued in state `s`, whose operation gave `r` (10_state.md R27). -/
def finish (i : Instr) (s : State) (r : Except ErrKind State) : State :=
  match r with
  | .ok t => t.succeed
  | .error k => errorEntry i k s

/-- The command under way, told by PHASE inside a composite command (R31) and by the decoder in use otherwise. -/
def runningCommand (s : State) : Instr :=
  match s.phase with
  | .cAnalyze | .cBuild | .cSerialize | .cEncode | .cAssemble => .compress
  | .dParse | .dDeserialize | .dDerive | .dDecode | .dEmit => .decompress
  | .pIdle =>
    match s.site with
    | .command => decodeCommand s.cmd
    | .treeToken => .deserialize
    | .blobHeader | .blobStart | .blobEnd => .parse

/-- `raise K` met at a token or at a phase: error entry of the command under way, which ends the walk and the sequence. -/
def raiseRunning (k : ErrKind) (s : State) : State :=
  { errorEntry (runningCommand s) k s with site := .command, phase := .pIdle }

/-- The phase after a phase (10_state.md R31); the last of each sequence leads back to P_IDLE. -/
def Phase.next : Phase → Phase
  | .pIdle => .pIdle
  | .cAnalyze => .cBuild
  | .cBuild => .cSerialize
  | .cSerialize => .cEncode
  | .cEncode => .cAssemble
  | .cAssemble => .pIdle
  | .dParse => .dDeserialize
  | .dDeserialize => .dDerive
  | .dDerive => .dDecode
  | .dDecode => .dEmit
  | .dEmit => .pIdle

/-- The start of DESERIALIZE's walk over node tokens: `TREE <- none; CURSOR <- 0` and an empty stack (R180). -/
def enterTreeWalk (s : State) : State :=
  { s with tree := none, cursor := 0, stack := [], leaves := 0, site := .treeToken }

/-- The start of PARSE's walk over the blob: `TBUF_LEN <- 0; PAY_LEN <- 0; VALID_BITS <- 8` (R220). -/
def enterBlobWalk (s : State) : State :=
  { s with tbuf := Buffer.empty, pay := Buffer.empty, validBits := 8, cursor := 0, site := .blobHeader }

/-- The end of a unit walked token by token: the command's success, or the next phase of DECOMPRESS, whose tree is
walked token by token too. -/
def endWalk (s : State) : State :=
  match s.phase with
  | .pIdle => { s with site := .command }.succeed
  | .dParse => enterTreeWalk { s with phase := .dDeserialize }
  | p => { s with site := .command, phase := p.next }

end Sys2Proof.Machine
end

