-- ==== Sys2Proof/Machine/Operands.lean ====
section
/-! DEFINITION. The operand forms of the block (20_memory.md R69): the bits of the payload, the scans of PARSE, the
fetch of a command word or of a token, and the placing of a word where the next fetch finds it. -/

namespace Sys2Proof.Machine

/-! ### The payload's bits (20_memory.md R64, 30_encoding.md R116) -/

/-- The bits of a byte, most significant first. -/
def byteBits (b : Byte) : Bits := [b[7], b[6], b[5], b[4], b[3], b[2], b[1], b[0]]

/-- The bits of a payload in the order of R64: bit `k` is bit `7 - k mod 8` of byte `k div 8`. -/
def payloadBits (bytes : List Byte) : Bits := bytes.flatMap byteBits

/-- USABLE = (PAY_LEN - 1) * 8 + VALID_BITS (R116), for a payload of at least one byte. -/
def usableBits (payLen : Nat) (validBits : BitVec 4) : Nat := (payLen - 1) * 8 + validBits.toNat

/-- VALID_BITS for a number of code bits (R116, R194). -/
def validBitsOf (totalBits : Nat) : BitVec 4 := if totalBits % 8 = 0 then 8 else BitVec.ofNat 4 (totalBits % 8)

/-- Whether a valid-bit count is 1 to 8 (R112, R201, R216). -/
def validBitsOk (v : Nat) : Bool := decide (1 ≤ v) && decide (v ≤ 8)

/-! ### The scans of PARSE (47_container_and_sequencer.md R220) -/

/-- The offset of the first 0x1F. -/
def scanTreeStart : List Byte → Option Nat
  | [] => none
  | b :: rest => if b = treeStartByte then some 0 else (scanTreeStart rest).map (· + 1)

/-- The offset of the first 0x25 0x25. -/
def scanTreeEnd : List Byte → Option Nat
  | [] => none
  | b :: rest =>
    if b = treeEndByte ∧ rest.head? = some treeEndByte then some 0 else (scanTreeEnd rest).map (· + 1)

/-! ### Fetching -/

/-- The instruction at the cursor, or the error its absence raises (R181, R182, R220, R118). With SHORT_SYMBOL_ERROR a
leaf symbol cut short raises InvalidSymbolEncoding (D12). -/
def tokenAt (cfg : Config) (site : Site) (bytes : List Byte) : Except ErrKind Instr :=
  match decode site bytes with
  | .ok (i, _) => .ok i
  | .error e =>
    match site, e with
    | .treeToken, .shortSymbol => .error (if cfg.shortSymbolInvalid then .invalidSymbolEncoding else .truncatedTree)
    | .treeToken, .badSymbol => .error .invalidSymbolEncoding
    | .treeToken, _ => .error .truncatedTree
    | .blobHeader, .badHeader => .error .invalidBitLength
    | .blobHeader, _ => .error .inputTooShort
    | .blobStart, _ => .error .treeStartNotFound
    | .blobEnd, _ => .error .treeEndNotFound
    | .command, _ => .error .illegalCommand

/-- The state with CURSOR moved to the token the current scan of PARSE looks for, the other sites needing no scan
(R220, R221). With STRICT_MARKER_OFFSET the marker must stand at offset 1 (D19). -/
def seek (s : State) : Except ErrKind State :=
  match s.site with
  | .command | .treeToken => .ok s
  | .blobHeader => if s.src.len < 2 then .error .inputTooShort else .ok s
  | .blobStart =>
    match scanTreeStart (s.src.elems.drop s.cursor) with
    | none => .error .treeStartNotFound
    | some k =>
      if s.cfg.strictMarkerOffset && decide (s.cursor + k ≠ 1) then .error .treeStartNotFound
      else .ok { s with cursor := s.cursor + k }
  | .blobEnd =>
    match scanTreeEnd (s.src.elems.drop s.cursor) with
    | none => .error .treeEndNotFound
    | some k => .ok { s with cursor := s.cursor + k }

/-- The bytes the decoder in use reads from: CMD, or SRC or TBUF from CURSOR on. -/
def fetchBytes (s : State) : List Byte :=
  match s.site with
  | .command => [s.cmd]
  | .treeToken => s.tbuf.elems.drop s.cursor
  | .blobHeader | .blobStart | .blobEnd => s.src.elems.drop s.cursor

/-- The next instruction of a busy block and the state it runs in, or the error that no instruction being there raises. -/
def fetch (s : State) : Except ErrKind (Instr × State) :=
  match seek s with
  | .error k => .error k
  | .ok t =>
    match tokenAt t.cfg t.site (fetchBytes t) with
    | .error k => .error k
    | .ok i => .ok (i, t)

/-! ### Placing a word -/

/-- The block made busy with nothing under way, the host waiting: what every placing needs. -/
def readyToFetch (s : State) : State := { s with status := .busy, err := 0, phase := .pIdle, host := [] }

/-- `s` with a word of the opcode table stored where the next step fetches (log entry 9): a command in CMD, a node token
in TBUF at CURSOR with an empty stack, a tree-start marker in SRC after a header byte, a tree-end delimiter in SRC after
a header byte, a marker and one tree byte. -/
def placeWord (s : State) (nbits w : Nat) : State :=
  let bytes := tableBytes nbits w
  match tableSite nbits w with
  | .command => { readyToFetch s with cmd := bytes.headD 0, site := .command }
  | .treeToken =>
    { readyToFetch s with site := .treeToken, tbuf := Buffer.ofList bytes, cursor := 0, stack := [], leaves := 0 }
  | .blobHeader => { readyToFetch s with site := .blobHeader, src := Buffer.ofList bytes, cursor := 0 }
  | .blobStart =>
    { readyToFetch s with site := .blobStart, header := 8, src := Buffer.ofList (0x08 :: bytes), cursor := 1 }
  | .blobEnd =>
    { readyToFetch s with site := .blobEnd, header := 8, treeAt := 2,
                          src := Buffer.ofList (0x08 :: treeStartByte :: 0x00 :: bytes), cursor := 3 }

end Sys2Proof.Machine
end

