-- ==== Sys2Proof/Machine/Analyzer.lean ====
section
/-! DEFINITION. The frequency analyzer: ANALYZE (40_frequency_analyzer.md). -/

namespace Sys2Proof.Machine

/-- What ANALYZE's loop carries: SYMS, FREQ and CURSOR (R130). -/
structure AnalyzeRegs where
  syms : Buffer Symbol
  freq : List (Symbol × Count)
  cursor : Nat
  deriving DecidableEq, Repr

/-- `FREQ[s] <- FREQ[s] + 1`, or 1 for a new symbol (R130), within N_MAX entries and CNT_MAX. -/
def countSymbol (cfg : Config) (s : Symbol) (freq : List (Symbol × Count)) :
    Except ErrKind (List (Symbol × Count)) := do
  let c ← checkCount cfg ((Table.lookup symKey s freq).getD 0 + 1)
  Table.put symKey cfg.nMax s c freq

/-- ANALYZE's loop over the bytes from CURSOR on; each turn consumes at least one byte, so as many turns as bytes
suffice. -/
def analyzeLoop (cfg : Config) : Nat → List Byte → AnalyzeRegs → Except ErrKind AnalyzeRegs
  | 0, _, r => .ok r
  | turns + 1, rest, r =>
    match utf8Decode rest with
    | .ended => .ok r
    | .truncated => .error .invalidEncoding
    | .invalid => .error .invalidEncoding
    | .ok s w => do
      let syms ← r.syms.append cfg.symsCap s
      let freq ← countSymbol cfg s r.freq
      analyzeLoop cfg turns (rest.drop w) ⟨syms, freq, r.cursor + w⟩

/-- ANALYZE's operation (R130) on the bytes of SRC. -/
def analyzeText (cfg : Config) (bytes : List Byte) : Except ErrKind AnalyzeRegs :=
  analyzeLoop cfg bytes.length bytes ⟨Buffer.empty, [], 0⟩

/-- ANALYZE's operation on the state. -/
def analyzeBody (s : State) : Except ErrKind State := do
  let r ← analyzeText s.cfg s.src.elems
  .ok { s with syms := r.syms, freq := r.freq, cursor := r.cursor }

/-- ANALYZE (R130). -/
def execAnalyze (s : State) : Host.Outcome State Fault Refusal := .next (finish .analyze s (analyzeBody s))

end Sys2Proof.Machine
end

