-- ==== Sys2Proof/Machine/BitCodec.lean ====
section
/-! DEFINITION. The bit encoder and decoder: ENCODE (45_bit_encoder.md), DECODE and DecodeByTree (46_bit_decoder.md). -/

namespace Sys2Proof.Machine

/-! ### ENCODE -/

/-- What ENCODE's loop carries: PAY, ACC, NBITS, TOTAL_BITS (R190). -/
structure EncodeRegs where
  pay : Buffer Byte
  acc : Byte
  nbits : BitVec 4
  totalBits : Nat
  deriving DecidableEq, Repr

/-- One bit into the accumulator, from bit 7 down, and the flush of a full byte (R191, R192). -/
def packBit (cfg : Config) (r : EncodeRegs) (b : Bool) : Except ErrKind EncodeRegs := do
  let acc := r.acc ||| ((BitVec.ofBool b).setWidth 8 <<< (7 - r.nbits.toNat))
  let total ← checkCap cfg.bitsMax (r.totalBits + 1)
  if r.nbits + 1 = 8 then do
    let pay ← r.pay.append cfg.payCap acc
    .ok ⟨pay, 0, 0, total⟩
  else .ok ⟨r.pay, acc, r.nbits + 1, total⟩

/-- The bits of one code, first bit first. -/
def packBits (cfg : Config) : EncodeRegs → Bits → Except ErrKind EncodeRegs
  | r, [] => .ok r
  | r, b :: bs => do
    let r1 ← packBit cfg r b
    packBits cfg r1 bs

/-- The symbols in order, each by its code; UnknownSymbol at the first that has none (R193). -/
def encodeLoop (cfg : Config) (ptab : List (Symbol × Bits)) : EncodeRegs → List Symbol → Except ErrKind EncodeRegs
  | r, [] => .ok r
  | r, s :: rest =>
    match Table.lookup symKey s ptab with
    | none => .error .unknownSymbol
    | some code => do
      let r1 ← packBits cfg r code
      encodeLoop cfg ptab r1 rest

/-- The final partial byte (R194). -/
def flushLast (cfg : Config) (r : EncodeRegs) : Except ErrKind EncodeRegs :=
  if r.nbits = 0 then .ok r
  else do
    let pay ← r.pay.append cfg.payCap r.acc
    .ok ⟨pay, r.acc, r.nbits, r.totalBits⟩

/-- ENCODE's operation (R190) up to VALID_BITS. -/
def encodeSyms (cfg : Config) (ptab : List (Symbol × Bits)) (syms : List Symbol) : Except ErrKind EncodeRegs := do
  let r ← encodeLoop cfg ptab ⟨Buffer.empty, 0, 0, 0⟩ syms
  flushLast cfg r

/-- ENCODE's operation on the state. -/
def encodeBody (s : State) : Except ErrKind State := do
  let r ← encodeSyms s.cfg s.ptab s.syms.elems
  .ok { s with pay := r.pay, validBits := validBitsOf r.totalBits, acc := r.acc, nbits := r.nbits,
               totalBits := r.totalBits }

/-- ENCODE (R190). -/
def execEncode (s : State) : Host.Outcome State Fault Refusal := .next (finish .encode s (encodeBody s))

/-! ### DECODE -/

/-- What DECODE's loop carries: SYMS, CAND, and how many bits it has walked (R200). -/
structure DecodeRegs where
  syms : Buffer Symbol
  cand : Bits
  bitpos : Nat
  deriving DecidableEq, Repr

/-- The walk (R202): after each bit the whole candidate is looked up, and a match emits its symbol and empties it. -/
def decodeLoop (cfg : Config) (lut : List (Bits × Symbol)) : Bits → DecodeRegs → Except ErrKind DecodeRegs
  | [], r => .ok r
  | b :: bs, r =>
    match Table.lookup bitsKey (r.cand ++ [b]) lut with
    | some s => do
      let syms ← r.syms.append cfg.symsCap s
      decodeLoop cfg lut bs ⟨syms, [], r.bitpos + 1⟩
    | none => decodeLoop cfg lut bs ⟨r.syms, r.cand ++ [b], r.bitpos + 1⟩

/-- The walk over the usable bits and the end test (R202, R203). -/
def decodeBits (cfg : Config) (lut : List (Bits × Symbol)) (bits : Bits) : Except ErrKind DecodeRegs := do
  let r ← decodeLoop cfg lut bits ⟨Buffer.empty, [], 0⟩
  if r.cand = [] then .ok r else .error .undecodableBitstream

/-- The bits DECODE walks: the first USABLE bits of the payload (R116, R202). -/
def walkedBits (pay : List Byte) (validBits : BitVec 4) : Bits :=
  (payloadBits pay).take (usableBits pay.length validBits)

/-- DECODE's operation on the state (R200, R201): no byte, no walk; a valid-bit count outside 1 to 8 is refused. -/
def decodeBody (s : State) : Except ErrKind State :=
  if s.pay.len = 0 then .ok { s with syms := Buffer.empty }
  else if !validBitsOk s.validBits.toNat then .error .invalidBitLength
  else do
    let r ← decodeBits s.cfg s.lut (walkedBits s.pay.elems s.validBits)
    .ok { s with syms := r.syms, cand := r.cand, bitpos := r.bitpos, usable := usableBits s.pay.len s.validBits }

/-- DECODE (R200). -/
def execDecode (s : State) : Host.Outcome State Fault Refusal := .next (finish .decode s (decodeBody s))

/-! ### The tree walk (R205), the efficient algorithm DECODE is equivalent to (R206) -/

/-- The walk from the node `cur`, which is never a Leaf, `atRoot` telling whether a code has begun. -/
def treeLoop (cfg : Config) (root : Node) : Bits → Node → Bool → Buffer Symbol → Except ErrKind (Buffer Symbol)
  | [], _, atRoot, syms => if atRoot then .ok syms else .error .undecodableBitstream
  | _ :: _, .leaf _ _, _, _ => .error .undecodableBitstream
  | b :: bs, .internal _ l r, _, syms =>
    match (if b then r else l) with
    | .leaf s _ => do
      let syms1 ← syms.append cfg.symsCap s
      treeLoop cfg root bs root true syms1
    | .internal c l1 r1 => treeLoop cfg root bs (.internal c l1 r1) false syms

/-- `DecodeByTree(root)` (R205): the symbols, or the error. -/
def decodeByTree (cfg : Config) (root : Node) (pay : List Byte) (validBits : BitVec 4) :
    Except ErrKind (Buffer Symbol) :=
  if pay.length = 0 then .ok Buffer.empty
  else if !validBitsOk validBits.toNat then .error .invalidBitLength
  else
    match root with
    | .leaf _ _ => .error .undecodableBitstream
    | .internal c l r =>
      treeLoop cfg (.internal c l r) (walkedBits pay validBits) (.internal c l r) true Buffer.empty

end Sys2Proof.Machine
end

