-- ==== Sys2Proof/Machine/Derive.lean ====
section
/-! DEFINITION. The code derive engine: DERIVE (42_code_derive.md), also the last phase of BUILD (R145). -/

namespace Sys2Proof.Machine

/-- The two tables a derivation writes (R160). -/
structure CodeTables where
  ptab : List (Symbol × Bits)
  lut : List (Bits × Symbol)
  deriving DecidableEq, Repr

/-- `PTAB[s] <- code; LUT[code] <- s` (R161), a code being at most CODE_MAX bits and a table at most N_MAX entries. -/
def putCode (cfg : Config) (s : Symbol) (code : Bits) (t : CodeTables) : Except ErrKind CodeTables := do
  let _ ← checkCap cfg.codeMax code.length
  let ptab ← Table.put symKey cfg.nMax s code t.ptab
  let lut ← Table.put bitsKey cfg.nMax code s t.lut
  .ok ⟨ptab, lut⟩

/-- `Walk(node, code)` (R161): pre-order, "0" to the Left and "1" to the Right. The recursion is as deep as the code is
long, and the stack bounds it (R256). -/
def walkCodes (cfg : Config) : Node → Bits → CodeTables → Except ErrKind CodeTables
  | .leaf s _, code, t => putCode cfg s code t
  | .internal _ l r, code, t => do
    let _ ← checkCap cfg.stackMax (code.length + 1)
    let t1 ← walkCodes cfg l (code ++ [false]) t
    walkCodes cfg r (code ++ [true]) t1

/-- `Derive(some root)` (R161). -/
def deriveTables (cfg : Config) (root : Node) : Except ErrKind CodeTables := walkCodes cfg root [] ⟨[], []⟩

/-- DERIVE's operation on the state (R160, R164). -/
def deriveBody (s : State) : Except ErrKind State :=
  match s.tree with
  | none => .error .nullNode
  | some root => do
    let t ← deriveTables s.cfg root
    .ok { s with ptab := t.ptab, lut := t.lut }

/-- DERIVE (R160). -/
def execDerive (s : State) : Host.Outcome State Fault Refusal := .next (finish .derive s (deriveBody s))

end Sys2Proof.Machine
end

