-- ==== Sys2Proof/Machine/Builder.lean ====
section
/-! DEFINITION. The tree builder: BUILD (41_tree_builder.md). -/

namespace Sys2Proof.Machine

/-- The count a node carries (00_scope.md R10). -/
def Node.count : Node → Count
  | .leaf _ c => c
  | .internal c _ _ => c

/-- `symkey` of an Internal (R142, R146): 0, or below every Leaf's with INTERNAL_BEFORE_NUL. -/
def internalSymkey (cfg : Config) : Int := if cfg.internalBeforeNul then -1 else 0

/-- The order of the queue (R142): `(cnt, symkey, seq)` lexicographically. -/
def PQEntry.before (a b : PQEntry) : Bool :=
  decide (a.cnt < b.cnt) || (decide (a.cnt = b.cnt)
    && (decide (a.symkey < b.symkey) || (decide (a.symkey = b.symkey) && decide (a.seq < b.seq))))

/-- `PQ.insert`: the queue is kept least key first, so `pop_min` takes its head (R142). -/
def pqInsert (e : PQEntry) : List PQEntry → List PQEntry
  | [] => [e]
  | x :: rest => if e.before x then e :: x :: rest else x :: pqInsert e rest

/-- The leaves in ascending symbol order, the order FREQ is kept in, numbered from `seq` (R142). -/
def leafEntries : Nat → List (Symbol × Count) → List PQEntry
  | _, [] => []
  | seq, (s, c) :: rest => ⟨c, s.toNat, seq, .leaf s c⟩ :: leafEntries (seq + 1) rest

/-- The queue that holds the given entries. -/
def pqOfList (es : List PQEntry) : List PQEntry := es.foldl (fun q e => pqInsert e q) []

/-- The merge loop (R143): the first popped becomes the Left child. Each turn shortens the queue by one, so as many turns
as entries suffice (R144). -/
def mergeLoop (cfg : Config) : Nat → List PQEntry → Nat → Except ErrKind (List PQEntry × Nat)
  | turns + 1, a :: b :: rest, seq => do
    let c ← checkCount cfg (a.cnt + b.cnt)
    mergeLoop cfg turns (pqInsert ⟨c, internalSymkey cfg, seq, .internal c a.node b.node⟩ rest) (seq + 1)
  | _, pq, seq => .ok (pq, seq)

/-- What BUILD's tree phase leaves: the root and SEQ; PQ is empty after the last pop (R144). -/
structure BuiltTree where
  root : Node
  seq : Nat
  deriving DecidableEq, Repr

/-- BUILD up to `TREE <- some root` (R140), its three checks in the order of R141. The last arm cannot be reached: the
queue of a map with two or more entries ends with one. -/
def buildTree (cfg : Config) (freq : List (Symbol × Count)) : Except ErrKind BuiltTree :=
  if freq.length = 0 then .error .emptyFrequencyMap
  else if freq.any (fun e => decide (e.2 ≤ 0)) then .error .nonPositiveFrequency
  else if freq.length = 1 then .error .insufficientSymbols
  else do
    let (pq, seq) ← mergeLoop cfg freq.length (pqOfList (leafEntries 0 freq)) freq.length
    match pq with
    | e :: _ => .ok ⟨e.node, seq⟩
    | [] => .error .emptyFrequencyMap

/-- BUILD's operation on the state, the derivation of R145 its last phase. -/
def buildBody (s : State) : Except ErrKind State := do
  let b ← buildTree s.cfg s.freq
  let t ← deriveTables s.cfg b.root
  .ok { s with tree := some b.root, ptab := t.ptab, lut := t.lut, pq := [], seq := b.seq }

/-- BUILD (R140). -/
def execBuild (s : State) : Host.Outcome State Fault Refusal := .next (finish .build s (buildBody s))

end Sys2Proof.Machine
end

