-- ==== Sys2Proof/Machine/Container.lean ====
section
/-! DEFINITION. The container framer: ASSEMBLE, PARSE, EMIT (47_container_and_sequencer.md), and the blob tokens PARSE
reads (30_encoding.md R111, R112). -/

namespace Sys2Proof.Machine

/-! ### ASSEMBLE -/

/-- The bytes of a blob (30_encoding.md R110). -/
def blobBytes (validBits : BitVec 4) (tree pay : List Byte) : List Byte :=
  validBits.setWidth 8 :: treeStartByte :: (tree ++ treeEndByte :: treeEndByte :: pay)

/-- ASSEMBLE's operation on the state (R215, R216). -/
def assembleBody (s : State) : Except ErrKind State :=
  if !validBitsOk s.validBits.toNat then .error .invalidBitLength
  else do
    let d ← Buffer.empty.appendAll s.cfg.dstCap (blobBytes s.validBits s.tbuf.elems s.pay.elems)
    .ok { s with dst := d }

/-- ASSEMBLE (R215). -/
def execAssemble (s : State) : Host.Outcome State Fault Refusal := .next (finish .assemble s (assembleBody s))

/-! ### PARSE -/

/-- What PARSE's states find: `vb`, `s+1` and `e` (R220). -/
structure BlobFields where
  header : Byte
  treeAt : Nat
  endAt : Nat
  deriving DecidableEq, Repr

/-- PARSE's states 0 to 5 (R220), each test in its order. -/
def parseFields (cfg : Config) (src : List Byte) : Except ErrKind BlobFields :=
  if src.length < 2 then .error .inputTooShort
  else if !validBitsOk (src.headD 0).toNat then .error .invalidBitLength
  else
    match scanTreeStart (src.drop 1) with
    | none => .error .treeStartNotFound
    | some k =>
      if cfg.strictMarkerOffset && decide (k ≠ 0) then .error .treeStartNotFound
      else
        match scanTreeEnd (src.drop (k + 2)) with
        | none => .error .treeEndNotFound
        | some j =>
          if j = 0 then .error .emptyTreeBytes
          else if k + 2 + j + 2 = src.length then .error .encodedDataNotFound
          else .ok ⟨src.headD 0, k + 2, k + 2 + j⟩

/-- The outputs PARSE writes after all tests have passed: the bytes between the delimiters and those after (R220). -/
def writeSpans (f : BlobFields) (s : State) : Except ErrKind State := do
  let tbuf ← Buffer.empty.appendAll s.cfg.tbufCap ((s.src.elems.drop f.treeAt).take (f.endAt - f.treeAt))
  let pay ← Buffer.empty.appendAll s.cfg.payCap (s.src.elems.drop (f.endAt + 2))
  .ok { s with validBits := f.header.setWidth 4, tbuf := tbuf, pay := pay, cursor := s.src.len }

/-- PARSE's operation on the state. -/
def parseBody (s : State) : Except ErrKind State := do
  let f ← parseFields s.cfg s.src.elems
  writeSpans f s

/-- PARSE (R219). -/
def execParse (s : State) : Host.Outcome State Fault Refusal := .next (finish .parse s (parseBody s))

/-! ### The blob tokens (R111, R112), the steps of PARSE's walk -/

/-- VALID_BITS_HEADER (R220 state 1): the count is kept, and PARSE scans for the marker next. -/
def execValidBitsHeader (validBits : Byte) (s : State) : Host.Outcome State Fault Refusal :=
  if validBitsOk validBits.toNat then
    .next { s with header := validBits, cursor := s.cursor + 1, site := .blobStart }
  else .next (raiseRunning .invalidBitLength s)

/-- TREE_START (R220 state 2): the tree begins after the marker, and PARSE scans for the delimiter next. -/
def execTreeStart (s : State) : Host.Outcome State Fault Refusal :=
  .next { s with cursor := s.cursor + 1, treeAt := s.cursor + 1, site := .blobEnd }

/-- TREE_END (R220 states 3 to 5): the two spans are tested and written, and the unit ends. -/
def execTreeEnd (s : State) : Host.Outcome State Fault Refusal :=
  if s.cursor = s.treeAt then .next (raiseRunning .emptyTreeBytes s)
  else if s.cursor + 2 = s.src.len then .next (raiseRunning .encodedDataNotFound s)
  else
    match writeSpans ⟨s.header, s.treeAt, s.cursor⟩ s with
    | .error k => .next (raiseRunning k s)
    | .ok t => .next (endWalk t)

/-! ### EMIT -/

/-- EMIT's operation on the state (R225). -/
def emitBody (s : State) : Except ErrKind State := do
  let d ← Buffer.empty.appendAll s.cfg.dstCap (s.syms.elems.flatMap utf8Encode)
  .ok { s with dst := d }

/-- EMIT (R225). -/
def execEmit (s : State) : Host.Outcome State Fault Refusal := .next (finish .emit s (emitBody s))

end Sys2Proof.Machine
end

