-- ==== Sys2Proof/Machine/TreeCodec.lean ====
section
/-! DEFINITION. The tree serializer and deserializer: SERIALIZE (43_tree_serializer.md), DESERIALIZE
(44_tree_deserializer.md), and the node tokens DESERIALIZE reads (30_encoding.md R106). -/

namespace Sys2Proof.Machine

/-! ### SERIALIZE -/

/-- `Ser(node)` at a recursion depth (R171): pre-order, markers 0x00 and 0x01. -/
def serNode (cfg : Config) : Nat → Node → Buffer Byte → Except ErrKind (Buffer Byte)
  | _, .leaf s _, b => b.appendAll cfg.tbufCap (0x01 :: utf8Encode s)
  | depth, .internal _ l r, b => do
    let b0 ← b.append cfg.tbufCap 0x00
    let _ ← checkCap cfg.stackMax (depth + 1)
    let b1 ← serNode cfg (depth + 1) l b0
    serNode cfg (depth + 1) r b1

/-- SERIALIZE's operation on the state (R170, R172). -/
def serializeBody (s : State) : Except ErrKind State :=
  match s.tree with
  | none => .error .nullNode
  | some root => do
    let b ← serNode s.cfg 0 root Buffer.empty
    .ok { s with tbuf := b }

/-- SERIALIZE (R170). -/
def execSerialize (s : State) : Host.Outcome State Fault Refusal := .next (finish .serialize s (serializeBody s))

/-! ### DESERIALIZE -/

/-- What the parse carries: CURSOR, the bytes from CURSOR on, and the leaves made so far. -/
structure DesRegs where
  cursor : Nat
  rest : List Byte
  leaves : Nat
  deriving DecidableEq, Repr

/-- `Des()` at a recursion depth (R181 to R184). Every call reads a marker, so more calls are never nested than there are
bytes left, and one more suffices; the first arm cannot be reached. Counts are 0 (R183). -/
def desNode (cfg : Config) : Nat → Nat → DesRegs → Except ErrKind (Node × DesRegs)
  | 0, _, _ => .error .truncatedTree
  | turns + 1, depth, r =>
    match tokenAt cfg .treeToken r.rest with
    | .error k => .error k
    | .ok (.nodeLeaf s) => do
      let n ← checkCap cfg.nMax (r.leaves + 1)
      .ok (.leaf s 0, ⟨r.cursor + 1 + utf8Width s, r.rest.drop (1 + utf8Width s), n⟩)
    | .ok .nodeInternal => do
      let _ ← checkCap cfg.stackMax (depth + 1)
      let (left, r1) ← desNode cfg turns (depth + 1) ⟨r.cursor + 1, r.rest.drop 1, r.leaves⟩
      let (right, r2) ← desNode cfg turns (depth + 1) r1
      .ok (.internal 0 left right, r2)
    | .ok _ => .error .malformedTreeMarker

/-- DESERIALIZE's operation (R180) on the bytes of TBUF. -/
def deserializeBytes (cfg : Config) (bytes : List Byte) : Except ErrKind (Node × DesRegs) :=
  desNode cfg (bytes.length + 1) 0 ⟨0, bytes, 0⟩

/-- DESERIALIZE's operation on the state; bytes after the root's subtree are ignored (R185). -/
def deserializeBody (s : State) : Except ErrKind State := do
  let (root, r) ← deserializeBytes s.cfg s.tbuf.elems
  .ok { s with tree := some root, cursor := r.cursor, stack := [], leaves := r.leaves }

/-- DESERIALIZE (R180). -/
def execDeserialize (s : State) : Host.Outcome State Fault Refusal :=
  .next (finish .deserialize s (deserializeBody s))

/-! ### The node tokens (R106), the steps of DESERIALIZE's walk -/

/-- A subtree is complete: it becomes the Left child of the innermost pending Internal, or closes it as its Right child
and so on outwards. The remaining stack, and the root when none is left. -/
def closeNode : List Frame → Node → List Frame × Option Node
  | [], n => ([], some n)
  | .left :: rest, n => (.right n :: rest, none)
  | .right l :: rest, n => closeNode rest (.internal 0 l n)

/-- NODE_INTERNAL (R181): CURSOR past the marker, one more pending Internal, within the stack. -/
def execNodeInternal (s : State) : Host.Outcome State Fault Refusal :=
  if withinCap s.cfg.stackMax (s.stack.length + 1) then
    .next { s with cursor := s.cursor + 1, stack := .left :: s.stack }
  else .next (raiseRunning .capacityExceeded s)

/-- The tree after a leaf: the walk goes on, or TREE is written and the unit ends (R180). -/
def addLeaf (sym : Symbol) (s : State) : State :=
  let t := { s with cursor := s.cursor + 1 + utf8Width sym, leaves := s.leaves + 1 }
  match closeNode s.stack (.leaf sym 0) with
  | (stack, none) => { t with stack := stack }
  | (_, some root) => endWalk { t with stack := [], tree := some root }

/-- NODE_LEAF (R182): CURSOR past the marker and the symbol, one more leaf, within N_MAX. -/
def execNodeLeaf (sym : Symbol) (s : State) : Host.Outcome State Fault Refusal :=
  if withinCap s.cfg.nMax (s.leaves + 1) then .next (addLeaf sym s) else .next (raiseRunning .capacityExceeded s)

/-- NODE_ILLEGAL (R184): MalformedTreeMarker at the moment the marker is read. -/
def execNodeIllegal (_marker : Byte) (s : State) : Host.Outcome State Fault Refusal :=
  .next (raiseRunning .malformedTreeMarker { s with cursor := s.cursor + 1 })

end Sys2Proof.Machine
end

