-- ==== Sys2Proof/Machine/Sequencer.lean ====
section
/-! DEFINITION. The sequencer: COMPRESS, DECOMPRESS, CLEAR (47_container_and_sequencer.md) and ILLEGAL
(30_encoding.md R93). -/

namespace Sys2Proof.Machine

/-- The unit a phase runs (10_state.md R31). -/
def phaseBody (p : Phase) (s : State) : Except ErrKind State :=
  match p with
  | .pIdle => .ok s
  | .cAnalyze => analyzeBody s
  | .cBuild => buildBody s
  | .cSerialize => serializeBody s
  | .cEncode => encodeBody s
  | .cAssemble => assembleBody s
  | .dParse => parseBody s
  | .dDeserialize => deserializeBody s
  | .dDerive => deriveBody s
  | .dDecode => decodeBody s
  | .dEmit => emitBody s

/-- The unit of the current phase, and the next phase (R31, "one value to the next"). -/
def advance (s : State) : Except ErrKind State := do
  let t ← phaseBody s.phase s
  .ok { t with phase := s.phase.next }

/-- At most `n` phases, up to the last. -/
def runPhases : Nat → State → Except ErrKind State
  | 0, s => .ok s
  | n + 1, s =>
    if s.phase = .pIdle then .ok s
    else
      match advance s with
      | .error k => .error k
      | .ok t => runPhases n t

/-- A composite command's start: `ClearWork(); DST_LEN <- 0`, and the first phase (R230, R235). -/
def beginComposite (first : Phase) (s : State) : State :=
  { clearWork s with dst := Buffer.empty, phase := first }

/-- A composite command's end: `ClearWork()` (R230, R235). -/
def endComposite (s : State) : State := { clearWork s with phase := .pIdle }

/-- A composite command's operation: its five phases between the two clearings. -/
def compositeBody (first : Phase) (s : State) : Except ErrKind State := do
  let t ← runPhases 5 (beginComposite first s)
  .ok (endComposite t)

/-- COMPRESS (R230). -/
def execCompress (s : State) : Host.Outcome State Fault Refusal :=
  .next (finish .compress s (compositeBody .cAnalyze s))

/-- DECOMPRESS (R235). -/
def execDecompress (s : State) : Host.Outcome State Fault Refusal :=
  .next (finish .decompress s (compositeBody .dParse s))

/-- CLEAR (R240, R41): the working set and the output, and PHASE at its reset value. -/
def clearBody (s : State) : Except ErrKind State :=
  .ok { clearWork s with dst := Buffer.empty, phase := .pIdle }

/-- CLEAR (R240). -/
def execClear (s : State) : Host.Outcome State Fault Refusal := .next (finish .clear s (clearBody s))

/-- ILLEGAL (R93, R257): IllegalCommand; CMD already holds the code written (R34, C13). -/
def execIllegal (code : Byte) (s : State) : Host.Outcome State Fault Refusal :=
  .next (finish (.illegal code) s (.error .illegalCommand))

/-- One phase of a composite command under way: the next phase, the command's success after the last, or its error. -/
def stepPhase (s : State) : Host.Outcome State Fault Refusal :=
  match advance s with
  | .error k => .next (raiseRunning k s)
  | .ok t => if t.phase = .pIdle then .next (endComposite t).succeed else .next t

end Sys2Proof.Machine
end

