-- ==== Sys2Proof/Machine/Dispatch.lean ====
section
/-! DEFINITION. The meaning of every instruction. -/

namespace Sys2Proof.Machine

-- The thirteen commands (R91) and the illegal codes (R93); the node tokens (R106); the blob tokens (R111, R112).
def exec (i : Instr) (s : State) : Host.Outcome State Fault Refusal :=
  match i with
  | .analyze => Sys2Proof.Machine.execAnalyze s
  | .build => Sys2Proof.Machine.execBuild s
  | .derive => Sys2Proof.Machine.execDerive s
  | .serialize => Sys2Proof.Machine.execSerialize s
  | .deserialize => Sys2Proof.Machine.execDeserialize s
  | .encode => Sys2Proof.Machine.execEncode s
  | .decode => Sys2Proof.Machine.execDecode s
  | .assemble => Sys2Proof.Machine.execAssemble s
  | .parse => Sys2Proof.Machine.execParse s
  | .emit => Sys2Proof.Machine.execEmit s
  | .clear => Sys2Proof.Machine.execClear s
  | .compress => Sys2Proof.Machine.execCompress s
  | .decompress => Sys2Proof.Machine.execDecompress s
  | .illegal code => Sys2Proof.Machine.execIllegal code s
  | .nodeInternal => Sys2Proof.Machine.execNodeInternal s
  | .nodeLeaf sym => Sys2Proof.Machine.execNodeLeaf sym s
  | .nodeIllegal marker => Sys2Proof.Machine.execNodeIllegal marker s
  | .treeStart => Sys2Proof.Machine.execTreeStart s
  | .treeEnd => Sys2Proof.Machine.execTreeEnd s
  | .validBitsHeader vb => Sys2Proof.Machine.execValidBitsHeader vb s

end Sys2Proof.Machine
end

