-- ==== Sys2Proof/Machine/Port.lean ====
section
/-! DEFINITION. The host's side (10_state.md R20 b, R40; 30_encoding.md R94; 70_reset_and_hazards.md R280, R283): the
types of the structures a host may write, its reads and writes, its command write, and the reset input. -/

namespace Sys2Proof.Machine

/-! ### The types a host write must keep (R40) -/

/-- A count fits CNT_W bits (00_scope.md R10). -/
def countOk (cfg : Config) (c : Count) : Bool := decide (cfg.cntMin ≤ c) && decide (c ≤ cfg.cntMax)

/-- Every symbol and every count of a node is of its type. -/
def nodeOk (cfg : Config) : Node → Bool
  | .leaf s c => isScalar s && countOk cfg c
  | .internal c l r => countOk cfg c && nodeOk cfg l && nodeOk cfg r

/-- The number of leaves of a node. -/
def Node.leafCount : Node → Nat
  | .leaf _ _ => 1
  | .internal _ l r => l.leafCount + r.leafCount

/-- SYMS: scalar values within SYMS_CAP (R24). -/
def symsOk (cfg : Config) (l : List Symbol) : Bool := l.all isScalar && withinCap cfg.symsCap l.length

/-- The entries of FREQ: scalar values, counts of CNT_W bits, at most N_MAX (R25). -/
def freqOk (cfg : Config) (m : List (Symbol × Count)) : Bool :=
  m.all (fun e => isScalar e.1 && countOk cfg e.2) && withinCap cfg.nMax m.length

/-- TREE: a node of at most N_MAX leaves (R28, R7). -/
def treeOk (cfg : Config) (t : Option Node) : Bool :=
  match t with
  | none => true
  | some n => nodeOk cfg n && withinCap cfg.nMax n.leafCount

/-- The entries of PTAB: scalar values, codes of at most CODE_MAX bits, at most N_MAX (R29). -/
def ptabOk (cfg : Config) (m : List (Symbol × Bits)) : Bool :=
  m.all (fun e => isScalar e.1 && withinCap cfg.codeMax e.2.length) && withinCap cfg.nMax m.length

/-- The entries of LUT: codes of at most CODE_MAX bits, scalar values, at most N_MAX (R29). -/
def lutOk (cfg : Config) (m : List (Bits × Symbol)) : Bool :=
  m.all (fun e => withinCap cfg.codeMax e.1.length && isScalar e.2) && withinCap cfg.nMax m.length

/-! ### Selecting a buffer -/

/-- The buffer a host write names. -/
def State.hostBuf (s : State) : HostBuf → Buffer Byte
  | .src => s.src
  | .tbuf => s.tbuf
  | .pay => s.pay

/-- The state with that buffer replaced. -/
def State.setHostBuf (s : State) (b : HostBuf) (v : Buffer Byte) : State :=
  match b with
  | .src => { s with src := v }
  | .tbuf => { s with tbuf := v }
  | .pay => { s with pay := v }

/-- The capacity of that buffer (R7). -/
def bufCap (cfg : Config) : HostBuf → Option Nat
  | .src => cfg.srcCap
  | .tbuf => cfg.tbufCap
  | .pay => cfg.payCap

/-- The buffer a host read names. -/
def State.readBuf (s : State) : ReadBuf → Buffer Byte
  | .src => s.src
  | .dst => s.dst
  | .tbuf => s.tbuf
  | .pay => s.pay

/-! ### Writes -/

/-- Whether a host write keeps each structure's type (R40). A read, a wait, a command write and a reset always do. -/
def writeKeepsType (a : HostAction) (s : State) : Bool :=
  match a with
  | .wait | .writeCmd _ | .read _ | .reset | .setValidBits _ => true
  | .load b bytes => withinCap (bufCap s.cfg b) bytes.length
  | .writeByte b i _ => withinCap (bufCap s.cfg b) (i + 1)
  | .setLen b n => withinCap (bufCap s.cfg b) n
  | .setSyms l => symsOk s.cfg l
  | .writeSym i v => isScalar v && withinCap s.cfg.symsCap (i + 1)
  | .setSymsLen n => withinCap s.cfg.symsCap n
  | .setFreq m => Table.uniqueKeys symKey m && freqOk s.cfg m
  | .setTree t => treeOk s.cfg t
  | .setPtab m => Table.uniqueKeys symKey m && ptabOk s.cfg m
  | .setLut m => Table.uniqueKeys bitsKey m && lutOk s.cfg m

/-- The state after a host write that keeps every type (R40, R94, R26: it writes SRC, its length and the working set). -/
def applyWrite (a : HostAction) (s : State) : State :=
  match a with
  | .wait | .writeCmd _ | .read _ | .reset => s
  | .load b bytes => s.setHostBuf b (Buffer.ofList bytes)
  | .writeByte b i v => s.setHostBuf b ((s.hostBuf b).writeAt i v)
  | .setLen b n =>
    { s.setHostBuf b ((s.hostBuf b).setLen (fun i => Config.freeByte (s.freeNext + i)) n) with
        freeNext := s.freeNext + n }
  | .setSyms l => { s with syms := Buffer.ofList l }
  | .writeSym i v => { s with syms := s.syms.writeAt i v }
  | .setSymsLen n =>
    { s with syms := s.syms.setLen (fun i => Config.freeSymbol (s.freeNext + i)) n, freeNext := s.freeNext + n }
  | .setFreq m => { s with freq := Table.ofEntries symKey m }
  | .setTree t => { s with tree := t }
  | .setPtab m => { s with ptab := Table.ofEntries symKey m }
  | .setLut m => { s with lut := Table.ofEntries bitsKey m }
  | .setValidBits v => { s with validBits := v }

/-- A host write of CMD (R27, R34): ignored while BUSY; otherwise CMD holds the code and the block becomes busy, with ERR
at 0 (R34). An illegal code is reported when the block acts on it (R93, log entry 2). -/
def writeCommand (code : Byte) (s : State) : State :=
  if s.status = .busy then s else { s with cmd := code, status := .busy, err := 0 }

/-- The reset input (R280): the state of R41, also during a command; the parameters and the host are no part of the
block. -/
def State.afterReset (s : State) : State :=
  { State.reset with cfg := s.cfg, host := s.host, freeNext := s.freeNext }

/-! ### Reads -/

/-- What a host read gives. STATUS may be read at any time; everything else only while STATUS is not BUSY (R40, R296). An
element at or beyond the length is not addressable (R61). Reads have no side effect (R62). -/
def hostRead (r : HostRead) (s : State) : Host.Outcome HostValue Fault Refusal :=
  if s.status = .busy ∧ r ≠ .status then .refused .hostAccessWhileBusy
  else
    match r with
    | .byte b i =>
      match (s.readBuf b).read i with
      | some v => .next (.byte v)
      | none => .fault (.notAddressable i)
    | .len b => .next (.number (s.readBuf b).len)
    | .sym i =>
      match s.syms.read i with
      | some v => .next (.sym v)
      | none => .fault (.notAddressable i)
    | .symsLen => .next (.number s.syms.len)
    | .freq => .next (.freq s.freq)
    | .tree => .next (.tree s.tree)
    | .ptab => .next (.ptab s.ptab)
    | .lut => .next (.lut s.lut)
    | .validBits => .next (.validBits s.validBits)
    | .cmd => .next (.byte s.cmd)
    | .status => .next (.status s.status.code)
    | .err => .next (.byte s.err)

/-! ### The host's move -/

/-- One action of the host, at any moment. -/
def hostAct (a : HostAction) (s : State) : Host.Outcome State Fault Refusal :=
  match a with
  | .wait => .next s
  | .writeCmd code => .next (writeCommand code s)
  | .reset => .next s.afterReset
  | .read r =>
    match hostRead r s with
    | .next _ => .next s
    | .fault f => .fault f
    | .refused f => .refused f
  | a =>
    if s.status = .busy then .refused .hostAccessWhileBusy
    else if writeKeepsType a s then .next (applyWrite a s)
    else .refused .hostWriteBreaksType

end Sys2Proof.Machine
end

