-- ==== Sys2Proof/Machine/Cycle.lean ====
section
/-! DEFINITION. Whose move it is, and the block's move. -/

namespace Sys2Proof.Machine

/-- The block's move (10_state.md R27). Not busy, it stands idle with all state kept (60_exceptions.md R264). Busy, it
runs the command in CMD as one transition; in the middle of a composite command it runs the current phase; in the middle
of a walk of DESERIALIZE or PARSE it runs the next token. The last two occur only in states the finer grain of R37 names
(log entry 3). -/
def blockMove (s : State) : Host.Outcome State Fault Refusal :=
  match s.status with
  | .idle | .ok | .err => .next s
  | .busy =>
    if s.site = .command ∧ s.phase ≠ .pIdle then stepPhase s
    else
      match fetch s with
      | .error k => .next (raiseRunning k s)
      | .ok (i, t) => exec i t

/-- One move of the machine. The host moves while it has an action that is not a wait; it waits while STATUS is BUSY
(30_encoding.md R94); with nothing left to do it leaves the block alone. -/
def cycle (s : State) : Host.Outcome State Fault Refusal :=
  match s.host with
  | [] => blockMove s
  | .wait :: rest => if s.status = .busy then blockMove s else .next { s with host := rest }
  | a :: rest => hostAct a { s with host := rest }

end Sys2Proof.Machine
end

