-- ==== Sys2Proof/Machine/Step.lean ====
section
/-! DEFINITION. One step of the machine. -/

namespace Sys2Proof.Machine

/-- One step: one move of the host or of the block (10_state.md R20). -/
def step (s : State) : Host.Outcome State Fault Refusal := cycle s

/-- `s` with a word of spec/opcode_table.json stored where the next step fetches it (log entry 9). -/
def State.withFetchWord (s : State) (nbits w : Nat) : State := placeWord s nbits w

end Sys2Proof.Machine
end

