-- ==== Sys2Proof/Safety.lean ====
section
/-! DEFINITION. What counts as a well-kept state, and the notions of the spec the statements speak in: texts, paths of a
tree, serialized trees, host scripts. -/

namespace Sys2Proof.Machine

/-! ### The invariant of the machine -/

/-- The leaves of the subtrees a stack holds. -/
def stackLeaves : List Frame → Nat
  | [] => 0
  | .left :: rest => stackLeaves rest
  | .right l :: rest => l.leafCount + stackLeaves rest

/-- Every subtree a stack holds is of its type. -/
def stackOk (cfg : Config) (st : List Frame) : Bool :=
  st.all (fun f => match f with | .left => true | .right l => nodeOk cfg l)

/-- What holds at reset and after every step: each structure has its type and its canonical form (R22 to R33, R40), ERR
holds a code exactly when STATUS is ERR (R34), nothing is under way between commands (R31). -/
structure State.Inv (s : State) : Prop where
  src_wf : s.src.wf s.cfg.srcCap = true
  dst_wf : s.dst.wf s.cfg.dstCap = true
  syms_wf : s.syms.wf s.cfg.symsCap = true
  tbuf_wf : s.tbuf.wf s.cfg.tbufCap = true
  pay_wf : s.pay.wf s.cfg.payCap = true
  syms_scalar : s.syms.cells.all (fun e => isScalar e.2) = true
  freq_wf : Table.wf symKey s.freq = true
  freq_ok : freqOk s.cfg s.freq = true
  tree_ok : treeOk s.cfg s.tree = true
  ptab_wf : Table.wf symKey s.ptab = true
  ptab_ok : ptabOk s.cfg s.ptab = true
  lut_wf : Table.wf bitsKey s.lut = true
  lut_ok : lutOk s.cfg s.lut = true
  err_code : s.status = .err → ∃ k : ErrKind, s.err = k.code
  no_err : s.status ≠ .err → s.err = 0
  between_commands : s.status ≠ .busy → s.phase = .pIdle ∧ s.site = .command
  stack_ok : stackOk s.cfg s.stack = true
  stack_leaves : stackLeaves s.stack ≤ s.leaves

/-! ### What the host can see -/

/-- The state with the transients of R36 to R38 and of the walks blanked: none of them is visible to the host or carried
from one command to the next. -/
def State.visible (s : State) : State :=
  { s with pq := [], seq := 0, cursor := 0, stack := [], leaves := 0, header := 0, treeAt := 0, acc := 0, nbits := 0,
           totalBits := 0, cand := [], bitpos := 0, usable := 0 }

/-- It is the block's move: the host has nothing to do, or waits (30_encoding.md R94). -/
def State.blockTurn (s : State) : Prop := s.host = [] ∨ ∃ rest, s.host = .wait :: rest

/-- A state in which a command has just been written and the host waits for nothing more. -/
def State.busyWith (s : State) : State := { s with status := .busy, err := 0, phase := .pIdle, host := [] }

/-! ### Texts -/

/-- Every element is a scalar value. -/
def validText (l : List Symbol) : Prop := ∀ x ∈ l, isScalar x = true

/-- The bytes of a text (30_encoding.md R103). -/
def textBytes (l : List Symbol) : List Byte := l.flatMap utf8Encode

/-! ### Trees -/

/-- The leaves in pre-order, with their counts. -/
def Node.leaves : Node → List (Symbol × Count)
  | .leaf s c => [(s, c)]
  | .internal _ l r => l.leaves ++ r.leaves

/-- The leaves' symbols in pre-order. -/
def Node.symbols (n : Node) : List Symbol := n.leaves.map Prod.fst

/-- The leaf reached by Right branches only (70_reset_and_hazards.md R290). -/
def Node.lastSymbol : Node → Symbol
  | .leaf s _ => s
  | .internal _ _ r => r.lastSymbol

/-- The number of Internal nodes. -/
def Node.internals : Node → Nat
  | .leaf _ _ => 0
  | .internal _ l r => l.internals + r.internals + 1

/-- Every Internal's count is the sum of its children's (10_state.md R35 b). -/
def Node.sumsHold : Node → Prop
  | .leaf _ _ => True
  | .internal c l r => c = l.count + r.count ∧ l.sumsHold ∧ r.sumsHold

/-- The tree with every count 0 (44_tree_deserializer.md R183). -/
def Node.zeroCounts : Node → Node
  | .leaf s _ => .leaf s 0
  | .internal _ l r => .internal 0 l.zeroCounts r.zeroCounts

/-- The root-to-leaf paths with their symbols, in pre-order: "0" for Left, "1" for Right (42_code_derive.md R161). -/
def Node.paths : Node → List (Bits × Symbol)
  | .leaf s _ => [([], s)]
  | .internal _ l r =>
    l.paths.map (fun p => (false :: p.1, p.2)) ++ r.paths.map (fun p => (true :: p.1, p.2))

/-- The bytes of a serialized tree, the grammar of 30_encoding.md R105. -/
def Node.bytes : Node → List Byte
  | .leaf s _ => 0x01 :: utf8Encode s
  | .internal _ l r => 0x00 :: (l.bytes ++ r.bytes)

/-- The sum of the counts of a frequency map. -/
def countSum (freq : List (Symbol × Count)) : Count := (freq.map Prod.snd).sum

/-- Every count is positive. -/
def positive (freq : List (Symbol × Count)) : Prop := ∀ e ∈ freq, 0 < e.2

/-- Every count in the tree, Internals' and Leaves'. -/
def Node.counts : Node → List Count
  | .leaf _ c => [c]
  | .internal c l r => c :: (l.counts ++ r.counts)

/-! ### The merge of BUILD, in the spec's own terms (41_tree_builder.md R140 to R143) -/

/-- The order of the queue's keys (R142). -/
def keyLess (a b : PQEntry) : Prop :=
  a.cnt < b.cnt ∨ (a.cnt = b.cnt ∧ (a.symkey < b.symkey ∨ (a.symkey = b.symkey ∧ a.seq < b.seq)))

/-- `pop_min` takes `a` from `q` and leaves `rest`, in whatever order a queue is kept (R142). -/
def PopsMin (q : List PQEntry) (a : PQEntry) (rest : List PQEntry) : Prop :=
  q.Perm (a :: rest) ∧ ∀ x ∈ rest, keyLess a x

/-- The entries of the leaves: the count, the symbol's value, the insertion number (R140, R142). -/
def queueLeaves (freq : List (Symbol × Count)) : List PQEntry :=
  freq.zipIdx.map (fun e => ⟨e.1.2, e.1.1.toNat, e.2, .leaf e.1.1 e.1.2⟩)

/-- Merging a queue until one entry remains gives that tree: the two least are popped, the first becomes Left and the
second Right, and the new entry has their sum, the Internals' symbol key and the next insertion number (R143). -/
inductive Merges (symkey : Int) : Nat → List PQEntry → Node → Prop where
  | done (seq : Nat) (e : PQEntry) : Merges symkey seq [e] e.node
  | merge {seq : Nat} {q q1 q2 : List PQEntry} {a b : PQEntry} {root : Node} (first : PopsMin q a q1)
      (second : PopsMin q1 b q2)
      (rest : Merges symkey (seq + 1)
        (⟨a.cnt + b.cnt, symkey, seq, .internal (a.cnt + b.cnt) a.node b.node⟩ :: q2) root) :
      Merges symkey seq q root

/-! ### Capacities (60_exceptions.md R256) -/

/-- What the unit command `i` left in `t` is within the capacities of `cfg`. The recursion of DERIVE, SERIALIZE and
DESERIALIZE is as deep as the longest path (log entry 4). -/
def Fits (cfg : Config) (i : Instr) (t : State) : Prop :=
  match i with
  | .analyze => withinCap cfg.symsCap t.syms.len = true ∧ withinCap cfg.nMax t.freq.length = true
  | .build | .derive =>
    withinCap cfg.nMax t.lut.length = true
      ∧ ∀ e ∈ t.lut, withinCap cfg.codeMax e.1.length = true ∧ withinCap cfg.stackMax e.1.length = true
  | .serialize =>
    withinCap cfg.tbufCap t.tbuf.len = true
      ∧ ∀ root, t.tree = some root → ∀ p ∈ root.paths, withinCap cfg.stackMax p.1.length = true
  | .deserialize =>
    ∀ root, t.tree = some root →
      withinCap cfg.nMax root.leafCount = true ∧ ∀ p ∈ root.paths, withinCap cfg.stackMax p.1.length = true
  | .encode => withinCap cfg.payCap t.pay.len = true ∧ withinCap cfg.bitsMax t.totalBits = true
  | .decode => withinCap cfg.symsCap t.syms.len = true
  | .assemble | .emit => withinCap cfg.dstCap t.dst.len = true
  | .parse => withinCap cfg.tbufCap t.tbuf.len = true ∧ withinCap cfg.payCap t.pay.len = true
  | .clear | .compress | .decompress | .illegal _ | .nodeInternal | .nodeLeaf _ | .nodeIllegal _ | .treeStart | .treeEnd
  | .validBitsHeader _ => True

/-! ### The types of what a host writes (10_state.md R40) -/

/-- A number past a capacity. -/
def Past (cap : Option Nat) (n : Nat) : Prop := ∃ c, cap = some c ∧ c < n

/-- A count that CNT_W bits do not hold (00_scope.md R10). -/
def OutOfRange (cfg : Config) (c : Count) : Prop := c < cfg.cntMin ∨ cfg.cntMax < c

/-- A host write breaks the type of what it writes (R40, U22): a length past the capacity, a value that is no symbol, a key
twice, a count outside CNT_W bits, a code past CODE_MAX bits, a table or a tree past N_MAX. -/
def BreaksType (cfg : Config) (a : HostAction) : Prop :=
  match a with
  | .load b bytes => Past (bufCap cfg b) bytes.length
  | .writeByte b i _ => Past (bufCap cfg b) (i + 1)
  | .setLen b n => Past (bufCap cfg b) n
  | .setSyms l => (∃ x ∈ l, isScalar x = false) ∨ Past cfg.symsCap l.length
  | .writeSym i v => isScalar v = false ∨ Past cfg.symsCap (i + 1)
  | .setSymsLen n => Past cfg.symsCap n
  | .setFreq m =>
    ¬ (m.map Prod.fst).Nodup ∨ (∃ e ∈ m, isScalar e.1 = false ∨ OutOfRange cfg e.2) ∨ Past cfg.nMax m.length
  | .setTree t =>
    ∃ root, t = some root ∧ ((∃ x ∈ root.symbols, isScalar x = false) ∨ (∃ c ∈ root.counts, OutOfRange cfg c)
      ∨ Past cfg.nMax root.symbols.length)
  | .setPtab m =>
    ¬ (m.map Prod.fst).Nodup ∨ (∃ e ∈ m, isScalar e.1 = false ∨ Past cfg.codeMax e.2.length) ∨ Past cfg.nMax m.length
  | .setLut m =>
    ¬ (m.map Prod.fst).Nodup ∨ (∃ e ∈ m, Past cfg.codeMax e.1.length ∨ isScalar e.2 = false) ∨ Past cfg.nMax m.length
  | .wait | .writeCmd _ | .setValidBits _ | .read _ | .reset => False

/-! ### Host scripts (47_container_and_sequencer.md R245) -/

/-- A script of commands, stopped at the first that ends in ERR, with DST_LEN then 0. -/
def runScript : List Instr → State → State
  | [], s => s
  | i :: rest, s =>
    match exec i s with
    | .next t => if t.status = .err then { t with dst := Buffer.empty } else runScript rest t
    | .fault _ => s
    | .refused _ => s

/-- The script R245 compares with COMPRESS. -/
def compressScript : List Instr := [.clear, .analyze, .build, .serialize, .encode, .assemble]

/-- The script R245 compares with DECOMPRESS. -/
def decompressScript : List Instr := [.clear, .parse, .deserialize, .derive, .decode, .emit]

end Sys2Proof.Machine
end

