-- ==== Sys2Proof/Certificates/Slice0/Obligations.lean ====
section
/-! DEFINITION. The statements for the provers. A frame is written as the whole next state: every field not named after
`with` is as before, every byte of every buffer among them; and the transients of R36 to R38, whose values between commands the spec leaves open
(R41, U20) and the model chooses: log entry 7, DESIGN CHOICE. -/

open Sys2Proof Sys2Proof.Machine

/-! ### Encodings -/

/-- Decoding an encoded well-formed instruction gives it back, whatever follows it: no bit of an encoding is dropped, every
symbol a leaf can carry included. -/
def Obligations.DecodeEncodeRoundTrip : Prop :=
  ∀ (i : Instr) (rest : List Byte), i.wf = true → decode i.site (encode i ++ rest) = .ok (i, rest)

/-- Each row has one encoding: what a decoder accepts is a well-formed instruction of its format and starts with that
instruction's bytes. -/
def Obligations.DecodeAcceptsOnlyEncodings : Prop :=
  ∀ (site : Site) (bytes rest : List Byte) (i : Instr), decode site bytes = .ok (i, rest) →
    i.wf = true ∧ i.site = site ∧ bytes = encode i ++ rest

/-- Words written out from the tables of R91, R106, R111 and R112. -/
def Obligations.SpecWordsDecode : Prop :=
  decode .command [0b00000001] = .ok (.analyze, []) ∧ decode .command [0b00000010] = .ok (.build, [])
    ∧ decode .command [0b00000110] = .ok (.encode, []) ∧ decode .command [0b00001010] = .ok (.emit, [])
    ∧ decode .command [0b00001111] = .ok (.clear, []) ∧ decode .command [0b00010001] = .ok (.decompress, [])
    ∧ decode .command [0b00010010] = .ok (.illegal 0x12, [])
    ∧ decode .treeToken [0b00000000] = .ok (.nodeInternal, [])
    ∧ decode .treeToken [0b00000001, 0xE2, 0x82, 0xAC] = .ok (.nodeLeaf 0x20AC, [])
    ∧ decode .treeToken [0b10000001] = .ok (.nodeIllegal 0x81, [])
    ∧ decode .blobStart [0b00011111] = .ok (.treeStart, [])
    ∧ decode .blobEnd [0b00100101, 0b00100101] = .ok (.treeEnd, [])
    ∧ decode .blobHeader [0b00001000] = .ok (.validBitsHeader 8, [])
    ∧ decode .blobHeader [0b00001001] = .error .badHeader

/-- R103, whole: the bytes of a symbol range by range, their decoding, and the four examples. -/
def Obligations.Utf8EncodeDecode : Prop :=
  (∀ s : Symbol, isScalar s = true → utf8Decode (utf8Encode s) = .ok s (utf8Width s))
    ∧ (∀ s : Symbol, s.toNat ≤ 0x7F → (utf8Encode s).map BitVec.toNat = [s.toNat])
    ∧ (∀ s : Symbol, 0x80 ≤ s.toNat → s.toNat ≤ 0x7FF →
        (utf8Encode s).map BitVec.toNat = [0xC0 + s.toNat / 64, 0x80 + s.toNat % 64])
    ∧ (∀ s : Symbol, 0x800 ≤ s.toNat → s.toNat ≤ 0xFFFF →
        (utf8Encode s).map BitVec.toNat
          = [0xE0 + s.toNat / 4096, 0x80 + s.toNat / 64 % 64, 0x80 + s.toNat % 64])
    ∧ (∀ s : Symbol, 0x10000 ≤ s.toNat →
        (utf8Encode s).map BitVec.toNat
          = [0xF0 + s.toNat / 262144, 0x80 + s.toNat / 4096 % 64, 0x80 + s.toNat / 64 % 64, 0x80 + s.toNat % 64])
    ∧ utf8Encode 0x61 = [0x61] ∧ utf8Encode 0xE9 = [0xC3, 0xA9] ∧ utf8Encode 0x20AC = [0xE2, 0x82, 0xAC]
    ∧ utf8Encode 0x1F600 = [0xF0, 0x9F, 0x98, 0x80]

/-- The four outcomes of Utf8Decode (R101, R104): Ok exactly on the encoding of a scalar value, Truncated exactly when the
buffer ends inside one, End exactly on nothing; all else is Invalid. -/
def Obligations.Utf8DecodeOutcomes : Prop :=
  ∀ bytes : List Byte,
    (utf8Decode bytes = .ended ↔ bytes = [])
      ∧ (∀ (s : Symbol) (w : Nat), utf8Decode bytes = .ok s w ↔
          isScalar s = true ∧ w = utf8Width s ∧ ∃ rest, bytes = utf8Encode s ++ rest)
      ∧ (utf8Decode bytes = .truncated ↔
          bytes ≠ [] ∧ ∃ (s : Symbol) (more : List Byte), isScalar s = true ∧ more ≠ [] ∧ utf8Encode s = bytes ++ more)

/-! ### The step -/

/-- A busy block with nothing under way runs the instruction its CMD decodes to: the step is exec of it, at that state. -/
def Obligations.StepRunsDecodedCommand : Prop :=
  ∀ s : State, s.blockTurn → s.status = .busy → s.site = .command → s.phase = .pIdle →
    ∃ i, decode .command [s.cmd] = .ok (i, []) ∧ i.wf = true ∧ step s = exec i s

/-- A busy block inside DESERIALIZE's or PARSE's walk runs the token that stands where that walk reads: at CURSOR in TBUF,
at CURSOR in SRC for the header byte, and at the first place from CURSOR on where the delimiter decodes, CURSOR having
moved there. A step per token is the model's choice, not the spec's: the finer grain of log entry 3 (DESIGN CHOICE). -/
def Obligations.StepRunsDecodedToken : Prop :=
  ∀ (s : State) (i : Instr) (rest : List Byte), s.blockTurn → s.status = .busy →
    (s.site = .treeToken → decode .treeToken (s.tbuf.elems.drop s.cursor) = .ok (i, rest) → step s = exec i s)
      ∧ (s.site = .blobHeader → 2 ≤ s.src.len → decode .blobHeader (s.src.elems.drop s.cursor) = .ok (i, rest) →
          step s = exec i s)
      ∧ (∀ k, s.site = .blobStart → (s.cfg.strictMarkerOffset = false ∨ s.cursor + k = 1) →
          decode .blobStart (s.src.elems.drop (s.cursor + k)) = .ok (i, rest) →
          (∀ j r, j < k → decode .blobStart (s.src.elems.drop (s.cursor + j)) ≠ .ok r) →
          step s = exec i { s with cursor := s.cursor + k })
      ∧ (∀ k, s.site = .blobEnd → decode .blobEnd (s.src.elems.drop (s.cursor + k)) = .ok (i, rest) →
          (∀ j r, j < k → decode .blobEnd (s.src.elems.drop (s.cursor + j)) ≠ .ok r) →
          step s = exec i { s with cursor := s.cursor + k })

/-- Where a walk finds no token, or its marker elsewhere than at offset 1 under STRICT_MARKER_OFFSET (D19), the step is
error entry of the command under way, with the error the rules name for what is missing (R181, R182, R220). That one step
inside a walk meets the error is the model's finer grain (log entry 3, DESIGN CHOICE); that a symbol missing altogether is
TruncatedTree whatever SHORT_SYMBOL_ERROR says is the model's reading of D12 (log entry 4, DESIGN CHOICE). -/
def Obligations.MissingTokenRaises : Prop :=
  ∀ s : State, s.blockTurn → s.status = .busy →
    (s.site = .treeToken →
        (decode .treeToken (s.tbuf.elems.drop s.cursor) = .error .ended → step s = .next (raiseRunning .truncatedTree s))
          ∧ (decode .treeToken (s.tbuf.elems.drop s.cursor) = .error .shortSymbol →
              step s = .next (raiseRunning
                (if s.cfg.shortSymbolInvalid then .invalidSymbolEncoding else .truncatedTree) s))
          ∧ (decode .treeToken (s.tbuf.elems.drop s.cursor) = .error .badSymbol →
              step s = .next (raiseRunning .invalidSymbolEncoding s)))
      ∧ (s.site = .blobHeader →
          (s.src.len < 2 → step s = .next (raiseRunning .inputTooShort s))
            ∧ (2 ≤ s.src.len → decode .blobHeader (s.src.elems.drop s.cursor) = .error .badHeader →
                step s = .next (raiseRunning .invalidBitLength s)))
      ∧ (s.site = .blobStart → (∀ k r, decode .blobStart (s.src.elems.drop (s.cursor + k)) ≠ .ok r) →
          step s = .next (raiseRunning .treeStartNotFound s))
      ∧ (∀ k r, s.site = .blobStart → s.cfg.strictMarkerOffset = true → s.cursor + k ≠ 1 →
          decode .blobStart (s.src.elems.drop (s.cursor + k)) = .ok r →
          (∀ j r', j < k → decode .blobStart (s.src.elems.drop (s.cursor + j)) ≠ .ok r') →
          step s = .next (raiseRunning .treeStartNotFound s))
      ∧ (s.site = .blobEnd → (∀ k r, decode .blobEnd (s.src.elems.drop (s.cursor + k)) ≠ .ok r) →
          step s = .next (raiseRunning .treeEndNotFound s))

/-- A block that is not busy, its host having nothing to do, keeps all its state (R264, R281). A write to CMD while STATUS
is BUSY is ignored; otherwise CMD holds the code, STATUS is BUSY and ERR is 0 (R27, R34). That an illegal code too makes the
block busy until its next step is the model's choice (log entry 2). -/
def Obligations.IdleUntilCommandWrite : Prop :=
  (∀ s : State, s.host = [] → s.status ≠ .busy → step s = .next s)
    ∧ ∀ (s : State) (code : Byte) (rest : List HostAction), s.host = .writeCmd code :: rest →
      (s.status = .busy → step s = .next { s with host := rest })
        ∧ (s.status ≠ .busy → step s = .next { s with host := rest, cmd := code, status := .busy, err := 0 })

/-- Host accesses with no meaning are refused: while BUSY, everything but a wait, a write of CMD, a read of STATUS and a
reset; otherwise exactly the writes that break a type: a load, a write or a length past the capacity, a value that is no
symbol, a key twice, a count outside CNT_W bits, a code, a table or a tree past its bound (R40, U21, U22). -/
def Obligations.HostAccessRefused : Prop :=
  ∀ (s : State) (a : HostAction) (rest : List HostAction), s.host = a :: rest →
    (s.status = .busy → a ≠ .wait → (∀ code, a ≠ .writeCmd code) → a ≠ .reset → a ≠ .read .status →
        step s = .refused .hostAccessWhileBusy)
      ∧ (s.status ≠ .busy →
          (BreaksType s.cfg a → step s = .refused .hostWriteBreaksType)
            ∧ (¬ BreaksType s.cfg a → ∀ r, step s ≠ .refused r))

/-- What a host access does (R40, R94), the block not being busy and the type kept. A write of one byte or one symbol changes
that element alone; a load or `set SYMS` leaves exactly the elements given; `set FREQ`, `set PTAB` and `set LUT` leave the
map of the entries given; `set TREE` and `set VALID_BITS` the value given; and nothing else changes but the host's script
(writes of a length are in LengthWritesExposeAndForget). A read gives the element below the length (at or beyond it the
machine stops, log entry 8), the length, the table, the tree or the register, and changes nothing (R61, R62); STATUS, 0 to 3
(R34), may be read at any time (R296), CMD while not BUSY (log entry 10). -/
def Obligations.HostAccessesTakeEffect : Prop :=
  (Status.code .idle = 0 ∧ Status.code .busy = 1 ∧ Status.code .ok = 2 ∧ Status.code .err = 3)
    ∧ (∀ (s : State), s.readBuf .src = s.src ∧ s.readBuf .dst = s.dst ∧ s.readBuf .tbuf = s.tbuf ∧ s.readBuf .pay = s.pay
        ∧ s.hostBuf .src = s.src ∧ s.hostBuf .tbuf = s.tbuf ∧ s.hostBuf .pay = s.pay)
    ∧ (∀ (s : State) (a : HostAction) (rest : List HostAction), s.host = a :: rest → s.status ≠ .busy → ¬ BreaksType s.cfg a →
      (∀ b i v, a = .writeByte b i v →
          ∃ nb : Buffer Byte, step s = .next ({ s with host := rest }.setHostBuf b nb) ∧ nb.len = (s.hostBuf b).len
            ∧ (∀ j, j ≠ i → nb.read j = (s.hostBuf b).read j) ∧ (i < nb.len → nb.read i = some v))
        ∧ (∀ b bytes, a = .load b bytes →
          ∃ nb : Buffer Byte, step s = .next ({ s with host := rest }.setHostBuf b nb) ∧ nb.len = bytes.length
            ∧ nb.elems = bytes ∧ ∀ j, nb.read j = bytes[j]?)
        ∧ (∀ l, a = .setSyms l →
          ∃ nb : Buffer Symbol, step s = .next { s with host := rest, syms := nb } ∧ nb.len = l.length ∧ nb.elems = l
            ∧ ∀ j, nb.read j = l[j]?)
        ∧ (∀ i v, a = .writeSym i v →
          ∃ nb : Buffer Symbol, step s = .next { s with host := rest, syms := nb } ∧ nb.len = s.syms.len
            ∧ (∀ j, j ≠ i → nb.read j = s.syms.read j) ∧ (i < nb.len → nb.read i = some v))
        ∧ (∀ m, a = .setFreq m →
          ∃ f, step s = .next { s with host := rest, freq := f } ∧ Table.wf symKey f = true
            ∧ ∀ x c, Table.lookup symKey x f = some c ↔ (x, c) ∈ m)
        ∧ (∀ m, a = .setPtab m →
          ∃ f, step s = .next { s with host := rest, ptab := f } ∧ Table.wf symKey f = true
            ∧ ∀ x c, Table.lookup symKey x f = some c ↔ (x, c) ∈ m)
        ∧ (∀ m, a = .setLut m →
          ∃ f, step s = .next { s with host := rest, lut := f } ∧ Table.wf bitsKey f = true
            ∧ ∀ c x, Table.lookup bitsKey c f = some x ↔ (c, x) ∈ m)
        ∧ (∀ n, a = .setTree n → step s = .next { s with host := rest, tree := n })
        ∧ (∀ v, a = .setValidBits v → step s = .next { s with host := rest, validBits := v }))
    ∧ (∀ (s : State) (r : HostRead) (rest : List HostAction), s.host = .read r :: rest →
        (∀ t, step s = .next t → t = { s with host := rest })
          ∧ (r = .status → hostRead r s = .next (.status s.status.code) ∧ step s = .next { s with host := rest })
          ∧ (s.status ≠ .busy →
              (∀ b, r = .len b → hostRead r s = .next (.number (s.readBuf b).len))
                ∧ (r = .symsLen → hostRead r s = .next (.number s.syms.len))
                ∧ (r = .freq → hostRead r s = .next (.freq s.freq)) ∧ (r = .tree → hostRead r s = .next (.tree s.tree))
                ∧ (r = .ptab → hostRead r s = .next (.ptab s.ptab)) ∧ (r = .lut → hostRead r s = .next (.lut s.lut))
                ∧ (r = .validBits → hostRead r s = .next (.validBits s.validBits))
                ∧ (r = .cmd → hostRead r s = .next (.byte s.cmd)) ∧ (r = .err → hostRead r s = .next (.byte s.err)))
          ∧ (s.status ≠ .busy → (∀ b i, r ≠ .byte b i) → (∀ i, r ≠ .sym i) → step s = .next { s with host := rest }))
    ∧ (∀ (s : State) (b : ReadBuf) (i : Nat) (cap : Option Nat) (rest : List HostAction), s.host = .read (.byte b i) :: rest →
        s.status ≠ .busy → (s.readBuf b).wf cap = true →
        (∀ v, (s.readBuf b).elems[i]? = some v →
            hostRead (.byte b i) s = .next (.byte v) ∧ step s = .next { s with host := rest })
          ∧ ((s.readBuf b).len ≤ i → step s = .fault (.notAddressable i)))
    ∧ ∀ (s : State) (i : Nat) (cap : Option Nat) (rest : List HostAction), s.host = .read (.sym i) :: rest →
        s.status ≠ .busy → s.syms.wf cap = true →
        (∀ v, s.syms.elems[i]? = some v → hostRead (.sym i) s = .next (.sym v) ∧ step s = .next { s with host := rest })
          ∧ (s.syms.len ≤ i → step s = .fault (.notAddressable i))

/-- A host write of a length register (R40, R61, U19). Raised: the elements below the old length are as before, and each new
one has the value the host wrote there or a free value, of which nothing is known. Lowered: the elements below the new
length are as before, and those at or beyond it are forgotten. Both are the model's reading of what the spec leaves open
(log entry 6). -/
def Obligations.LengthWritesExposeAndForget : Prop :=
  (∀ (s : State) (b : HostBuf) (n : Nat) (rest : List HostAction), s.host = .setLen b n :: rest → s.status ≠ .busy →
      (s.hostBuf b).wf (bufCap s.cfg b) = true → ¬ BreaksType s.cfg (.setLen b n) →
      ∃ (nb : Buffer Byte) (k : Nat), step s = .next { s.setHostBuf b nb with host := rest, freeNext := k } ∧ nb.len = n
        ∧ (∀ j, j < (s.hostBuf b).len → j < n → nb.read j = (s.hostBuf b).read j)
        ∧ (∀ j, (s.hostBuf b).len ≤ j → j < n →
            ((∃ v, Table.lookup id j (s.hostBuf b).cells = some v ∧ nb.read j = some v)
              ∨ (Table.lookup id j (s.hostBuf b).cells = none ∧ ∃ q, nb.read j = some (Config.freeByte q))))
        ∧ (n < (s.hostBuf b).len → ∀ j, n ≤ j → Table.lookup id j nb.cells = none))
    ∧ ∀ (s : State) (n : Nat) (rest : List HostAction), s.host = .setSymsLen n :: rest → s.status ≠ .busy →
      s.syms.wf s.cfg.symsCap = true → ¬ BreaksType s.cfg (.setSymsLen n) →
      ∃ (nb : Buffer Symbol) (k : Nat), step s = .next { s with syms := nb, host := rest, freeNext := k } ∧ nb.len = n
        ∧ (∀ j, j < s.syms.len → j < n → nb.read j = s.syms.read j)
        ∧ (∀ j, s.syms.len ≤ j → j < n →
            ((∃ v, Table.lookup id j s.syms.cells = some v ∧ nb.read j = some v)
              ∨ (Table.lookup id j s.syms.cells = none ∧ ∃ q, nb.read j = some (Config.freeSymbol q))))
        ∧ (n < s.syms.len → ∀ j, n ≤ j → Table.lookup id j nb.cells = none)

/-- The reset input, at any moment, also during a command, gives the values of R41 (R280); the transients and the model's
own fields, to which R41 gives no value, are no part of this. State.reset has the same values. -/
def Obligations.ResetGivesSpecValues : Prop :=
  (∀ (s : State) (rest : List HostAction), s.host = .reset :: rest →
      ∃ t, step s = .next t ∧ t.cmd = 0 ∧ t.status = .idle ∧ t.err = 0 ∧ t.phase = .pIdle ∧ t.src.len = 0
        ∧ t.dst.len = 0 ∧ t.syms.len = 0 ∧ t.tbuf.len = 0 ∧ t.pay.len = 0 ∧ t.freq = [] ∧ t.ptab = [] ∧ t.lut = []
        ∧ t.tree = none ∧ t.validBits = 8)
    ∧ State.reset.cmd = 0 ∧ State.reset.status = .idle ∧ State.reset.err = 0 ∧ State.reset.phase = .pIdle
    ∧ State.reset.src.len = 0 ∧ State.reset.dst.len = 0 ∧ State.reset.syms.len = 0 ∧ State.reset.tbuf.len = 0
    ∧ State.reset.pay.len = 0 ∧ State.reset.freq = [] ∧ State.reset.ptab = [] ∧ State.reset.lut = []
    ∧ State.reset.tree = none ∧ State.reset.validBits = 8

/-! ### The invariant and the rules of the whole machine -/

/-- The invariant holds at reset. -/
def Obligations.ResetMeetsInvariant : Prop := State.reset.Inv

/-- Every step keeps the invariant: buffers and tables in canonical form and within their capacities, symbols scalar,
counts within CNT_W bits, ERR a code exactly when STATUS is ERR, nothing under way between commands. -/
def Obligations.StepKeepsInvariant : Prop :=
  ∀ s t : State, s.Inv → step s = .next t → t.Inv

/-- No instruction writes SRC or SRC_LEN (R22), CMD (R34: host write) or the machine's parameters (R42), nor what the host
still has to do; no step at all writes the parameters. -/
def Obligations.InstructionsKeepSourceAndConfig : Prop :=
  (∀ (i : Instr) (s t : State), exec i s = .next t →
      t.src = s.src ∧ t.cmd = s.cmd ∧ t.cfg = s.cfg ∧ t.host = s.host ∧ t.freeNext = s.freeNext)
    ∧ ∀ s t : State, step s = .next t → t.cfg = s.cfg

/-- Every instruction ends in a next state, a command with STATUS OK or ERR; and the block's own move is never a fault or a
refusal: nothing hangs, locks or needs reset (R262, R265). -/
def Obligations.EveryInstructionEnds : Prop :=
  (∀ (i : Instr) (s : State), ∃ t, exec i s = .next t ∧ (i.site = .command → t.status = .ok ∨ t.status = .err))
    ∧ ∀ s : State, s.host = [] → ∃ t, step s = .next t

/-- Error entry (R260, empty outputs being the spec's decision D20), command by command: after an error the structures the command writes are empty, everything else is
as before, and ERR holds a code. A composite command leaves its sequence as well. That the transients are as before the
command is the model's choice where the spec leaves them open (U20; log entry 7, DESIGN CHOICE). -/
def Obligations.ErrorEmptiesOutputs : Prop :=
  ∀ s t : State, t.status = .err →
    (∀ i : Instr, i.site = .command → exec i s = .next t → ∃ k : ErrKind, t.err = k.code)
      ∧ (exec .analyze s = .next t → t = { s with syms := Buffer.empty, freq := [], status := .err, err := t.err })
      ∧ (exec .build s = .next t → t = { s with tree := none, ptab := [], lut := [], status := .err, err := t.err })
      ∧ (exec .derive s = .next t → t = { s with ptab := [], lut := [], status := .err, err := t.err })
      ∧ (exec .serialize s = .next t → t = { s with tbuf := Buffer.empty, status := .err, err := t.err })
      ∧ (exec .deserialize s = .next t → t = { s with tree := none, status := .err, err := t.err })
      ∧ (exec .encode s = .next t →
          t = { s with pay := Buffer.empty, validBits := 8, status := .err, err := t.err })
      ∧ (exec .decode s = .next t → t = { s with syms := Buffer.empty, status := .err, err := t.err })
      ∧ (exec .assemble s = .next t → t = { s with dst := Buffer.empty, status := .err, err := t.err })
      ∧ (exec .emit s = .next t → t = { s with dst := Buffer.empty, status := .err, err := t.err })
      ∧ (exec .parse s = .next t →
          t = { s with tbuf := Buffer.empty, pay := Buffer.empty, validBits := 8, status := .err, err := t.err })
      ∧ ((exec .compress s = .next t ∨ exec .decompress s = .next t) →
          t = { s with syms := Buffer.empty, freq := [], tree := none, ptab := [], lut := [], tbuf := Buffer.empty,
                       pay := Buffer.empty, validBits := 8, dst := Buffer.empty, phase := .pIdle, site := .command,
                       status := .err, err := t.err })
      ∧ (∀ code, exec (.illegal code) s = .next t → t = { s with status := .err, err := t.err })

/-- A command that succeeds writes its outputs, STATUS, ERR and transients, and nothing else: every other structure, register
and byte is as before, whatever the capacities (R27, R130, R140, R160, R170, R180, R190, R200, R215, R219, R225; which
transients a command leaves is log entry 7). -/
def Obligations.SuccessWritesOnlyOutputs : Prop :=
  ∀ s t : State, t.status = .ok →
    (exec .analyze s = .next t →
        t = { s with syms := t.syms, freq := t.freq, cursor := t.cursor, status := .ok, err := 0 })
      ∧ (exec .build s = .next t →
          t = { s with tree := t.tree, ptab := t.ptab, lut := t.lut, pq := t.pq, seq := t.seq, status := .ok, err := 0 })
      ∧ (exec .derive s = .next t → t = { s with ptab := t.ptab, lut := t.lut, status := .ok, err := 0 })
      ∧ (exec .serialize s = .next t → t = { s with tbuf := t.tbuf, status := .ok, err := 0 })
      ∧ (exec .deserialize s = .next t →
          t = { s with tree := t.tree, cursor := t.cursor, stack := t.stack, leaves := t.leaves, status := .ok,
                       err := 0 })
      ∧ (exec .encode s = .next t →
          t = { s with pay := t.pay, validBits := t.validBits, acc := t.acc, nbits := t.nbits, totalBits := t.totalBits,
                       status := .ok, err := 0 })
      ∧ (exec .decode s = .next t →
          t = { s with syms := t.syms, cand := t.cand, bitpos := t.bitpos, usable := t.usable, status := .ok, err := 0 })
      ∧ (exec .assemble s = .next t → t = { s with dst := t.dst, status := .ok, err := 0 })
      ∧ (exec .parse s = .next t →
          t = { s with tbuf := t.tbuf, pay := t.pay, validBits := t.validBits, cursor := t.cursor, status := .ok,
                       err := 0 })
      ∧ (exec .emit s = .next t → t = { s with dst := t.dst, status := .ok, err := 0 })
      ∧ ((exec .compress s = .next t ∨ exec .decompress s = .next t) →
          t.visible = { clearWork s with dst := t.dst, phase := .pIdle, status := .ok, err := 0 }.visible)

/-- The same command again on the state an error left gives the same error and changes nothing (R261). -/
def Obligations.RetryGivesSameError : Prop :=
  ∀ (i : Instr) (s t : State), i.site = .command → exec i s = .next t → t.status = .err → exec i t = .next t

/-- Which errors each command can report, in every configuration (R251, R231, R236; R256 for CapacityExceeded); CLEAR reports
none. -/
def Obligations.ErrorsOfEachCommand : Prop :=
  ∀ s t : State, t.status = .err →
    (exec .analyze s = .next t → t.err ∈ [0x01, 0x80])
      ∧ (exec .build s = .next t → t.err ∈ [0x02, 0x03, 0x04, 0x80])
      ∧ (exec .derive s = .next t → t.err ∈ [0x10, 0x80])
      ∧ (exec .serialize s = .next t → t.err ∈ [0x10, 0x80])
      ∧ (exec .deserialize s = .next t → t.err ∈ [0x0B, 0x0C, 0x0D, 0x80])
      ∧ (exec .encode s = .next t → t.err ∈ [0x0F, 0x80])
      ∧ (exec .decode s = .next t → t.err ∈ [0x06, 0x0E, 0x80])
      ∧ (exec .assemble s = .next t → t.err ∈ [0x06, 0x80])
      ∧ (exec .parse s = .next t → t.err ∈ [0x05, 0x06, 0x07, 0x08, 0x09, 0x0A, 0x80])
      ∧ (exec .emit s = .next t → t.err = 0x80)
      ∧ (exec .compress s = .next t → t.err ∈ [0x01, 0x02, 0x04, 0x80])
      ∧ (∀ code, exec (.illegal code) s = .next t → t.err = 0x81)
      ∧ (exec .decompress s = .next t →
          t.err ∈ [0x05, 0x06, 0x07, 0x08, 0x09, 0x0A, 0x0B, 0x0C, 0x0D, 0x0E, 0x80])
      ∧ exec .clear s ≠ .next t

/-- CapacityExceeded (R7, R256). With unbounded capacities, and counts that CNT_W bits can sum, no command reports it. Within
capacity no result depends on any capacity: a command that does not report it does what the same machine with every
capacity unbounded does. A unit command that this machine ends with success does the same here exactly when what it leaves
fits every capacity, and reports CapacityExceeded otherwise; ASSEMBLE exactly when 4 + TBUF_LEN + PAY_LEN passes DST_CAP
(R215). A count past CNT_MAX is CapacityExceeded in ANALYZE and in BUILD. What the stack's depth counts is log entry 4, what
the transients hold log entry 7 (DESIGN CHOICE both). -/
def Obligations.CapacityExceededOnlyPastACapacity : Prop :=
  (∀ (i : Instr) (s t : State), i.site = .command → s.cfg.unbounded = true →
      (i = .analyze ∨ i = .compress → (s.src.elems.length : Int) ≤ s.cfg.cntMax) →
      (i = .build → countSum s.freq ≤ s.cfg.cntMax) → exec i s = .next t → t.err ≠ 0x80)
    ∧ (∀ (i : Instr) (s t : State), i.site = .command → exec i s = .next t → t.err ≠ 0x80 →
        exec i { s with cfg := s.cfg.widened } = .next { t with cfg := s.cfg.widened })
    ∧ (∀ (i : Instr) (s t : State), i.site = .command → i ≠ .compress → i ≠ .decompress →
        exec i { s with cfg := s.cfg.widened } = .next t → t.status = .ok →
        (Fits s.cfg i t → exec i s = .next { t with cfg := s.cfg })
          ∧ (¬ Fits s.cfg i t → ∃ u, exec i s = .next u ∧ u.status = .err ∧ u.err = 0x80))
    ∧ (∀ (s : State) (cap : Nat), validBitsOk s.validBits.toNat = true → s.cfg.dstCap = some cap →
        (cap < 4 + s.tbuf.elems.length + s.pay.elems.length ↔
          exec .assemble s = .next { s with dst := Buffer.empty, status := .err, err := 0x80 }))
    ∧ (∀ (s : State) (l : List Symbol) (x : Symbol), validText l → s.src.elems = textBytes l →
        s.cfg.cntMax < (l.count x : Int) → ∃ u, exec .analyze s = .next u ∧ u.status = .err ∧ u.err = 0x80)
    ∧ ∀ s : State, 2 ≤ s.freq.length → positive s.freq → s.cfg.cntMax < countSum s.freq →
        ∃ u, exec .build s = .next u ∧ u.status = .err ∧ u.err = 0x80

/-! ### ANALYZE -/

/-- On the bytes of a text, ANALYZE writes the text's symbols, in order, and the count of each (R130, R132).
That CURSOR ends at SRC_LEN is log entry 7 (DESIGN CHOICE). -/
def Obligations.AnalyzeCountsText : Prop :=
  ∀ (s : State) (l : List Symbol), validText l → s.src.elems = textBytes l → s.cfg.unbounded = true →
    (l.length : Int) ≤ s.cfg.cntMax →
    ∃ freq : List (Symbol × Count),
      exec .analyze s = .next { s with syms := Buffer.ofList l, freq := freq, cursor := (textBytes l).length,
                                       status := .ok, err := 0 }
        ∧ Table.wf symKey freq = true
        ∧ (∀ x : Symbol, Table.lookup symKey x freq = if l.contains x then some (l.count x : Int) else none)
        ∧ countSum freq = l.length

/-- On bytes that are no text, ANALYZE reports InvalidEncoding, with SYMS and FREQ empty (R131). That CURSOR is
as before is log entry 7 (DESIGN CHOICE): the spec leaves it open (U20). -/
def Obligations.AnalyzeRejectsInvalidText : Prop :=
  ∀ s : State, s.cfg.unbounded = true → (s.src.elems.length : Int) ≤ s.cfg.cntMax →
    (¬ ∃ l, validText l ∧ s.src.elems = textBytes l) →
    exec .analyze s = .next { s with syms := Buffer.empty, freq := [], status := .err, err := 0x01 }

/-! ### BUILD -/

/-- BUILD's three checks, in their order (R141, the order being the spec's decision D11): with a bad count anywhere, whatever
the number of entries, it is the second. A map ANALYZE wrote has no bad count.
That PQ and SEQ are as before is log entry 7 (DESIGN CHOICE). -/
def Obligations.BuildRejectsBadMaps : Prop :=
  (∀ s : State,
      (s.freq = [] →
          exec .build s = .next { s with tree := none, ptab := [], lut := [], status := .err, err := 0x02 })
        ∧ ((∃ e ∈ s.freq, e.2 ≤ 0) →
            exec .build s = .next { s with tree := none, ptab := [], lut := [], status := .err, err := 0x03 })
        ∧ (s.freq.length = 1 → positive s.freq →
            exec .build s = .next { s with tree := none, ptab := [], lut := [], status := .err, err := 0x04 }))
    ∧ ∀ s t : State, exec .analyze s = .next t → positive t.freq

/-- The queue's order is total on entries of different insertion numbers, and the queue of any such entries holds exactly
them with the least first, so that pop_min is never ambiguous (R142). -/
def Obligations.QueueHeadIsLeast : Prop :=
  (∀ a b : PQEntry, a.seq ≠ b.seq → (a.before b = true ↔ ¬ b.before a = true))
    ∧ (∀ a b : PQEntry, a.before b = true ↔
        a.cnt < b.cnt ∨ (a.cnt = b.cnt ∧ (a.symkey < b.symkey ∨ (a.symkey = b.symkey ∧ a.seq < b.seq))))
    ∧ ∀ es : List PQEntry, (es.map PQEntry.seq).Nodup →
        (pqOfList es).Perm es ∧ (pqOfList es).Pairwise (fun a b => a.before b = true)

/-- On a map of two or more symbols with positive counts, BUILD makes the tree of R143's merges, and that tree alone: the
leaves are queued with their symbol values and their numbers in symbol order, the two least entries are popped, the first
becomes Left and the second Right, and an Internal is queued with symbol key 0 (or before every Leaf, the other reading of
R146, D9). The leaves are exactly the map's entries, the Internals one fewer, each with the sum of its children's counts, the
root's count the sum of all; and BUILD leaves that tree's tables (R140, R142, R143, R144, R35 b). That PQ is left empty and
SEQ at its last number is log entry 7. -/
def Obligations.BuildMakesTree : Prop :=
  ∀ s : State, s.cfg.unbounded = true → Table.wf symKey s.freq = true → 2 ≤ s.freq.length → positive s.freq →
    countSum s.freq ≤ s.cfg.cntMax →
    ∃ (root : Node) (c : CodeTables),
      exec .build s = .next { s with tree := some root, ptab := c.ptab, lut := c.lut, pq := [],
                                     seq := 2 * s.freq.length - 1, status := .ok, err := 0 }
        ∧ deriveTables s.cfg root = .ok c ∧ root.leaves.Perm s.freq ∧ root.sumsHold
        ∧ root.count = countSum s.freq ∧ root.internals + 1 = s.freq.length
        ∧ ∀ r : Node,
            Merges (if s.cfg.internalBeforeNul then -1 else 0) s.freq.length (queueLeaves s.freq) r ↔ r = root

/-- The document's scenarios V1 and V2, byte for byte: the tree and the table of its frequency map, the blob of its text,
and that blob's decompression. -/
def Obligations.DocumentVectors : Prop :=
  (∃ t, exec .build { State.reset with freq := [(0x20, 3), (0x61, 4), (0x62, 3), (0x63, 2), (0x64, 1)] } = .next t
      ∧ t.tree = some (.internal 13
          (.internal 6 (.internal 3 (.leaf 0x64 1) (.leaf 0x63 2)) (.leaf 0x20 3))
          (.internal 7 (.leaf 0x62 3) (.leaf 0x61 4)))
      ∧ t.ptab = [(0x20, [false, true]), (0x61, [true, true]), (0x62, [true, false]), (0x63, [false, false, true]),
          (0x64, [false, false, false])])
    ∧ (∃ t, exec .compress { State.reset with
          src := Buffer.ofList [0x61, 0x61, 0x61, 0x61, 0x20, 0x62, 0x62, 0x62, 0x20, 0x63, 0x63, 0x20, 0x64] } = .next t
        ∧ t.dst.elems = [5, 31, 0, 0, 0, 1, 0x64, 1, 0x63, 1, 0x20, 0, 1, 0x62, 1, 0x61, 37, 37, 255, 106, 73, 64])
    ∧ ∃ t, exec .decompress { State.reset with
          src := Buffer.ofList [5, 31, 0, 0, 0, 1, 0x64, 1, 0x63, 1, 0x20, 0, 1, 0x62, 1, 0x61, 37, 37, 255, 106, 73, 64] } = .next t
        ∧ t.dst.elems = [0x61, 0x61, 0x61, 0x61, 0x20, 0x62, 0x62, 0x62, 0x20, 0x63, 0x63, 0x20, 0x64]

/-- BUILD is a function of the map alone: whatever else differs, the same map gives the same tree, tables, STATUS and ERR, on
one machine; and the order in which a host writes the map's entries cannot be seen (R149, R25). -/
def Obligations.BuildIsAFunctionOfTheMap : Prop :=
  (∀ s s' t t' : State, s.cfg = s'.cfg → s.freq = s'.freq → exec .build s = .next t → exec .build s' = .next t' →
      t.tree = t'.tree ∧ t.ptab = t'.ptab ∧ t.lut = t'.lut ∧ t.status = t'.status ∧ t.err = t'.err)
    ∧ ∀ (s : State) (m1 m2 : List (Symbol × Count)), m1.Perm m2 → Table.uniqueKeys symKey m1 = true →
        hostAct (.setFreq m1) s = hostAct (.setFreq m2) s

/-- After a successful BUILD the tables are the derivation of the tree, and a DERIVE changes nothing (R145). -/
def Obligations.DeriveAfterBuildChangesNothing : Prop :=
  ∀ s t : State, exec .build s = .next t → t.status = .ok →
    (∃ root, t.tree = some root ∧ deriveTables t.cfg root = .ok ⟨t.ptab, t.lut⟩) ∧ exec .derive t = .next t

/-! ### DERIVE -/

/-- DERIVE writes each leaf's path: LUT maps every path to its leaf's symbol, PTAB every symbol to the path of its last
leaf in pre-order (R161, R164); with no tree it reports NullNode (R164 a).
That the transients are as before is log entry 7 (DESIGN CHOICE). -/
def Obligations.DeriveWritesPaths : Prop :=
  (∀ s : State, s.tree = none →
      exec .derive s = .next { s with ptab := [], lut := [], status := .err, err := 0x10 })
    ∧ ∀ (s : State) (root : Node), s.cfg.unbounded = true → s.tree = some root →
    ∃ (ptab : List (Symbol × Bits)) (lut : List (Bits × Symbol)),
      exec .derive s = .next { s with ptab := ptab, lut := lut, status := .ok, err := 0 }
        ∧ Table.wf symKey ptab = true ∧ Table.wf bitsKey lut = true
        ∧ (∀ c : Bits, Table.lookup bitsKey c lut = (root.paths.find? (fun p => p.1 == c)).map Prod.snd)
        ∧ (∀ x : Symbol, Table.lookup symKey x ptab = (root.paths.reverse.find? (fun p => p.2 == x)).map Prod.fst)

/-- R162, which the spec derives from R161 and R35: the codes of two leaves are different and neither begins the other, in
the tree, in LUT and in PTAB; LUT has one entry a leaf; and the code is complete: every infinite sequence of bits begins with
exactly one code. -/
def Obligations.CodesPrefixFreeAndComplete : Prop :=
  (∀ root : Node, root.paths.Pairwise (fun p q => p.1 ≠ q.1 ∧ ¬ p.1 <+: q.1 ∧ ¬ q.1 <+: p.1))
    ∧ (∀ (s t : State) (c d : Bits) (x y : Symbol), exec .derive s = .next t → t.status = .ok →
        Table.lookup bitsKey c t.lut = some x → Table.lookup bitsKey d t.lut = some y → c ≠ d → ¬ c <+: d)
    ∧ (∀ (s t : State) (c d : Bits) (x y : Symbol), exec .derive s = .next t → t.status = .ok →
        Table.lookup symKey x t.ptab = some c → Table.lookup symKey y t.ptab = some d → x ≠ y → ¬ c <+: d)
    ∧ (∀ (s t : State) (root : Node), s.tree = some root → exec .derive s = .next t → t.status = .ok →
        t.lut.length = root.paths.length)
    ∧ ∀ (root : Node) (f : Nat → Bool),
        ∃! p : Bits × Symbol, p ∈ root.paths ∧ p.1 = (List.range p.1.length).map f

/-- R163, which the spec derives from R161: after DERIVE on a tree of pairwise different symbols, LUT and PTAB are inverse to
each other, with one entry a leaf; and every tree BUILD makes is such a tree. -/
def Obligations.TablesAreInverse : Prop :=
  (∀ (s t : State) (root : Node), s.tree = some root → root.symbols.Nodup → exec .derive s = .next t → t.status = .ok →
      (∀ (x : Symbol) (c : Bits), Table.lookup symKey x t.ptab = some c ↔ Table.lookup bitsKey c t.lut = some x)
        ∧ t.ptab.length = root.symbols.length ∧ t.lut.length = root.symbols.length)
    ∧ ∀ (s t : State) (root : Node), Table.wf symKey s.freq = true → exec .build s = .next t → t.tree = some root →
        root.symbols.Nodup

/-! ### SERIALIZE and DESERIALIZE -/

/-- SERIALIZE writes the tree in the grammar of R105, one marker a node and each leaf's symbol: (2n - 1) bytes and the
symbols' widths (R107, R170, R171); with no tree it reports NullNode (R172).
That the transients are as before is log entry 7 (DESIGN CHOICE). -/
def Obligations.SerializeWritesTree : Prop :=
  (∀ s : State, s.tree = none → exec .serialize s = .next { s with tbuf := Buffer.empty, status := .err, err := 0x10 })
    ∧ ∀ (s : State) (root : Node), s.cfg.unbounded = true → s.tree = some root →
    exec .serialize s = .next { s with tbuf := Buffer.ofList root.bytes, status := .ok, err := 0 }
      ∧ root.bytes.length = 2 * root.symbols.length - 1 + (root.symbols.map utf8Width).sum

/-- R186, which the spec derives from R171, R181 and R103: DESERIALIZE undoes SERIALIZE, counts becoming 0 (R183), and ends
at TBUF_LEN, or, whatever follows the tree being ignored (R185 a), after the tree; and SERIALIZE of what it accepts writes
the bytes it read.
What `stack` and `leaves` hold afterwards is the model's (log entries 3 and 7). -/
def Obligations.DeserializeInvertsSerialize : Prop :=
  (∀ (s : State) (root : Node), s.cfg.unbounded = true → s.tree = some root → validText root.symbols →
      ∃ s1 : State, exec .serialize s = .next s1 ∧ s1.status = .ok
        ∧ exec .deserialize s1 = .next { s1 with tree := some root.zeroCounts, cursor := s1.tbuf.len, stack := [],
                                                 leaves := root.symbols.length, status := .ok, err := 0 })
    ∧ (∀ (s : State) (root : Node) (extra : List Byte), s.cfg.unbounded = true → validText root.symbols →
        s.tbuf.elems = root.bytes ++ extra →
        exec .deserialize s = .next { s with tree := some root.zeroCounts, cursor := root.bytes.length, stack := [],
                                             leaves := root.symbols.length, status := .ok, err := 0 })
    ∧ ∀ s t : State, s.cfg.unbounded = true → exec .deserialize s = .next t → t.status = .ok →
        ∃ (root : Node) (u : State), t.tree = some root ∧ root.zeroCounts = root ∧ validText root.symbols
          ∧ exec .serialize t = .next u ∧ u.status = .ok ∧ u.tbuf = Buffer.ofList (s.tbuf.elems.take t.cursor)

/-- Every proper beginning of a serialized tree is TruncatedTree (R181, R182; that a symbol cut short counts as this error
is the spec's own choice D12, its default). That CURSOR and the other transients are as before is log entry 7 (DESIGN
CHOICE). -/
def Obligations.TreeBeginningsAreTruncated : Prop :=
  ∀ (s : State) (root : Node) (k : Nat), s.cfg.plain → validText root.symbols → k < root.bytes.length →
    s.tbuf.elems = root.bytes.take k →
    exec .deserialize s = .next { s with tree := none, status := .err, err := 0x0B }

/-- The node tokens (R106, R181 to R184), one by one, as steps of the walk: an Internal opens, a leaf closes as many Right
children as it completes, and the last leaf writes TREE and ends the unit (or the phase, inside DECOMPRESS); an illegal
marker is MalformedTreeMarker, and past the stack or N_MAX it is CapacityExceeded (R256). How the walk keeps what is pending is the model's (log entry 3), and so are the depth at which a bounded stack
overflows and the test of N_MAX at each leaf (log entry 4).
That an error leaves the other transients as before is log entry 7 (DESIGN CHOICE). -/
def Obligations.TreeTokensAdvanceWalk : Prop :=
  (∀ s : State, withinCap s.cfg.stackMax (s.stack.length + 1) = true →
      exec .nodeInternal s = .next { s with cursor := s.cursor + 1, stack := .left :: s.stack })
    ∧ (∀ (s : State) (sym : Symbol) (ls : List Node) (rest : List Frame),
        withinCap s.cfg.nMax (s.leaves + 1) = true → s.stack = ls.map Frame.right ++ .left :: rest →
        exec (.nodeLeaf sym) s
          = .next { s with cursor := s.cursor + 1 + utf8Width sym, leaves := s.leaves + 1,
                           stack := .right (ls.foldl (fun n l => .internal 0 l n) (.leaf sym 0)) :: rest })
    ∧ (∀ (s : State) (sym : Symbol) (ls : List Node),
        withinCap s.cfg.nMax (s.leaves + 1) = true → s.stack = ls.map Frame.right → s.phase = .pIdle →
        exec (.nodeLeaf sym) s
          = .next { s with cursor := s.cursor + 1 + utf8Width sym, leaves := s.leaves + 1, stack := [],
                           tree := some (ls.foldl (fun n l => .internal 0 l n) (.leaf sym 0)), site := .command,
                           status := .ok, err := 0 })
    ∧ (∀ (s : State) (sym : Symbol) (ls : List Node),
        withinCap s.cfg.nMax (s.leaves + 1) = true → s.stack = ls.map Frame.right → s.phase = .dDeserialize →
        exec (.nodeLeaf sym) s
          = .next { s with cursor := s.cursor + 1 + utf8Width sym, leaves := s.leaves + 1, stack := [],
                           tree := some (ls.foldl (fun n l => .internal 0 l n) (.leaf sym 0)), site := .command,
                           phase := .dDerive })
    ∧ (∀ (s : State) (m : Byte), s.site = .treeToken → s.phase = .pIdle →
        exec (.nodeIllegal m) s
          = .next { s with cursor := s.cursor + 1, tree := none, site := .command, status := .err, err := 0x0C })
    ∧ (∀ (s : State) (m : Byte), s.phase = .dDeserialize →
        exec (.nodeIllegal m) s
          = .next { clearWork s with dst := Buffer.empty, cursor := s.cursor + 1, phase := .pIdle, site := .command,
                                     status := .err, err := 0x0C })
    ∧ (∀ s : State, withinCap s.cfg.stackMax (s.stack.length + 1) = false → s.site = .treeToken → s.phase = .pIdle →
        exec .nodeInternal s = .next { s with tree := none, site := .command, status := .err, err := 0x80 })
    ∧ (∀ (s : State) (sym : Symbol), withinCap s.cfg.nMax (s.leaves + 1) = false → s.site = .treeToken →
        s.phase = .pIdle →
        exec (.nodeLeaf sym) s = .next { s with tree := none, site := .command, status := .err, err := 0x80 })
    ∧ (∀ (s : State) (sym : Symbol), s.phase = .dDeserialize →
        (withinCap s.cfg.stackMax (s.stack.length + 1) = false →
            exec .nodeInternal s = .next { clearWork s with dst := Buffer.empty, phase := .pIdle, site := .command,
                                                            status := .err, err := 0x80 })
          ∧ (withinCap s.cfg.nMax (s.leaves + 1) = false →
            exec (.nodeLeaf sym) s = .next { clearWork s with dst := Buffer.empty, phase := .pIdle, site := .command,
                                                              status := .err, err := 0x80 }))

/-- Walking TBUF token by token gives what DESERIALIZE gives in one step, and walking SRC field by field what PARSE gives,
in all that the host can see, within as many steps as TBUF has bytes and one, or in three (R6, R27, R37).
A step per token is the model's finer grain (log entry 3, DESIGN CHOICE). -/
def Obligations.TokenWalksMatchUnits : Prop :=
  (∀ s t : State, s.host = [] → s.phase = .pIdle → s.site = .command → exec .deserialize s = .next t →
      ∃ u, Host.Core.run Sys2Proof.core (s.tbuf.elems.length + 1) (enterTreeWalk { s with status := .busy, err := 0 })
          = .next u ∧ u.visible = t.visible)
    ∧ ∀ s t : State, s.host = [] → s.phase = .pIdle → s.site = .command → s.src.elems.length = s.src.len →
        exec .parse s = .next t →
        ∃ u, Host.Core.run Sys2Proof.core 3 (enterBlobWalk { s with status := .busy, err := 0 }) = .next u
          ∧ u.visible = t.visible

/-! ### ENCODE and DECODE -/

/-- ENCODE packs the codes of the symbols, in order, most significant bit first, pads the last byte with zeros, and
VALID_BITS says how many of its bits are real (R190 to R194, R116).
That ACC, NBITS and TOTAL_BITS stay as the packing leaves them is log entry 7 (DESIGN CHOICE). -/
def Obligations.EncodePacksCodes : Prop :=
  ∀ (s : State) (codes : List Bits), s.cfg.unbounded = true →
    s.syms.elems.map (fun x => Table.lookup symKey x s.ptab) = codes.map some →
    ∃ (pay : List Byte) (vb : BitVec 4) (acc : Byte) (nbits : BitVec 4),
      exec .encode s = .next { s with pay := Buffer.ofList pay, validBits := vb, acc := acc, nbits := nbits,
                                      totalBits := codes.flatten.length, status := .ok, err := 0 }
        ∧ pay.length = (codes.flatten.length + 7) / 8
        ∧ vb.toNat = (if codes.flatten.length % 8 = 0 then 8 else codes.flatten.length % 8)
        ∧ payloadBits pay = codes.flatten ++ List.replicate (8 * pay.length - codes.flatten.length) false

/-- A symbol with no entry in PTAB is UnknownSymbol, with PAY empty and VALID_BITS 8; COMPRESS never reports it (R193). That
ACC, NBITS and TOTAL_BITS are as before is log entry 7 (DESIGN CHOICE). -/
def Obligations.EncodeUnknownSymbol : Prop :=
  (∀ s : State, s.cfg.unbounded = true → (∃ x ∈ s.syms.elems, Table.lookup symKey x s.ptab = none) →
      exec .encode s = .next { s with pay := Buffer.empty, validBits := 8, status := .err, err := 0x0F })
    ∧ ∀ s t : State, exec .compress s = .next t → t.err ≠ 0x0F

/-- Bit k of the payload is bit 7 - k mod 8 of byte k div 8 (R64), and for every total of at least one bit the usable count
is the total (R116). -/
def Obligations.PayloadBitOrder : Prop :=
  (∀ (bytes : List Byte) (k : Nat), k < 8 * bytes.length →
      (payloadBits bytes)[k]? = (bytes[k / 8]?).map (fun b => b.getLsbD (7 - k % 8)))
    ∧ ∀ n, 1 ≤ n → usableBits ((n + 7) / 8) (validBitsOf n) = n

/-- What ENCODE packs with the tables of a tree of two or more leaves, DECODE reads back (R115, R116, R162, R202).
What CAND, BITPOS and USABLE hold afterwards is log entry 7 (DESIGN CHOICE). -/
def Obligations.DecodeInvertsEncode : Prop :=
  ∀ (s : State) (root : Node), s.cfg.unbounded = true → s.tree = some root → 2 ≤ root.symbols.length →
    (∀ x ∈ s.syms.elems, x ∈ root.symbols) →
    ∃ (s1 s2 : State) (cand : Bits) (bitpos usable : Nat),
      exec .derive s = .next s1 ∧ exec .encode s1 = .next s2
        ∧ exec .decode s2 = .next { s2 with syms := Buffer.ofList s.syms.elems, cand := cand, bitpos := bitpos,
                                            usable := usable, status := .ok, err := 0 }

/-- DECODE with the lookup of a tree, and the walk of that tree, end with the same symbols or the same error (R206). -/
def Obligations.TreeWalkEqualsLookup : Prop :=
  ∀ (s t : State) (root : Node) (c : CodeTables), s.pay.elems.length = s.pay.len → deriveTables s.cfg root = .ok c →
    s.lut = c.lut → exec .decode s = .next t →
    (∀ b, decodeByTree s.cfg root s.pay.elems s.validBits = .ok b → t.status = .ok ∧ t.err = 0 ∧ t.syms = b)
      ∧ (∀ k, decodeByTree s.cfg root s.pay.elems s.validBits = .error k →
          t.status = .err ∧ t.err = k.code ∧ t.syms = Buffer.empty)

/-- The checks before the walk (R201), and the test at its end (R203). With the lookup of a tree, usable bits that are a run
of codes give those codes' symbols, and a run of codes followed by a non-empty proper beginning of a code is
UndecodableBitstream, with SYMS empty and not the symbols matched so far; there is no third case, a tree of two or more
leaves being complete. With an empty lookup, or that of a single Leaf, a payload of at least one byte is UndecodableBitstream
(R207, R204). What CAND, BITPOS and USABLE hold afterwards is log entry 7 (DESIGN CHOICE). -/
def Obligations.DecodeChecksAndEndTest : Prop :=
  (∀ s : State,
      (s.pay.len = 0 → exec .decode s = .next { s with syms := Buffer.empty, status := .ok, err := 0 })
        ∧ (s.pay.len ≠ 0 → (s.validBits.toNat = 0 ∨ 8 < s.validBits.toNat) →
            exec .decode s = .next { s with syms := Buffer.empty, status := .err, err := 0x06 })
        ∧ (s.pay.len ≠ 0 → s.pay.elems.length = s.pay.len → 1 ≤ s.validBits.toNat → s.validBits.toNat ≤ 8 →
            8 * s.pay.len - 7 ≤ usableBits s.pay.len s.validBits ∧ usableBits s.pay.len s.validBits ≤ 8 * s.pay.len
              ∧ ((s.lut = [] ∨ ∃ x, s.lut = [([], x)]) →
                  exec .decode s = .next { s with syms := Buffer.empty, status := .err, err := 0x0E })))
    ∧ (∀ (s : State) (root : Node) (c : CodeTables) (run : List (Bits × Symbol)) (part : Bits),
        s.cfg.unbounded = true → deriveTables s.cfg root = .ok c → s.lut = c.lut → s.pay.len ≠ 0 →
        s.pay.elems.length = s.pay.len → 1 ≤ s.validBits.toNat → s.validBits.toNat ≤ 8 → (∀ w ∈ run, w ∈ root.paths) →
        (payloadBits s.pay.elems).take (usableBits s.pay.len s.validBits) = (run.map Prod.fst).flatten ++ part →
        (part = [] →
            ∃ (cand : Bits) (bitpos usable : Nat),
              exec .decode s = .next { s with syms := Buffer.ofList (run.map Prod.snd), cand := cand, bitpos := bitpos,
                                              usable := usable, status := .ok, err := 0 })
          ∧ (part ≠ [] → (∃ p ∈ root.paths, part <+: p.1 ∧ part ≠ p.1) →
              exec .decode s = .next { s with syms := Buffer.empty, status := .err, err := 0x0E }))
    ∧ ∀ (root : Node) (bits : Bits), 2 ≤ root.symbols.length →
        ∃ (run : List (Bits × Symbol)) (part : Bits), (∀ w ∈ run, w ∈ root.paths)
          ∧ bits = (run.map Prod.fst).flatten ++ part ∧ ∃ p ∈ root.paths, part <+: p.1 ∧ part ≠ p.1

/-- The bits of the last byte below VALID_BITS: ENCODE writes them as 0, and DECODE never reads them: changing them changes
nothing of the result (R117). -/
def Obligations.PaddingIsZeroAndIgnored : Prop :=
  (∀ (s t : State) (k : Nat), exec .encode s = .next t → t.status = .ok → usableBits t.pay.len t.validBits ≤ k →
      k < 8 * t.pay.len → (payloadBits t.pay.elems)[k]? = some false)
    ∧ ∀ (s t : State) (before : List Byte) (last other : Byte), s.pay = Buffer.ofList (before ++ [last]) →
      1 ≤ s.validBits.toNat → s.validBits.toNat ≤ 8 →
      last >>> (8 - s.validBits.toNat) = other >>> (8 - s.validBits.toNat) → exec .decode s = .next t →
      exec .decode { s with pay := Buffer.ofList (before ++ [other]) }
        = .next { t with pay := Buffer.ofList (before ++ [other]) }

/-! ### The container -/

/-- ASSEMBLE writes the layout of R110 (R215), or reports InvalidBitLength (R216).
That the transients are as before is log entry 7 (DESIGN CHOICE). -/
def Obligations.AssembleWritesBlob : Prop :=
  ∀ s : State, s.cfg.unbounded = true →
    (1 ≤ s.validBits.toNat → s.validBits.toNat ≤ 8 →
        exec .assemble s = .next { s with
          dst := Buffer.ofList ([s.validBits.setWidth 8, 0x1F] ++ s.tbuf.elems ++ [0x25, 0x25] ++ s.pay.elems),
          status := .ok, err := 0 })
      ∧ (s.validBits.toNat = 0 ∨ 8 < s.validBits.toNat →
          exec .assemble s = .next { s with dst := Buffer.empty, status := .err, err := 0x06 })

/-- PARSE splits a blob at the first marker after the header byte and the first delimiter after that (R220, R221). That
CURSOR ends at SRC_LEN is the model's choice (log entry 7, DESIGN CHOICE). -/
def Obligations.ParseSplitsBlob : Prop :=
  ∀ (s : State) (vb : Byte) (skip tree pay : List Byte), s.cfg.unbounded = true →
    (s.cfg.strictMarkerOffset = false ∨ skip = []) →
    s.src.elems = vb :: (skip ++ 0x1F :: (tree ++ 0x25 :: 0x25 :: pay)) → 1 ≤ vb.toNat → vb.toNat ≤ 8 →
    0x1F ∉ skip → tree ≠ [] → pay ≠ [] →
    (∀ i, i < tree.length → ¬ ((tree ++ [0x25, 0x25])[i]? = some 0x25 ∧ (tree ++ [0x25, 0x25])[i + 1]? = some 0x25)) →
    exec .parse s = .next { s with validBits := vb.setWidth 4, tbuf := Buffer.ofList tree, pay := Buffer.ofList pay,
                                   cursor := s.src.len, status := .ok, err := 0 }

/-- PARSE's tests, in their order, each with its error; after any of them the outputs are empty (R220, R259). That
CURSOR is as before is log entry 7 (DESIGN CHOICE). -/
def Obligations.ParseErrorsInOrder : Prop :=
  ∀ s : State,
    (s.src.elems.length < 2 →
        exec .parse s = .next { s with tbuf := Buffer.empty, pay := Buffer.empty, validBits := 8, status := .err,
                                       err := 0x05 })
      ∧ ∀ (vb : Byte) (after : List Byte), s.src.elems = vb :: after → after ≠ [] →
        ((vb.toNat = 0 ∨ 8 < vb.toNat) →
            exec .parse s = .next { s with tbuf := Buffer.empty, pay := Buffer.empty, validBits := 8, status := .err,
                                           err := 0x06 })
          ∧ (1 ≤ vb.toNat → vb.toNat ≤ 8 →
            (0x1F ∉ after →
                exec .parse s = .next { s with tbuf := Buffer.empty, pay := Buffer.empty, validBits := 8,
                                               status := .err, err := 0x07 })
              ∧ ∀ skip rest : List Byte, after = skip ++ 0x1F :: rest → 0x1F ∉ skip →
                (s.cfg.strictMarkerOffset = true → skip ≠ [] →
                    exec .parse s = .next { s with tbuf := Buffer.empty, pay := Buffer.empty, validBits := 8,
                                                   status := .err, err := 0x07 })
                  ∧ (s.cfg.strictMarkerOffset = false ∨ skip = [] →
                    ((∀ a b, rest ≠ a ++ 0x25 :: 0x25 :: b) →
                        exec .parse s = .next { s with tbuf := Buffer.empty, pay := Buffer.empty, validBits := 8,
                                                       status := .err, err := 0x08 })
                      ∧ (∀ b, rest = 0x25 :: 0x25 :: b →
                        exec .parse s = .next { s with tbuf := Buffer.empty, pay := Buffer.empty, validBits := 8,
                                                       status := .err, err := 0x09 })
                      ∧ (∀ tree, rest = tree ++ [0x25, 0x25] → tree ≠ [] →
                        (∀ i, i < tree.length → ¬ (rest[i]? = some 0x25 ∧ rest[i + 1]? = some 0x25)) →
                        exec .parse s = .next { s with tbuf := Buffer.empty, pay := Buffer.empty, validBits := 8,
                                                       status := .err, err := 0x0A })))

/-- The blob tokens (R111, R112, R220), one by one, as steps of the walk: the header byte is kept, the marker fixes where
the tree begins, and the delimiter, its two spans being non-empty, writes the outputs and ends the unit (or the phase,
inside DECOMPRESS, whose next walk begins); an empty span is an error. How the walk keeps what it has found is the model's (log entry 3).
That an error leaves the other transients as before is log entry 7 (DESIGN CHOICE). -/
def Obligations.BlobTokensAdvanceWalk : Prop :=
  (∀ (s : State) (vb : Byte), 1 ≤ vb.toNat → vb.toNat ≤ 8 →
      exec (.validBitsHeader vb) s = .next { s with header := vb, cursor := s.cursor + 1, site := .blobStart })
    ∧ (∀ s : State,
        exec .treeStart s = .next { s with cursor := s.cursor + 1, treeAt := s.cursor + 1, site := .blobEnd })
    ∧ (∀ s : State, s.cfg.unbounded = true → s.cursor ≠ s.treeAt → s.cursor + 2 ≠ s.src.len → s.phase = .pIdle →
        exec .treeEnd s
          = .next { s with validBits := s.header.setWidth 4,
                           tbuf := Buffer.ofList ((s.src.elems.drop s.treeAt).take (s.cursor - s.treeAt)),
                           pay := Buffer.ofList (s.src.elems.drop (s.cursor + 2)), cursor := s.src.len,
                           site := .command, status := .ok, err := 0 })
    ∧ (∀ s : State, s.cfg.unbounded = true → s.cursor ≠ s.treeAt → s.cursor + 2 ≠ s.src.len → s.phase = .dParse →
        exec .treeEnd s
          = .next { s with validBits := s.header.setWidth 4,
                           tbuf := Buffer.ofList ((s.src.elems.drop s.treeAt).take (s.cursor - s.treeAt)),
                           pay := Buffer.ofList (s.src.elems.drop (s.cursor + 2)), cursor := 0, site := .treeToken,
                           phase := .dDeserialize, tree := none, stack := [], leaves := 0 })
    ∧ (∀ s : State, s.cursor = s.treeAt → s.site = .blobEnd → s.phase = .pIdle →
        exec .treeEnd s = .next { s with tbuf := Buffer.empty, pay := Buffer.empty, validBits := 8, site := .command,
                                         status := .err, err := 0x09 })
    ∧ (∀ s : State, s.cursor ≠ s.treeAt → s.cursor + 2 = s.src.len → s.site = .blobEnd → s.phase = .pIdle →
        exec .treeEnd s = .next { s with tbuf := Buffer.empty, pay := Buffer.empty, validBits := 8, site := .command,
                                         status := .err, err := 0x0A })
    ∧ (∀ s : State, (s.cursor = s.treeAt ∨ s.cursor + 2 = s.src.len) → s.phase = .dParse →
        exec .treeEnd s
          = .next { clearWork s with dst := Buffer.empty, phase := .pIdle, site := .command, status := .err,
                                     err := if s.cursor = s.treeAt then 0x09 else 0x0A })

/-- EMIT writes the symbols in the text encoding (R225); after ANALYZE it reproduces SRC byte for byte.
That the transients are as before is log entry 7 (DESIGN CHOICE). -/
def Obligations.EmitWritesText : Prop :=
  (∀ s : State, s.cfg.unbounded = true →
      exec .emit s = .next { s with dst := Buffer.ofList (textBytes s.syms.elems), status := .ok, err := 0 })
    ∧ ∀ s t u : State, s.cfg.unbounded = true → exec .analyze s = .next t → t.status = .ok → exec .emit t = .next u →
        u.dst.elems = s.src.elems

/-! ### CLEAR, illegal codes, the composite commands -/

/-- CLEAR, code 0x0F, empties the working set and the output, leaves SRC alone, and always succeeds; after reset it changes nothing but
STATUS; after it SERIALIZE reports NullNode and BUILD EmptyFrequencyMap (R240). PHASE goes to P_IDLE (R41). That the transients and what
a walk keeps are as before is log entry 7 (DESIGN CHOICE). -/
def Obligations.ClearEmptiesWorkingSet : Prop :=
  decode .command [0x0F] = .ok (.clear, [])
    ∧ (∀ s : State,
      exec .clear s = .next { s with syms := Buffer.empty, freq := [], tree := none, ptab := [], lut := [],
                                     tbuf := Buffer.empty, pay := Buffer.empty, validBits := 8, dst := Buffer.empty,
                                     phase := .pIdle, status := .ok, err := 0 })
    ∧ exec .clear State.reset = .next { State.reset with status := .ok }
    ∧ ∀ s t : State, exec .clear s = .next t →
        (∃ u, exec .serialize t = .next u ∧ u.status = .err ∧ u.err = 0x10)
          ∧ ∃ u, exec .build t = .next u ∧ u.status = .err ∧ u.err = 0x02

/-- Every code R91 does not list is IllegalCommand: nothing changes but CMD, which holds the code, STATUS and ERR (R93,
R257, C13).
That the block is busy between the write and this report is log entry 2 (DESIGN CHOICE). -/
def Obligations.IllegalCodesRefused : Prop :=
  ∀ (s : State) (code : Byte),
    code.toNat ∉ [0x01, 0x02, 0x03, 0x04, 0x05, 0x06, 0x07, 0x08, 0x09, 0x0A, 0x0F, 0x10, 0x11] →
    exec (.illegal code) s = .next { s with status := .err, err := 0x81 }
      ∧ (s.host = [.writeCmd code] → s.status ≠ .busy → s.phase = .pIdle → s.site = .command →
          Host.Core.run Sys2Proof.core 2 s
            = .next { s with host := [], cmd := code, status := .err, err := 0x81 })

/-- R245, which the spec derives from R230, R235 and R240: COMPRESS and DECOMPRESS end with the DST, STATUS and ERR of the
script of unit commands, and differ from it only in the working set, which they clear (and in the transients, and in what
the model keeps of a walk under way, log entries 3 and 7). -/
def Obligations.CompositeEqualsScript : Prop :=
  ∀ s t : State,
    (exec .compress s = .next t →
        t.dst = (runScript compressScript s).dst ∧ t.status = (runScript compressScript s).status
          ∧ t.err = (runScript compressScript s).err
          ∧ { t with site := s.site }.visible = (clearWork (runScript compressScript s)).visible)
      ∧ (exec .decompress s = .next t →
          t.dst = (runScript decompressScript s).dst ∧ t.status = (runScript decompressScript s).status
            ∧ t.err = (runScript decompressScript s).err
            ∧ { t with site := s.site }.visible = (clearWork (runScript decompressScript s)).visible)

/-- Round trip, with its exception (R241, which the spec derives; R290, C1): a text of two or more distinct symbols compresses; if the last leaf of
the built tree is not `%`, decompressing the blob gives the text back, else it reports TruncatedTree. That this
error leaves the transients as before is log entry 7 (DESIGN CHOICE). -/
def Obligations.RoundTripExceptHazard : Prop :=
  ∀ (s : State) (l : List Symbol), s.cfg.plain → validText l → s.src.elems = textBytes l → (∃ x ∈ l, ∃ y ∈ l, x ≠ y) →
    (l.length : Int) ≤ s.cfg.cntMax →
    ∃ (t : State) (r : AnalyzeRegs) (b : BuiltTree),
      exec .compress s = .next t ∧ t.status = .ok ∧ t.err = 0
        ∧ t.visible = { clearWork s with dst := t.dst, phase := .pIdle, status := .ok, err := 0 }.visible
        ∧ analyzeText s.cfg s.src.elems = .ok r ∧ buildTree s.cfg r.freq = .ok b
        ∧ ∀ u : State, u.cfg = s.cfg → u.src.elems = t.dst.elems →
            (b.root.lastSymbol ≠ 0x25 →
                ∃ v, exec .decompress u = .next v
                  ∧ v.visible = { clearWork u with dst := Buffer.ofList (textBytes l), phase := .pIdle,
                                                   status := .ok, err := 0 }.visible)
              ∧ (b.root.lastSymbol = 0x25 →
                  exec .decompress u = .next { clearWork u with dst := Buffer.empty, phase := .pIdle,
                                                                site := .command, status := .err, err := 0x0B })

/-- What COMPRESS can report (R231, which the spec derives, and R244), with unbounded capacities: bytes that are no text, no text, one distinct symbol, and nothing else; after an
error DST and the working set are empty. -/
def Obligations.CompressErrors : Prop :=
  ∀ s t : State, s.cfg.unbounded = true → (s.src.elems.length : Int) ≤ s.cfg.cntMax → exec .compress s = .next t →
    ((¬ ∃ l, validText l ∧ s.src.elems = textBytes l) → t.status = .err ∧ t.err = 0x01)
      ∧ (s.src.elems = [] → t.status = .err ∧ t.err = 0x02)
      ∧ (∀ (x : Symbol) (n : Nat), isScalar x = true → s.src.elems = textBytes (List.replicate (n + 1) x) →
          t.status = .err ∧ t.err = 0x04)
      ∧ (t.status = .err → t.err ∈ [0x01, 0x02, 0x04] ∧ t.dst.len = 0 ∧ t.syms.len = 0 ∧ t.freq = [] ∧ t.tree = none
          ∧ t.ptab = [] ∧ t.lut = [] ∧ t.tbuf.len = 0 ∧ t.pay.len = 0 ∧ t.validBits = 8)

/-- No command's result depends on anything but what its rule says it reads, on one machine: its outputs, STATUS and ERR are
a function of that (R27). COMPRESS and DECOMPRESS read the bytes of SRC alone (R242, which the spec derives from R26, R27 and
R149); BUILD is in BuildIsAFunctionOfTheMap, and CLEAR reads nothing (R240). -/
def Obligations.CommandsDependOnReadsOnly : Prop :=
  ∀ s s' t t' : State, s.cfg = s'.cfg →
    (s.src.elems = s'.src.elems →
        (exec .compress s = .next t → exec .compress s' = .next t' →
            t.dst = t'.dst ∧ t.status = t'.status ∧ t.err = t'.err)
          ∧ (exec .decompress s = .next t → exec .decompress s' = .next t' →
              t.dst = t'.dst ∧ t.status = t'.status ∧ t.err = t'.err)
          ∧ (exec .analyze s = .next t → exec .analyze s' = .next t' →
              t.syms = t'.syms ∧ t.freq = t'.freq ∧ t.status = t'.status ∧ t.err = t'.err)
          ∧ (exec .parse s = .next t → exec .parse s' = .next t' →
              t.validBits = t'.validBits ∧ t.tbuf = t'.tbuf ∧ t.pay = t'.pay ∧ t.status = t'.status ∧ t.err = t'.err))
      ∧ (s.tree = s'.tree →
        (exec .derive s = .next t → exec .derive s' = .next t' →
            t.ptab = t'.ptab ∧ t.lut = t'.lut ∧ t.status = t'.status ∧ t.err = t'.err)
          ∧ (exec .serialize s = .next t → exec .serialize s' = .next t' →
              t.tbuf = t'.tbuf ∧ t.status = t'.status ∧ t.err = t'.err))
      ∧ (s.tbuf.elems = s'.tbuf.elems → exec .deserialize s = .next t → exec .deserialize s' = .next t' →
          t.tree = t'.tree ∧ t.status = t'.status ∧ t.err = t'.err)
      ∧ (s.syms.elems = s'.syms.elems → s.ptab = s'.ptab → exec .encode s = .next t → exec .encode s' = .next t' →
          t.pay = t'.pay ∧ t.validBits = t'.validBits ∧ t.status = t'.status ∧ t.err = t'.err)
      ∧ (s.pay.elems = s'.pay.elems → s.pay.len = s'.pay.len → s.validBits = s'.validBits → s.lut = s'.lut →
          exec .decode s = .next t → exec .decode s' = .next t' →
          t.syms = t'.syms ∧ t.status = t'.status ∧ t.err = t'.err)
      ∧ (s.validBits = s'.validBits → s.tbuf.elems = s'.tbuf.elems → s.pay.elems = s'.pay.elems →
          exec .assemble s = .next t → exec .assemble s' = .next t' →
          t.dst = t'.dst ∧ t.status = t'.status ∧ t.err = t'.err)
      ∧ (s.syms.elems = s'.syms.elems → exec .emit s = .next t → exec .emit s' = .next t' →
          t.dst = t'.dst ∧ t.status = t'.status ∧ t.err = t'.err)

/-- R243, which the spec derives from R220: a blob cut before its payload never decompresses, and which error a cut to k
bytes gives, T being the length of the tree bytes, with and without the hazard of R290; tree bytes never hold the delimiter,
and end in its byte exactly in the hazard case. -/
def Obligations.CutBlobsAreRejected : Prop :=
  (∀ (s t u : State) (l : List Symbol) (r : AnalyzeRegs) (b : BuiltTree) (k : Nat), s.cfg.plain → validText l →
      s.src.elems = textBytes l → exec .compress s = .next t → t.status = .ok → analyzeText s.cfg s.src.elems = .ok r →
      buildTree s.cfg r.freq = .ok b → u.cfg = s.cfg → u.src.elems = t.dst.elems.take k →
      ∃ v, exec .decompress u = .next v ∧
        (k ≤ 1 → v.status = .err ∧ v.err = 0x05)
          ∧ (2 ≤ k → k ≤ 2 + b.root.bytes.length → v.status = .err ∧ v.err = 0x08)
          ∧ (k = 3 + b.root.bytes.length → v.status = .err ∧ v.err = if b.root.lastSymbol = 0x25 then 0x0A else 0x08)
          ∧ (k = 4 + b.root.bytes.length → v.status = .err ∧ v.err = if b.root.lastSymbol = 0x25 then 0x0B else 0x0A))
    ∧ ∀ root : Node,
        (∀ i : Nat, ¬ (root.bytes[i]? = some 0x25 ∧ root.bytes[i + 1]? = some 0x25))
          ∧ (root.bytes.getLast? = some 0x25 ↔ root.lastSymbol = 0x25)

/-- Running a composite command phase by phase, five steps, gives what it gives in one step, in all that the host can see
(R27, R31, R230, R235).
A step per phase is the model's finer grain (log entry 3, DESIGN CHOICE). -/
def Obligations.PhaseStepsMatchComposite : Prop :=
  ∀ s t : State, s.host = [] → s.site = .command →
    (exec .compress s = .next t →
        ∃ u, Host.Core.run Sys2Proof.core 5 { beginComposite .cAnalyze s with status := .busy, err := 0 } = .next u
          ∧ u.visible = t.visible)
      ∧ (exec .decompress s = .next t →
          ∃ u, Host.Core.run Sys2Proof.core 5 { beginComposite .dParse s with status := .busy, err := 0 } = .next u
            ∧ u.visible = t.visible)

/-- Running DECOMPRESS token by token gives what it gives in one step, in all that the host can see, within as many steps
as the blob has bytes and seven (R6, R27, R31, R37).
A step per token or phase is the model's finer grain (log entry 3, DESIGN CHOICE). -/
def Obligations.TokenwiseDecompressMatchesAtomic : Prop :=
  ∀ s t : State, s.host = [] → s.site = .command → s.src.elems.length = s.src.len → exec .decompress s = .next t →
    ∃ u, Host.Core.run Sys2Proof.core (s.src.elems.length + 7)
        (enterBlobWalk { beginComposite .dParse s with status := .busy, err := 0 }) = .next u
      ∧ u.visible = t.visible

/-- A command whose operand was never written finds the reset value (R282). -/
def Obligations.FreshBlockResults : Prop :=
  (∃ t, exec .build State.reset = .next t ∧ t.status = .err ∧ t.err = 0x02)
    ∧ (∃ t, exec .serialize State.reset = .next t ∧ t.status = .err ∧ t.err = 0x10)
    ∧ (∃ t, exec .derive State.reset = .next t ∧ t.status = .err ∧ t.err = 0x10)
    ∧ (∃ t, exec .deserialize State.reset = .next t ∧ t.status = .err ∧ t.err = 0x0B)
    ∧ (∃ t, exec .parse State.reset = .next t ∧ t.status = .err ∧ t.err = 0x05)
    ∧ (∃ t, exec .encode State.reset = .next t ∧ t.status = .ok ∧ t.pay.len = 0)
    ∧ (∃ t, exec .decode State.reset = .next t ∧ t.status = .ok ∧ t.syms.len = 0)
    ∧ (∃ t, exec .emit State.reset = .next t ∧ t.status = .ok ∧ t.dst.len = 0)
    ∧ ∃ t, exec .assemble State.reset = .next t ∧ t.status = .ok ∧ t.dst.elems = [0x08, 0x1F, 0x25, 0x25]
end

