-- ==== Sys2Proof/Laws/Table.lean ====
section
/-! SUPPORT. Finite maps: what a lookup gives after an insertion, and that every map operation keeps the canonical
form. -/

namespace Sys2Proof.Machine

/-! ### The keys are injective -/

theorem symKey_injective {a b : Symbol} (h : symKey a = symKey b) : a = b := BitVec.eq_of_toNat_eq h

@[simp] theorem symKey_eq_iff (a b : Symbol) : symKey a = symKey b ↔ a = b :=
  ⟨symKey_injective, fun h => h ▸ rfl⟩

theorem bitsKey_snoc (c : Bits) (b : Bool) : bitsKey (c ++ [b]) = 2 * bitsKey c + b.toNat := by
  simp [bitsKey]

theorem bitsKey_pos (c : Bits) : 1 ≤ bitsKey c := by
  induction c using List.reverseRecOn with
  | nil => simp [bitsKey]
  | append_singleton c b ih => rw [bitsKey_snoc]; omega

theorem bitsKey_injective {a b : Bits} (h : bitsKey a = bitsKey b) : a = b := by
  induction a using List.reverseRecOn generalizing b with
  | nil =>
    cases b using List.reverseRecOn with
    | nil => rfl
    | append_singleton b y =>
      have hb := bitsKey_pos b
      rw [bitsKey_snoc] at h
      simp only [bitsKey, List.foldl_nil] at h hb
      omega
  | append_singleton a x ih =>
    cases b using List.reverseRecOn with
    | nil =>
      have ha := bitsKey_pos a
      rw [bitsKey_snoc] at h
      simp only [bitsKey, List.foldl_nil] at h ha
      omega
    | append_singleton b y =>
      rw [bitsKey_snoc, bitsKey_snoc] at h
      have hxy : x = y := by cases x <;> cases y <;> simp at h ⊢ <;> omega
      subst hxy
      have hab : a = b := ih (by omega)
      rw [hab]

@[simp] theorem bitsKey_eq_iff (a b : Bits) : bitsKey a = bitsKey b ↔ a = b :=
  ⟨bitsKey_injective, fun h => h ▸ rfl⟩

/-! ### Lookup after insertion -/

variable {κ ν : Type} {key : κ → Nat}

@[simp] theorem Table.lookup_nil (k : κ) : Table.lookup (ν := ν) key k [] = none := rfl

@[simp] theorem Table.insert_nil (k : κ) (v : ν) : Table.insert key k v [] = [(k, v)] := rfl

theorem Table.lookup_insert_self (k : κ) (v : ν) (m : List (κ × ν)) :
    Table.lookup key k (Table.insert key k v m) = some v := by
  induction m with
  | nil => simp [Table.lookup]
  | cons e rest ih =>
    obtain ⟨k', v'⟩ := e
    simp only [Table.insert]
    split
    · simp [Table.lookup]
    · split
      · simp [Table.lookup]
      · rename_i hne; simp [Table.lookup, hne, ih]

theorem Table.lookup_insert_ne {k k1 : κ} (h : key k1 ≠ key k) (v : ν) (m : List (κ × ν)) :
    Table.lookup key k1 (Table.insert key k v m) = Table.lookup key k1 m := by
  induction m with
  | nil => simp [Table.lookup, h]
  | cons e rest ih =>
    obtain ⟨k', v'⟩ := e
    simp only [Table.insert]
    split
    · simp [Table.lookup, h]
    · split
      · rename_i heq; simp [Table.lookup, h, ← heq]
      · simp [Table.lookup, ih]

/-- `m[k] <- v` changes the entry of `k` and no other. -/
theorem Table.lookup_insert (k k1 : κ) (v : ν) (m : List (κ × ν)) :
    Table.lookup key k1 (Table.insert key k v m) = if key k1 = key k then some v else Table.lookup key k1 m := by
  split
  · rename_i h
    have : Table.lookup key k1 (Table.insert key k v m) = Table.lookup key k (Table.insert key k v m) := by
      generalize Table.insert key k v m = m'
      induction m' with
      | nil => rfl
      | cons e rest ih => simp [Table.lookup, h, ih]
    rw [this, Table.lookup_insert_self]
  · rename_i h; exact Table.lookup_insert_ne h v m

/-! ### The canonical form -/

theorem Table.wf_cons {e : κ × ν} {m : List (κ × ν)} :
    Table.wf key (e :: m) = true ↔ (∀ x ∈ m, key e.1 < key x.1) ∧ Table.wf key m = true := by
  obtain ⟨k, v⟩ := e
  simp [Table.wf]

theorem Table.mem_insert {k : κ} {v : ν} {m : List (κ × ν)} {x : κ × ν} (h : x ∈ Table.insert key k v m) :
    x = (k, v) ∨ x ∈ m := by
  induction m with
  | nil => simpa using h
  | cons e rest ih =>
    obtain ⟨k', v'⟩ := e
    simp only [Table.insert] at h
    split at h
    · simpa using h
    · split at h
      · rcases List.mem_cons.1 h with h | h
        · exact .inl h
        · exact .inr (List.mem_cons_of_mem _ h)
      · rcases List.mem_cons.1 h with h | h
        · exact .inr (h ▸ List.mem_cons_self)
        · rcases ih h with h | h
          · exact .inl h
          · exact .inr (List.mem_cons_of_mem _ h)

/-- An insertion keeps the canonical form. -/
theorem Table.wf_insert (k : κ) (v : ν) {m : List (κ × ν)} (h : Table.wf key m = true) :
    Table.wf key (Table.insert key k v m) = true := by
  induction m with
  | nil => simp [Table.wf]
  | cons e rest ih =>
    obtain ⟨k', v'⟩ := e
    obtain ⟨hlt, hrest⟩ := Table.wf_cons.1 h
    simp only [Table.insert]
    split
    · rename_i hk
      refine Table.wf_cons.2 ⟨fun x hx => ?_, h⟩
      rcases List.mem_cons.1 hx with rfl | hx
      · exact hk
      · exact Nat.lt_trans hk (hlt x hx)
    · split
      · rename_i heq
        exact Table.wf_cons.2 ⟨fun x hx => heq ▸ hlt x hx, hrest⟩
      · refine Table.wf_cons.2 ⟨fun x hx => ?_, ih hrest⟩
        rcases Table.mem_insert hx with rfl | hx
        · show key k' < key k
          omega
        · exact hlt x hx

theorem Table.all_insert {p : κ × ν → Bool} {k : κ} {v : ν} {m : List (κ × ν)} (hp : p (k, v) = true)
    (hm : m.all p = true) : (Table.insert key k v m).all p = true := by
  rw [List.all_eq_true] at hm ⊢
  intro x hx
  rcases Table.mem_insert hx with rfl | hx
  · exact hp
  · exact hm x hx

/-- An insertion adds one entry, or none where the key stood already. -/
theorem Table.length_insert (k : κ) (v : ν) (m : List (κ × ν)) (h : Table.wf key m = true) :
    (Table.insert key k v m).length = if (Table.lookup key k m).isSome then m.length else m.length + 1 := by
  induction m with
  | nil => simp
  | cons e rest ih =>
    obtain ⟨k', v'⟩ := e
    obtain ⟨hlt, hrest⟩ := Table.wf_cons.1 h
    simp only [Table.insert, Table.lookup]
    split
    · rename_i hk
      have hno : Table.lookup key k rest = none := by
        clear ih h hrest
        induction rest with
        | nil => rfl
        | cons e2 rest2 ih2 =>
          have h2 : key k' < key e2.1 := hlt e2 List.mem_cons_self
          have hne : key k ≠ key e2.1 := by omega
          simp [Table.lookup, hne]
          exact ih2 (fun x hx => hlt x (List.mem_cons_of_mem _ hx))
      have hne : key k ≠ key k' := by omega
      simp [hne, hno]
    · split
      · simp
      · rw [List.length_cons, ih hrest]
        split <;> simp [*]

theorem Table.wf_ofEntries (entries : List (κ × ν)) : Table.wf key (Table.ofEntries key entries) = true := by
  unfold Table.ofEntries
  suffices h : ∀ m : List (κ × ν), Table.wf key m = true →
      Table.wf key (entries.foldl (fun m e => Table.insert key e.1 e.2 m) m) = true from h [] rfl
  induction entries with
  | nil => intro m h; exact h
  | cons e rest ih => intro m h; exact ih _ (Table.wf_insert e.1 e.2 h)

/-- What a capacity-checked insertion can do: insert, or refuse a new key in a full table. -/
theorem Table.put_cases {cap : Option Nat} {k : κ} {v : ν} {m : List (κ × ν)} {r : Except ErrKind (List (κ × ν))}
    (h : Table.put key cap k v m = r) :
    (r = .ok (Table.insert key k v m) ∧ ((Table.lookup key k m).isSome = true ∨ withinCap cap (m.length + 1) = true))
      ∨ (r = .error .capacityExceeded ∧ Table.lookup key k m = none ∧ withinCap cap (m.length + 1) = false) := by
  unfold Table.put at h
  split at h
  · rename_i hc
    exact .inl ⟨h.symm, by simpa using hc⟩
  · rename_i hc
    simp only [Bool.or_eq_true, not_or, Bool.not_eq_true, Option.isSome_eq_false_iff, Option.isNone_iff_eq_none] at hc
    exact .inr ⟨h.symm, hc⟩

end Sys2Proof.Machine
end

