-- ==== Sys2Proof/Laws/Memory.lean ====
section
/-! SUPPORT. Buffers: what each operation leaves, and that each keeps the canonical form. -/

namespace Sys2Proof.Machine

variable {α : Type}

@[simp] theorem withinCap_none (n : Nat) : withinCap none n = true := rfl

@[simp] theorem withinCap_some (c n : Nat) : withinCap (some c) n = decide (n ≤ c) := rfl

theorem withinCap_mono {cap : Option Nat} {m n : Nat} (h : m ≤ n) (hn : withinCap cap n = true) :
    withinCap cap m = true := by
  cases cap with
  | none => rfl
  | some c => simp only [withinCap_some, decide_eq_true_eq] at hn ⊢; omega

/-! ### The cells of a dense list -/

theorem Table.wf_append {m1 m2 : List (Nat × α)} (h1 : Table.wf id m1 = true) (h2 : Table.wf id m2 = true)
    (h : ∀ x ∈ m1, ∀ y ∈ m2, x.1 < y.1) : Table.wf id (m1 ++ m2) = true := by
  induction m1 with
  | nil => simpa using h2
  | cons e rest ih =>
    obtain ⟨hlt, hrest⟩ := Table.wf_cons.1 h1
    refine Table.wf_cons.2 ⟨fun x hx => ?_, ih hrest (fun x hx => h x (List.mem_cons_of_mem _ hx))⟩
    rcases List.mem_append.1 hx with hx | hx
    · exact hlt x hx
    · exact h e List.mem_cons_self x hx

/-- Inserting above every listed index appends. -/
theorem Table.insert_above {i : Nat} {v : α} {m : List (Nat × α)} (h : ∀ x ∈ m, x.1 < i) :
    Table.insert id i v m = m ++ [(i, v)] := by
  induction m with
  | nil => rfl
  | cons e rest ih =>
    have he : e.1 < i := h e List.mem_cons_self
    have h1 : ¬ i < e.1 := by omega
    have h2 : ¬ i = e.1 := by omega
    simp only [Table.insert, id, h1, h2, if_false, List.cons_append]
    rw [ih (fun x hx => h x (List.mem_cons_of_mem _ hx))]

@[simp] theorem Buffer.ofList_len (l : List α) : (Buffer.ofList l).len = l.length := by unfold Buffer.ofList; simp

@[simp] theorem Buffer.empty_len : (Buffer.empty : Buffer α).len = 0 := by unfold Buffer.empty; simp

@[simp] theorem Buffer.empty_elems : (Buffer.empty : Buffer α).elems = [] := rfl

@[simp] theorem Buffer.ofList_nil : Buffer.ofList ([] : List α) = Buffer.empty := rfl

@[simp] theorem Buffer.ofList_elems (l : List α) : (Buffer.ofList l).elems = l := by
  simp only [Buffer.elems, Buffer.ofList]
  rw [List.take_of_length_le (by simp), ← List.unzip_snd, List.unzip_zip (by simp)]

theorem Buffer.ofList_fst (l : List α) : (Buffer.ofList l).cells.map Prod.fst = List.range l.length := by
  simp only [Buffer.ofList]
  rw [← List.unzip_fst, List.unzip_zip (by simp)]

theorem Buffer.mem_ofList {l : List α} {x : Nat × α} (h : x ∈ (Buffer.ofList l).cells) :
    x.1 < l.length ∧ x.2 ∈ l := by
  obtain ⟨h1, h2⟩ := List.of_mem_zip h
  exact ⟨by simpa using h1, h2⟩

/-- Appending to a buffer that holds exactly `l`. -/
theorem Buffer.ofList_snoc (l : List α) (v : α) :
    (⟨Table.insert id l.length v (Buffer.ofList l).cells, l.length + 1⟩ : Buffer α) = Buffer.ofList (l ++ [v]) := by
  rw [Table.insert_above (fun x hx => (Buffer.mem_ofList hx).1)]
  simp [Buffer.ofList, List.range_succ, List.zip_append]

theorem Buffer.append_ofList (cap : Option Nat) (l : List α) (v : α) :
    (Buffer.ofList l).append cap v
      = if withinCap cap (l.length + 1) then .ok (Buffer.ofList (l ++ [v])) else .error .capacityExceeded := by
  simp only [Buffer.append, Buffer.ofList_len]
  rw [Buffer.ofList_snoc]

/-- A run of appends to a buffer that holds exactly `l`: all of them, or CapacityExceeded. -/
theorem Buffer.appendAll_ofList (cap : Option Nat) (l vs : List α) :
    (Buffer.ofList l).appendAll cap vs
      = if withinCap cap (l.length + vs.length) || vs.isEmpty then .ok (Buffer.ofList (l ++ vs))
        else .error .capacityExceeded := by
  induction vs generalizing l with
  | nil => simp [Buffer.appendAll]
  | cons v vs ih =>
    simp only [Buffer.appendAll, Buffer.append_ofList]
    by_cases h : withinCap cap (l.length + 1) = true
    · simp only [h, if_true]
      rw [ih]
      have e1 : (l ++ [v]).length + vs.length = l.length + (v :: vs).length := by simp; omega
      rw [e1]
      by_cases hv : vs = []
      · subst hv; simp [h]
      · have : vs.isEmpty = false := by simpa using hv
        simp [this]
    · have h2 : ¬ withinCap cap (l.length + (v :: vs).length) = true :=
        fun hn => h (withinCap_mono (by simp) hn)
      rw [Bool.not_eq_true] at h2
      simp only [List.length_cons] at h2
      simp [h, h2]

/-- A command's write of a buffer (R62): from length 0, by appends. -/
theorem Buffer.appendAll_empty (cap : Option Nat) (vs : List α) :
    (Buffer.empty : Buffer α).appendAll cap vs
      = if withinCap cap vs.length || vs.isEmpty then .ok (Buffer.ofList vs) else .error .capacityExceeded := by
  have := Buffer.appendAll_ofList cap [] vs
  simpa using this

theorem Buffer.appendAll_append (cap : Option Nat) (b : Buffer α) (vs ws : List α) :
    b.appendAll cap (vs ++ ws)
      = match b.appendAll cap vs with
        | .ok b' => b'.appendAll cap ws
        | .error k => .error k := by
  induction vs generalizing b with
  | nil => rfl
  | cons v vs ih =>
    simp only [List.cons_append, Buffer.appendAll]
    cases b.append cap v with
    | error k => rfl
    | ok b' => exact ih b'

/-! ### The canonical form -/

theorem Buffer.wf_iff {cap : Option Nat} {b : Buffer α} :
    b.wf cap = true ↔ Memory.wf b.cells ∧ (b.cells.take b.len).map Prod.fst = List.range b.len
      ∧ withinCap cap b.len = true ∧ ∀ e ∈ b.cells, withinCap cap (e.1 + 1) = true := by
  simp [Buffer.wf, Memory.wf, and_assoc]

@[simp] theorem Buffer.wf_empty (cap : Option Nat) : (Buffer.empty : Buffer α).wf cap = true := by
  cases cap <;> simp [Buffer.wf, Buffer.empty, Table.wf, withinCap]

theorem Table.wf_of_fst_range {m : List (Nat × α)} {n : Nat} (h : m.map Prod.fst = List.range n) :
    Table.wf id m = true := by
  induction n generalizing m with
  | zero =>
    have : m = [] := by simpa using h
    subst this; rfl
  | succ n ih =>
    rw [List.range_succ] at h
    obtain ⟨m1, m2, rfl, h1, h2⟩ := List.map_eq_append_iff.1 h
    obtain ⟨x, m3, rfl, hx, h3⟩ := List.map_eq_cons_iff.1 h2
    have : m3 = [] := by simpa using h3
    subst this
    refine Table.wf_append (ih h1) (by simp [Table.wf]) (fun a ha b hb => ?_)
    have hb' : b = x := by simpa using hb
    have : a.1 ∈ List.range n := h1 ▸ List.mem_map_of_mem ha
    rw [hb', hx]
    simpa using this

theorem Buffer.wf_ofList {cap : Option Nat} {l : List α} (h : withinCap cap l.length = true) :
    (Buffer.ofList l).wf cap = true := by
  refine Buffer.wf_iff.2 ⟨Table.wf_of_fst_range (Buffer.ofList_fst l), ?_, h, fun e he => ?_⟩
  · rw [Buffer.ofList_len, List.take_of_length_le (by simp [Buffer.ofList]), Buffer.ofList_fst]
  · exact withinCap_mono (Buffer.mem_ofList he).1 h

/-- A buffer in canonical form has as many elements as its length says. -/
theorem Buffer.elems_length {cap : Option Nat} {b : Buffer α} (h : b.wf cap = true) : b.elems.length = b.len := by
  have h2 := congrArg List.length (Buffer.wf_iff.1 h).2.1
  simpa [Buffer.elems] using h2

theorem Buffer.len_le_cells {cap : Option Nat} {b : Buffer α} (h : b.wf cap = true) : b.len ≤ b.cells.length := by
  have h2 := Buffer.elems_length h
  simp only [Buffer.elems, List.length_map, List.length_take] at h2
  omega

/-- The cells of a buffer in canonical form: those below the length, dense, then those at or above it. -/
theorem Buffer.cells_split {cap : Option Nat} {b : Buffer α} (h : b.wf cap = true) :
    (∀ x ∈ b.cells.take b.len, x.1 < b.len) ∧ (∀ x ∈ b.cells.drop b.len, b.len ≤ x.1) := by
  obtain ⟨hwf, hfst, -, -⟩ := Buffer.wf_iff.1 h
  have hlow : ∀ x ∈ b.cells.take b.len, x.1 < b.len := fun x hx => by
    have : x.1 ∈ List.range b.len := hfst ▸ List.mem_map_of_mem hx
    simpa using this
  refine ⟨hlow, fun x hx => ?_⟩
  rcases Nat.eq_zero_or_pos b.len with h0 | hpos
  · omega
  · have hlast : b.len - 1 ∈ (b.cells.take b.len).map Prod.fst := by rw [hfst]; simp; omega
    obtain ⟨y, hy, hy1⟩ := List.mem_map.1 hlast
    have hord : ∀ (m1 m2 : List (Nat × α)), Table.wf id (m1 ++ m2) = true → ∀ y ∈ m1, ∀ x ∈ m2, y.1 < x.1 := by
      intro m1
      induction m1 with
      | nil => intro m2 _ y hy; cases hy
      | cons e rest ih =>
        intro m2 hw y hy x hx
        obtain ⟨hlt, hrest⟩ := Table.wf_cons.1 hw
        rcases List.mem_cons.1 hy with rfl | hy
        · exact hlt x (List.mem_append_right _ hx)
        · exact ih m2 hrest y hy x hx
    have := hord (b.cells.take b.len) (b.cells.drop b.len) (by rw [List.take_append_drop]; exact hwf) y hy x hx
    omega

/-- One host write of an element keeps the canonical form. -/
theorem Buffer.wf_writeAt {cap : Option Nat} {b : Buffer α} {i : Nat} {v : α} (h : b.wf cap = true)
    (hi : withinCap cap (i + 1) = true) : (b.writeAt i v).wf cap = true := by
  obtain ⟨hwf, hfst, hcap, hall⟩ := Buffer.wf_iff.1 h
  refine Buffer.wf_iff.2 ⟨Table.wf_insert i v hwf, ?_, hcap, fun e he => ?_⟩
  · have key : ∀ (n : Nat) (k : Nat) (m : List (Nat × α)), (m.take n).map Prod.fst = List.range' k n →
        ((Table.insert id i v m).take n).map Prod.fst = List.range' k n ∨ i < k := by
      intro n
      induction n with
      | zero => intro k m _; left; simp
      | succ n ih =>
        intro k m hm
        match m, hm with
        | [], hm => simp [List.range'_succ] at hm
        | e :: rest, hm =>
          simp only [List.take_succ_cons, List.map_cons, List.range'_succ, List.cons.injEq] at hm
          by_cases hik : i < k
          · exact .inr hik
          · left
            simp only [Table.insert, id]
            have h1 : ¬ i < e.1 := by omega
            simp only [h1, if_false]
            split
            · rename_i heq
              simp only [List.take_succ_cons, List.map_cons, List.range'_succ, List.cons.injEq]
              exact ⟨by omega, hm.2⟩
            · rename_i hne
              simp only [List.take_succ_cons, List.map_cons, List.range'_succ, List.cons.injEq]
              refine ⟨hm.1, ?_⟩
              rcases ih (k + 1) rest hm.2 with h2 | h2
              · exact h2
              · omega
    have := key b.len 0 b.cells (by rw [hfst, List.range_eq_range'])
    rw [List.range_eq_range']
    rcases this with h2 | h2
    · exact h2
    · omega
  · rcases Table.mem_insert he with rfl | he
    · exact hi
    · exact hall e he

theorem Buffer.wf_fill (fresh : Nat → α) (is : List Nat) {cells : List (Nat × α)} (h : Table.wf id cells = true) :
    Table.wf id (Buffer.fill fresh cells is) = true := by
  induction is generalizing cells with
  | nil => exact h
  | cons i is ih =>
    simp only [Buffer.fill, List.foldl_cons]
    split
    · exact ih h
    · exact ih (Table.wf_insert _ _ h)

theorem Buffer.mem_fill {fresh : Nat → α} {is : List Nat} {cells : List (Nat × α)} {x : Nat × α}
    (h : x ∈ Buffer.fill fresh cells is) : x ∈ cells ∨ (x.1 ∈ is ∧ x.2 = fresh x.1) := by
  induction is generalizing cells with
  | nil => exact .inl h
  | cons i is ih =>
    simp only [Buffer.fill, List.foldl_cons] at h
    split at h
    · rcases ih h with h | ⟨h1, h2⟩
      · exact .inl h
      · exact .inr ⟨List.mem_cons_of_mem _ h1, h2⟩
    · rcases ih h with h | ⟨h1, h2⟩
      · rcases Table.mem_insert h with rfl | h
        · exact .inr ⟨List.mem_cons_self, rfl⟩
        · exact .inl h
      · exact .inr ⟨List.mem_cons_of_mem _ h1, h2⟩

theorem Buffer.lookup_fill (fresh : Nat → α) (is : List Nat) (cells : List (Nat × α)) (i : Nat) :
    Table.lookup id i (Buffer.fill fresh cells is)
      = if i ∈ is then some ((Table.lookup id i cells).getD (fresh i)) else Table.lookup id i cells := by
  induction is generalizing cells with
  | nil => simp [Buffer.fill]
  | cons j is ih =>
    have hstep : Buffer.fill fresh cells (j :: is)
        = Buffer.fill fresh (if (Table.lookup id j cells).isSome then cells else Table.insert id j (fresh j) cells) is :=
      rfl
    rw [hstep, ih]
    by_cases hj : (Table.lookup id j cells).isSome = true
    · simp only [hj, if_true]
      by_cases hij : i = j
      · subst hij
        obtain ⟨v, hv⟩ := Option.isSome_iff_exists.1 hj
        simp [hv]
      · simp [hij]
    · simp only [hj]
      by_cases hij : i = j
      · subst hij
        have hn : Table.lookup id i cells = none := by simpa using hj
        simp [Table.lookup_insert, hn]
      · simp [Table.lookup_insert, hij]

theorem Table.lookup_isSome_of_mem {m : List (Nat × α)} {i : Nat} (h : i ∈ m.map Prod.fst) :
    (Table.lookup id i m).isSome = true := by
  induction m with
  | nil => simp at h
  | cons e rest ih =>
    simp only [Table.lookup, id]
    split
    · rfl
    · rename_i hne
      rcases List.mem_cons.1 h with h | h
      · exact absurd h hne
      · exact ih h

theorem Table.mem_of_lookup {m : List (Nat × α)} {i : Nat} (h : (Table.lookup id i m).isSome = true) :
    ∃ v, (i, v) ∈ m := by
  induction m with
  | nil => simp at h
  | cons e rest ih =>
    simp only [Table.lookup, id] at h
    split at h
    · rename_i heq
      exact ⟨e.2, by rw [heq]; exact List.mem_cons_self⟩
    · obtain ⟨v, hv⟩ := ih h
      exact ⟨v, List.mem_cons_of_mem _ hv⟩

/-- In canonical form, a run of listed indices from the start is dense. -/
theorem Table.take_dense (n : Nat) : ∀ (k : Nat) (m : List (Nat × α)), Table.wf id m = true → (∀ x ∈ m, k ≤ x.1) →
    (∀ i, k ≤ i → i < k + n → ∃ v, (i, v) ∈ m) → (m.take n).map Prod.fst = List.range' k n := by
  induction n with
  | zero => intros; simp
  | succ n ih =>
    intro k m hwf hge hin
    match m, hwf, hge, hin with
    | [], _, _, hin => obtain ⟨v, hv⟩ := hin k (Nat.le_refl k) (by omega); cases hv
    | e :: rest, hwf, hge, hin =>
      obtain ⟨hlt, hrest⟩ := Table.wf_cons.1 hwf
      have he : e.1 = k := by
        obtain ⟨v, hv⟩ := hin k (Nat.le_refl k) (by omega)
        rcases List.mem_cons.1 hv with hv | hv
        · rw [← hv]
        · have h1 := hlt _ hv
          have h2 := hge e List.mem_cons_self
          simp only [id] at h1
          omega
      rw [List.take_succ_cons, List.map_cons, List.range'_succ, he]
      congr 1
      refine ih (k + 1) rest hrest (fun x hx => ?_) (fun i h1 h2 => ?_)
      · have := hlt x hx
        simp only [id] at this
        omega
      · obtain ⟨v, hv⟩ := hin i (by omega) (by omega)
        rcases List.mem_cons.1 hv with hv | hv
        · rw [← hv] at he; simp only at he; omega
        · exact ⟨v, hv⟩

theorem Table.wf_filter {m : List (Nat × α)} (p : Nat × α → Bool) (h : Table.wf id m = true) :
    Table.wf id (m.filter p) = true := by
  induction m with
  | nil => exact h
  | cons e rest ih =>
    obtain ⟨hlt, hrest⟩ := Table.wf_cons.1 h
    simp only [List.filter_cons]
    split
    · exact Table.wf_cons.2 ⟨fun x hx => hlt x (List.mem_filter.1 hx).1, ih hrest⟩
    · exact ih hrest

/-- Every index below the length of a buffer in canonical form is listed. -/
theorem Buffer.listed_below {cap : Option Nat} {b : Buffer α} (h : b.wf cap = true) {i : Nat} (hi : i < b.len) :
    ∃ v, (i, v) ∈ b.cells := by
  have : i ∈ (b.cells.take b.len).map Prod.fst := by rw [(Buffer.wf_iff.1 h).2.1]; simpa using hi
  obtain ⟨x, hx, rfl⟩ := List.mem_map.1 this
  exact ⟨x.2, List.mem_of_mem_take hx⟩

/-- A host write of a length register keeps the canonical form. -/
theorem Buffer.wf_setLen {cap : Option Nat} {b : Buffer α} {n : Nat} (fresh : Nat → α) (h : b.wf cap = true)
    (hn : withinCap cap n = true) : (b.setLen fresh n).wf cap = true := by
  obtain ⟨hwf, -, -, hall⟩ := Buffer.wf_iff.1 h
  unfold Buffer.setLen
  split
  · rename_i hlt
    refine Buffer.wf_iff.2 ⟨Table.wf_filter _ hwf, ?_, hn, fun e he => hall e (List.mem_filter.1 he).1⟩
    rw [List.range_eq_range']
    refine Table.take_dense n 0 _ (Table.wf_filter _ hwf) (fun _ _ => Nat.zero_le _) (fun i _ hi => ?_)
    obtain ⟨v, hv⟩ := Buffer.listed_below h (i := i) (by omega)
    exact ⟨v, List.mem_filter.2 ⟨hv, by simp; omega⟩⟩
  · refine Buffer.wf_iff.2 ⟨Buffer.wf_fill _ _ hwf, ?_, hn, fun e he => ?_⟩
    · rw [List.range_eq_range']
      refine Table.take_dense n 0 _ (Buffer.wf_fill _ _ hwf) (fun _ _ => Nat.zero_le _) (fun i _ hi => ?_)
      exact Table.mem_of_lookup (by rw [Buffer.lookup_fill, if_pos (by simpa using hi)]; rfl)
    · rcases Buffer.mem_fill he with he | ⟨he, -⟩
      · exact hall e he
      · have : e.1 < n := by simpa using he
        exact withinCap_mono this hn

/-- An append keeps the canonical form. -/
theorem Buffer.wf_append {cap : Option Nat} {b b' : Buffer α} {v : α} (h : b.wf cap = true)
    (hb : b.append cap v = .ok b') : b'.wf cap = true := by
  unfold Buffer.append at hb
  split at hb
  · rename_i hc
    cases hb
    have h1 := Buffer.wf_iff.1 (Buffer.wf_writeAt (v := v) h hc)
    refine Buffer.wf_iff.2 ⟨h1.1, ?_, hc, h1.2.2.2⟩
    rw [List.range_eq_range']
    refine Table.take_dense (b.len + 1) 0 _ h1.1 (fun _ _ => Nat.zero_le _) (fun i _ hi => ?_)
    refine Table.mem_of_lookup ?_
    rw [Table.lookup_insert]
    split
    · rfl
    · rename_i hne
      obtain ⟨w, hw⟩ := Buffer.listed_below h (i := i) (by simp only [id] at hne; omega)
      exact Table.lookup_isSome_of_mem (List.mem_map_of_mem hw)
  · cases hb

theorem Buffer.wf_appendAll {cap : Option Nat} {b b' : Buffer α} {vs : List α} (h : b.wf cap = true)
    (hb : b.appendAll cap vs = .ok b') : b'.wf cap = true := by
  induction vs generalizing b with
  | nil => simp only [Buffer.appendAll] at hb; cases hb; exact h
  | cons v vs ih =>
    simp only [Buffer.appendAll] at hb
    split at hb
    · rename_i b1 h1
      exact ih (Buffer.wf_append h h1) hb
    · cases hb

/-! ### Reading one element -/

/-- A read below the length gives the element; at or beyond it, none (20_memory.md R61). -/
theorem Buffer.read_ofList (l : List α) (i : Nat) : (Buffer.ofList l).read i = l[i]? := by
  simp only [Buffer.read, Buffer.ofList_len]
  by_cases hi : i < l.length
  · rw [if_pos hi]
    have : ∀ (l : List α) (k i : Nat), i < l.length →
        Table.lookup id (k + i) ((List.range' k l.length).zip l) = l[i]? := by
      intro l
      induction l with
      | nil => intro k i h; simp at h
      | cons x xs ih =>
        intro k i h
        simp only [List.length_cons, List.range'_succ, List.zip_cons_cons, Table.lookup, id]
        cases i with
        | zero => simp
        | succ i =>
          have hne : ¬ k + (i + 1) = k := by omega
          simp only [hne, if_false, List.getElem?_cons_succ]
          rw [← ih (k + 1) i (by simpa using h)]
          congr 1
          omega
    have h0 := this l 0 i hi
    rw [Nat.zero_add] at h0
    rw [← h0]
    simp [Buffer.ofList, List.range_eq_range']
  · rw [if_neg hi, List.getElem?_eq_none (by omega)]

/-- A host write of one element changes what is read there and nowhere else. -/
theorem Buffer.read_writeAt (b : Buffer α) (i j : Nat) (v : α) :
    (b.writeAt i v).read j = if j = i ∧ j < b.len then some v else b.read j := by
  simp only [Buffer.read, Buffer.writeAt, Table.lookup_insert, id]
  by_cases hij : j = i
  · subst hij
    by_cases hj : j < b.len <;> simp [hj]
  · simp [hij]

/-- The memory of the state after reset is in canonical form. -/
theorem reset_memory_wf :
    Memory.wf State.reset.src.cells ∧ Memory.wf State.reset.dst.cells ∧ Memory.wf State.reset.syms.cells
      ∧ Memory.wf State.reset.tbuf.cells ∧ Memory.wf State.reset.pay.cells := ⟨rfl, rfl, rfl, rfl, rfl⟩

end Sys2Proof.Machine
end

