-- ==== Sys2Proof/Laws/Utf8.lean ====
section
/-! SUPPORT. The text encoding in numbers: what a lead byte, a continuation byte and a decoded symbol are, and that a
decoded symbol is a scalar value. -/

namespace Sys2Proof

theorem byte_field_toNat (b : Byte) (k : Nat) (m : Byte) (hm : m.toNat = 2 ^ k - 1) :
    ((b &&& m).setWidth 21).toNat = b.toNat % 2 ^ k := by
  have h1 : (b &&& m).toNat = b.toNat % 2 ^ k := by
    rw [BitVec.toNat_and, hm]; exact Nat.and_two_pow_sub_one_eq_mod _ _
  rw [BitVec.toNat_setWidth, h1]
  have := Nat.mod_le b.toNat (2 ^ k)
  omega

/-- One more continuation byte appends its six payload bits (R101). -/
theorem utf8Push_toNat {v : Symbol} {c : Byte} (h : v.toNat < 2 ^ 15) :
    (utf8Push v c).toNat = v.toNat * 64 + c.toNat % 64 := by
  have h2 : ((c &&& 0x3F).setWidth 21).toNat = c.toNat % 64 := byte_field_toNat c 6 0x3F rfl
  unfold utf8Push
  rw [BitVec.toNat_or, h2, BitVec.toNat_shiftLeft, Nat.shiftLeft_eq, Nat.mod_eq_of_lt (by omega)]
  have := Nat.shiftLeft_add_eq_or_of_lt (b := c.toNat % 64) (i := 6) (by omega) v.toNat
  rw [Nat.shiftLeft_eq] at this
  omega

/-- The lead-byte table in numbers: the ranges of R101 and the payload bits of the lead byte. -/
theorem utf8Lead_cases {b0 : Byte} {l : Utf8Lead} (h : utf8Lead b0 = some l) :
    (l.follow = 1 ∧ l.lo = 0x80 ∧ l.hi = 0xBF ∧ 0xC2 ≤ b0.toNat ∧ b0.toNat ≤ 0xDF ∧ l.bits.toNat = b0.toNat - 0xC0)
    ∨ (l.follow = 2 ∧ l.bits.toNat = b0.toNat - 0xE0 ∧
        ((b0.toNat = 0xE0 ∧ l.lo = 0xA0 ∧ l.hi = 0xBF) ∨ (b0.toNat = 0xED ∧ l.lo = 0x80 ∧ l.hi = 0x9F)
          ∨ (0xE1 ≤ b0.toNat ∧ b0.toNat ≤ 0xEF ∧ b0.toNat ≠ 0xED ∧ l.lo = 0x80 ∧ l.hi = 0xBF)))
    ∨ (l.follow = 3 ∧ l.bits.toNat = b0.toNat - 0xF0 ∧
        ((b0.toNat = 0xF0 ∧ l.lo = 0x90 ∧ l.hi = 0xBF) ∨ (b0.toNat = 0xF4 ∧ l.lo = 0x80 ∧ l.hi = 0x8F)
          ∨ (0xF1 ≤ b0.toNat ∧ b0.toNat ≤ 0xF3 ∧ l.lo = 0x80 ∧ l.hi = 0xBF))) := by
  have h5 := byte_field_toNat b0 5 0x1F rfl
  have h4 := byte_field_toNat b0 4 0x0F rfl
  have h3 := byte_field_toNat b0 3 0x07 rfl
  unfold utf8Lead at h
  split at h
  · rename_i hr; cases h; exact .inl ⟨rfl, rfl, rfl, hr.1, hr.2, by rw [h5]; omega⟩
  split at h
  · rename_i hr; cases h; exact .inr (.inl ⟨rfl, by rw [h4]; omega, .inl ⟨hr, rfl, rfl⟩⟩)
  split at h
  · rename_i hr; cases h
    exact .inr (.inl ⟨rfl, by rw [h4]; omega, .inr (.inr ⟨hr.1, by omega, by omega, rfl, rfl⟩)⟩)
  split at h
  · rename_i hr; cases h; exact .inr (.inl ⟨rfl, by rw [h4]; omega, .inr (.inl ⟨hr, rfl, rfl⟩)⟩)
  split at h
  · rename_i hr; cases h
    exact .inr (.inl ⟨rfl, by rw [h4]; omega, .inr (.inr ⟨by omega, hr.2, by omega, rfl, rfl⟩)⟩)
  split at h
  · rename_i hr; cases h; exact .inr (.inr ⟨rfl, by rw [h3]; omega, .inl ⟨hr, rfl, rfl⟩⟩)
  split at h
  · rename_i hr; cases h; exact .inr (.inr ⟨rfl, by rw [h3]; omega, .inr (.inr ⟨hr.1, hr.2, rfl, rfl⟩)⟩)
  split at h
  · rename_i hr; cases h; exact .inr (.inr ⟨rfl, by rw [h3]; omega, .inr (.inl ⟨hr, rfl, rfl⟩)⟩)
  · cases h

/-- R101's loop, one turn: a byte in range is there, and the rest decodes. -/
theorem utf8Tail_succ_ok {k : Nat} {lo hi : Byte} {v s : Symbol} {w w' : Nat} {rest : List Byte} :
    utf8Tail (k + 1) lo hi v w rest = .ok s w' ↔
      ∃ c rest', rest = c :: rest' ∧ lo.toNat ≤ c.toNat ∧ c.toNat ≤ hi.toNat
        ∧ utf8Tail k 0x80 0xBF (utf8Push v c) w rest' = .ok s w' := by
  cases rest with
  | nil => simp [utf8Tail]
  | cons c rest' =>
    simp only [utf8Tail]
    split
    · rename_i h
      constructor
      · intro h2; exact ⟨c, rest', rfl, h.1, h.2, h2⟩
      · rintro ⟨c2, r2, he, -, -, h2⟩
        cases he; exact h2
    · rename_i h
      constructor
      · intro h2; cases h2
      · rintro ⟨c2, r2, he, h1, h2, -⟩
        cases he; exact absurd ⟨h1, h2⟩ h

@[simp] theorem utf8Tail_zero (lo hi : Byte) (v : Symbol) (w : Nat) (rest : List Byte) :
    utf8Tail 0 lo hi v w rest = .ok v w := rfl

theorem isScalar_iff (s : Symbol) :
    isScalar s = true ↔ s.toNat < 0xD800 ∨ (0xE000 ≤ s.toNat ∧ s.toNat ≤ 0x10FFFF) := by
  simp [isScalar]

/-- What a successful Utf8Decode gives (R101): a scalar value, and the width R102 gives it, within the buffer. -/
theorem utf8Decode_ok {bytes : List Byte} {s : Symbol} {w : Nat} (h : utf8Decode bytes = .ok s w) :
    isScalar s = true ∧ w = utf8Width s ∧ 1 ≤ w ∧ w ≤ bytes.length := by
  cases bytes with
  | nil => cases h
  | cons b0 rest =>
    simp only [utf8Decode] at h
    split at h
    · rename_i hb
      cases h
      have hs : (b0.setWidth 21).toNat = b0.toNat := by rw [BitVec.toNat_setWidth]; omega
      refine ⟨(isScalar_iff _).2 (.inl (by omega)), ?_, Nat.le_refl 1, by simp⟩
      simp [utf8Width, hs, hb]
    · split at h
      · cases h
      · rename_i l hl
        rcases utf8Lead_cases hl with ⟨hf, hlo, hhi, h1, h2, hbits⟩ | ⟨hf, hbits, hr⟩ | ⟨hf, hbits, hr⟩
        · rw [hf] at h
          obtain ⟨c, r1, rfl, hc1, hc2, h⟩ := utf8Tail_succ_ok.1 h
          cases h
          rw [hlo] at hc1; rw [hhi] at hc2
          have hp := utf8Push_toNat (v := l.bits) (c := c) (by omega)
          have e1 : (0x80 : Byte).toNat = 0x80 := rfl
          have e2 : (0xBF : Byte).toNat = 0xBF := rfl
          refine ⟨(isScalar_iff _).2 (.inl (by omega)), ?_, by omega, by simp⟩
          unfold utf8Width
          rw [if_neg (by omega), if_pos (by omega)]
        · rw [hf] at h
          obtain ⟨c, r1, rfl, hc1, hc2, h⟩ := utf8Tail_succ_ok.1 h
          obtain ⟨d, r2, rfl, hd1, hd2, h⟩ := utf8Tail_succ_ok.1 h
          cases h
          have hp := utf8Push_toNat (v := l.bits) (c := c) (by omega)
          have hq := utf8Push_toNat (v := utf8Push l.bits c) (c := d) (by omega)
          have e1 : (0x80 : Byte).toNat = 0x80 := rfl
          have e2 : (0xBF : Byte).toNat = 0xBF := rfl
          have e3 : (0xA0 : Byte).toNat = 0xA0 := rfl
          have e4 : (0x9F : Byte).toNat = 0x9F := rfl
          refine ⟨(isScalar_iff _).2 ?_, ?_, by omega, by simp⟩
          · rcases hr with ⟨hb, hlo, hhi⟩ | ⟨hb, hlo, hhi⟩ | ⟨hb1, hb2, hb3, hlo, hhi⟩ <;> rw [hlo] at hc1 <;>
              rw [hhi] at hc2 <;> omega
          · unfold utf8Width
            rcases hr with ⟨hb, hlo, hhi⟩ | ⟨hb, hlo, hhi⟩ | ⟨hb1, hb2, hb3, hlo, hhi⟩ <;> rw [hlo] at hc1 <;>
              rw [hhi] at hc2 <;> rw [if_neg (by omega), if_neg (by omega), if_pos (by omega)]
        · rw [hf] at h
          obtain ⟨c, r1, rfl, hc1, hc2, h⟩ := utf8Tail_succ_ok.1 h
          obtain ⟨d, r2, rfl, hd1, hd2, h⟩ := utf8Tail_succ_ok.1 h
          obtain ⟨e, r3, rfl, he1, he2, h⟩ := utf8Tail_succ_ok.1 h
          cases h
          have hp := utf8Push_toNat (v := l.bits) (c := c) (by omega)
          have e1 : (0x80 : Byte).toNat = 0x80 := rfl
          have e2 : (0xBF : Byte).toNat = 0xBF := rfl
          have e3 : (0x90 : Byte).toNat = 0x90 := rfl
          have e4 : (0x8F : Byte).toNat = 0x8F := rfl
          have hq := utf8Push_toNat (v := utf8Push l.bits c) (c := d) (by omega)
          have hs := utf8Push_toNat (v := utf8Push (utf8Push l.bits c) d) (c := e) (by omega)
          refine ⟨(isScalar_iff _).2 ?_, ?_, by omega, by simp⟩
          · rcases hr with ⟨hb, hlo, hhi⟩ | ⟨hb, hlo, hhi⟩ | ⟨hb1, hb2, hlo, hhi⟩ <;> rw [hlo] at hc1 <;>
              rw [hhi] at hc2 <;> omega
          · unfold utf8Width
            rcases hr with ⟨hb, hlo, hhi⟩ | ⟨hb, hlo, hhi⟩ | ⟨hb1, hb2, hlo, hhi⟩ <;> rw [hlo] at hc1 <;>
              rw [hhi] at hc2 <;> rw [if_neg (by omega), if_neg (by omega), if_neg (by omega)]

/-- R102 and R103 agree on the number of bytes. -/
theorem utf8Encode_length (s : Symbol) : (utf8Encode s).length = utf8Width s := by
  unfold utf8Encode utf8Width
  split
  · rfl
  split
  · rfl
  split <;> rfl

theorem utf8Width_pos (s : Symbol) : 1 ≤ utf8Width s := by
  unfold utf8Width
  split
  · omega
  split
  · omega
  split <;> omega

theorem utf8Encode_ne_nil (s : Symbol) : utf8Encode s ≠ [] := by
  intro h
  have h1 := utf8Encode_length s
  have h2 := utf8Width_pos s
  rw [h, List.length_nil] at h1
  omega

end Sys2Proof
end

