-- ==== Sys2Proof/Laws/PerInstr.lean ====
section
/-! SUPPORT. Statements about every constructor of `Instr`, one lemma each. -/

namespace Sys2Proof.Laws.EncodingLength

open Sys2Proof

/-- An instruction takes at least one byte and at most the five of a leaf with a four-byte symbol, the bytes
`tableBytes` lays out. -/
def Statement (i : Instr) : Prop := 1 ≤ (Sys2Proof.encode i).length ∧ (Sys2Proof.encode i).length ≤ 5

theorem analyze : Statement .analyze := by simp [Statement, Sys2Proof.encode]
theorem build : Statement .build := by simp [Statement, Sys2Proof.encode]
theorem derive : Statement .derive := by simp [Statement, Sys2Proof.encode]
theorem serialize : Statement .serialize := by simp [Statement, Sys2Proof.encode]
theorem deserialize : Statement .deserialize := by simp [Statement, Sys2Proof.encode]
theorem encode : Statement .encode := by simp [Statement, Sys2Proof.encode]
theorem decode : Statement .decode := by simp [Statement, Sys2Proof.encode]
theorem assemble : Statement .assemble := by simp [Statement, Sys2Proof.encode]
theorem parse : Statement .parse := by simp [Statement, Sys2Proof.encode]
theorem emit : Statement .emit := by simp [Statement, Sys2Proof.encode]
theorem clear : Statement .clear := by simp [Statement, Sys2Proof.encode]
theorem compress : Statement .compress := by simp [Statement, Sys2Proof.encode]
theorem decompress : Statement .decompress := by simp [Statement, Sys2Proof.encode]
theorem illegal (code : Byte) : Statement (.illegal code) := by simp [Statement, Sys2Proof.encode]
theorem nodeInternal : Statement .nodeInternal := by simp [Statement, Sys2Proof.encode]

theorem nodeLeaf (sym : Symbol) : Statement (.nodeLeaf sym) := by
  simp only [Statement, Sys2Proof.encode, List.length_cons, utf8Encode_length, utf8Width]
  split_ifs <;> omega

theorem nodeIllegal (marker : Byte) : Statement (.nodeIllegal marker) := by simp [Statement, Sys2Proof.encode]
theorem treeStart : Statement .treeStart := by simp [Statement, Sys2Proof.encode]
theorem treeEnd : Statement .treeEnd := by simp [Statement, Sys2Proof.encode]
theorem validBitsHeader (vb : Byte) : Statement (.validBitsHeader vb) := by simp [Statement, Sys2Proof.encode]

end Sys2Proof.Laws.EncodingLength
end

