-- ==== Sys2Proof/Laws/State.lean ====
section
/-! SUPPORT. What each named update of the state leaves in each field. -/

namespace Sys2Proof.Machine

@[simp] theorem State.succeed_src (s : State) : s.succeed.src = s.src := rfl
@[simp] theorem State.succeed_dst (s : State) : s.succeed.dst = s.dst := rfl
@[simp] theorem State.succeed_syms (s : State) : s.succeed.syms = s.syms := rfl
@[simp] theorem State.succeed_freq (s : State) : s.succeed.freq = s.freq := rfl
@[simp] theorem State.succeed_tree (s : State) : s.succeed.tree = s.tree := rfl
@[simp] theorem State.succeed_ptab (s : State) : s.succeed.ptab = s.ptab := rfl
@[simp] theorem State.succeed_lut (s : State) : s.succeed.lut = s.lut := rfl
@[simp] theorem State.succeed_tbuf (s : State) : s.succeed.tbuf = s.tbuf := rfl
@[simp] theorem State.succeed_pay (s : State) : s.succeed.pay = s.pay := rfl
@[simp] theorem State.succeed_validBits (s : State) : s.succeed.validBits = s.validBits := rfl
@[simp] theorem State.succeed_cmd (s : State) : s.succeed.cmd = s.cmd := rfl
@[simp] theorem State.succeed_status (s : State) : s.succeed.status = .ok := rfl
@[simp] theorem State.succeed_err (s : State) : s.succeed.err = 0 := rfl
@[simp] theorem State.succeed_phase (s : State) : s.succeed.phase = s.phase := rfl
@[simp] theorem State.succeed_site (s : State) : s.succeed.site = s.site := rfl
@[simp] theorem State.succeed_pq (s : State) : s.succeed.pq = s.pq := rfl
@[simp] theorem State.succeed_seq (s : State) : s.succeed.seq = s.seq := rfl
@[simp] theorem State.succeed_cursor (s : State) : s.succeed.cursor = s.cursor := rfl
@[simp] theorem State.succeed_stack (s : State) : s.succeed.stack = s.stack := rfl
@[simp] theorem State.succeed_leaves (s : State) : s.succeed.leaves = s.leaves := rfl
@[simp] theorem State.succeed_header (s : State) : s.succeed.header = s.header := rfl
@[simp] theorem State.succeed_treeAt (s : State) : s.succeed.treeAt = s.treeAt := rfl
@[simp] theorem State.succeed_acc (s : State) : s.succeed.acc = s.acc := rfl
@[simp] theorem State.succeed_nbits (s : State) : s.succeed.nbits = s.nbits := rfl
@[simp] theorem State.succeed_totalBits (s : State) : s.succeed.totalBits = s.totalBits := rfl
@[simp] theorem State.succeed_cand (s : State) : s.succeed.cand = s.cand := rfl
@[simp] theorem State.succeed_bitpos (s : State) : s.succeed.bitpos = s.bitpos := rfl
@[simp] theorem State.succeed_usable (s : State) : s.succeed.usable = s.usable := rfl
@[simp] theorem State.succeed_cfg (s : State) : s.succeed.cfg = s.cfg := rfl
@[simp] theorem State.succeed_host (s : State) : s.succeed.host = s.host := rfl
@[simp] theorem State.succeed_freeNext (s : State) : s.succeed.freeNext = s.freeNext := rfl

@[simp] theorem State.report_src (s : State) (k : ErrKind) : (s.report k).src = s.src := rfl
@[simp] theorem State.report_dst (s : State) (k : ErrKind) : (s.report k).dst = s.dst := rfl
@[simp] theorem State.report_syms (s : State) (k : ErrKind) : (s.report k).syms = s.syms := rfl
@[simp] theorem State.report_freq (s : State) (k : ErrKind) : (s.report k).freq = s.freq := rfl
@[simp] theorem State.report_tree (s : State) (k : ErrKind) : (s.report k).tree = s.tree := rfl
@[simp] theorem State.report_ptab (s : State) (k : ErrKind) : (s.report k).ptab = s.ptab := rfl
@[simp] theorem State.report_lut (s : State) (k : ErrKind) : (s.report k).lut = s.lut := rfl
@[simp] theorem State.report_tbuf (s : State) (k : ErrKind) : (s.report k).tbuf = s.tbuf := rfl
@[simp] theorem State.report_pay (s : State) (k : ErrKind) : (s.report k).pay = s.pay := rfl
@[simp] theorem State.report_validBits (s : State) (k : ErrKind) : (s.report k).validBits = s.validBits := rfl
@[simp] theorem State.report_cmd (s : State) (k : ErrKind) : (s.report k).cmd = s.cmd := rfl
@[simp] theorem State.report_status (s : State) (k : ErrKind) : (s.report k).status = .err := rfl
@[simp] theorem State.report_err (s : State) (k : ErrKind) : (s.report k).err = k.code := rfl
@[simp] theorem State.report_phase (s : State) (k : ErrKind) : (s.report k).phase = s.phase := rfl
@[simp] theorem State.report_site (s : State) (k : ErrKind) : (s.report k).site = s.site := rfl
@[simp] theorem State.report_pq (s : State) (k : ErrKind) : (s.report k).pq = s.pq := rfl
@[simp] theorem State.report_seq (s : State) (k : ErrKind) : (s.report k).seq = s.seq := rfl
@[simp] theorem State.report_cursor (s : State) (k : ErrKind) : (s.report k).cursor = s.cursor := rfl
@[simp] theorem State.report_stack (s : State) (k : ErrKind) : (s.report k).stack = s.stack := rfl
@[simp] theorem State.report_leaves (s : State) (k : ErrKind) : (s.report k).leaves = s.leaves := rfl
@[simp] theorem State.report_header (s : State) (k : ErrKind) : (s.report k).header = s.header := rfl
@[simp] theorem State.report_treeAt (s : State) (k : ErrKind) : (s.report k).treeAt = s.treeAt := rfl
@[simp] theorem State.report_acc (s : State) (k : ErrKind) : (s.report k).acc = s.acc := rfl
@[simp] theorem State.report_nbits (s : State) (k : ErrKind) : (s.report k).nbits = s.nbits := rfl
@[simp] theorem State.report_totalBits (s : State) (k : ErrKind) : (s.report k).totalBits = s.totalBits := rfl
@[simp] theorem State.report_cand (s : State) (k : ErrKind) : (s.report k).cand = s.cand := rfl
@[simp] theorem State.report_bitpos (s : State) (k : ErrKind) : (s.report k).bitpos = s.bitpos := rfl
@[simp] theorem State.report_usable (s : State) (k : ErrKind) : (s.report k).usable = s.usable := rfl
@[simp] theorem State.report_cfg (s : State) (k : ErrKind) : (s.report k).cfg = s.cfg := rfl
@[simp] theorem State.report_host (s : State) (k : ErrKind) : (s.report k).host = s.host := rfl
@[simp] theorem State.report_freeNext (s : State) (k : ErrKind) : (s.report k).freeNext = s.freeNext := rfl

@[simp] theorem clearWork_src (s : State) : (clearWork s).src = s.src := rfl
@[simp] theorem clearWork_dst (s : State) : (clearWork s).dst = s.dst := rfl
@[simp] theorem clearWork_syms (s : State) : (clearWork s).syms = Buffer.empty := rfl
@[simp] theorem clearWork_freq (s : State) : (clearWork s).freq = [] := rfl
@[simp] theorem clearWork_tree (s : State) : (clearWork s).tree = none := rfl
@[simp] theorem clearWork_ptab (s : State) : (clearWork s).ptab = [] := rfl
@[simp] theorem clearWork_lut (s : State) : (clearWork s).lut = [] := rfl
@[simp] theorem clearWork_tbuf (s : State) : (clearWork s).tbuf = Buffer.empty := rfl
@[simp] theorem clearWork_pay (s : State) : (clearWork s).pay = Buffer.empty := rfl
@[simp] theorem clearWork_validBits (s : State) : (clearWork s).validBits = 8 := rfl
@[simp] theorem clearWork_cmd (s : State) : (clearWork s).cmd = s.cmd := rfl
@[simp] theorem clearWork_status (s : State) : (clearWork s).status = s.status := rfl
@[simp] theorem clearWork_err (s : State) : (clearWork s).err = s.err := rfl
@[simp] theorem clearWork_phase (s : State) : (clearWork s).phase = s.phase := rfl
@[simp] theorem clearWork_site (s : State) : (clearWork s).site = s.site := rfl
@[simp] theorem clearWork_pq (s : State) : (clearWork s).pq = s.pq := rfl
@[simp] theorem clearWork_seq (s : State) : (clearWork s).seq = s.seq := rfl
@[simp] theorem clearWork_cursor (s : State) : (clearWork s).cursor = s.cursor := rfl
@[simp] theorem clearWork_stack (s : State) : (clearWork s).stack = s.stack := rfl
@[simp] theorem clearWork_leaves (s : State) : (clearWork s).leaves = s.leaves := rfl
@[simp] theorem clearWork_header (s : State) : (clearWork s).header = s.header := rfl
@[simp] theorem clearWork_treeAt (s : State) : (clearWork s).treeAt = s.treeAt := rfl
@[simp] theorem clearWork_acc (s : State) : (clearWork s).acc = s.acc := rfl
@[simp] theorem clearWork_nbits (s : State) : (clearWork s).nbits = s.nbits := rfl
@[simp] theorem clearWork_totalBits (s : State) : (clearWork s).totalBits = s.totalBits := rfl
@[simp] theorem clearWork_cand (s : State) : (clearWork s).cand = s.cand := rfl
@[simp] theorem clearWork_bitpos (s : State) : (clearWork s).bitpos = s.bitpos := rfl
@[simp] theorem clearWork_usable (s : State) : (clearWork s).usable = s.usable := rfl
@[simp] theorem clearWork_cfg (s : State) : (clearWork s).cfg = s.cfg := rfl
@[simp] theorem clearWork_host (s : State) : (clearWork s).host = s.host := rfl
@[simp] theorem clearWork_freeNext (s : State) : (clearWork s).freeNext = s.freeNext := rfl

@[simp] theorem beginComposite_src (s : State) (p : Phase) : (beginComposite p s).src = s.src := rfl
@[simp] theorem beginComposite_dst (s : State) (p : Phase) : (beginComposite p s).dst = Buffer.empty := rfl
@[simp] theorem beginComposite_syms (s : State) (p : Phase) : (beginComposite p s).syms = Buffer.empty := rfl
@[simp] theorem beginComposite_freq (s : State) (p : Phase) : (beginComposite p s).freq = [] := rfl
@[simp] theorem beginComposite_tree (s : State) (p : Phase) : (beginComposite p s).tree = none := rfl
@[simp] theorem beginComposite_ptab (s : State) (p : Phase) : (beginComposite p s).ptab = [] := rfl
@[simp] theorem beginComposite_lut (s : State) (p : Phase) : (beginComposite p s).lut = [] := rfl
@[simp] theorem beginComposite_tbuf (s : State) (p : Phase) : (beginComposite p s).tbuf = Buffer.empty := rfl
@[simp] theorem beginComposite_pay (s : State) (p : Phase) : (beginComposite p s).pay = Buffer.empty := rfl
@[simp] theorem beginComposite_validBits (s : State) (p : Phase) : (beginComposite p s).validBits = 8 := rfl
@[simp] theorem beginComposite_cmd (s : State) (p : Phase) : (beginComposite p s).cmd = s.cmd := rfl
@[simp] theorem beginComposite_status (s : State) (p : Phase) : (beginComposite p s).status = s.status := rfl
@[simp] theorem beginComposite_err (s : State) (p : Phase) : (beginComposite p s).err = s.err := rfl
@[simp] theorem beginComposite_phase (s : State) (p : Phase) : (beginComposite p s).phase = p := rfl
@[simp] theorem beginComposite_site (s : State) (p : Phase) : (beginComposite p s).site = s.site := rfl
@[simp] theorem beginComposite_pq (s : State) (p : Phase) : (beginComposite p s).pq = s.pq := rfl
@[simp] theorem beginComposite_seq (s : State) (p : Phase) : (beginComposite p s).seq = s.seq := rfl
@[simp] theorem beginComposite_cursor (s : State) (p : Phase) : (beginComposite p s).cursor = s.cursor := rfl
@[simp] theorem beginComposite_stack (s : State) (p : Phase) : (beginComposite p s).stack = s.stack := rfl
@[simp] theorem beginComposite_leaves (s : State) (p : Phase) : (beginComposite p s).leaves = s.leaves := rfl
@[simp] theorem beginComposite_header (s : State) (p : Phase) : (beginComposite p s).header = s.header := rfl
@[simp] theorem beginComposite_treeAt (s : State) (p : Phase) : (beginComposite p s).treeAt = s.treeAt := rfl
@[simp] theorem beginComposite_acc (s : State) (p : Phase) : (beginComposite p s).acc = s.acc := rfl
@[simp] theorem beginComposite_nbits (s : State) (p : Phase) : (beginComposite p s).nbits = s.nbits := rfl
@[simp] theorem beginComposite_totalBits (s : State) (p : Phase) : (beginComposite p s).totalBits = s.totalBits := rfl
@[simp] theorem beginComposite_cand (s : State) (p : Phase) : (beginComposite p s).cand = s.cand := rfl
@[simp] theorem beginComposite_bitpos (s : State) (p : Phase) : (beginComposite p s).bitpos = s.bitpos := rfl
@[simp] theorem beginComposite_usable (s : State) (p : Phase) : (beginComposite p s).usable = s.usable := rfl
@[simp] theorem beginComposite_cfg (s : State) (p : Phase) : (beginComposite p s).cfg = s.cfg := rfl
@[simp] theorem beginComposite_host (s : State) (p : Phase) : (beginComposite p s).host = s.host := rfl
@[simp] theorem beginComposite_freeNext (s : State) (p : Phase) : (beginComposite p s).freeNext = s.freeNext := rfl

@[simp] theorem endComposite_src (s : State) : (endComposite s).src = s.src := rfl
@[simp] theorem endComposite_dst (s : State) : (endComposite s).dst = s.dst := rfl
@[simp] theorem endComposite_syms (s : State) : (endComposite s).syms = Buffer.empty := rfl
@[simp] theorem endComposite_freq (s : State) : (endComposite s).freq = [] := rfl
@[simp] theorem endComposite_tree (s : State) : (endComposite s).tree = none := rfl
@[simp] theorem endComposite_ptab (s : State) : (endComposite s).ptab = [] := rfl
@[simp] theorem endComposite_lut (s : State) : (endComposite s).lut = [] := rfl
@[simp] theorem endComposite_tbuf (s : State) : (endComposite s).tbuf = Buffer.empty := rfl
@[simp] theorem endComposite_pay (s : State) : (endComposite s).pay = Buffer.empty := rfl
@[simp] theorem endComposite_validBits (s : State) : (endComposite s).validBits = 8 := rfl
@[simp] theorem endComposite_cmd (s : State) : (endComposite s).cmd = s.cmd := rfl
@[simp] theorem endComposite_status (s : State) : (endComposite s).status = s.status := rfl
@[simp] theorem endComposite_err (s : State) : (endComposite s).err = s.err := rfl
@[simp] theorem endComposite_phase (s : State) : (endComposite s).phase = .pIdle := rfl
@[simp] theorem endComposite_site (s : State) : (endComposite s).site = s.site := rfl
@[simp] theorem endComposite_pq (s : State) : (endComposite s).pq = s.pq := rfl
@[simp] theorem endComposite_seq (s : State) : (endComposite s).seq = s.seq := rfl
@[simp] theorem endComposite_cursor (s : State) : (endComposite s).cursor = s.cursor := rfl
@[simp] theorem endComposite_stack (s : State) : (endComposite s).stack = s.stack := rfl
@[simp] theorem endComposite_leaves (s : State) : (endComposite s).leaves = s.leaves := rfl
@[simp] theorem endComposite_header (s : State) : (endComposite s).header = s.header := rfl
@[simp] theorem endComposite_treeAt (s : State) : (endComposite s).treeAt = s.treeAt := rfl
@[simp] theorem endComposite_acc (s : State) : (endComposite s).acc = s.acc := rfl
@[simp] theorem endComposite_nbits (s : State) : (endComposite s).nbits = s.nbits := rfl
@[simp] theorem endComposite_totalBits (s : State) : (endComposite s).totalBits = s.totalBits := rfl
@[simp] theorem endComposite_cand (s : State) : (endComposite s).cand = s.cand := rfl
@[simp] theorem endComposite_bitpos (s : State) : (endComposite s).bitpos = s.bitpos := rfl
@[simp] theorem endComposite_usable (s : State) : (endComposite s).usable = s.usable := rfl
@[simp] theorem endComposite_cfg (s : State) : (endComposite s).cfg = s.cfg := rfl
@[simp] theorem endComposite_host (s : State) : (endComposite s).host = s.host := rfl
@[simp] theorem endComposite_freeNext (s : State) : (endComposite s).freeNext = s.freeNext := rfl

@[simp] theorem enterTreeWalk_src (s : State) : (enterTreeWalk s).src = s.src := rfl
@[simp] theorem enterTreeWalk_dst (s : State) : (enterTreeWalk s).dst = s.dst := rfl
@[simp] theorem enterTreeWalk_syms (s : State) : (enterTreeWalk s).syms = s.syms := rfl
@[simp] theorem enterTreeWalk_freq (s : State) : (enterTreeWalk s).freq = s.freq := rfl
@[simp] theorem enterTreeWalk_tree (s : State) : (enterTreeWalk s).tree = none := rfl
@[simp] theorem enterTreeWalk_ptab (s : State) : (enterTreeWalk s).ptab = s.ptab := rfl
@[simp] theorem enterTreeWalk_lut (s : State) : (enterTreeWalk s).lut = s.lut := rfl
@[simp] theorem enterTreeWalk_tbuf (s : State) : (enterTreeWalk s).tbuf = s.tbuf := rfl
@[simp] theorem enterTreeWalk_pay (s : State) : (enterTreeWalk s).pay = s.pay := rfl
@[simp] theorem enterTreeWalk_validBits (s : State) : (enterTreeWalk s).validBits = s.validBits := rfl
@[simp] theorem enterTreeWalk_cmd (s : State) : (enterTreeWalk s).cmd = s.cmd := rfl
@[simp] theorem enterTreeWalk_status (s : State) : (enterTreeWalk s).status = s.status := rfl
@[simp] theorem enterTreeWalk_err (s : State) : (enterTreeWalk s).err = s.err := rfl
@[simp] theorem enterTreeWalk_phase (s : State) : (enterTreeWalk s).phase = s.phase := rfl
@[simp] theorem enterTreeWalk_site (s : State) : (enterTreeWalk s).site = .treeToken := rfl
@[simp] theorem enterTreeWalk_pq (s : State) : (enterTreeWalk s).pq = s.pq := rfl
@[simp] theorem enterTreeWalk_seq (s : State) : (enterTreeWalk s).seq = s.seq := rfl
@[simp] theorem enterTreeWalk_cursor (s : State) : (enterTreeWalk s).cursor = 0 := rfl
@[simp] theorem enterTreeWalk_stack (s : State) : (enterTreeWalk s).stack = [] := rfl
@[simp] theorem enterTreeWalk_leaves (s : State) : (enterTreeWalk s).leaves = 0 := rfl
@[simp] theorem enterTreeWalk_header (s : State) : (enterTreeWalk s).header = s.header := rfl
@[simp] theorem enterTreeWalk_treeAt (s : State) : (enterTreeWalk s).treeAt = s.treeAt := rfl
@[simp] theorem enterTreeWalk_acc (s : State) : (enterTreeWalk s).acc = s.acc := rfl
@[simp] theorem enterTreeWalk_nbits (s : State) : (enterTreeWalk s).nbits = s.nbits := rfl
@[simp] theorem enterTreeWalk_totalBits (s : State) : (enterTreeWalk s).totalBits = s.totalBits := rfl
@[simp] theorem enterTreeWalk_cand (s : State) : (enterTreeWalk s).cand = s.cand := rfl
@[simp] theorem enterTreeWalk_bitpos (s : State) : (enterTreeWalk s).bitpos = s.bitpos := rfl
@[simp] theorem enterTreeWalk_usable (s : State) : (enterTreeWalk s).usable = s.usable := rfl
@[simp] theorem enterTreeWalk_cfg (s : State) : (enterTreeWalk s).cfg = s.cfg := rfl
@[simp] theorem enterTreeWalk_host (s : State) : (enterTreeWalk s).host = s.host := rfl
@[simp] theorem enterTreeWalk_freeNext (s : State) : (enterTreeWalk s).freeNext = s.freeNext := rfl

@[simp] theorem enterBlobWalk_src (s : State) : (enterBlobWalk s).src = s.src := rfl
@[simp] theorem enterBlobWalk_dst (s : State) : (enterBlobWalk s).dst = s.dst := rfl
@[simp] theorem enterBlobWalk_syms (s : State) : (enterBlobWalk s).syms = s.syms := rfl
@[simp] theorem enterBlobWalk_freq (s : State) : (enterBlobWalk s).freq = s.freq := rfl
@[simp] theorem enterBlobWalk_tree (s : State) : (enterBlobWalk s).tree = s.tree := rfl
@[simp] theorem enterBlobWalk_ptab (s : State) : (enterBlobWalk s).ptab = s.ptab := rfl
@[simp] theorem enterBlobWalk_lut (s : State) : (enterBlobWalk s).lut = s.lut := rfl
@[simp] theorem enterBlobWalk_tbuf (s : State) : (enterBlobWalk s).tbuf = Buffer.empty := rfl
@[simp] theorem enterBlobWalk_pay (s : State) : (enterBlobWalk s).pay = Buffer.empty := rfl
@[simp] theorem enterBlobWalk_validBits (s : State) : (enterBlobWalk s).validBits = 8 := rfl
@[simp] theorem enterBlobWalk_cmd (s : State) : (enterBlobWalk s).cmd = s.cmd := rfl
@[simp] theorem enterBlobWalk_status (s : State) : (enterBlobWalk s).status = s.status := rfl
@[simp] theorem enterBlobWalk_err (s : State) : (enterBlobWalk s).err = s.err := rfl
@[simp] theorem enterBlobWalk_phase (s : State) : (enterBlobWalk s).phase = s.phase := rfl
@[simp] theorem enterBlobWalk_site (s : State) : (enterBlobWalk s).site = .blobHeader := rfl
@[simp] theorem enterBlobWalk_pq (s : State) : (enterBlobWalk s).pq = s.pq := rfl
@[simp] theorem enterBlobWalk_seq (s : State) : (enterBlobWalk s).seq = s.seq := rfl
@[simp] theorem enterBlobWalk_cursor (s : State) : (enterBlobWalk s).cursor = 0 := rfl
@[simp] theorem enterBlobWalk_stack (s : State) : (enterBlobWalk s).stack = s.stack := rfl
@[simp] theorem enterBlobWalk_leaves (s : State) : (enterBlobWalk s).leaves = s.leaves := rfl
@[simp] theorem enterBlobWalk_header (s : State) : (enterBlobWalk s).header = s.header := rfl
@[simp] theorem enterBlobWalk_treeAt (s : State) : (enterBlobWalk s).treeAt = s.treeAt := rfl
@[simp] theorem enterBlobWalk_acc (s : State) : (enterBlobWalk s).acc = s.acc := rfl
@[simp] theorem enterBlobWalk_nbits (s : State) : (enterBlobWalk s).nbits = s.nbits := rfl
@[simp] theorem enterBlobWalk_totalBits (s : State) : (enterBlobWalk s).totalBits = s.totalBits := rfl
@[simp] theorem enterBlobWalk_cand (s : State) : (enterBlobWalk s).cand = s.cand := rfl
@[simp] theorem enterBlobWalk_bitpos (s : State) : (enterBlobWalk s).bitpos = s.bitpos := rfl
@[simp] theorem enterBlobWalk_usable (s : State) : (enterBlobWalk s).usable = s.usable := rfl
@[simp] theorem enterBlobWalk_cfg (s : State) : (enterBlobWalk s).cfg = s.cfg := rfl
@[simp] theorem enterBlobWalk_host (s : State) : (enterBlobWalk s).host = s.host := rfl
@[simp] theorem enterBlobWalk_freeNext (s : State) : (enterBlobWalk s).freeNext = s.freeNext := rfl

@[simp] theorem State.busyWith_src (s : State) : s.busyWith.src = s.src := rfl
@[simp] theorem State.busyWith_dst (s : State) : s.busyWith.dst = s.dst := rfl
@[simp] theorem State.busyWith_syms (s : State) : s.busyWith.syms = s.syms := rfl
@[simp] theorem State.busyWith_freq (s : State) : s.busyWith.freq = s.freq := rfl
@[simp] theorem State.busyWith_tree (s : State) : s.busyWith.tree = s.tree := rfl
@[simp] theorem State.busyWith_ptab (s : State) : s.busyWith.ptab = s.ptab := rfl
@[simp] theorem State.busyWith_lut (s : State) : s.busyWith.lut = s.lut := rfl
@[simp] theorem State.busyWith_tbuf (s : State) : s.busyWith.tbuf = s.tbuf := rfl
@[simp] theorem State.busyWith_pay (s : State) : s.busyWith.pay = s.pay := rfl
@[simp] theorem State.busyWith_validBits (s : State) : s.busyWith.validBits = s.validBits := rfl
@[simp] theorem State.busyWith_cmd (s : State) : s.busyWith.cmd = s.cmd := rfl
@[simp] theorem State.busyWith_status (s : State) : s.busyWith.status = .busy := rfl
@[simp] theorem State.busyWith_err (s : State) : s.busyWith.err = 0 := rfl
@[simp] theorem State.busyWith_phase (s : State) : s.busyWith.phase = .pIdle := rfl
@[simp] theorem State.busyWith_site (s : State) : s.busyWith.site = s.site := rfl
@[simp] theorem State.busyWith_pq (s : State) : s.busyWith.pq = s.pq := rfl
@[simp] theorem State.busyWith_seq (s : State) : s.busyWith.seq = s.seq := rfl
@[simp] theorem State.busyWith_cursor (s : State) : s.busyWith.cursor = s.cursor := rfl
@[simp] theorem State.busyWith_stack (s : State) : s.busyWith.stack = s.stack := rfl
@[simp] theorem State.busyWith_leaves (s : State) : s.busyWith.leaves = s.leaves := rfl
@[simp] theorem State.busyWith_header (s : State) : s.busyWith.header = s.header := rfl
@[simp] theorem State.busyWith_treeAt (s : State) : s.busyWith.treeAt = s.treeAt := rfl
@[simp] theorem State.busyWith_acc (s : State) : s.busyWith.acc = s.acc := rfl
@[simp] theorem State.busyWith_nbits (s : State) : s.busyWith.nbits = s.nbits := rfl
@[simp] theorem State.busyWith_totalBits (s : State) : s.busyWith.totalBits = s.totalBits := rfl
@[simp] theorem State.busyWith_cand (s : State) : s.busyWith.cand = s.cand := rfl
@[simp] theorem State.busyWith_bitpos (s : State) : s.busyWith.bitpos = s.bitpos := rfl
@[simp] theorem State.busyWith_usable (s : State) : s.busyWith.usable = s.usable := rfl
@[simp] theorem State.busyWith_cfg (s : State) : s.busyWith.cfg = s.cfg := rfl
@[simp] theorem State.busyWith_host (s : State) : s.busyWith.host = [] := rfl
@[simp] theorem State.busyWith_freeNext (s : State) : s.busyWith.freeNext = s.freeNext := rfl

/-! ### Error entry touches no operand and nothing of the host's -/

@[simp] theorem emptyOutputs_src (i : Instr) (s : State) : (emptyOutputs i s).src = s.src := by cases i <;> rfl
@[simp] theorem emptyOutputs_cmd (i : Instr) (s : State) : (emptyOutputs i s).cmd = s.cmd := by cases i <;> rfl
@[simp] theorem emptyOutputs_cfg (i : Instr) (s : State) : (emptyOutputs i s).cfg = s.cfg := by cases i <;> rfl
@[simp] theorem emptyOutputs_host (i : Instr) (s : State) : (emptyOutputs i s).host = s.host := by cases i <;> rfl
@[simp] theorem emptyOutputs_freeNext (i : Instr) (s : State) : (emptyOutputs i s).freeNext = s.freeNext := by
  cases i <;> rfl
@[simp] theorem errorEntry_src (i : Instr) (k : ErrKind) (s : State) : (errorEntry i k s).src = s.src := by
  simp [errorEntry]
@[simp] theorem errorEntry_cmd (i : Instr) (k : ErrKind) (s : State) : (errorEntry i k s).cmd = s.cmd := by
  simp [errorEntry]
@[simp] theorem errorEntry_cfg (i : Instr) (k : ErrKind) (s : State) : (errorEntry i k s).cfg = s.cfg := by
  simp [errorEntry]
@[simp] theorem errorEntry_host (i : Instr) (k : ErrKind) (s : State) : (errorEntry i k s).host = s.host := by
  simp [errorEntry]
@[simp] theorem errorEntry_freeNext (i : Instr) (k : ErrKind) (s : State) :
    (errorEntry i k s).freeNext = s.freeNext := by simp [errorEntry]
@[simp] theorem errorEntry_status (i : Instr) (k : ErrKind) (s : State) : (errorEntry i k s).status = .err := rfl
@[simp] theorem errorEntry_err (i : Instr) (k : ErrKind) (s : State) : (errorEntry i k s).err = k.code := rfl

@[simp] theorem raiseRunning_src (k : ErrKind) (s : State) : (raiseRunning k s).src = s.src := by simp [raiseRunning]
@[simp] theorem raiseRunning_cmd (k : ErrKind) (s : State) : (raiseRunning k s).cmd = s.cmd := by simp [raiseRunning]
@[simp] theorem raiseRunning_cfg (k : ErrKind) (s : State) : (raiseRunning k s).cfg = s.cfg := by simp [raiseRunning]
@[simp] theorem raiseRunning_host (k : ErrKind) (s : State) : (raiseRunning k s).host = s.host := by
  simp [raiseRunning]
@[simp] theorem raiseRunning_freeNext (k : ErrKind) (s : State) : (raiseRunning k s).freeNext = s.freeNext := by
  simp [raiseRunning]
@[simp] theorem raiseRunning_status (k : ErrKind) (s : State) : (raiseRunning k s).status = .err := rfl
@[simp] theorem raiseRunning_err (k : ErrKind) (s : State) : (raiseRunning k s).err = k.code := rfl
@[simp] theorem raiseRunning_phase (k : ErrKind) (s : State) : (raiseRunning k s).phase = .pIdle := rfl
@[simp] theorem raiseRunning_site (k : ErrKind) (s : State) : (raiseRunning k s).site = .command := rfl

/-- The end of a command, either way (10_state.md R27). -/
@[simp] theorem finish_ok (i : Instr) (s t : State) : finish i s (.ok t) = t.succeed := rfl
@[simp] theorem finish_error (i : Instr) (s : State) (k : ErrKind) : finish i s (.error k) = errorEntry i k s := rfl

end Sys2Proof.Machine
end

