-- ==== Sys2Proof/Laws/Types.lean ====
section
/-! SUPPORT. The small lemmas of the notions of Safety: capacities, leaves and counts of a tree, the queue's order. -/

namespace Sys2Proof.Machine

@[simp] theorem past_none (n : Nat) : ¬ Past none n := by simp [Past]

@[simp] theorem past_some (c n : Nat) : Past (some c) n ↔ c < n := by simp [Past]

/-- A number is past a capacity exactly when it is not within it. -/
theorem past_iff (cap : Option Nat) (n : Nat) : Past cap n ↔ withinCap cap n = false := by
  cases cap <;> simp [withinCap]

theorem countOk_iff (cfg : Config) (c : Count) : countOk cfg c = true ↔ ¬ OutOfRange cfg c := by
  simp [countOk, OutOfRange]

@[simp] theorem Node.symbols_length (n : Node) : n.symbols.length = n.leafCount := by
  induction n with
  | leaf s c => rfl
  | internal c l r hl hr =>
    simp only [Node.symbols, List.length_map] at hl hr
    simp [Node.symbols, Node.leaves, Node.leafCount, hl, hr]

/-- A node is of its type exactly when its symbols are scalar values and its counts in range. -/
theorem nodeOk_iff (cfg : Config) (n : Node) :
    nodeOk cfg n = true ↔ (∀ x ∈ n.symbols, isScalar x = true) ∧ ∀ c ∈ n.counts, ¬ OutOfRange cfg c := by
  induction n with
  | leaf s c => simp [nodeOk, Node.symbols, Node.leaves, Node.counts, countOk_iff]
  | internal c l r hl hr =>
    have hs : (Node.internal c l r).symbols = l.symbols ++ r.symbols := by simp [Node.symbols, Node.leaves]
    simp only [nodeOk, Bool.and_eq_true, hl, hr, countOk_iff, hs, Node.counts, List.mem_append, List.mem_cons, or_imp,
      forall_and, forall_eq]
    tauto

theorem keyLess_iff_before (a b : PQEntry) : keyLess a b ↔ a.before b = true := by
  simp [keyLess, PQEntry.before]

end Sys2Proof.Machine
end

