-- ==== Sys2Proof/Laws/Units.lean ====
section
/-! SUPPORT. Once for each unit: what its operation writes when it succeeds. Everything else is as before. And what a
step of the machine can be. -/

namespace Sys2Proof.Machine

theorem analyzeBody_ok {s t : State} (h : analyzeBody s = .ok t) :
    ∃ r, analyzeText s.cfg s.src.elems = .ok r ∧ t = { s with syms := r.syms, freq := r.freq, cursor := r.cursor } := by
  unfold analyzeBody at h
  cases hr : analyzeText s.cfg s.src.elems with
  | error k => rw [hr] at h; cases h
  | ok r => rw [hr] at h; cases h; exact ⟨r, rfl, rfl⟩

theorem deriveBody_ok {s t : State} (h : deriveBody s = .ok t) :
    ∃ root c, s.tree = some root ∧ deriveTables s.cfg root = .ok c ∧ t = { s with ptab := c.ptab, lut := c.lut } := by
  unfold deriveBody at h
  split at h
  · cases h
  · rename_i root ht
    cases hr : deriveTables s.cfg root with
    | error k => rw [hr] at h; cases h
    | ok c => rw [hr] at h; cases h; exact ⟨root, c, ht, hr, rfl⟩

theorem buildBody_ok {s t : State} (h : buildBody s = .ok t) :
    ∃ b c, buildTree s.cfg s.freq = .ok b ∧ deriveTables s.cfg b.root = .ok c
      ∧ t = { s with tree := some b.root, ptab := c.ptab, lut := c.lut, pq := [], seq := b.seq } := by
  unfold buildBody at h
  cases hb : buildTree s.cfg s.freq with
  | error k => rw [hb] at h; cases h
  | ok b =>
    rw [hb] at h
    cases hc : deriveTables s.cfg b.root with
    | error k => simp only [bind, Except.bind, hc] at h; cases h
    | ok c => simp only [bind, Except.bind, hc] at h; cases h; exact ⟨b, c, rfl, hc, rfl⟩

theorem serializeBody_ok {s t : State} (h : serializeBody s = .ok t) :
    ∃ root b, s.tree = some root ∧ serNode s.cfg 0 root Buffer.empty = .ok b ∧ t = { s with tbuf := b } := by
  unfold serializeBody at h
  split at h
  · cases h
  · rename_i root ht
    cases hr : serNode s.cfg 0 root Buffer.empty with
    | error k => rw [hr] at h; cases h
    | ok b => rw [hr] at h; cases h; exact ⟨root, b, ht, hr, rfl⟩

theorem deserializeBody_ok {s t : State} (h : deserializeBody s = .ok t) :
    ∃ root r, deserializeBytes s.cfg s.tbuf.elems = .ok (root, r)
      ∧ t = { s with tree := some root, cursor := r.cursor, stack := [], leaves := r.leaves } := by
  unfold deserializeBody at h
  cases hr : deserializeBytes s.cfg s.tbuf.elems with
  | error k => rw [hr] at h; cases h
  | ok p => rw [hr] at h; cases h; exact ⟨p.1, p.2, rfl, rfl⟩

theorem encodeBody_ok {s t : State} (h : encodeBody s = .ok t) :
    ∃ r, encodeSyms s.cfg s.ptab s.syms.elems = .ok r
      ∧ t = { s with pay := r.pay, validBits := validBitsOf r.totalBits, acc := r.acc, nbits := r.nbits,
                     totalBits := r.totalBits } := by
  unfold encodeBody at h
  cases hr : encodeSyms s.cfg s.ptab s.syms.elems with
  | error k => rw [hr] at h; cases h
  | ok r => rw [hr] at h; cases h; exact ⟨r, rfl, rfl⟩

theorem decodeBody_ok {s t : State} (h : decodeBody s = .ok t) :
    (s.pay.len = 0 ∧ t = { s with syms := Buffer.empty })
      ∨ (s.pay.len ≠ 0 ∧ validBitsOk s.validBits.toNat = true
          ∧ ∃ r, decodeBits s.cfg s.lut (walkedBits s.pay.elems s.validBits) = .ok r
            ∧ t = { s with syms := r.syms, cand := r.cand, bitpos := r.bitpos,
                           usable := usableBits s.pay.len s.validBits }) := by
  unfold decodeBody at h
  split at h
  · rename_i h0; cases h; exact .inl ⟨h0, rfl⟩
  · rename_i h0
    split at h
    · cases h
    · rename_i hv
      cases hr : decodeBits s.cfg s.lut (walkedBits s.pay.elems s.validBits) with
      | error k => rw [hr] at h; cases h
      | ok r => rw [hr] at h; cases h; exact .inr ⟨h0, by simpa using hv, r, rfl, rfl⟩

theorem assembleBody_ok {s t : State} (h : assembleBody s = .ok t) :
    validBitsOk s.validBits.toNat = true
      ∧ ∃ d, Buffer.empty.appendAll s.cfg.dstCap (blobBytes s.validBits s.tbuf.elems s.pay.elems) = .ok d
        ∧ t = { s with dst := d } := by
  unfold assembleBody at h
  split at h
  · cases h
  · rename_i hv
    cases hr : Buffer.empty.appendAll s.cfg.dstCap (blobBytes s.validBits s.tbuf.elems s.pay.elems) with
    | error k => rw [hr] at h; cases h
    | ok d => rw [hr] at h; cases h; exact ⟨by simpa using hv, d, rfl, rfl⟩

theorem writeSpans_ok {f : BlobFields} {s t : State} (h : writeSpans f s = .ok t) :
    ∃ tb p, Buffer.empty.appendAll s.cfg.tbufCap ((s.src.elems.drop f.treeAt).take (f.endAt - f.treeAt)) = .ok tb
      ∧ Buffer.empty.appendAll s.cfg.payCap (s.src.elems.drop (f.endAt + 2)) = .ok p
      ∧ t = { s with validBits := f.header.setWidth 4, tbuf := tb, pay := p, cursor := s.src.len } := by
  unfold writeSpans at h
  cases h1 : Buffer.empty.appendAll s.cfg.tbufCap ((s.src.elems.drop f.treeAt).take (f.endAt - f.treeAt)) with
  | error k => rw [h1] at h; cases h
  | ok tb =>
    rw [h1] at h
    cases h2 : Buffer.empty.appendAll s.cfg.payCap (s.src.elems.drop (f.endAt + 2)) with
    | error k => simp only [bind, Except.bind, h2] at h; cases h
    | ok p => simp only [bind, Except.bind, h2] at h; cases h; exact ⟨tb, p, rfl, rfl, rfl⟩

theorem parseBody_ok {s t : State} (h : parseBody s = .ok t) :
    ∃ f, parseFields s.cfg s.src.elems = .ok f ∧ writeSpans f s = .ok t := by
  unfold parseBody at h
  cases hf : parseFields s.cfg s.src.elems with
  | error k => rw [hf] at h; cases h
  | ok f => rw [hf] at h; exact ⟨f, rfl, h⟩

theorem emitBody_ok {s t : State} (h : emitBody s = .ok t) :
    ∃ d, Buffer.empty.appendAll s.cfg.dstCap (s.syms.elems.flatMap utf8Encode) = .ok d ∧ t = { s with dst := d } := by
  unfold emitBody at h
  cases hr : Buffer.empty.appendAll s.cfg.dstCap (s.syms.elems.flatMap utf8Encode) with
  | error k => rw [hr] at h; cases h
  | ok d => rw [hr] at h; cases h; exact ⟨d, rfl, rfl⟩

theorem advance_ok {s t : State} (h : advance s = .ok t) :
    ∃ u, phaseBody s.phase s = .ok u ∧ t = { u with phase := s.phase.next } := by
  unfold advance at h
  cases hr : phaseBody s.phase s with
  | error k => rw [hr] at h; cases h
  | ok u => rw [hr] at h; cases h; exact ⟨u, rfl, rfl⟩

theorem compositeBody_ok {p : Phase} {s t : State} (h : compositeBody p s = .ok t) :
    ∃ u, runPhases 5 (beginComposite p s) = .ok u ∧ t = endComposite u := by
  unfold compositeBody at h
  cases hr : runPhases 5 (beginComposite p s) with
  | error k => rw [hr] at h; cases h
  | ok u => rw [hr] at h; cases h; exact ⟨u, rfl, rfl⟩

/-- What a fetch gives: the instruction at the place the seek finds. -/
theorem fetch_ok {s t : State} {i : Instr} (h : fetch s = .ok (i, t)) :
    seek s = .ok t ∧ tokenAt t.cfg t.site (fetchBytes t) = .ok i := by
  unfold fetch at h
  split at h
  · cases h
  · rename_i u hu
    split at h
    · cases h
    · rename_i j hj
      cases h
      exact ⟨hu, hj⟩

/-- A seek moves CURSOR and nothing else. -/
theorem seek_ok {s t : State} (h : seek s = .ok t) : ∃ k, t = { s with cursor := s.cursor + k } := by
  unfold seek at h
  split at h
  · cases h; exact ⟨0, rfl⟩
  · cases h; exact ⟨0, rfl⟩
  · split at h
    · cases h
    · cases h; exact ⟨0, rfl⟩
  · split at h
    · cases h
    · rename_i k _
      split at h
      · cases h
      · cases h; exact ⟨k, rfl⟩
  · split at h
    · cases h
    · rename_i k _
      cases h; exact ⟨k, rfl⟩

/-- What the block's move can be when it gives a next state. -/
theorem blockMove_next {s t : State} (h : blockMove s = .next t) :
    (s.status ≠ .busy ∧ t = s)
      ∨ (s.status = .busy ∧ s.site = .command ∧ s.phase ≠ .pIdle ∧ stepPhase s = .next t)
      ∨ (s.status = .busy ∧ ¬(s.site = .command ∧ s.phase ≠ .pIdle)
          ∧ ((∃ k, fetch s = .error k ∧ t = raiseRunning k s) ∨ ∃ i u, fetch s = .ok (i, u) ∧ exec i u = .next t)) := by
  unfold blockMove at h
  split at h
  · rename_i hs; cases h; exact .inl ⟨by rw [hs]; decide, rfl⟩
  · rename_i hs; cases h; exact .inl ⟨by rw [hs]; decide, rfl⟩
  · rename_i hs; cases h; exact .inl ⟨by rw [hs]; decide, rfl⟩
  · rename_i hs
    split at h
    · rename_i hp; exact .inr (.inl ⟨hs, hp.1, hp.2, h⟩)
    · rename_i hp
      split at h
      · rename_i k hk; cases h; exact .inr (.inr ⟨hs, hp, .inl ⟨k, hk, rfl⟩⟩)
      · rename_i i u hf; exact .inr (.inr ⟨hs, hp, .inr ⟨i, u, hf, h⟩⟩)

/-- What a step can be when it gives a next state: the block's move, the end of a wait, or one action of the host. -/
theorem step_next {s t : State} (h : step s = .next t) :
    (s.blockTurn ∧ blockMove s = .next t)
      ∨ (∃ rest, s.host = .wait :: rest ∧ s.status ≠ .busy ∧ t = { s with host := rest })
      ∨ (∃ a rest, s.host = a :: rest ∧ hostAct a { s with host := rest } = .next t) := by
  unfold step cycle at h
  split at h
  · rename_i hh; exact .inl ⟨.inl hh, h⟩
  · rename_i rest hh
    split at h
    · exact .inl ⟨.inr ⟨rest, hh⟩, h⟩
    · rename_i hs; cases h; exact .inr (.inl ⟨rest, hh, hs, rfl⟩)
  · rename_i a rest _ hh; exact .inr (.inr ⟨a, rest, hh, h⟩)

/-- What a host action can be when it gives a next state. -/
theorem hostAct_next {a : HostAction} {s t : State} (h : hostAct a s = .next t) :
    t = s ∨ (∃ code, a = .writeCmd code ∧ t = writeCommand code s) ∨ (a = .reset ∧ t = s.afterReset)
      ∨ (s.status ≠ .busy ∧ writeKeepsType a s = true ∧ t = applyWrite a s) := by
  have hw : ∀ {r}, (if s.status = .busy then (.refused .hostAccessWhileBusy : Host.Outcome State Fault Refusal)
      else if writeKeepsType a s then .next (applyWrite a s) else .refused .hostWriteBreaksType) = r → r = .next t →
      s.status ≠ .busy ∧ writeKeepsType a s = true ∧ t = applyWrite a s := by
    intro r h1 h2
    subst h1
    split at h2
    · cases h2
    · rename_i hb
      split at h2
      · rename_i hk; cases h2; exact ⟨hb, hk, rfl⟩
      · cases h2
  cases a
  case wait => simp only [hostAct] at h; cases h; exact .inl rfl
  case writeCmd code => simp only [hostAct] at h; cases h; exact .inr (.inl ⟨code, rfl, rfl⟩)
  case reset => simp only [hostAct] at h; cases h; exact .inr (.inr (.inl ⟨rfl, rfl⟩))
  case read r =>
    simp only [hostAct] at h
    split at h
    · cases h; exact .inl rfl
    · cases h
    · cases h
  all_goals exact .inr (.inr (.inr (hw rfl h)))

end Sys2Proof.Machine
end

