-- ==== Sys2Proof/Tests/Slice0.lean ====
section
/-! SUPPORT. The model's own tests: ill-formed terms, one word per constructor written out from its encoding, one step per
instruction with the results of 95_test_vectors.md and of the worked cases, and a witness for every statement with
hypotheses. -/

namespace Sys2Proof.Tests

open Sys2Proof Sys2Proof.Machine

/-! ### Helpers -/

/-- The reset state with the given bytes in SRC. -/
def source (bytes : List Byte) : State := { State.reset with src := Buffer.ofList bytes }

/-- What a field of the next state is. -/
def got {α : Type} (o : Host.Outcome State Fault Refusal) (f : State → α) : Option α :=
  match o with
  | .next t => some (f t)
  | .fault _ => none
  | .refused _ => none

/-- `Internal(_, Leaf a, Leaf b)`. -/
def treeAB : Node := .internal 0 (.leaf 0x61 0) (.leaf 0x62 0)

/-- V2's frequency map. -/
def freqV2 : List (Symbol × Count) := [(0x20, 3), (0x61, 4), (0x62, 3), (0x63, 2), (0x64, 1)]

/-- The lookup {"0": a, "1": b}. -/
def lutAB : List (Bits × Symbol) := [([false], 0x61), ([true], 0x62)]

/-- The table {a: "0", b: "1"}. -/
def ptabAB : List (Symbol × Bits) := [(0x61, [false]), (0x62, [true])]

/-- The blob of "ab" (P1). -/
def blobAB : List Byte := [0x02, 0x1F, 0x00, 0x01, 0x61, 0x01, 0x62, 0x25, 0x25, 0x40]

/-- A configuration of small capacities. -/
def small : Config :=
  { Config.default with srcCap := some 4, dstCap := some 16, symsCap := some 1, tbufCap := some 4, payCap := some 4,
                        nMax := some 1, tbW := some 1, stackMax := some 1 }

/-! ### WellFormed -/

theorem test_wf_refuses :
    (Instr.illegal 0x01).wf = false ∧ (Instr.illegal 0x11).wf = false ∧ (Instr.nodeLeaf 0xD800).wf = false
      ∧ (Instr.nodeLeaf 0xDFFF).wf = false ∧ (Instr.nodeLeaf 0x110000).wf = false ∧ (Instr.nodeIllegal 0).wf = false
      ∧ (Instr.nodeIllegal 1).wf = false ∧ (Instr.validBitsHeader 0).wf = false
      ∧ (Instr.validBitsHeader 9).wf = false := by decide

theorem test_wf_accepts :
    (Instr.illegal 0x12).wf = true ∧ (Instr.nodeLeaf 0xD7FF).wf = true ∧ (Instr.nodeLeaf 0x10FFFF).wf = true
      ∧ (Instr.nodeIllegal 2).wf = true ∧ (Instr.validBitsHeader 1).wf = true
      ∧ (Instr.validBitsHeader 8).wf = true := by decide

/-! ### Decoding: the words of R91, R106, R111, R112 -/

theorem test_decode_low_commands :
    decode .command [0b00000001] = .ok (.analyze, []) ∧ decode .command [0b00000010] = .ok (.build, [])
      ∧ decode .command [0b00000011] = .ok (.derive, []) ∧ decode .command [0b00000100] = .ok (.serialize, [])
      ∧ decode .command [0b00000101] = .ok (.deserialize, []) ∧ decode .command [0b00000110] = .ok (.encode, [])
      ∧ decode .command [0b00000111] = .ok (.decode, []) ∧ decode .command [0b00001000] = .ok (.assemble, [])
      ∧ decode .command [0b00001001] = .ok (.parse, []) ∧ decode .command [0b00001010] = .ok (.emit, []) := by decide

theorem test_decode_high_commands :
    decode .command [0b00001111] = .ok (.clear, []) ∧ decode .command [0b00010000] = .ok (.compress, [])
      ∧ decode .command [0b00010001] = .ok (.decompress, [])
      ∧ decode .command [0b00000000] = .ok (.illegal 0x00, []) ∧ decode .command [0b00001011] = .ok (.illegal 0x0B, [])
      ∧ decode .command [0b10000001] = .ok (.illegal 0x81, []) := by decide

theorem test_decode_tree_tokens :
    decode .treeToken [0b00000000, 0x01] = .ok (.nodeInternal, [0x01])
      ∧ decode .treeToken [0b00000001, 0b01100001] = .ok (.nodeLeaf 0x61, [])
      ∧ decode .treeToken [0b00000001, 0b11000011, 0b10101001] = .ok (.nodeLeaf 0xE9, [])
      ∧ decode .treeToken [0b00000001, 0b11110000, 0b10011111, 0b10011000, 0b10000000] = .ok (.nodeLeaf 0x1F600, [])
      ∧ decode .treeToken [0b00000010] = .ok (.nodeIllegal 2, [])
      ∧ decode .treeToken [0b00000001, 0xE2, 0x82] = .error .shortSymbol
      ∧ decode .treeToken [0b00000001, 0xED, 0xA0, 0x80] = .error .badSymbol
      ∧ decode .treeToken [0b00000001] = .error .ended := by decide

theorem test_decode_blob_tokens :
    decode .blobHeader [0b00000001, 0x1F] = .ok (.validBitsHeader 1, [0x1F])
      ∧ decode .blobHeader [0b00000000] = .error .badHeader ∧ decode .blobHeader [0b00001001] = .error .badHeader
      ∧ decode .blobStart [0b00011111] = .ok (.treeStart, []) ∧ decode .blobStart [0x20] = .error .notTreeStart
      ∧ decode .blobEnd [0b00100101, 0b00100101, 0x40] = .ok (.treeEnd, [0x40])
      ∧ decode .blobEnd [0x25, 0x24] = .error .notTreeEnd := by decide

/-- R101's table, the rows of B1 at the edges of its ranges. -/
theorem test_utf8_edges :
    utf8Decode [0xC1, 0xBF] = .invalid ∧ utf8Decode [0xC2, 0x80] = .ok 0x80 2 ∧ utf8Decode [0xE0, 0x9F, 0xBF] = .invalid
      ∧ utf8Decode [0xED, 0x9F, 0xBF] = .ok 0xD7FF 3 ∧ utf8Decode [0xED, 0xA0, 0x80] = .invalid
      ∧ utf8Decode [0xF0, 0x8F, 0xBF, 0xBF] = .invalid ∧ utf8Decode [0xF4, 0x8F, 0xBF, 0xBF] = .ok 0x10FFFF 4
      ∧ utf8Decode [0xF4, 0x90, 0x80, 0x80] = .invalid ∧ utf8Decode [0xE0, 0x80] = .invalid
      ∧ utf8Decode [0xF0, 0x9F, 0x98] = .truncated ∧ utf8Decode [0xC3, 0x28] = .invalid := by decide

/-! ### A word of the opcode table, placed and run -/

/-- A word that decodes to a command runs as that command in the very next step. -/
theorem test_place_command :
    decodeTableWord 8 0x0F = some .clear ∧ decodeTableWord 8 0x12 = some (.illegal 0x12)
      ∧ step (State.reset.withFetchWord 8 0x0F) = exec .clear (State.reset.withFetchWord 8 0x0F)
      ∧ step (State.reset.withFetchWord 8 0x12)
          = exec (.illegal 0x12) (State.reset.withFetchWord 8 0x12) := ⟨by decide, by decide, rfl, rfl⟩

theorem test_place_token :
    decodeTableWord 8 0x00 = some .nodeInternal ∧ decodeTableWord 8 0x1F = some .treeStart
      ∧ decodeTableWord 16 0x2525 = some .treeEnd
      ∧ step (State.reset.withFetchWord 8 0x00) = exec .nodeInternal (State.reset.withFetchWord 8 0x00)
      ∧ step (State.reset.withFetchWord 8 0x1F) = exec .treeStart (State.reset.withFetchWord 8 0x1F)
      ∧ step (State.reset.withFetchWord 16 0x2525) = exec .treeEnd (State.reset.withFetchWord 16 0x2525) :=
  ⟨by decide, by decide, by decide, rfl, rfl, rfl⟩

/-! ### One step per instruction -/

/-- B2: 00 00 61 62. -/
theorem test_analyze :
    got (exec .analyze (source [0x00, 0x00, 0x61, 0x62])) (fun t => (t.syms.elems, t.freq, t.err))
      = some ([0x00, 0x00, 0x61, 0x62], [(0x00, 2), (0x61, 1), (0x62, 1)], 0) := by decide

/-- B2: 61 62 C3. -/
theorem test_analyze_truncated :
    got (exec .analyze (source [0x61, 0x62, 0xC3])) (fun t => (t.syms.len, t.freq, t.status, t.err))
      = some (0, [], .err, 0x01) := by decide

/-- V6: two Internals of equal count, the older one Left. -/
theorem test_build_equal_internals :
    got (exec .build { State.reset with freq := [(0x61, 1), (0x62, 1), (0x63, 1), (0x64, 1)] }) (fun t => t.tree)
      = some (some (.internal 4 (.internal 2 (.leaf 0x61 1) (.leaf 0x62 1))
          (.internal 2 (.leaf 0x63 1) (.leaf 0x64 1)))) := by decide

/-- V7: a Leaf U+0000 ties with an Internal, and under the other reading of R146 comes second. -/
theorem test_build_nul_tie :
    got (exec .build { State.reset with freq := [(0, 2), (0x61, 1), (0x62, 1)] }) (fun t => t.tree)
        = some (some (.internal 4 (.leaf 0 2) (.internal 2 (.leaf 0x61 1) (.leaf 0x62 1))))
      ∧ got (exec .build { State.reset with freq := [(0, 2), (0x61, 1), (0x62, 1)],
                                            cfg := { Config.default with internalBeforeNul := true } }) (fun t => t.tree)
        = some (some (.internal 4 (.internal 2 (.leaf 0x61 1) (.leaf 0x62 1)) (.leaf 0 2))) := by decide

/-- P1: the tables of `Internal(_, Leaf a, Leaf b)`; R164 b: a single Leaf has the empty code. -/
theorem test_derive :
    got (exec .derive { State.reset with tree := some treeAB }) (fun t => (t.ptab, t.lut)) = some (ptabAB, lutAB)
      ∧ got (exec .derive { State.reset with tree := some (.leaf 0x61 5) }) (fun t => (t.ptab, t.lut))
        = some ([(0x61, [])], [([], 0x61)]) := by decide

/-- R173, third row. -/
theorem test_serialize :
    got (exec .serialize { State.reset with
          tree := some (.internal 6 (.internal 3 (.leaf 0x61 1) (.leaf 0x20AC 2)) (.leaf 0x1F600 3)) })
        (fun t => t.tbuf.elems)
      = some [0x00, 0x00, 0x01, 0x61, 0x01, 0xE2, 0x82, 0xAC, 0x01, 0xF0, 0x9F, 0x98, 0x80] := by decide

/-- R187: trailing bytes ignored, final CURSOR 5. -/
theorem test_deserialize :
    got (exec .deserialize { State.reset with tbuf := Buffer.ofList [0x00, 0x01, 0x61, 0x01, 0x62, 0xFF, 0xFF] })
        (fun t => (t.tree, t.cursor)) = some (some treeAB, 5) := by decide

/-- R187: a symbol cut short, and a marker 0x25. -/
theorem test_deserialize_errors :
    got (exec .deserialize { State.reset with tbuf := Buffer.ofList [0x00, 0x01, 0x61, 0x01, 0xE2, 0x82] })
        (fun t => (t.tree, t.err)) = some (none, 0x0B)
      ∧ got (exec .deserialize { State.reset with tbuf := Buffer.ofList [0x00, 0x01, 0x61, 0x25] })
        (fun t => (t.tree, t.err)) = some (none, 0x0C) := by decide

/-- P3: d a d packs to 18 with eight valid bits. -/
theorem test_encode :
    got (exec .encode { State.reset with
          ptab := [(0x61, [true, true]), (0x64, [false, false, false])], syms := Buffer.ofList [0x64, 0x61, 0x64] })
        (fun t => (t.pay.elems, t.validBits)) = some ([0x18], 8) := by decide

/-- B6: 40 00 with two valid bits: ten usable bits. -/
theorem test_decode :
    got (exec .decode { State.reset with pay := Buffer.ofList [0x40, 0x00], validBits := 2, lut := lutAB })
        (fun t => t.syms.elems)
      = some [0x61, 0x62, 0x61, 0x61, 0x61, 0x61, 0x61, 0x61, 0x61, 0x61] := by decide

/-- B7: an empty tree and payload; valid bits 9. -/
theorem test_assemble :
    got (exec .assemble State.reset) (fun t => t.dst.elems) = some [0x08, 0x1F, 0x25, 0x25]
      ∧ got (exec .assemble { State.reset with validBits := 9 }) (fun t => (t.dst.len, t.err)) = some (0, 0x06) := by
  decide

/-- P4: the hazard's blob splits one byte early. -/
theorem test_parse :
    got (exec .parse (source [0x03, 0x1F, 0x00, 0x01, 0x61, 0x01, 0x25, 0x25, 0x25, 0x60]))
        (fun t => (t.validBits, t.tbuf.elems, t.pay.elems))
      = some (3, [0x00, 0x01, 0x61, 0x01], [0x25, 0x60]) := by decide

/-- B7. -/
theorem test_emit :
    got (exec .emit { State.reset with syms := Buffer.ofList [0x00, 0x25, 0xE9, 0x20AC, 0x1F600] }) (fun t => t.dst.elems)
      = some [0x00, 0x25, 0xC3, 0xA9, 0xE2, 0x82, 0xAC, 0xF0, 0x9F, 0x98, 0x80] := by decide

/-- B10: CLEAR keeps SRC. -/
theorem test_clear :
    got (exec .clear { source [0x61] with dst := Buffer.ofList [1], tree := some treeAB, validBits := 3 })
        (fun t => (t.src.elems, t.dst.len, t.tree, t.validBits, t.status)) = some ([0x61], 0, none, 8, .ok) := by decide

/-- B8: the text of two, three and four byte symbols, one valid bit. -/
theorem test_compress :
    got (exec .compress (source
        [0x61, 0xE2, 0x82, 0xAC, 0xE2, 0x82, 0xAC, 0xF0, 0x9F, 0x98, 0x80, 0xF0, 0x9F, 0x98, 0x80, 0xF0, 0x9F, 0x98, 0x80]))
        (fun t => t.dst.elems)
      = some [0x01, 0x1F, 0x00, 0x00, 0x01, 0x61, 0x01, 0xE2, 0x82, 0xAC, 0x01, 0xF0, 0x9F, 0x98, 0x80, 0x25, 0x25, 0x17,
          0x80] := by decide +kernel

/-- B10: mississippi does not fit sixteen bytes of DST. -/
theorem test_compress_capacity :
    got (exec .compress { source [0x6D, 0x69, 0x73, 0x73, 0x69, 0x73, 0x73, 0x69, 0x70, 0x70, 0x69] with
          cfg := { Config.default with dstCap := some 16 } }) (fun t => (t.dst.len, t.status, t.err))
      = some (0, .err, 0x80) := by decide +kernel

/-- B9: bytes before the marker skipped, padding bits not zero. -/
theorem test_decompress :
    got (exec .decompress (source [0x02, 0xAA, 0xBB, 0x1F, 0x00, 0x01, 0x61, 0x01, 0x62, 0x25, 0x25, 0x7F]))
        (fun t => (t.dst.elems, t.tree, t.validBits)) = some ([0x61, 0x62], none, 8) := by decide +kernel

/-- V8: the hazard. -/
theorem test_decompress_hazard :
    got (exec .decompress (source [0x03, 0x1F, 0x00, 0x01, 0x61, 0x01, 0x25, 0x25, 0x25, 0x60]))
        (fun t => (t.dst.len, t.status, t.err)) = some (0, .err, 0x0B) := by decide +kernel

/-- B10: nothing changes but STATUS and ERR. -/
theorem test_illegal :
    got (exec (.illegal 0x0B) { source [0x61] with tree := some treeAB }) (fun t => (t.src.elems, t.tree, t.status, t.err))
      = some ([0x61], some treeAB, .err, 0x81) := by decide

/-- R106: an Internal opens, a leaf below it becomes its Left child. -/
theorem test_node_internal :
    got (exec .nodeInternal { State.reset with stack := [.right (.leaf 0x61 0)] }) (fun t => (t.stack, t.cursor))
      = some ([.left, .right (.leaf 0x61 0)], 1) := by decide

/-- R181, R182: the last leaf closes the tree. -/
theorem test_node_leaf :
    got (exec (.nodeLeaf 0x62) { State.reset with
          stack := [.right (.leaf 0x61 0)], cursor := 3, site := .treeToken, status := .busy })
        (fun t => (t.tree, t.cursor, t.status, t.site)) = some (some treeAB, 5, .ok, .command) := by decide

/-- R184. -/
theorem test_node_illegal :
    got (exec (.nodeIllegal 2) { State.reset with tree := some treeAB, site := .treeToken, status := .busy })
        (fun t => (t.tree, t.status, t.err)) = some (none, .err, 0x0C) := by decide

/-- R220, states 1 and 2. -/
theorem test_header_and_start :
    got (exec (.validBitsHeader 5) { State.reset with site := .blobHeader }) (fun t => (t.header, t.cursor, t.site))
        = some (5, 1, .blobStart)
      ∧ got (exec .treeStart { State.reset with cursor := 1, site := .blobStart }) (fun t => (t.treeAt, t.cursor, t.site))
        = some (2, 2, .blobEnd) := by decide

/-- R220, states 3 to 5, on the blob of "ab"; and 02 1F 25 25 40 (B9). -/
theorem test_tree_end :
    got (exec .treeEnd { source blobAB with cursor := 7, treeAt := 2, header := 2, site := .blobEnd, status := .busy })
        (fun t => (t.tbuf.elems, t.pay.elems, t.validBits, t.status))
        = some ([0x00, 0x01, 0x61, 0x01, 0x62], [0x40], 2, .ok)
      ∧ got (exec .treeEnd { source [0x02, 0x1F, 0x25, 0x25, 0x40] with
          cursor := 2, treeAt := 2, header := 2, site := .blobEnd, status := .busy }) (fun t => (t.tbuf.len, t.err))
        = some (0, 0x09) := by decide

/-! ### The host -/

/-- R94's `load` and `cmd`, then the command's one transition. -/
theorem test_host_script :
    got (Host.Core.run Sys2Proof.core 4 { State.reset with
          host := [.load .src [0x02, 0x1F, 0x00, 0x01, 0x61, 0x01, 0x62, 0x25, 0x25, 0x40], .writeCmd 0x09, .wait,
                   .read .validBits] })
        (fun t => (t.tbuf.elems, t.status, t.cmd)) = some ([0x00, 0x01, 0x61, 0x01, 0x62], .ok, 0x09) := by decide

/-- A read at the length is not addressable (R61); a write of a surrogate breaks the type of SYMS (R40). -/
theorem test_host_stops :
    hostAct (.read (.byte .src 1)) (source [0x61]) = .fault (.notAddressable 1)
      ∧ hostAct (.read (.byte .src 0)) (source [0x61]) = .next (source [0x61])
      ∧ hostAct (.setSyms [0xD800]) State.reset = .refused .hostWriteBreaksType
      ∧ hostAct (.setValidBits 3) { State.reset with status := .busy } = .refused .hostAccessWhileBusy :=
  ⟨rfl, rfl, rfl, rfl⟩

/-! ### Witnesses: states and operands that meet the hypotheses of each statement, clause by clause -/

/-- A command ends in the given status on the given state. -/
def Ends (i : Instr) (s : State) (st : Status) : Prop := ∃ t, exec i s = .next t ∧ t.status = st

theorem next_of_got {α : Type} {o : Host.Outcome State Fault Refusal} {f : State → α} {v : α} (h : got o f = some v) :
    ∃ t, o = .next t ∧ f t = v := by
  cases o with
  | next t => exact ⟨t, rfl, by simpa [got] using h⟩
  | fault r => cases h
  | refused r => cases h

theorem ends_of_got {i : Instr} {s : State} {st : Status} (h : got (exec i s) State.status = some st) : Ends i s st :=
  next_of_got h

/-- A busy block in the middle of a walk. -/
def walking (site : Site) (s : State) : State := { s with status := .busy, site := site }

theorem validText_of_all {l : List Symbol} (h : l.all isScalar = true) : validText l := List.all_eq_true.1 h

theorem witness_DecodeEncodeRoundTrip :
    (Instr.illegal 0xFF).wf = true ∧ (Instr.nodeLeaf 0xE000).wf = true ∧ (Instr.nodeIllegal 0xFF).wf = true
      ∧ (Instr.validBitsHeader 8).wf = true := by decide

theorem witness_DecodeAcceptsOnlyEncodings :
    decode .treeToken [0x01, 0xE2, 0x82, 0xAC, 0x00] = .ok (.nodeLeaf 0x20AC, [0x00])
      ∧ decode .blobEnd [0x25, 0x25] = .ok (.treeEnd, []) := by decide

theorem witness_Utf8EncodeDecode :
    isScalar 0xD7FF = true ∧ isScalar 0x10FFFF = true ∧ (0x7F : Symbol).toNat ≤ 0x7F ∧ 0x80 ≤ (0x80 : Symbol).toNat
      ∧ (0x7FF : Symbol).toNat ≤ 0x7FF ∧ 0x800 ≤ (0x800 : Symbol).toNat ∧ (0xFFFF : Symbol).toNat ≤ 0xFFFF
      ∧ 0x10000 ≤ (0x10000 : Symbol).toNat := by decide

theorem witness_StepRunsDecodedCommand :
    ∃ s : State, s.blockTurn ∧ s.status = .busy ∧ s.site = .command ∧ s.phase = .pIdle ∧ s.cmd = 0x10 :=
  ⟨{ (source blobAB).busyWith with cmd := 0x10 }, .inl rfl, rfl, rfl, rfl, rfl⟩

theorem witness_StepRunsDecodedToken_tree :
    let s := walking .treeToken { State.reset with tbuf := Buffer.ofList [0x00, 0x01, 0x61], cursor := 1 }
    s.blockTurn ∧ s.status = .busy ∧ s.site = .treeToken
      ∧ decode .treeToken (s.tbuf.elems.drop s.cursor) = .ok (.nodeLeaf 0x61, []) :=
  ⟨.inl rfl, rfl, rfl, by decide⟩

theorem witness_StepRunsDecodedToken_header :
    let s := walking .blobHeader (source [0x08, 0x1F])
    s.site = .blobHeader ∧ 2 ≤ s.src.len
      ∧ decode .blobHeader (s.src.elems.drop s.cursor) = .ok (.validBitsHeader 8, [0x1F]) := ⟨rfl, by decide, by decide⟩

/-- The marker after one skipped byte, and at offset 1 under STRICT_MARKER_OFFSET. -/
theorem witness_StepRunsDecodedToken_start :
    (Config.default.strictMarkerOffset = false
        ∧ decode .blobStart ((source [0x08, 0xAA, 0x1F]).src.elems.drop (1 + 1)) = .ok (.treeStart, [])
        ∧ ∀ j r, j < 1 → decode .blobStart ((source [0x08, 0xAA, 0x1F]).src.elems.drop (1 + j)) ≠ .ok r)
      ∧ 1 + 0 = 1 ∧ decode .blobStart ((source [0x08, 0x1F]).src.elems.drop (1 + 0)) = .ok (.treeStart, []) := by
  refine ⟨⟨rfl, by decide, fun j r hj => ?_⟩, by decide, by decide⟩
  obtain rfl : j = 0 := by omega
  exact fun h => by cases h

theorem witness_StepRunsDecodedToken_end :
    let s := walking .blobEnd { source blobAB with cursor := 6 }
    decode .blobEnd (s.src.elems.drop (s.cursor + 1)) = .ok (.treeEnd, [0x40])
      ∧ ∀ j r, j < 1 → decode .blobEnd (s.src.elems.drop (s.cursor + j)) ≠ .ok r := by
  refine ⟨by decide, fun j r hj => ?_⟩
  obtain rfl : j = 0 := by omega
  exact fun h => by cases h

theorem witness_MissingTokenRaises_tree :
    decode .treeToken ((walking .treeToken State.reset).tbuf.elems.drop 0) = .error .ended
      ∧ decode .treeToken ((walking .treeToken { State.reset with
          tbuf := Buffer.ofList [0x01, 0xC3] }).tbuf.elems.drop 0) = .error .shortSymbol
      ∧ decode .treeToken ((walking .treeToken { State.reset with
          tbuf := Buffer.ofList [0x01, 0x80] }).tbuf.elems.drop 0) = .error .badSymbol := by decide

theorem witness_MissingTokenRaises_blob :
    (walking .blobHeader (source [0x01])).src.len < 2 ∧ 2 ≤ (walking .blobHeader (source [0x09, 0x1F])).src.len
      ∧ decode .blobHeader ((walking .blobHeader (source [0x09, 0x1F])).src.elems.drop 0) = .error .badHeader
      ∧ (∀ k r, decode .blobStart ((source [0x08, 0x20]).src.elems.drop (1 + k)) ≠ .ok r)
      ∧ ∀ k r, decode .blobEnd ((source [0x08, 0x1F, 0x25]).src.elems.drop (2 + k)) ≠ .ok r := by
  refine ⟨by decide, by decide, by decide, fun k r => ?_, fun k r => ?_⟩
  · rcases k with _ | k
    · exact fun h => by cases h
    · rw [List.drop_of_length_le (by show 2 ≤ _; omega)]
      exact fun h => by cases h
  · rcases k with _ | k
    · exact fun h => by cases h
    · rw [List.drop_of_length_le (by show 3 ≤ _; omega)]
      exact fun h => by cases h

/-- A marker at offset 2 under STRICT_MARKER_OFFSET. -/
theorem witness_MissingTokenRaises_strict :
    1 + 1 ≠ 1 ∧ decode .blobStart ((source [0x08, 0xAA, 0x1F]).src.elems.drop (1 + 1)) = .ok (.treeStart, [])
      ∧ ∀ j r, j < 1 → decode .blobStart ((source [0x08, 0xAA, 0x1F]).src.elems.drop (1 + j)) ≠ .ok r := by
  refine ⟨by decide, by decide, fun j r hj => ?_⟩
  obtain rfl : j = 0 := by omega
  exact fun h => by cases h

theorem witness_IdleUntilCommandWrite :
    (State.reset.host = [] ∧ State.reset.status ≠ .busy)
      ∧ (∃ s : State, s.host = [.writeCmd 0x55] ∧ s.status = .busy)
      ∧ ∃ s : State, s.host = [.writeCmd 0x55] ∧ s.status ≠ .busy :=
  ⟨⟨rfl, by decide⟩, ⟨{ State.reset with host := [.writeCmd 0x55], status := .busy }, rfl, rfl⟩,
    ⟨{ State.reset with host := [.writeCmd 0x55], status := .err }, rfl, by decide⟩⟩

theorem witness_HostAccessRefused_busy :
    ∃ (s : State) (a : HostAction), s.host = [a] ∧ s.status = .busy ∧ a ≠ .wait ∧ (∀ code, a ≠ .writeCmd code) ∧ a ≠ .reset
      ∧ a ≠ .read .status :=
  ⟨{ State.reset with host := [.read .err], status := .busy }, .read .err, rfl, rfl, by decide, by simp, by decide,
    by decide⟩

/-- The host's writes at their bounds break no type: a capacity of four filled, one symbol, one entry, no code bit. -/
theorem witness_HostAccessRefused_kept :
    State.reset.status ≠ .busy ∧ ¬ BreaksType small (.load .src [1, 2, 3, 4]) ∧ ¬ BreaksType small (.writeByte .tbuf 3 0)
      ∧ ¬ BreaksType small (.setLen .pay 4) ∧ ¬ BreaksType small (.setSyms [0x10FFFF])
      ∧ ¬ BreaksType small (.writeSym 0 0xE000) ∧ ¬ BreaksType small (.setSymsLen 1)
      ∧ ¬ BreaksType small (.setFreq [(0xD7FF, 2 ^ 63 - 1)]) ∧ ¬ BreaksType small (.setFreq [(0xD7FF, -2 ^ 63)])
      ∧ ¬ BreaksType small (.setPtab [(0x61, [])]) ∧ ¬ BreaksType small (.setLut [([], 0x61)])
      ∧ ¬ BreaksType small (.setTree (some (.leaf 0x61 0))) ∧ ¬ BreaksType small (.setValidBits 15)
      ∧ ¬ BreaksType small (.read (.sym 7)) := by
  refine ⟨by decide, ?_, ?_, ?_, ?_, ?_, ?_, ?_, ?_, ?_, ?_, ?_, ?_, ?_⟩ <;>
    simp [BreaksType, bufCap, small, Config.default, Config.codeMax, Config.cntMax, Config.cntMin, OutOfRange, isScalar,
      Node.symbols, Node.leaves, Node.counts]

/-- One past each bound of a length; surrogates. -/
theorem witness_HostAccessRefused_buffers :
    BreaksType small (.load .src [1, 2, 3, 4, 5]) ∧ BreaksType small (.writeByte .tbuf 4 0)
      ∧ BreaksType small (.setLen .pay 5) ∧ BreaksType small (.setSyms [0x61, 0x62]) ∧ BreaksType small (.setSyms [0xD800])
      ∧ BreaksType small (.writeSym 1 0x61) ∧ BreaksType small (.writeSym 0 0xDFFF) ∧ BreaksType small (.setSymsLen 2) := by
  simp [BreaksType, bufCap, small, isScalar]

/-- A key twice, counts one past each end of 64 bits, a code and a table past their bounds, trees likewise. -/
theorem witness_HostAccessRefused_tables :
    BreaksType Config.default (.setFreq [(0x61, 1), (0x61, 2)]) ∧ BreaksType Config.default (.setFreq [(0x61, 2 ^ 63)])
      ∧ BreaksType Config.default (.setFreq [(0x61, -2 ^ 63 - 1)]) ∧ BreaksType Config.default (.setFreq [(0xD800, 1)])
      ∧ BreaksType small (.setFreq [(0x61, 1), (0x62, 1)]) ∧ BreaksType small (.setPtab [(0x61, [true])])
      ∧ BreaksType Config.default (.setPtab [(0x61, []), (0x61, [true])])
      ∧ BreaksType Config.default (.setLut [([true], 0x61), ([true], 0x62)]) ∧ BreaksType small (.setLut [([true], 0x61)])
      ∧ BreaksType Config.default (.setTree (some (.leaf 0xD800 0)))
      ∧ BreaksType Config.default (.setTree (some (.internal (2 ^ 63) (.leaf 0x61 0) (.leaf 0x62 0))))
      ∧ BreaksType small (.setTree (some treeAB)) := by
  simp [BreaksType, small, Config.default, Config.codeMax, Config.cntMax, Config.cntMin, OutOfRange, isScalar, treeAB,
    Node.symbols, Node.leaves, Node.counts]

/-- The default machine at reset with one host action pending. -/
def writing (a : HostAction) : State := { State.reset with host := [a] }

/-- Each host write the statement names meets its hypotheses. -/
theorem witness_HostAccessesTakeEffect_writes :
    (∀ a, (writing a).host = [a] ∧ (writing a).status ≠ .busy) ∧ ¬ BreaksType (writing .wait).cfg (.writeByte .src 0 0x41)
      ∧ ¬ BreaksType (writing .wait).cfg (.load .pay [0x41]) ∧ ¬ BreaksType (writing .wait).cfg (.setSyms [0x10FFFF, 0x61])
      ∧ ¬ BreaksType (writing .wait).cfg (.writeSym 0 0x61)
      ∧ ¬ BreaksType (writing .wait).cfg (.setFreq [(0x62, 1), (0x61, 2)])
      ∧ ¬ BreaksType (writing .wait).cfg (.setPtab [(0x61, [false]), (0x62, [true])])
      ∧ ¬ BreaksType (writing .wait).cfg (.setLut [([true], 0x62), ([false], 0x61)])
      ∧ ¬ BreaksType (writing .wait).cfg (.setTree (some (.leaf 0x61 0))) ∧ ¬ BreaksType (writing .wait).cfg (.setValidBits 9) := by
  refine ⟨fun a => ⟨rfl, by simp [writing, State.reset]⟩, ?_, ?_, ?_, ?_, ?_, ?_, ?_, ?_, ?_⟩ <;>
    simp [writing, State.reset, BreaksType, bufCap, Config.default, Config.codeMax, Config.cntMax, Config.cntMin, OutOfRange,
      isScalar, Node.symbols, Node.leaves, Node.counts]

/-- A write below the length: the clause on the written element is not empty. -/
theorem witness_HostAccessesTakeEffect_below :
    0 < ((source [0x61]).hostBuf .src).len ∧ 0 < ({ State.reset with syms := Buffer.ofList [0x61] } : State).syms.len := by
  decide

/-- R34: the values of STATUS, and ERR and FREQ read back. -/
theorem test_host_reads :
    hostRead .status { State.reset with status := .err } = .next (.status 0b11)
      ∧ hostRead .err { State.reset with status := .err, err := 0x0B } = .next (.byte 0x0B)
      ∧ hostRead .freq { State.reset with freq := freqV2 } = .next (.freq freqV2)
      ∧ hostRead (.len .src) (source [0x61, 0x62]) = .next (.number 2) := ⟨rfl, rfl, rfl, rfl⟩

/-- A read of the last element, one at the length, one of STATUS while BUSY. -/
theorem witness_HostAccessesTakeEffect_reads :
    (source [0x61]).status ≠ .busy ∧ ((source [0x61]).readBuf .src).wf none = true
      ∧ ((source [0x61]).readBuf .src).elems[0]? = some 0x61 ∧ ((source [0x61]).readBuf .src).len ≤ 1
      ∧ (State.reset.syms.wf none = true ∧ State.reset.syms.len ≤ 0)
      ∧ ∃ s : State, s.host = [.read .status] ∧ s.status = .busy :=
  ⟨by decide, by decide, by decide, by decide, by decide, { State.reset with host := [.read .status], status := .busy }, rfl, rfl⟩

/-- `load`, then a read back; `set FREQ` in no order gives the map in ascending order. -/
theorem test_host_writes :
    got (hostAct (.load .tbuf [0x01, 0x61]) State.reset) (fun t => (t.tbuf.elems, t.tbuf.len, t.src.len))
        = some ([0x01, 0x61], 2, 0)
      ∧ got (hostAct (.setFreq [(0x62, 1), (0x61, 2)]) State.reset) (fun t => t.freq) = some [(0x61, 2), (0x62, 1)]
      ∧ got (hostAct (.setLen .src 1) (source [0x61, 0x62])) (fun t => (t.src.elems, t.src.read 1)) = some ([0x61], none) := by
  decide

/-- Raised from 1 to 3, a byte at 1 having been written, none at 2; lowered to 0. -/
theorem witness_LengthWritesExposeAndForget :
    let s : State := { State.reset with src := ⟨[(0, 0x61), (1, 0x62)], 1⟩, host := [.setLen .src 3] }
    s.host = [.setLen .src 3] ∧ s.status ≠ .busy ∧ (s.hostBuf .src).wf (bufCap s.cfg .src) = true
      ∧ ¬ BreaksType s.cfg (.setLen .src 3) ∧ (s.hostBuf .src).len ≤ 1 ∧ 0 < (s.hostBuf .src).len
      ∧ Table.lookup id 1 (s.hostBuf .src).cells = some 0x62 ∧ Table.lookup id 2 (s.hostBuf .src).cells = none :=
  ⟨rfl, by decide, by decide, by simp [BreaksType, bufCap, State.reset, Config.default], by decide, by decide, by decide,
    by decide⟩

theorem witness_LengthWritesExposeAndForget_syms :
    ∃ s : State, s.host = [.setSymsLen 1] ∧ s.status ≠ .busy ∧ s.syms.wf s.cfg.symsCap = true
      ∧ ¬ BreaksType s.cfg (.setSymsLen 1) ∧ s.syms.len = 0 :=
  ⟨{ State.reset with host := [.setSymsLen 1] }, rfl, by decide, by decide,
    by simp [BreaksType, State.reset, Config.default], rfl⟩

theorem witness_ResetGivesSpecValues : ∃ s : State, s.host = [.reset] ∧ s.status = .busy :=
  ⟨{ State.reset with host := [.reset], status := .busy }, rfl, rfl⟩

theorem witness_StepKeepsInvariant :
    ∃ s t : State, s.Inv ∧ step s = .next t ∧ t.status = .ok := by
  have hs : State.Inv { (source [0x61, 0x62]).busyWith with cmd := 0x01 } := by
    refine ⟨?_, ?_, ?_, ?_, ?_, ?_, ?_, ?_, ?_, ?_, ?_, ?_, ?_, fun h => ?_, fun _ => rfl, fun h => absurd rfl h, ?_, ?_⟩
    case refine_14 => cases h
    all_goals decide
  obtain ⟨t, ht, hst⟩ := next_of_got (o := step { (source [0x61, 0x62]).busyWith with cmd := 0x01 }) (f := State.status)
    (v := .ok) (by decide +kernel)
  exact ⟨_, t, hs, ht, hst⟩

theorem witness_InstructionsKeepSourceAndConfig :
    Ends .compress (source [0x61, 0x62]) .ok ∧ Ends .nodeInternal State.reset .idle
      ∧ ∃ t, step State.reset = .next t := ⟨ends_of_got (by decide +kernel), ends_of_got (by decide +kernel), ⟨_, rfl⟩⟩

theorem witness_EveryInstructionEnds : Instr.decode.site = .command ∧ State.reset.host = [] := by decide

theorem witness_ErrorEmptiesOutputs :
    Ends .analyze (source [0x80]) .err ∧ Ends .build State.reset .err ∧ Ends .derive State.reset .err
      ∧ Ends .serialize State.reset .err ∧ Ends .deserialize State.reset .err
      ∧ Ends .encode { State.reset with syms := Buffer.ofList [0x61] } .err
      ∧ Ends .decode { State.reset with pay := Buffer.ofList [0x40] } .err
      ∧ Ends .assemble { State.reset with validBits := 9 } .err
      ∧ Ends .emit { State.reset with syms := Buffer.ofList [0x61], cfg := { Config.default with dstCap := some 0 } } .err
      ∧ Ends .parse State.reset .err ∧ Ends .compress State.reset .err ∧ Ends .decompress State.reset .err
      ∧ Ends (.illegal 0x00) State.reset .err :=
  ⟨ends_of_got (by decide +kernel), ends_of_got (by decide +kernel), ends_of_got (by decide +kernel), ends_of_got (by decide +kernel), ends_of_got (by decide +kernel),
    ends_of_got (by decide +kernel), ends_of_got (by decide +kernel), ends_of_got (by decide +kernel), ends_of_got (by decide +kernel), ends_of_got (by decide +kernel),
    ends_of_got (by decide +kernel), ends_of_got (by decide +kernel), ends_of_got (by decide +kernel)⟩

theorem witness_SuccessWritesOnlyOutputs :
    Ends .analyze (source [0x61]) .ok ∧ Ends .build { State.reset with freq := freqV2 } .ok
      ∧ Ends .derive { State.reset with tree := some treeAB } .ok
      ∧ Ends .serialize { State.reset with tree := some treeAB } .ok
      ∧ Ends .deserialize { State.reset with tbuf := Buffer.ofList treeAB.bytes } .ok
      ∧ Ends .encode { State.reset with syms := Buffer.ofList [0x61], ptab := ptabAB } .ok
      ∧ Ends .decode { State.reset with pay := Buffer.ofList [0x40], validBits := 2, lut := lutAB } .ok
      ∧ Ends .assemble State.reset .ok ∧ Ends .parse (source blobAB) .ok ∧ Ends .emit State.reset .ok
      ∧ Ends .compress (source [0x61, 0x62]) .ok ∧ Ends .decompress (source blobAB) .ok :=
  ⟨ends_of_got (by decide +kernel), ends_of_got (by decide +kernel), ends_of_got (by decide +kernel), ends_of_got (by decide +kernel), ends_of_got (by decide +kernel),
    ends_of_got (by decide +kernel), ends_of_got (by decide +kernel), ends_of_got (by decide +kernel), ends_of_got (by decide +kernel), ends_of_got (by decide +kernel),
    ends_of_got (by decide +kernel), ends_of_got (by decide +kernel)⟩

/-- COMPRESS's four errors; the other commands fail in the states of witness_ErrorEmptiesOutputs, and CLEAR never. -/
theorem witness_ErrorsOfEachCommand :
    got (exec .compress (source [0x80])) (fun t => (t.status, t.err)) = some (.err, 0x01)
      ∧ got (exec .compress State.reset) (fun t => (t.status, t.err)) = some (.err, 0x02)
      ∧ got (exec .compress (source [0x61])) (fun t => (t.status, t.err)) = some (.err, 0x04)
      ∧ got (exec .compress { source [0x61, 0x62] with cfg := small }) (fun t => (t.status, t.err)) = some (.err, 0x80) := by
  decide +kernel

theorem witness_RetryGivesSameError :
    Instr.parse.site = .command ∧ Ends .parse (source [0x02, 0x1F, 0x25, 0x25, 0x40]) .err := ⟨rfl, ends_of_got (by decide +kernel)⟩

theorem witness_CapacityExceededOnlyPastACapacity :
    Config.default.unbounded = true ∧ ((source blobAB).src.elems.length : Int) ≤ Config.default.cntMax
      ∧ countSum freqV2 ≤ Config.default.cntMax ∧ Ends .build { State.reset with freq := freqV2 } .ok
      ∧ validBitsOk (8 : BitVec 4).toNat = true ∧ small.dstCap = some 16 :=
  ⟨by decide, by decide, by decide, ends_of_got (by decide +kernel), by decide, by decide⟩

/-- ANALYZE of one symbol fits a SYMS of one; of two it does not, and a serialized tree of five bytes passes a TBUF of four. -/
theorem witness_CapacityExceededOnlyPastACapacity_fits :
    got (exec .analyze { source [0x61] with cfg := small.widened }) (fun t => (t.status, t.syms.len, t.freq.length))
        = some (.ok, 1, 1)
      ∧ (withinCap small.symsCap 1 = true ∧ withinCap small.nMax 1 = true ∧ withinCap small.symsCap 2 = false)
      ∧ got (exec .serialize { State.reset with tree := some treeAB, cfg := small.widened }) (fun t => (t.status, t.tbuf.len))
        = some (.ok, 5)
      ∧ withinCap small.tbufCap 5 = false
      ∧ got (exec .analyze { source [0x61, 0x62] with cfg := small }) (fun t => t.err) = some 0x80
      ∧ got (exec .serialize { State.reset with tree := some treeAB, cfg := small }) (fun t => t.err) = some 0x80 := by
  decide

/-- Two equal symbols pass a CNT_MAX of 1, and so does a map whose counts sum to 2. -/
theorem witness_CapacityExceededOnlyPastACapacity_counts :
    validText [0x61, 0x61] ∧ (source [0x61, 0x61]).src.elems = textBytes [0x61, 0x61]
      ∧ ({ Config.default with cntW := 2 } : Config).cntMax < ([(0x61 : Symbol), 0x61].count 0x61 : Int)
      ∧ ({ Config.default with cntW := 2 } : Config).cntMax < countSum [((0x61 : Symbol), (1 : Count)), (0x62, 1)]
      ∧ got (exec .analyze { source [0x61, 0x61] with cfg := { Config.default with cntW := 2 } }) (fun t => t.err)
        = some 0x80 :=
  ⟨validText_of_all (by decide), by decide, by decide, by decide, by decide⟩

theorem witness_AnalyzeCountsText :
    validText [0xE9, 0x61, 0xE9]
      ∧ (source [0xC3, 0xA9, 0x61, 0xC3, 0xA9]).src.elems = textBytes [0xE9, 0x61, 0xE9]
      ∧ Config.default.unbounded = true ∧ ([(0xE9 : Symbol), 0x61, 0xE9].length : Int) ≤ Config.default.cntMax :=
  ⟨validText_of_all (by decide), by decide, by decide, by decide⟩

/-- A lone continuation byte is the text of nothing. -/
theorem no_text_80 : ¬ ∃ l, validText l ∧ ([0x80] : List Byte) = textBytes l := by
  rintro ⟨_ | ⟨x, l⟩, -, h⟩
  · cases h
  · have h1 : utf8Encode x ++ textBytes l = [0x80] := by simpa [textBytes] using h.symm
    have hl := congrArg List.length h1
    have hw := utf8Width_pos x
    simp only [List.length_append, utf8Encode_length, List.length_cons, List.length_nil] at hl
    have h7 : x.toNat ≤ 0x7F := by
      by_contra hc
      unfold utf8Width at hl
      split_ifs at hl <;> omega
    have h2 : (x.setWidth 8).toNat = 0x80 := by
      have h3 : utf8Encode x = [x.setWidth 8] := by unfold utf8Encode; rw [if_pos h7]
      rw [h3] at h1
      rw [show x.setWidth 8 = 0x80 from (List.cons.inj h1).1]
      rfl
    rw [BitVec.toNat_setWidth, Nat.mod_eq_of_lt (by omega)] at h2
    omega

theorem witness_AnalyzeRejectsInvalidText :
    (source [0x80]).cfg.unbounded = true ∧ ((source [0x80]).src.elems.length : Int) ≤ Config.default.cntMax
      ∧ ¬ ∃ l, validText l ∧ (source [0x80]).src.elems = textBytes l := ⟨by decide, by decide, no_text_80⟩

theorem witness_BuildRejectsBadMaps :
    State.reset.freq = [] ∧ (∃ e ∈ [((0x61 : Symbol), (1 : Count)), (0x62, 0)], e.2 ≤ 0)
      ∧ ([((0x61 : Symbol), (1 : Count))].length = 1 ∧ ∀ e ∈ [((0x61 : Symbol), (1 : Count))], 0 < e.2) := by decide

theorem witness_BuildRejectsBadMaps_analyze : Ends .analyze (source [0x61]) .ok := ends_of_got (by decide +kernel)

theorem witness_QueueHeadIsLeast :
    (⟨2, 0, 3, treeAB⟩ : PQEntry).seq ≠ (⟨2, 0, 0, treeAB⟩ : PQEntry).seq
      ∧ ([(⟨2, 0, 3, treeAB⟩ : PQEntry), ⟨2, 0, 0, treeAB⟩].map PQEntry.seq).Nodup := by decide

theorem witness_BuildMakesTree :
    Config.default.unbounded = true ∧ Table.wf symKey freqV2 = true ∧ 2 ≤ freqV2.length ∧ (∀ e ∈ freqV2, 0 < e.2)
      ∧ countSum freqV2 ≤ Config.default.cntMax := by decide

/-- R147's first merge on two of its entries: the lesser count, queued second, is popped first and becomes Left. -/
theorem witness_BuildMakesTree_merges :
    Merges 0 2 (queueLeaves [(0x63, 2), (0x64, 1)]) (.internal 3 (.leaf 0x64 1) (.leaf 0x63 2)) := by
  refine .merge (a := ⟨1, 0x64, 1, .leaf 0x64 1⟩) (b := ⟨2, 0x63, 0, .leaf 0x63 2⟩) (q1 := [⟨2, 0x63, 0, .leaf 0x63 2⟩])
    (q2 := []) ⟨?_, ?_⟩ ⟨.refl _, by simp⟩ (.done 3 ⟨3, 0, 2, .internal 3 (.leaf 0x64 1) (.leaf 0x63 2)⟩)
  · exact .swap _ _ _
  · simp [keyLess]

theorem witness_BuildIsAFunctionOfTheMap :
    (let s : State := { State.reset with freq := freqV2 }
      let s' : State := { source blobAB with freq := freqV2, tree := some treeAB, seq := 7 }
      s.cfg = s'.cfg ∧ s.freq = s'.freq ∧ Ends .build s .ok ∧ Ends .build s' .ok)
      ∧ [((0x62 : Symbol), (1 : Count)), (0x61, 2)].Perm [(0x61, 2), (0x62, 1)]
      ∧ Table.uniqueKeys symKey [((0x62 : Symbol), (1 : Count)), (0x61, 2)] = true :=
  ⟨⟨rfl, rfl, ends_of_got (by decide +kernel), ends_of_got (by decide +kernel)⟩, by decide, by decide⟩

theorem witness_DeriveAfterBuildChangesNothing : Ends .build { State.reset with freq := freqV2 } .ok :=
  ends_of_got (by decide +kernel)

theorem witness_DeriveWritesPaths :
    State.reset.tree = none ∧ State.reset.cfg.unbounded = true
      ∧ ∃ s : State, s.cfg.unbounded = true ∧ s.tree = some (.internal 0 (.leaf 0x61 0) (.leaf 0x61 0)) :=
  ⟨rfl, by decide, { State.reset with tree := some (.internal 0 (.leaf 0x61 0) (.leaf 0x61 0)) }, by decide, rfl⟩

theorem witness_CodesPrefixFreeAndComplete :
    ∃ s t : State, s.tree = some treeAB ∧ exec .derive s = .next t ∧ t.status = .ok
      ∧ Table.lookup bitsKey [false] t.lut = some 0x61 ∧ Table.lookup bitsKey [true] t.lut = some 0x62
      ∧ ([false] : Bits) ≠ [true] := by
  obtain ⟨t, ht, hs⟩ := next_of_got (o := exec .derive { State.reset with tree := some treeAB })
    (f := fun t => (t.status, Table.lookup bitsKey [false] t.lut, Table.lookup bitsKey [true] t.lut))
    (v := (.ok, some 0x61, some 0x62)) (by decide +kernel)
  simp only [Prod.mk.injEq] at hs
  exact ⟨_, t, rfl, ht, hs.1, hs.2.1, hs.2.2, by decide⟩

/-- Two symbols of PTAB with different codes. -/
theorem witness_CodesPrefixFreeAndComplete_ptab :
    ∃ t : State, exec .derive { State.reset with tree := some treeAB } = .next t
      ∧ (t.status, Table.lookup symKey 0x61 t.ptab, Table.lookup symKey 0x62 t.ptab)
        = (Status.ok, some [false], some [true]) :=
  next_of_got (f := fun t => (t.status, Table.lookup symKey 0x61 t.ptab, Table.lookup symKey 0x62 t.ptab))
    (by decide +kernel)

theorem witness_TablesAreInverse_build :
    Table.wf symKey [((0x61 : Symbol), (1 : Count)), (0x62, 1)] = true
      ∧ ∃ t : State, exec .build { State.reset with freq := [(0x61, 1), (0x62, 1)] } = .next t
        ∧ t.tree = some (.internal 2 (.leaf 0x61 1) (.leaf 0x62 1)) :=
  ⟨by decide, next_of_got (by decide +kernel)⟩

theorem witness_TablesAreInverse :
    treeAB.symbols.Nodup ∧ Ends .derive { State.reset with tree := some treeAB } .ok := ⟨by decide, ends_of_got (by decide +kernel)⟩

theorem witness_SerializeWritesTree :
    ∃ s : State, s.cfg.unbounded = true ∧ s.tree = some (.leaf 0x1F600 0) :=
  ⟨{ State.reset with tree := some (.leaf 0x1F600 0) }, by decide, rfl⟩

theorem witness_DeserializeInvertsSerialize :
    validText treeAB.symbols
      ∧ (Buffer.ofList [(0x00 : Byte), 0x01, 0x61, 0x01, 0x62, 0xFF]).elems = treeAB.bytes ++ [0xFF]
      ∧ Ends .deserialize { State.reset with tbuf := Buffer.ofList [0x00, 0x01, 0x61, 0x01, 0x62, 0xFF] } .ok :=
  ⟨validText_of_all (by decide), by decide, ends_of_got (by decide +kernel)⟩

/-- The empty beginning and the longest. -/
theorem witness_TreeBeginningsAreTruncated :
    Config.default.plain ∧ validText treeAB.symbols ∧ 0 < treeAB.bytes.length
      ∧ (Buffer.empty : Buffer Byte).elems = treeAB.bytes.take 0 ∧ 4 < treeAB.bytes.length
      ∧ (Buffer.ofList [(0x00 : Byte), 0x01, 0x61, 0x01]).elems = treeAB.bytes.take 4 :=
  ⟨by unfold Config.plain; decide, validText_of_all (by decide), by decide, by decide, by decide, by decide⟩

/-- The stack at its limit of one and past it; a pending Left below a pending Right; only pending Rights. -/
theorem witness_TreeTokensAdvanceWalk :
    withinCap small.stackMax (([] : List Frame).length + 1) = true
      ∧ withinCap small.stackMax ([Frame.left].length + 1) = false
      ∧ withinCap small.nMax (0 + 1) = true ∧ withinCap small.nMax (1 + 1) = false
      ∧ [Frame.right (.leaf 0x61 0), Frame.left] = [Node.leaf 0x61 0].map Frame.right ++ Frame.left :: []
      ∧ [Frame.right (.leaf 0x61 0)] = [Node.leaf 0x61 0].map Frame.right
      ∧ (walking .treeToken State.reset).phase = .pIdle
      ∧ (walking .treeToken { State.reset with phase := .dDeserialize }).phase = .dDeserialize := by decide

theorem witness_TokenWalksMatchUnits :
    (State.reset.host = [] ∧ State.reset.phase = .pIdle ∧ State.reset.site = .command)
      ∧ Ends .deserialize { State.reset with tbuf := Buffer.ofList treeAB.bytes } .ok
      ∧ (source blobAB).src.elems.length = (source blobAB).src.len ∧ Ends .parse (source blobAB) .ok :=
  ⟨by decide, ends_of_got (by decide +kernel), by decide, ends_of_got (by decide +kernel)⟩

theorem witness_EncodePacksCodes :
    (Buffer.ofList [(0x62 : Symbol), 0x61]).elems.map (fun x => Table.lookup symKey x ptabAB)
      = [[true], [false]].map some := by decide

theorem witness_EncodeUnknownSymbol :
    ∃ x ∈ (Buffer.ofList [(0x62 : Symbol), 0x63]).elems, Table.lookup symKey x ptabAB = none :=
  ⟨0x63, by decide, by decide⟩

theorem witness_EncodeUnknownSymbol_compress : Ends .compress (source [0x61, 0x62]) .ok :=
  ends_of_got (by decide +kernel)

theorem witness_PayloadBitOrder : 15 < 8 * [(0x40 : Byte), 0x01].length ∧ 1 ≤ 1 := by decide

theorem witness_DecodeInvertsEncode :
    ∃ s : State, s.cfg.unbounded = true ∧ s.tree = some treeAB ∧ 2 ≤ treeAB.symbols.length
      ∧ ∀ x ∈ s.syms.elems, x ∈ treeAB.symbols :=
  ⟨{ State.reset with tree := some treeAB, syms := Buffer.ofList [0x62, 0x61] }, by decide, rfl, by decide,
    by show ∀ x ∈ [(0x62 : Symbol), 0x61], x ∈ [(0x61 : Symbol), 0x62]; simp⟩

theorem witness_TreeWalkEqualsLookup :
    ∃ (s t : State) (c : CodeTables) (b : Buffer Symbol), s.pay.elems.length = s.pay.len
      ∧ deriveTables s.cfg treeAB = .ok c ∧ s.lut = c.lut ∧ exec .decode s = .next t
      ∧ decodeByTree s.cfg treeAB s.pay.elems s.validBits = .ok b :=
  ⟨{ State.reset with pay := Buffer.ofList [0x40], validBits := 2, lut := lutAB }, _, ⟨ptabAB, lutAB⟩, _, by decide, rfl,
    rfl, rfl, rfl⟩

theorem witness_TreeWalkEqualsLookup_error :
    ∃ (s t : State) (c : CodeTables) (k : ErrKind), s.pay.elems.length = s.pay.len
      ∧ deriveTables s.cfg (.leaf 0x61 0) = .ok c ∧ s.lut = c.lut ∧ exec .decode s = .next t
      ∧ decodeByTree s.cfg (.leaf 0x61 0) s.pay.elems s.validBits = .error k :=
  ⟨{ State.reset with pay := Buffer.ofList [0x00], validBits := 1, lut := [([], 0x61)] }, _,
    ⟨[(0x61, [])], [([], 0x61)]⟩, _, by decide, rfl, rfl, rfl, rfl⟩

theorem witness_DecodeChecksAndEndTest :
    State.reset.pay.len = 0
      ∧ (let s : State := { State.reset with pay := Buffer.ofList [0x40], validBits := 9 }
        s.pay.len ≠ 0 ∧ 8 < s.validBits.toNat ∧ ({ s with validBits := 0 } : State).validBits.toNat = 0)
      ∧ (let s : State := { State.reset with pay := Buffer.ofList [0x40], validBits := 1, lut := [] }
        s.pay.len ≠ 0 ∧ s.pay.elems.length = s.pay.len ∧ 1 ≤ s.validBits.toNat ∧ s.lut = [])
      ∧ (let s : State := { State.reset with pay := Buffer.ofList [0x40], validBits := 8, lut := [([], 0x61)] }
        s.pay.len ≠ 0 ∧ s.pay.elems.length = s.pay.len ∧ 1 ≤ s.validBits.toNat ∧ s.validBits.toNat ≤ 8
          ∧ s.lut = [([], 0x61)]) := by decide

/-- The lookup of `Internal(_, Leaf a, Internal(_, Leaf b, Leaf c))`. -/
def lutABC : List (Bits × Symbol) := [([false], 0x61), ([true, false], 0x62), ([true, true], 0x63)]

/-- With that lookup, bits 0 10: a run of two codes; bits 0 1: a code and a
proper beginning of `10`. -/
theorem witness_DecodeChecksAndEndTest_run :
    let root : Node := .internal 0 (.leaf 0x61 0) (.internal 0 (.leaf 0x62 0) (.leaf 0x63 0))
    let pay : Buffer Byte := Buffer.ofList [0x40]
    root.paths = [([false], 0x61), ([true, false], 0x62), ([true, true], 0x63)] ∧ 2 ≤ root.symbols.length
      ∧ (pay.len ≠ 0 ∧ pay.elems.length = pay.len)
      ∧ (payloadBits pay.elems).take (usableBits pay.len 3) = ([[false], [true, false]] : List Bits).flatten ++ []
      ∧ (payloadBits pay.elems).take (usableBits pay.len 2) = ([[false]] : List Bits).flatten ++ [true]
      ∧ [true] <+: [true, false] ∧ ([true] : Bits) ≠ [] ∧ ([true] : Bits) ≠ [true, false]
      ∧ (deriveTables Config.default root).toOption.map CodeTables.lut
        = some lutABC := by decide

/-- R203: `ab` decodes, and a candidate left over discards the symbol already matched. -/
theorem test_decode_end :
    got (exec .decode { State.reset with pay := Buffer.ofList [0x40], lut := lutABC, validBits := 3 })
        (fun t => (t.syms.elems, t.err)) = some ([0x61, 0x62], 0)
      ∧ got (exec .decode { State.reset with pay := Buffer.ofList [0x40], lut := lutABC, validBits := 2 })
        (fun t => (t.syms.len, t.err)) = some (0, 0x0E) := by decide

theorem witness_PaddingIsZeroAndIgnored :
    ∃ s t : State, s.pay = Buffer.ofList ([] ++ [0x40]) ∧ 1 ≤ s.validBits.toNat ∧ s.validBits.toNat ≤ 8
      ∧ (0x40 : Byte) >>> (8 - s.validBits.toNat) = 0x7F >>> (8 - s.validBits.toNat) ∧ exec .decode s = .next t :=
  ⟨{ State.reset with pay := Buffer.ofList [0x40], validBits := 2, lut := lutAB }, _, rfl, by decide, by decide, by decide,
    rfl⟩

/-- One bit of eight used: the bits from 1 on are padding. -/
theorem witness_PaddingIsZeroAndIgnored_encode :
    ∃ t : State, exec .encode { State.reset with syms := Buffer.ofList [0x62], ptab := ptabAB } = .next t
      ∧ (t.status, usableBits t.pay.len t.validBits, 8 * t.pay.len) = (Status.ok, 1, 8) :=
  next_of_got (f := fun t => (t.status, usableBits t.pay.len t.validBits, 8 * t.pay.len)) (by decide +kernel)

theorem witness_AssembleWritesBlob :
    (1 ≤ (1 : BitVec 4).toNat ∧ (8 : BitVec 4).toNat ≤ 8) ∧ (0 : BitVec 4).toNat = 0 ∧ 8 < (9 : BitVec 4).toNat := by decide

theorem witness_ParseSplitsBlob :
    (source [0x08, 0xAA, 0x1F, 0x25, 0x01, 0x25, 0x25, 0x40]).src.elems
        = 0x08 :: ([0xAA] ++ 0x1F :: ([0x25, 0x01] ++ 0x25 :: 0x25 :: [0x40]))
      ∧ (0x1F : Byte) ∉ [(0xAA : Byte)]
      ∧ ∀ i, i < [(0x25 : Byte), 0x01].length →
          ¬ (([(0x25 : Byte), 0x01] ++ [0x25, 0x25])[i]? = some 0x25
            ∧ ([(0x25 : Byte), 0x01] ++ [0x25, 0x25])[i + 1]? = some 0x25) := by decide

theorem witness_ParseErrorsInOrder :
    (source [0x02]).src.elems.length < 2 ∧ (source [0x09, 0x1F]).src.elems = 0x09 :: [0x1F] ∧ 8 < (0x09 : Byte).toNat
      ∧ (0x1F : Byte) ∉ [(0x20 : Byte)] ∧ [(0xAA : Byte), 0x1F] = [0xAA] ++ 0x1F :: []
      ∧ ({ Config.default with strictMarkerOffset := true } : Config).strictMarkerOffset = true
      ∧ (∀ a b : List Byte, [(0x25 : Byte)] ≠ a ++ 0x25 :: 0x25 :: b)
      ∧ [(0x25 : Byte), 0x25, 0x25] = 0x25 :: 0x25 :: [0x25]
      ∧ [(0x01 : Byte), 0x61, 0x25, 0x25] = [0x01, 0x61] ++ [0x25, 0x25]
      ∧ ∀ i, i < [(0x01 : Byte), 0x61].length →
          ¬ ([(0x01 : Byte), 0x61, 0x25, 0x25][i]? = some 0x25 ∧ [(0x01 : Byte), 0x61, 0x25, 0x25][i + 1]? = some 0x25) := by
  refine ⟨by decide, by decide, by decide, by decide, by decide, by decide, fun a b h => ?_, by decide, by decide, by decide⟩
  have := congrArg List.length h
  simp at this
  omega

theorem witness_BlobTokensAdvanceWalk :
    let s : State := { source blobAB with cursor := 7, treeAt := 2, header := 2, site := .blobEnd, status := .busy }
    s.cfg.unbounded = true ∧ s.cursor ≠ s.treeAt ∧ s.cursor + 2 ≠ s.src.len ∧ s.phase = .pIdle
      ∧ ({ s with phase := .dParse } : State).phase = .dParse
      ∧ ({ s with treeAt := 7 } : State).cursor = ({ s with treeAt := 7 } : State).treeAt
      ∧ ({ s with src := Buffer.ofList (blobAB.take 9) } : State).src.len = s.cursor + 2 := by decide

theorem witness_EmitWritesText :
    ∃ s t u : State, s.cfg.unbounded = true ∧ exec .analyze s = .next t ∧ t.status = .ok ∧ exec .emit t = .next u := by
  obtain ⟨t, ht, hs⟩ := next_of_got (o := exec .analyze (source [0xC3, 0xA9])) (f := State.status) (v := .ok)
    (by decide +kernel)
  exact ⟨_, t, _, by decide, ht, hs, rfl⟩

theorem witness_ClearEmptiesWorkingSet : Ends .clear { State.reset with tree := some treeAB } .ok := ends_of_got (by decide +kernel)

theorem witness_IllegalCodesRefused :
    (0x0B : Byte).toNat ∉ [0x01, 0x02, 0x03, 0x04, 0x05, 0x06, 0x07, 0x08, 0x09, 0x0A, 0x0F, 0x10, 0x11]
      ∧ ∃ s : State, s.host = [.writeCmd 0x0B] ∧ s.status ≠ .busy ∧ s.phase = .pIdle ∧ s.site = .command :=
  ⟨by decide, { State.reset with host := [.writeCmd 0x0B] }, rfl, by decide, rfl, rfl⟩

theorem witness_RoundTripExceptHazard :
    Config.default.plain ∧ validText [0x62, 0x61]
      ∧ (source [0x62, 0x61]).src.elems = textBytes [0x62, 0x61]
      ∧ (∃ x ∈ [(0x62 : Symbol), 0x61], ∃ y ∈ [(0x62 : Symbol), 0x61], x ≠ y)
      ∧ ([(0x62 : Symbol), 0x61].length : Int) ≤ Config.default.cntMax :=
  ⟨by unfold Config.plain; decide, validText_of_all (by decide), by decide,
    ⟨0x62, by decide, 0x61, by decide, by decide⟩, by decide⟩

/-- Both sides of the exception occur: "ab" ends in Leaf b, "a%%" in Leaf %. -/
theorem witness_RoundTripExceptHazard_sides :
    (∃ b, buildTree Config.default [(0x61, 1), (0x62, 1)] = .ok b ∧ b.root.lastSymbol ≠ 0x25)
      ∧ ∃ b, buildTree Config.default [(0x25, 2), (0x61, 1)] = .ok b ∧ b.root.lastSymbol = 0x25 :=
  ⟨⟨⟨.internal 2 (.leaf 0x61 1) (.leaf 0x62 1), 3⟩, by decide +kernel, by decide⟩,
    ⟨.internal 3 (.leaf 0x61 1) (.leaf 0x25 2), 3⟩, by decide +kernel, by decide⟩

theorem witness_CompressErrors :
    Ends .compress (source [0x80]) .err ∧ (¬ ∃ l, validText l ∧ (source [0x80]).src.elems = textBytes l)
      ∧ (source []).src.elems = [] ∧ (source [0xC3, 0xA9]).src.elems = textBytes (List.replicate (0 + 1) 0xE9)
      ∧ isScalar 0xE9 = true ∧ Ends .compress (source [0xC3, 0xA9]) .err :=
  ⟨ends_of_got (by decide +kernel), no_text_80, rfl, by decide, by decide, ends_of_got (by decide +kernel)⟩

theorem witness_CommandsDependOnReadsOnly :
    let s := source blobAB
    let s' := { source blobAB with tree := some treeAB, phase := .dEmit, validBits := 3 }
    s.cfg = s'.cfg ∧ s.src.elems = s'.src.elems ∧ Ends .decompress s .ok ∧ Ends .decompress s' .ok ∧ Ends .parse s .ok
      ∧ Ends .parse s' .ok :=
  ⟨rfl, rfl, ends_of_got (by decide +kernel), ends_of_got (by decide +kernel), ends_of_got (by decide +kernel),
    ends_of_got (by decide +kernel)⟩

/-- Two states that agree in what the other unit commands read and in nothing else of the working set. -/
theorem witness_CommandsDependOnReadsOnly_units :
    let s : State := { State.reset with tree := some treeAB, tbuf := Buffer.ofList treeAB.bytes, syms := Buffer.ofList [0x61],
                                        ptab := ptabAB, pay := Buffer.ofList [0x40], validBits := 2, lut := lutAB }
    let s' : State := { s with src := Buffer.ofList [0x01], freq := freqV2, dst := Buffer.ofList [0x02], cursor := 9 }
    s ≠ s' ∧ s.cfg = s'.cfg ∧ Ends .derive s .ok ∧ Ends .derive s' .ok ∧ Ends .serialize s' .ok ∧ Ends .deserialize s' .ok
      ∧ Ends .encode s' .ok ∧ Ends .decode s' .ok ∧ Ends .assemble s' .ok ∧ Ends .emit s' .ok :=
  ⟨by decide, rfl, ends_of_got (by decide +kernel), ends_of_got (by decide +kernel), ends_of_got (by decide +kernel),
    ends_of_got (by decide +kernel), ends_of_got (by decide +kernel), ends_of_got (by decide +kernel),
    ends_of_got (by decide +kernel), ends_of_got (by decide +kernel)⟩

theorem witness_CutBlobsAreRejected :
    ∃ (t : State) (r : AnalyzeRegs) (b : BuiltTree), exec .compress (source [0x61, 0x62]) = .next t ∧ t.status = .ok
      ∧ analyzeText Config.default (source [0x61, 0x62]).src.elems = .ok r ∧ buildTree Config.default r.freq = .ok b
      ∧ b.root.bytes.length = 5 ∧ (source (blobAB.take 9)).src.elems = t.dst.elems.take (4 + b.root.bytes.length) := by
  obtain ⟨t, ht, hs⟩ := next_of_got (o := exec .compress (source [0x61, 0x62])) (f := fun t => (t.status, t.dst.elems))
    (v := (.ok, blobAB)) (by decide +kernel)
  simp only [Prod.mk.injEq] at hs
  exact ⟨t, ⟨Buffer.ofList [0x61, 0x62], [(0x61, 1), (0x62, 1)], 2⟩, ⟨.internal 2 (.leaf 0x61 1) (.leaf 0x62 1), 3⟩, ht, hs.1,
    by decide +kernel, by decide +kernel, by decide, by rw [hs.2]; decide⟩

theorem witness_PhaseStepsMatchComposite :
    (source blobAB).host = [] ∧ (source blobAB).site = .command ∧ Ends .compress (source [0x61, 0x62]) .ok
      ∧ Ends .decompress (source blobAB) .ok ∧ (source blobAB).src.elems.length = (source blobAB).src.len :=
  ⟨rfl, rfl, ends_of_got (by decide +kernel), ends_of_got (by decide +kernel), by decide⟩

end Sys2Proof.Tests
end

section
/-! What a step is, told by whose move it is, and runs of several steps. -/

namespace Sys2Proof.Machine

/-! ### One step -/

theorem step_of_blockTurn {s : State} (ht : s.blockTurn) (hb : s.status = .busy) : step s = blockMove s := by
  rcases ht with hh | ⟨rest, hh⟩
  · simp only [step, cycle, hh]
  · simp only [step, cycle, hh, if_pos hb]

/-- A block that is not busy, its host having nothing to do, stands still (60_exceptions.md R264). -/
theorem step_idle {s : State} (hh : s.host = []) (hs : s.status ≠ .busy) : step s = .next s := by
  simp only [step, cycle, hh, blockMove]
  cases h : s.status with
  | busy => exact absurd h hs
  | idle => rfl
  | ok => rfl
  | err => rfl

/-- While the host has an action that is no wait, the step is that action (log entry 2). -/
theorem step_hostAct {s : State} {a : HostAction} {rest : List HostAction} (hh : s.host = a :: rest) (ha : a ≠ .wait) :
    step s = hostAct a { s with host := rest } := by
  unfold step cycle
  rw [hh]
  cases a with
  | wait => exact absurd rfl ha
  | _ => rfl

theorem step_wait {s : State} {rest : List HostAction} (hh : s.host = .wait :: rest) (hs : s.status ≠ .busy) :
    step s = .next { s with host := rest } := by
  simp only [step, cycle, hh, if_neg hs]

/-- In the middle of a composite command the block's move is the current phase. -/
theorem blockMove_phase {s : State} (hb : s.status = .busy) (hs : s.site = .command) (hp : s.phase ≠ .pIdle) :
    blockMove s = stepPhase s := by
  simp only [blockMove, hb, if_pos (And.intro hs hp)]

/-- Elsewhere it is the instruction fetched. -/
theorem blockMove_fetch_ok {s t : State} {i : Instr} (hb : s.status = .busy)
    (hs : ¬(s.site = .command ∧ s.phase ≠ .pIdle)) (hf : fetch s = .ok (i, t)) : blockMove s = exec i t := by
  simp only [blockMove, hb, if_neg hs, hf]

/-- Where there is none it is error entry. -/
theorem blockMove_fetch_error {s : State} {k : ErrKind} (hb : s.status = .busy)
    (hs : ¬(s.site = .command ∧ s.phase ≠ .pIdle)) (hf : fetch s = .error k) :
    blockMove s = .next (raiseRunning k s) := by
  simp only [blockMove, hb, if_neg hs, hf]

/-! ### Decoding a command word -/

theorem decodeCommand_site (code : Byte) : (decodeCommand code).site = .command := by
  simp only [decodeCommand, apply_ite Instr.site]
  simp only [Instr.site, ite_self]

theorem decodeCommand_wf (code : Byte) : (decodeCommand code).wf = true := by
  revert code
  decide +kernel

theorem fetch_command {s : State} (hs : s.site = .command) : fetch s = .ok (decodeCommand s.cmd, s) := by
  simp only [fetch, seek, hs, fetchBytes, tokenAt, decode]

/-! ### Runs -/

@[simp] theorem run_zero (s : State) : Host.Core.run core 0 s = .next s := rfl

theorem run_succ {s t : State} (h : step s = .next t) (n : Nat) :
    Host.Core.run core (n + 1) s = Host.Core.run core n t := by
  have hstep : core.step s = .next t := h
  simp only [Host.Core.run, hstep]

theorem run_add {s t : State} {j : Nat} (h : Host.Core.run core j s = .next t) (n : Nat) :
    Host.Core.run core (j + n) s = Host.Core.run core n t := by
  induction j generalizing s with
  | zero => cases h; rw [Nat.zero_add]
  | succ j ih =>
    rw [Nat.add_right_comm]
    cases hs : step s with
    | next u => rw [run_succ hs] at h ⊢; exact ih h
    | fault f =>
      have hstep : core.step s = .fault f := hs
      simp only [Host.Core.run, hstep] at h
      cases h
    | refused f =>
      have hstep : core.step s = .refused f := hs
      simp only [Host.Core.run, hstep] at h
      cases h

theorem run_idle {s : State} (hh : s.host = []) (hs : s.status ≠ .busy) (n : Nat) :
    Host.Core.run core n s = .next s := by
  induction n with
  | zero => rfl
  | succ n ih => rw [run_succ (step_idle hh hs), ih]

/-- From `s` the machine comes to `t` within `n` steps. -/
def Reaches (n : Nat) (s t : State) : Prop := ∃ j ≤ n, Host.Core.run core j s = .next t

theorem Reaches.refl (n : Nat) (s : State) : Reaches n s s := ⟨0, Nat.zero_le n, rfl⟩

theorem Reaches.step {s t : State} (h : step s = .next t) : Reaches 1 s t := ⟨1, Nat.le_refl 1, by rw [run_succ h, run_zero]⟩

theorem Reaches.trans {m n : Nat} {s t u : State} (h1 : Reaches m s t) (h2 : Reaches n t u) : Reaches (m + n) s u := by
  obtain ⟨j, hj, hjs⟩ := h1
  obtain ⟨k, hk, hkt⟩ := h2
  exact ⟨j + k, Nat.add_le_add hj hk, by rw [run_add hjs, hkt]⟩

theorem Reaches.mono {m n : Nat} {s t : State} (h : Reaches m s t) (hmn : m ≤ n) : Reaches n s t := by
  obtain ⟨j, hj, hjs⟩ := h
  exact ⟨j, Nat.le_trans hj hmn, hjs⟩

/-- A state that stands still, reached within `n` steps, is where a run of `n` steps ends. -/
theorem Reaches.run {n : Nat} {s t : State} (h : Reaches n s t) (hh : t.host = []) (hs : t.status ≠ .busy) :
    Host.Core.run core n s = .next t := by
  obtain ⟨j, hj, hjs⟩ := h
  obtain ⟨k, rfl⟩ := Nat.exists_eq_add_of_le hj
  rw [run_add hjs, run_idle hh hs]

/-! ### The obligations about single steps -/

/-- Settles O6: the step of a busy block is the block's move, and the fetch at the sequencer reads CMD. -/
theorem stepRunsDecodedCommand : Obligations.StepRunsDecodedCommand := by
  intro s ht hb hs hp
  refine ⟨decodeCommand s.cmd, rfl, decodeCommand_wf s.cmd, ?_⟩
  rw [step_of_blockTurn ht hb, blockMove_fetch_ok hb (fun h => h.2 hp) (fetch_command hs)]

/-- Settles O9: an idle block's move changes nothing, and a command write looks at STATUS alone. -/
theorem idleUntilCommandWrite : Obligations.IdleUntilCommandWrite := by
  refine ⟨fun s hh hs => step_idle hh hs, fun s code rest hh => ?_⟩
  have hstep : step s = .next (writeCommand code { s with host := rest }) := step_hostAct hh (by simp)
  refine ⟨fun hb => ?_, fun hb => ?_⟩
  · rw [hstep, writeCommand, if_pos hb]
  · rw [hstep, writeCommand, if_neg hb]

end Sys2Proof.Machine
end

section
/-! One form for all commands, and what no instruction writes: SRC, CMD, the parameters and the host's side. -/

namespace Sys2Proof.Machine

/-! ### Commands have one form: an operation, then success or error entry (10_state.md R27) -/

/-- The operation of a command. The token instructions are no commands and have none. -/
def commandBody (i : Instr) (s : State) : Except ErrKind State :=
  match i with
  | .analyze => analyzeBody s
  | .build => buildBody s
  | .derive => deriveBody s
  | .serialize => serializeBody s
  | .deserialize => deserializeBody s
  | .encode => encodeBody s
  | .decode => decodeBody s
  | .assemble => assembleBody s
  | .parse => parseBody s
  | .emit => emitBody s
  | .clear => clearBody s
  | .compress => compositeBody .cAnalyze s
  | .decompress => compositeBody .dParse s
  | .illegal _ | .nodeInternal | .nodeLeaf _ | .nodeIllegal _ | .treeStart | .treeEnd | .validBitsHeader _ =>
    .error .illegalCommand

theorem exec_command {i : Instr} (hi : i.site = .command) (s : State) :
    exec i s = .next (finish i s (commandBody i s)) := by
  cases i with
  | nodeInternal | nodeLeaf _ | nodeIllegal _ | treeStart | treeEnd | validBitsHeader _ => cases hi
  | _ => rfl

/-- A command is a unit, a composite, CLEAR or an illegal code. -/
theorem commandBody_cases {i : Instr} (hi : i.site = .command) :
    (∃ p, ∀ s, commandBody i s = phaseBody p s) ∨ (∃ p, ∀ s, commandBody i s = compositeBody p s)
      ∨ (∀ s, commandBody i s = clearBody s) ∨ ∀ s, commandBody i s = .error .illegalCommand := by
  cases i with
  | analyze => exact .inl ⟨.cAnalyze, fun _ => rfl⟩
  | build => exact .inl ⟨.cBuild, fun _ => rfl⟩
  | derive => exact .inl ⟨.dDerive, fun _ => rfl⟩
  | serialize => exact .inl ⟨.cSerialize, fun _ => rfl⟩
  | deserialize => exact .inl ⟨.dDeserialize, fun _ => rfl⟩
  | encode => exact .inl ⟨.cEncode, fun _ => rfl⟩
  | decode => exact .inl ⟨.dDecode, fun _ => rfl⟩
  | assemble => exact .inl ⟨.cAssemble, fun _ => rfl⟩
  | parse => exact .inl ⟨.dParse, fun _ => rfl⟩
  | emit => exact .inl ⟨.dEmit, fun _ => rfl⟩
  | compress => exact .inr (.inl ⟨.cAnalyze, fun _ => rfl⟩)
  | decompress => exact .inr (.inl ⟨.dParse, fun _ => rfl⟩)
  | clear => exact .inr (.inr (.inl fun _ => rfl))
  | _ => exact .inr (.inr (.inr fun _ => rfl))

/-- A command that ends with STATUS OK is its operation's result. -/
theorem exec_status_ok {i : Instr} (hi : i.site = .command) {s t : State} (h : exec i s = .next t)
    (hok : t.status = .ok) : ∃ u, commandBody i s = .ok u ∧ t = u.succeed := by
  rw [exec_command hi] at h
  cases h
  cases hb : commandBody i s with
  | error k => rw [hb] at hok; cases hok
  | ok u => exact ⟨u, rfl, rfl⟩

/-! ### What instructions leave alone -/

/-- The part of the state that no instruction writes: it is the host's, or nobody's. -/
structure Outside where
  src : Buffer Byte
  cmd : Byte
  cfg : Config
  host : List HostAction
  freeNext : Nat

/-- The part of the state that no command's operation writes: the same, and the control registers that the command's end
writes. -/
structure Control where
  outside : Outside
  site : Site
  status : Status
  err : Byte

/-- What of the state is `Outside`. -/
def State.outside (s : State) : Outside := ⟨s.src, s.cmd, s.cfg, s.host, s.freeNext⟩

/-- What of the state is `Control`. -/
def State.control (s : State) : Control := ⟨s.outside, s.site, s.status, s.err⟩

theorem outside_eq_iff {s t : State} : t.outside = s.outside ↔
    t.src = s.src ∧ t.cmd = s.cmd ∧ t.cfg = s.cfg ∧ t.host = s.host ∧ t.freeNext = s.freeNext := by
  simp only [State.outside, Outside.mk.injEq]

theorem control_eq_iff {s t : State} : t.control = s.control ↔
    t.outside = s.outside ∧ t.site = s.site ∧ t.status = s.status ∧ t.err = s.err := by
  simp only [State.control, Control.mk.injEq]

theorem outside_of_control {s t : State} (h : t.control = s.control) : t.outside = s.outside := (control_eq_iff.1 h).1

theorem host_eq_of_outside {s t : State} (h : t.outside = s.outside) : t.host = s.host := congrArg Outside.host h

theorem errorEntry_outside (i : Instr) (k : ErrKind) (s : State) : (errorEntry i k s).outside = s.outside := by
  simp [State.outside]

theorem raiseRunning_outside (k : ErrKind) (s : State) : (raiseRunning k s).outside = s.outside := by
  simp [State.outside]

theorem writeSpans_control {f : BlobFields} {s t : State} (h : writeSpans f s = .ok t) : t.control = s.control := by
  obtain ⟨tb, p, -, -, rfl⟩ := writeSpans_ok h
  rfl

/-- A unit's operation leaves the control registers alone, PHASE among them. -/
theorem phaseBody_control {p : Phase} {s t : State} (h : phaseBody p s = .ok t) :
    t.control = s.control ∧ t.phase = s.phase := by
  cases p with
  | pIdle => cases h; exact ⟨rfl, rfl⟩
  | cAnalyze => obtain ⟨r, -, rfl⟩ := analyzeBody_ok h; exact ⟨rfl, rfl⟩
  | cBuild => obtain ⟨b, c, -, -, rfl⟩ := buildBody_ok h; exact ⟨rfl, rfl⟩
  | cSerialize => obtain ⟨root, b, -, -, rfl⟩ := serializeBody_ok h; exact ⟨rfl, rfl⟩
  | cEncode => obtain ⟨r, -, rfl⟩ := encodeBody_ok h; exact ⟨rfl, rfl⟩
  | cAssemble => obtain ⟨-, d, -, rfl⟩ := assembleBody_ok h; exact ⟨rfl, rfl⟩
  | dParse =>
    obtain ⟨f, -, hw⟩ := parseBody_ok h
    obtain ⟨tb, p, -, -, rfl⟩ := writeSpans_ok hw
    exact ⟨rfl, rfl⟩
  | dDeserialize => obtain ⟨root, r, -, rfl⟩ := deserializeBody_ok h; exact ⟨rfl, rfl⟩
  | dDerive => obtain ⟨root, c, -, -, rfl⟩ := deriveBody_ok h; exact ⟨rfl, rfl⟩
  | dDecode => rcases decodeBody_ok h with ⟨-, rfl⟩ | ⟨-, -, r, -, rfl⟩ <;> exact ⟨rfl, rfl⟩
  | dEmit => obtain ⟨d, -, rfl⟩ := emitBody_ok h; exact ⟨rfl, rfl⟩

theorem advance_control {s t : State} (h : advance s = .ok t) : t.control = s.control ∧ t.phase = s.phase.next := by
  obtain ⟨u, hu, rfl⟩ := advance_ok h
  exact ⟨(phaseBody_control hu).1, rfl⟩

theorem runPhases_control {n : Nat} {s t : State} (h : runPhases n s = .ok t) : t.control = s.control := by
  induction n generalizing s with
  | zero => cases h; rfl
  | succ n ih =>
    unfold runPhases at h
    split at h
    · cases h; rfl
    · cases ha : advance s with
      | error k => rw [ha] at h; cases h
      | ok u => rw [ha] at h; exact (ih h).trans (advance_control ha).1

theorem compositeBody_control {p : Phase} {s t : State} (h : compositeBody p s = .ok t) : t.control = s.control := by
  obtain ⟨u, hu, rfl⟩ := compositeBody_ok h
  have hc : u.control = (beginComposite p s).control := runPhases_control hu
  exact hc

theorem commandBody_control {i : Instr} (hi : i.site = .command) {s t : State} (h : commandBody i s = .ok t) :
    t.control = s.control := by
  rcases commandBody_cases hi with ⟨p, hp⟩ | ⟨p, hp⟩ | hc | hc
  · exact (phaseBody_control (hp s ▸ h)).1
  · exact compositeBody_control (hp s ▸ h)
  · rw [hc] at h; cases h; rfl
  · rw [hc] at h; cases h

theorem finish_outside {i : Instr} {s : State} {r : Except ErrKind State} (h : ∀ t, r = .ok t → t.outside = s.outside) :
    (finish i s r).outside = s.outside := by
  cases r with
  | error k => exact errorEntry_outside i k s
  | ok t => exact h t rfl

theorem endWalk_outside (s : State) : (endWalk s).outside = s.outside := by
  unfold endWalk
  cases s.phase <;> rfl

theorem addLeaf_outside (sym : Symbol) (s : State) : (addLeaf sym s).outside = s.outside := by
  unfold addLeaf
  split
  · rfl
  · exact endWalk_outside _

theorem execTreeEnd_outside {s t : State} (h : execTreeEnd s = .next t) : t.outside = s.outside := by
  unfold execTreeEnd at h
  split at h
  · cases h; exact raiseRunning_outside _ s
  · split at h
    · cases h; exact raiseRunning_outside _ s
    · split at h
      · cases h; exact raiseRunning_outside _ s
      · rename_i u hu
        cases h
        exact (endWalk_outside u).trans (outside_of_control (writeSpans_control hu))

theorem exec_outside {i : Instr} {s t : State} (h : exec i s = .next t) : t.outside = s.outside := by
  by_cases hi : i.site = .command
  · rw [exec_command hi] at h
    cases h
    exact finish_outside fun u hu => outside_of_control (commandBody_control hi hu)
  · cases i with
    | nodeInternal =>
      simp only [exec, execNodeInternal] at h
      split at h <;> cases h
      · rfl
      · exact raiseRunning_outside _ s
    | nodeLeaf sym =>
      simp only [exec, execNodeLeaf] at h
      split at h <;> cases h
      · exact addLeaf_outside sym s
      · exact raiseRunning_outside _ s
    | nodeIllegal marker => cases h; exact raiseRunning_outside _ { s with cursor := s.cursor + 1 }
    | treeStart => cases h; rfl
    | treeEnd => exact execTreeEnd_outside h
    | validBitsHeader vb =>
      simp only [exec, execValidBitsHeader] at h
      split at h <;> cases h
      · rfl
      · exact raiseRunning_outside _ s
    | _ => exact absurd rfl hi

/-! ### No step writes the parameters -/

theorem stepPhase_outside {s t : State} (h : stepPhase s = .next t) : t.outside = s.outside := by
  unfold stepPhase at h
  split at h
  · cases h; exact raiseRunning_outside _ s
  · rename_i u hu
    have hout := outside_of_control (advance_control hu).1
    split at h <;> cases h <;> exact hout

theorem fetch_outside {s t : State} {i : Instr} (h : fetch s = .ok (i, t)) : t.outside = s.outside := by
  obtain ⟨k, rfl⟩ := seek_ok (fetch_ok h).1
  rfl

theorem blockMove_outside {s t : State} (h : blockMove s = .next t) : t.outside = s.outside := by
  rcases blockMove_next h with ⟨-, rfl⟩ | ⟨-, -, -, hp⟩ | ⟨-, -, ⟨k, -, rfl⟩ | ⟨i, u, hf, he⟩⟩
  · rfl
  · exact stepPhase_outside hp
  · exact raiseRunning_outside k s
  · exact (exec_outside he).trans (fetch_outside hf)

theorem applyWrite_cfg (a : HostAction) (s : State) : (applyWrite a s).cfg = s.cfg := by
  have hset : ∀ (b : HostBuf) (v : Buffer Byte), (s.setHostBuf b v).cfg = s.cfg := fun b v => by cases b <;> rfl
  cases a with
  | load b bytes => exact hset b _
  | writeByte b i v => exact hset b _
  | setLen b n => exact hset b _
  | _ => rfl

theorem writeCommand_cfg (code : Byte) (s : State) : (writeCommand code s).cfg = s.cfg := by
  unfold writeCommand
  split <;> rfl

theorem hostAct_cfg {a : HostAction} {s t : State} (h : hostAct a s = .next t) : t.cfg = s.cfg := by
  rcases hostAct_next h with rfl | ⟨code, -, rfl⟩ | ⟨-, rfl⟩ | ⟨-, -, rfl⟩
  · rfl
  · exact writeCommand_cfg code s
  · rfl
  · exact applyWrite_cfg a s

theorem step_cfg {s t : State} (h : step s = .next t) : t.cfg = s.cfg := by
  rcases step_next h with ⟨-, hb⟩ | ⟨rest, -, -, rfl⟩ | ⟨a, rest, -, ha⟩
  · exact congrArg Outside.cfg (blockMove_outside hb)
  · rfl
  · have hcfg := hostAct_cfg ha
    exact hcfg

/-- Settles O16: the frame of every instruction, and for the parameters that of every host action as well. -/
theorem instructionsKeepSourceAndConfig : Obligations.InstructionsKeepSourceAndConfig := by
  refine ⟨fun i s t h => ?_, fun s t => step_cfg⟩
  exact outside_eq_iff.1 (exec_outside h)

/-! ### What a command that succeeds writes -/

/-- The end of a composite command leaves its output, all else of the working set being empty. -/
theorem endComposite_succeed_visible {s v : State} (hout : v.outside = s.outside) (hsite : v.site = s.site) :
    (endComposite v).succeed.visible
      = { clearWork s with dst := v.dst, phase := .pIdle, status := .ok, err := 0 }.visible := by
  obtain ⟨hsrc, hcmd, hcfg, hhost, hfree⟩ := outside_eq_iff.1 hout
  simp only [State.visible, State.succeed, endComposite, clearWork, hsrc, hcmd, hcfg, hhost, hfree, hsite]

theorem compositeBody_ok_visible {p : Phase} {s u : State} (h : compositeBody p s = .ok u) :
    u.succeed.visible
      = { clearWork s with dst := u.dst, phase := .pIdle, status := .ok, err := 0 }.visible := by
  obtain ⟨v, hv, rfl⟩ := compositeBody_ok h
  obtain ⟨hout, hsite, -, -⟩ := control_eq_iff.1 (runPhases_control hv)
  exact endComposite_succeed_visible (s := s) hout hsite

/-- Settles O19: a success is the unit's operation, whose inversion lemma names all that it writes. -/
theorem successWritesOnlyOutputs : Obligations.SuccessWritesOnlyOutputs := by
  intro s t hok
  refine ⟨fun h => ?_, fun h => ?_, fun h => ?_, fun h => ?_, fun h => ?_, fun h => ?_, fun h => ?_, fun h => ?_,
    fun h => ?_, fun h => ?_, fun h => ?_⟩
  case refine_11 =>
    rcases h with h | h <;> obtain ⟨u, hu, rfl⟩ := exec_status_ok rfl h hok <;> exact compositeBody_ok_visible hu
  all_goals obtain ⟨u, hu, rfl⟩ := exec_status_ok rfl h hok
  case refine_1 => obtain ⟨r, -, rfl⟩ := analyzeBody_ok hu; rfl
  case refine_2 => obtain ⟨b, c, -, -, rfl⟩ := buildBody_ok hu; rfl
  case refine_3 => obtain ⟨root, c, -, -, rfl⟩ := deriveBody_ok hu; rfl
  case refine_4 => obtain ⟨root, b, -, -, rfl⟩ := serializeBody_ok hu; rfl
  case refine_5 => obtain ⟨root, r, -, rfl⟩ := deserializeBody_ok hu; rfl
  case refine_6 => obtain ⟨r, -, rfl⟩ := encodeBody_ok hu; rfl
  case refine_7 => rcases decodeBody_ok hu with ⟨-, rfl⟩ | ⟨-, -, r, -, rfl⟩ <;> rfl
  case refine_8 => obtain ⟨-, d, -, rfl⟩ := assembleBody_ok hu; rfl
  case refine_9 =>
    obtain ⟨f, -, hw⟩ := parseBody_ok hu
    obtain ⟨tb, p, -, -, rfl⟩ := writeSpans_ok hw
    rfl
  case refine_10 => obtain ⟨d, -, rfl⟩ := emitBody_ok hu; rfl

end Sys2Proof.Machine
end

section
/-! What a command's result depends on: the contents of the block, not its transients, its control registers or its host. -/

namespace Sys2Proof.Machine

/-! ### The contents a command works on -/

/-- What the operation of a command can depend on: the contents of the structures, the parameters and PHASE. Of SRC it is
the bytes below its length. -/
def State.contents (s : State) : State :=
  { s.visible with src := Buffer.ofList s.src.elems, cmd := 0, status := .idle, err := 0, site := .command, host := [],
                   freeNext := 0 }

@[simp] theorem contents_src_elems (s : State) : s.contents.src.elems = s.src.elems := Buffer.ofList_elems _
@[simp] theorem contents_dst (s : State) : s.contents.dst = s.dst := rfl
@[simp] theorem contents_syms (s : State) : s.contents.syms = s.syms := rfl
@[simp] theorem contents_freq (s : State) : s.contents.freq = s.freq := rfl
@[simp] theorem contents_tree (s : State) : s.contents.tree = s.tree := rfl
@[simp] theorem contents_ptab (s : State) : s.contents.ptab = s.ptab := rfl
@[simp] theorem contents_lut (s : State) : s.contents.lut = s.lut := rfl
@[simp] theorem contents_tbuf (s : State) : s.contents.tbuf = s.tbuf := rfl
@[simp] theorem contents_pay (s : State) : s.contents.pay = s.pay := rfl
@[simp] theorem contents_validBits (s : State) : s.contents.validBits = s.validBits := rfl
@[simp] theorem contents_phase (s : State) : s.contents.phase = s.phase := rfl
@[simp] theorem contents_cfg (s : State) : s.contents.cfg = s.cfg := rfl

theorem contents_eq_of_visible {s t : State} (h : s.visible = t.visible) : s.contents = t.contents := by
  have hsrc : s.visible.src = t.visible.src := by rw [h]
  change s.src = t.src at hsrc
  simp only [State.contents, h, hsrc]

theorem phase_eq_of_contents {s t : State} (h : s.contents = t.contents) : s.phase = t.phase := by
  rw [← contents_phase s, h, contents_phase]

theorem dst_eq_of_contents {s t : State} (h : s.contents = t.contents) : s.dst = t.dst := by
  rw [← contents_dst s, h, contents_dst]

theorem contents_setPhase {s t : State} (h : s.contents = t.contents) (p : Phase) :
    ({ s with phase := p } : State).contents = ({ t with phase := p } : State).contents :=
  congrArg (fun u : State => { u with phase := p }) h

/-! ### The units -/

section
variable (s : State)

theorem analyzeBody_contents : (analyzeBody s.contents).map State.contents = (analyzeBody s).map State.contents := by
  simp only [analyzeBody, contents_src_elems, contents_cfg]
  cases analyzeText s.cfg s.src.elems <;> simp [bind, Except.bind, Except.map, State.contents, State.visible]

theorem deriveBody_contents : (deriveBody s.contents).map State.contents = (deriveBody s).map State.contents := by
  simp only [deriveBody, contents_tree, contents_cfg]
  cases s.tree with
  | none => rfl
  | some root =>
    cases h : deriveTables s.cfg root <;> simp [h, bind, Except.bind, Except.map, State.contents, State.visible]

theorem buildBody_contents : (buildBody s.contents).map State.contents = (buildBody s).map State.contents := by
  simp only [buildBody, contents_freq, contents_cfg]
  cases buildTree s.cfg s.freq with
  | error k => rfl
  | ok b =>
    cases h : deriveTables s.cfg b.root <;> simp [h, bind, Except.bind, Except.map, State.contents, State.visible]

theorem serializeBody_contents : (serializeBody s.contents).map State.contents = (serializeBody s).map State.contents := by
  simp only [serializeBody, contents_tree, contents_cfg]
  cases s.tree with
  | none => rfl
  | some root =>
    cases h : serNode s.cfg 0 root Buffer.empty <;> simp [h, bind, Except.bind, Except.map, State.contents, State.visible]

theorem deserializeBody_contents :
    (deserializeBody s.contents).map State.contents = (deserializeBody s).map State.contents := by
  simp only [deserializeBody, contents_tbuf, contents_cfg]
  cases deserializeBytes s.cfg s.tbuf.elems <;> simp [bind, Except.bind, Except.map, State.contents, State.visible]

theorem encodeBody_contents : (encodeBody s.contents).map State.contents = (encodeBody s).map State.contents := by
  simp only [encodeBody, contents_ptab, contents_syms, contents_cfg]
  cases encodeSyms s.cfg s.ptab s.syms.elems <;> simp [bind, Except.bind, Except.map, State.contents, State.visible]

theorem decodeBody_contents : (decodeBody s.contents).map State.contents = (decodeBody s).map State.contents := by
  simp only [decodeBody, contents_lut, contents_pay, contents_validBits, contents_cfg]
  by_cases h0 : s.pay.len = 0
  · simp [h0, Except.map, State.contents, State.visible]
  · by_cases hv : validBitsOk s.validBits.toNat = true
    · cases decodeBits s.cfg s.lut (walkedBits s.pay.elems s.validBits) <;>
        simp [h0, hv, bind, Except.bind, Except.map, State.contents, State.visible]
    · simp [h0, hv, Except.map]

theorem assembleBody_contents : (assembleBody s.contents).map State.contents = (assembleBody s).map State.contents := by
  simp only [assembleBody, contents_tbuf, contents_pay, contents_validBits, contents_cfg]
  by_cases hv : validBitsOk s.validBits.toNat = true
  · cases Buffer.empty.appendAll s.cfg.dstCap (blobBytes s.validBits s.tbuf.elems s.pay.elems) <;>
      simp [hv, bind, Except.bind, Except.map, State.contents, State.visible]
  · simp [hv, Except.map]

theorem writeSpans_contents (f : BlobFields) :
    (writeSpans f s.contents).map State.contents = (writeSpans f s).map State.contents := by
  simp only [writeSpans, contents_src_elems, contents_cfg]
  cases Buffer.empty.appendAll s.cfg.tbufCap ((s.src.elems.drop f.treeAt).take (f.endAt - f.treeAt)) with
  | error k => rfl
  | ok tb =>
    cases Buffer.empty.appendAll s.cfg.payCap (s.src.elems.drop (f.endAt + 2)) <;>
      simp [bind, Except.bind, Except.map, State.contents, State.visible]

theorem parseBody_contents : (parseBody s.contents).map State.contents = (parseBody s).map State.contents := by
  simp only [parseBody, contents_src_elems, contents_cfg]
  cases parseFields s.cfg s.src.elems with
  | error k => rfl
  | ok f => exact writeSpans_contents s f

theorem emitBody_contents : (emitBody s.contents).map State.contents = (emitBody s).map State.contents := by
  simp only [emitBody, contents_syms, contents_cfg]
  cases Buffer.empty.appendAll s.cfg.dstCap (s.syms.elems.flatMap utf8Encode) <;>
    simp [bind, Except.bind, Except.map, State.contents, State.visible]

theorem phaseBody_contents (p : Phase) :
    (phaseBody p s.contents).map State.contents = (phaseBody p s).map State.contents := by
  cases p with
  | pIdle => simp [phaseBody, Except.map, State.contents, State.visible]
  | cAnalyze => exact analyzeBody_contents s
  | cBuild => exact buildBody_contents s
  | cSerialize => exact serializeBody_contents s
  | cEncode => exact encodeBody_contents s
  | cAssemble => exact assembleBody_contents s
  | dParse => exact parseBody_contents s
  | dDeserialize => exact deserializeBody_contents s
  | dDerive => exact deriveBody_contents s
  | dDecode => exact decodeBody_contents s
  | dEmit => exact emitBody_contents s

end

/-! ### Phases and composites -/

/-- Two results agree in `f` when they are the same error, or next states that agree in it. -/
theorem except_map_eq {α β : Type} {f : α → β} {r r' : Except ErrKind α} (h : r.map f = r'.map f) :
    (∃ k, r = .error k ∧ r' = .error k) ∨ ∃ t t', r = .ok t ∧ r' = .ok t' ∧ f t = f t' := by
  cases r <;> cases r' <;> simp_all [Except.map]

theorem phaseBody_congr (p : Phase) {s s' : State} (h : s.contents = s'.contents) :
    (phaseBody p s).map State.contents = (phaseBody p s').map State.contents := by
  rw [← phaseBody_contents s, h, phaseBody_contents]

theorem advance_congr {s s' : State} (h : s.contents = s'.contents) :
    (advance s).map State.contents = (advance s').map State.contents := by
  have hp : s.phase = s'.phase := phase_eq_of_contents h
  unfold advance
  rw [hp]
  rcases except_map_eq (phaseBody_congr s'.phase h) with ⟨k, h1, h2⟩ | ⟨t, t', h1, h2, ht⟩
  · rw [h1, h2]
  · rw [h1, h2]
    exact congrArg Except.ok (contents_setPhase ht _)

theorem runPhases_congr {n : Nat} {s s' : State} (h : s.contents = s'.contents) :
    (runPhases n s).map State.contents = (runPhases n s').map State.contents := by
  induction n generalizing s s' with
  | zero => exact congrArg Except.ok h
  | succ n ih =>
    have hp : s.phase = s'.phase := phase_eq_of_contents h
    unfold runPhases
    rw [hp]
    split
    · exact congrArg Except.ok h
    · rcases except_map_eq (advance_congr h) with ⟨k, h1, h2⟩ | ⟨t, t', h1, h2, ht⟩
      · rw [h1, h2]
      · rw [h1, h2]; exact ih ht

/-- DST after the phases of a composite command is a function of the contents before. -/
theorem runPhases_dst_congr {n : Nat} {s s' : State} (h : s.contents = s'.contents) :
    (runPhases n s).map State.dst = (runPhases n s').map State.dst := by
  rcases except_map_eq (runPhases_congr (n := n) h) with ⟨k, h1, h2⟩ | ⟨t, t', h1, h2, ht⟩
  · rw [h1, h2]
  · rw [h1, h2]
    exact congrArg Except.ok (dst_eq_of_contents ht)

theorem compositeBody_dst (p : Phase) (s : State) :
    (compositeBody p s).map State.dst = (runPhases 5 (beginComposite p s)).map State.dst := by
  unfold compositeBody
  cases runPhases 5 (beginComposite p s) <;> rfl

/-- A composite command starts from the bytes of SRC alone (47_container_and_sequencer.md R242). -/
theorem beginComposite_contents (p : Phase) {s s' : State} (hc : s.cfg = s'.cfg) (h : s.src.elems = s'.src.elems) :
    (beginComposite p s).contents = (beginComposite p s').contents := by
  simp only [State.contents, State.visible, beginComposite, clearWork, hc, h]

/-! ### The result of a command -/

/-- Two runs of a command agree in what its operations agree in, if error entry agrees in it, and in STATUS and ERR. -/
theorem exec_congr {α : Type} (f : State → α) {i : Instr} (hi : i.site = .command) {s s' t t' : State}
    (h : exec i s = .next t) (h' : exec i s' = .next t') (hr : (commandBody i s).map f = (commandBody i s').map f)
    (hok : ∀ u : State, f u.succeed = f u) (herr : ∀ k, f (errorEntry i k s) = f (errorEntry i k s')) :
    f t = f t' ∧ t.status = t'.status ∧ t.err = t'.err := by
  rw [exec_command hi] at h h'
  cases h
  cases h'
  rcases except_map_eq hr with ⟨k, h1, h2⟩ | ⟨u, u', h1, h2, hu⟩
  · rw [h1, h2]
    exact ⟨herr k, rfl, rfl⟩
  · rw [h1, h2]
    exact ⟨by rw [finish_ok, finish_ok, hok, hok, hu], rfl, rfl⟩

/-! ### What each unit reads -/

section
variable {s s' : State} (hc : s.cfg = s'.cfg)
include hc

theorem analyzeBody_reads (hsrc : s.src.elems = s'.src.elems) :
    (analyzeBody s).map (fun u => (u.syms, u.freq)) = (analyzeBody s').map fun u => (u.syms, u.freq) := by
  simp only [analyzeBody, hc, hsrc]
  cases analyzeText s'.cfg s'.src.elems <;> rfl

theorem parseBody_reads (hsrc : s.src.elems = s'.src.elems) :
    (parseBody s).map (fun u => (u.validBits, u.tbuf, u.pay))
      = (parseBody s').map fun u => (u.validBits, u.tbuf, u.pay) := by
  simp only [parseBody, writeSpans, hc, hsrc]
  cases parseFields s'.cfg s'.src.elems with
  | error k => rfl
  | ok f =>
    simp only [bind, Except.bind]
    cases Buffer.empty.appendAll s'.cfg.tbufCap ((s'.src.elems.drop f.treeAt).take (f.endAt - f.treeAt)) with
    | error k => rfl
    | ok tb => cases Buffer.empty.appendAll s'.cfg.payCap (s'.src.elems.drop (f.endAt + 2)) <;> rfl

theorem deriveBody_reads (ht : s.tree = s'.tree) :
    (deriveBody s).map (fun u => (u.ptab, u.lut)) = (deriveBody s').map fun u => (u.ptab, u.lut) := by
  simp only [deriveBody, hc, ht]
  cases s'.tree with
  | none => rfl
  | some root => cases h : deriveTables s'.cfg root <;> simp [h, bind, Except.bind, Except.map]

theorem serializeBody_reads (ht : s.tree = s'.tree) :
    (serializeBody s).map State.tbuf = (serializeBody s').map State.tbuf := by
  simp only [serializeBody, hc, ht]
  cases s'.tree with
  | none => rfl
  | some root => cases h : serNode s'.cfg 0 root Buffer.empty <;> simp [h, bind, Except.bind, Except.map]

theorem deserializeBody_reads (htb : s.tbuf.elems = s'.tbuf.elems) :
    (deserializeBody s).map State.tree = (deserializeBody s').map State.tree := by
  simp only [deserializeBody, hc, htb]
  cases deserializeBytes s'.cfg s'.tbuf.elems <;> rfl

theorem encodeBody_reads (hs : s.syms.elems = s'.syms.elems) (hp : s.ptab = s'.ptab) :
    (encodeBody s).map (fun u => (u.pay, u.validBits)) = (encodeBody s').map fun u => (u.pay, u.validBits) := by
  simp only [encodeBody, hc, hs, hp]
  cases encodeSyms s'.cfg s'.ptab s'.syms.elems <;> rfl

theorem decodeBody_reads (hp : s.pay.elems = s'.pay.elems) (hl : s.pay.len = s'.pay.len)
    (hv : s.validBits = s'.validBits) (hlut : s.lut = s'.lut) :
    (decodeBody s).map State.syms = (decodeBody s').map State.syms := by
  simp only [decodeBody, hc, hp, hl, hv, hlut]
  split
  · rfl
  · split
    · rfl
    · cases decodeBits s'.cfg s'.lut (walkedBits s'.pay.elems s'.validBits) <;> rfl

theorem assembleBody_reads (hv : s.validBits = s'.validBits) (htb : s.tbuf.elems = s'.tbuf.elems)
    (hp : s.pay.elems = s'.pay.elems) : (assembleBody s).map State.dst = (assembleBody s').map State.dst := by
  simp only [assembleBody, hc, hv, htb, hp]
  split
  · rfl
  · cases Buffer.empty.appendAll s'.cfg.dstCap (blobBytes s'.validBits s'.tbuf.elems s'.pay.elems) <;> rfl

theorem emitBody_reads (hs : s.syms.elems = s'.syms.elems) : (emitBody s).map State.dst = (emitBody s').map State.dst := by
  simp only [emitBody, hc, hs]
  cases Buffer.empty.appendAll s'.cfg.dstCap (s'.syms.elems.flatMap utf8Encode) <;> rfl

theorem compositeBody_reads (p : Phase) (hsrc : s.src.elems = s'.src.elems) :
    (compositeBody p s).map State.dst = (compositeBody p s').map State.dst := by
  rw [compositeBody_dst, compositeBody_dst, runPhases_dst_congr (beginComposite_contents p hc hsrc)]

end

/-- Settles O56: each operation is a function of what its rule says it reads. -/
theorem commandsDependOnReadsOnly : Obligations.CommandsDependOnReadsOnly := by
  intro s s' t t' hc
  refine ⟨fun hsrc => ⟨fun h h' => ?_, fun h h' => ?_, fun h h' => ?_, fun h h' => ?_⟩,
    fun ht => ⟨fun h h' => ?_, fun h h' => ?_⟩, fun htb h h' => ?_, fun hs hp h h' => ?_,
    fun hp hl hv hlut h h' => ?_, fun hv htb hp h h' => ?_, fun hs h h' => ?_⟩
  · exact exec_congr _ rfl h h' (compositeBody_reads hc _ hsrc) (fun _ => rfl) (fun _ => rfl)
  · exact exec_congr _ rfl h h' (compositeBody_reads hc _ hsrc) (fun _ => rfl) (fun _ => rfl)
  · simpa only [Prod.mk.injEq, and_assoc] using
      exec_congr _ rfl h h' (analyzeBody_reads hc hsrc) (fun _ => rfl) (fun _ => rfl)
  · simpa only [Prod.mk.injEq, and_assoc] using
      exec_congr _ rfl h h' (parseBody_reads hc hsrc) (fun _ => rfl) (fun _ => rfl)
  · simpa only [Prod.mk.injEq, and_assoc] using
      exec_congr _ rfl h h' (deriveBody_reads hc ht) (fun _ => rfl) (fun _ => rfl)
  · exact exec_congr _ rfl h h' (serializeBody_reads hc ht) (fun _ => rfl) (fun _ => rfl)
  · exact exec_congr _ rfl h h' (deserializeBody_reads hc htb) (fun _ => rfl) (fun _ => rfl)
  · simpa only [Prod.mk.injEq, and_assoc] using
      exec_congr _ rfl h h' (encodeBody_reads hc hs hp) (fun _ => rfl) (fun _ => rfl)
  · exact exec_congr _ rfl h h' (decodeBody_reads hc hp hl hv hlut) (fun _ => rfl) (fun _ => rfl)
  · exact exec_congr _ rfl h h' (assembleBody_reads hc hv htb hp) (fun _ => rfl) (fun _ => rfl)
  · exact exec_congr _ rfl h h' (emitBody_reads hc hs) (fun _ => rfl) (fun _ => rfl)

end Sys2Proof.Machine
end

section
/-! A composite command run phase by phase (log entry 3) ends as in one step. -/

namespace Sys2Proof.Machine

/-! ### How a composite command ends -/

/-- What the host sees after a composite command issued in `s` whose phases left `r` in DST (47_container_and_sequencer.md
R230, R235; 60_exceptions.md R260). -/
def compositeEnd (s : State) (r : Except ErrKind (Buffer Byte)) : State :=
  match r with
  | .ok d => { clearWork s with dst := d, phase := .pIdle, site := .command, status := .ok, err := 0 }.visible
  | .error k =>
    { clearWork s with dst := Buffer.empty, phase := .pIdle, site := .command, status := .err, err := k.code }.visible

theorem compositeEnd_congr {s t : State} (h : t.outside = s.outside) (r : Except ErrKind (Buffer Byte)) :
    compositeEnd t r = compositeEnd s r := by
  obtain ⟨hsrc, hcmd, hcfg, hhost, hfree⟩ := outside_eq_iff.1 h
  cases r <;> simp only [compositeEnd, State.visible, clearWork, hsrc, hcmd, hcfg, hhost, hfree]

theorem endComposite_visible {s : State} (hs : s.site = .command) :
    (endComposite s).succeed.visible = compositeEnd s (.ok s.dst) := by
  simp only [compositeEnd, endComposite_succeed_visible rfl rfl, clearWork, hs]

theorem errorEntry_composite_visible {i : Instr} (hi : i = .compress ∨ i = .decompress) (k : ErrKind) (s : State) :
    (errorEntry i k s).visible = compositeEnd s (.error k) := by
  rcases hi with rfl | rfl <;> rfl

/-- In the middle of a composite command, in whatever walk, an error ends the whole command (10_state.md R31). -/
theorem raiseRunning_composite_visible {s : State} (hp : s.phase ≠ .pIdle) (k : ErrKind) :
    (raiseRunning k s).visible = compositeEnd s (.error k) := by
  have hrun : runningCommand s = .compress ∨ runningCommand s = .decompress := by
    unfold runningCommand
    cases h : s.phase <;> simp_all
  unfold raiseRunning
  rcases hrun with h | h <;> rw [h] <;> rfl

theorem finish_composite_visible {i : Instr} (hi : i = .compress ∨ i = .decompress) (p : Phase) {s : State}
    (hs : s.site = .command) :
    (finish i s (compositeBody p s)).visible = compositeEnd s ((runPhases 5 (beginComposite p s)).map State.dst) := by
  unfold compositeBody
  cases hr : runPhases 5 (beginComposite p s) with
  | error k => exact errorEntry_composite_visible hi k s
  | ok v =>
    obtain ⟨hout, hsite, -, -⟩ := control_eq_iff.1 (runPhases_control hr)
    have hv : v.outside = s.outside := hout
    have hvs : v.site = .command := hsite.trans hs
    exact (endComposite_visible hvs).trans (compositeEnd_congr hv _)

/-! ### Phase by phase -/

/-- How many phases are left, the current one among them (10_state.md R31). -/
def Phase.left : Phase → Nat
  | .pIdle => 0
  | .cAnalyze | .dParse => 5
  | .cBuild | .dDeserialize => 4
  | .cSerialize | .dDerive => 3
  | .cEncode | .dDecode => 2
  | .cAssemble | .dEmit => 1

theorem Phase.left_next {p : Phase} (h : p ≠ .pIdle) : p.left = p.next.left + 1 := by
  cases p with
  | pIdle => exact absurd rfl h
  | _ => rfl

theorem runPhases_of_idle {s : State} (h : s.phase = .pIdle) (n : Nat) : runPhases n s = .ok s := by
  cases n with
  | zero => rfl
  | succ n => rw [runPhases, if_pos h]

theorem runPhases_succ_error {s : State} {k : ErrKind} (hp : s.phase ≠ .pIdle) (ha : advance s = .error k) (n : Nat) :
    runPhases (n + 1) s = .error k := by
  rw [runPhases, if_neg hp, ha]

theorem runPhases_succ_ok {s t : State} (hp : s.phase ≠ .pIdle) (ha : advance s = .ok t) (n : Nat) :
    runPhases (n + 1) s = runPhases n t := by
  rw [runPhases, if_neg hp, ha]

theorem step_phase {s : State} (hb : s.status = .busy) (hh : s.host = []) (hs : s.site = .command)
    (hp : s.phase ≠ .pIdle) : step s = stepPhase s := by
  rw [step_of_blockTurn (.inl hh) hb, blockMove_phase hb hs hp]

/-- From the middle of a composite command, as many steps as there are phases left end it, as running the phases does. -/
theorem run_phases {n : Nat} {s : State} (hb : s.status = .busy) (hh : s.host = []) (hs : s.site = .command)
    (hp : s.phase ≠ .pIdle) (hn : s.phase.left ≤ n) :
    ∃ u, Host.Core.run core n s = .next u ∧ u.visible = compositeEnd s ((runPhases n s).map State.dst) := by
  induction n generalizing s with
  | zero =>
    have := Phase.left_next hp
    omega
  | succ n ih =>
    have hstep := step_phase hb hh hs hp
    unfold stepPhase at hstep
    cases ha : advance s with
    | error k =>
      rw [ha] at hstep
      rw [runPhases_succ_error hp ha]
      exact ⟨raiseRunning k s, by rw [run_succ hstep, run_idle (by simp [hh]) (by simp)],
        raiseRunning_composite_visible hp k⟩
    | ok t =>
      obtain ⟨hc, hphase⟩ := advance_control ha
      obtain ⟨hout, hsite, hstatus, -⟩ := control_eq_iff.1 hc
      obtain ⟨-, -, -, hhost, -⟩ := outside_eq_iff.1 hout
      simp only [ha] at hstep
      rw [runPhases_succ_ok hp ha]
      by_cases ht : t.phase = .pIdle
      · rw [if_pos ht] at hstep
        refine ⟨(endComposite t).succeed, by rw [run_succ hstep, run_idle (by simp [hhost, hh]) (by simp)], ?_⟩
        rw [runPhases_of_idle ht]
        exact (endComposite_visible (hsite.trans hs)).trans (compositeEnd_congr hout _)
      · rw [if_neg ht] at hstep
        have hleft := Phase.left_next hp
        obtain ⟨u, hu, hvis⟩ := ih (hstatus.trans hb) (hhost.trans hh) (hsite.trans hs) ht (by rw [hphase]; omega)
        exact ⟨u, by rw [run_succ hstep, hu], hvis.trans (compositeEnd_congr hout _)⟩

/-- A composite command begun, its phases still to be run (log entry 3). -/
def begun (p : Phase) (s : State) : State := { beginComposite p s with status := .busy, err := 0 }

theorem begun_outside (p : Phase) (s : State) : (begun p s).outside = s.outside := rfl

theorem begun_contents (p : Phase) (s : State) : (begun p s).contents = (beginComposite p s).contents := rfl

/-- A composite command phase by phase, for either of the two. -/
theorem run_composite {i : Instr} (hi : i = .compress ∨ i = .decompress) {p : Phase} (hp : p.left = 5) {s : State}
    (hh : s.host = []) (hs : s.site = .command) :
    ∃ u, Host.Core.run core 5 (begun p s) = .next u ∧ u.visible = (finish i s (compositeBody p s)).visible := by
  have hne : p ≠ .pIdle := by rintro rfl; cases hp
  obtain ⟨u, hu, hvis⟩ := run_phases (s := begun p s) rfl hh hs hne (Nat.le_of_eq hp)
  refine ⟨u, hu, ?_⟩
  rw [hvis, compositeEnd_congr (begun_outside p s), runPhases_dst_congr (begun_contents p s),
    finish_composite_visible hi p hs]

/-- Settles O58: the phases run one a step leave what running them at once leaves, and end alike. -/
theorem phaseStepsMatchComposite : Obligations.PhaseStepsMatchComposite := by
  intro s t hh hs
  refine ⟨fun h => ?_, fun h => ?_⟩
  · cases h
    exact run_composite (.inl rfl) rfl hh hs
  · cases h
    exact run_composite (.inr rfl) rfl hh hs

end Sys2Proof.Machine
end

section
/-! The walks token by token (log entry 3): DESERIALIZE's over TBUF and PARSE's over SRC give what one step gives. -/

namespace Sys2Proof.Machine

/-! ### Steps that fetch -/

theorem step_fetch_error {s : State} {k : ErrKind} (hh : s.host = []) (hb : s.status = .busy) (hs : s.site ≠ .command)
    (hf : fetch s = .error k) : step s = .next (raiseRunning k s) := by
  rw [step_of_blockTurn (.inl hh) hb, blockMove_fetch_error hb (fun h => hs h.1) hf]

theorem step_fetch_ok {s t : State} {i : Instr} (hh : s.host = []) (hb : s.status = .busy) (hs : s.site ≠ .command)
    (hf : fetch s = .ok (i, t)) : step s = exec i t := by
  rw [step_of_blockTurn (.inl hh) hb, blockMove_fetch_ok hb (fun h => hs h.1) hf]

theorem fetch_of_seek {s t : State} {r : Except ErrKind Instr} (hs : seek s = .ok t)
    (ht : tokenAt t.cfg t.site (fetchBytes t) = r) : fetch s = r.map fun i => (i, t) := by
  simp only [fetch, hs, ht]
  cases r <;> rfl

theorem fetch_of_seek_error {s : State} {k : ErrKind} (hs : seek s = .error k) : fetch s = .error k := by
  simp only [fetch, hs]

/-! ### An error in the middle of a walk -/

/-- `t` is `s` in all that the host can see but SITE, which tells the place in a walk. -/
def AlikeButSite (s t : State) : Prop :=
  ({ t with site := .command } : State).visible = ({ s with site := .command } : State).visible

theorem AlikeButSite.phase {s t : State} (h : AlikeButSite s t) : t.phase = s.phase :=
  (congrArg State.phase h :)

theorem AlikeButSite.status {s t : State} (h : AlikeButSite s t) : t.status = s.status :=
  (congrArg State.status h :)

theorem AlikeButSite.tbuf {s t : State} (h : AlikeButSite s t) : t.tbuf = s.tbuf :=
  (congrArg State.tbuf h :)

theorem AlikeButSite.outside {s t : State} (h : AlikeButSite s t) : t.outside = s.outside :=
  (congrArg State.outside h :)

theorem AlikeButSite.contents {s t : State} (h : AlikeButSite s t) : t.contents = s.contents :=
  (contents_eq_of_visible h :)

/-- An error met in `t` ends the command that is under way in `s`, and the host sees the same. -/
def RaisesAlike (s t : State) : Prop :=
  runningCommand t = runningCommand s ∧ AlikeButSite s t

theorem raiseRunning_visible (k : ErrKind) (s : State) :
    (raiseRunning k s).visible
      = { errorEntry (runningCommand s) k ({ s with site := .command } : State).visible with
            phase := .pIdle, site := .command } := by
  unfold raiseRunning
  cases runningCommand s <;> rfl

theorem RaisesAlike.visible {s t : State} (h : RaisesAlike s t) (k : ErrKind) :
    (raiseRunning k t).visible = (raiseRunning k s).visible := by
  have hvis : ({ t with site := .command } : State).visible = _ := h.2
  rw [raiseRunning_visible, raiseRunning_visible, h.1, hvis]

/-- From `s` the machine comes, within `n` steps, to a state that is `v` in all that the host can see. -/
def EndsAs (n : Nat) (s v : State) : Prop := ∃ w, Reaches n s w ∧ w.visible = v.visible

theorem EndsAs.of_reaches {m n : Nat} {s t v : State} (h : Reaches m s t) (ht : EndsAs n t v) : EndsAs (m + n) s v := by
  obtain ⟨w, hw, hvis⟩ := ht
  exact ⟨w, h.trans hw, hvis⟩

theorem EndsAs.mono {m n : Nat} {s v : State} (h : EndsAs m s v) (hmn : m ≤ n) : EndsAs n s v := by
  obtain ⟨w, hw, hvis⟩ := h
  exact ⟨w, hw.mono hmn, hvis⟩

theorem EndsAs.congr {n : Nat} {s v v' : State} (h : EndsAs n s v) (hv : v.visible = v'.visible) : EndsAs n s v' := by
  obtain ⟨w, hw, hvis⟩ := h
  exact ⟨w, hw, hvis.trans hv⟩

/-- Where the machine stands still, a run that is long enough ends. -/
theorem EndsAs.run {n : Nat} {s v : State} (h : EndsAs n s v) (hh : v.host = []) (hs : v.status ≠ .busy) :
    ∃ u, Host.Core.run core n s = .next u ∧ u.visible = v.visible := by
  obtain ⟨w, hw, hvis⟩ := h
  have hhost : w.visible.host = v.visible.host := by rw [hvis]
  have hstatus : w.visible.status = v.visible.status := by rw [hvis]
  have hws : w.status ≠ .busy := fun h => hs (hstatus.symm.trans h)
  exact ⟨w, hw.run (hhost.trans hh) hws, hvis⟩

/-- Within `n` steps from `s` the command under way ends with the error `k`. -/
def FailsWith (n : Nat) (s : State) (k : ErrKind) : Prop := EndsAs n s (raiseRunning k s)

theorem FailsWith.of_step {s t : State} {k : ErrKind} (h : step s = .next (raiseRunning k t)) (ht : RaisesAlike s t) :
    FailsWith 1 s k := ⟨raiseRunning k t, .step h, ht.visible k⟩

theorem FailsWith.of_reaches {m n : Nat} {s t : State} {k : ErrKind} (h : Reaches m s t) (ht : RaisesAlike s t)
    (hf : FailsWith n t k) : FailsWith (m + n) s k := (EndsAs.of_reaches h hf).congr (ht.visible k)

theorem FailsWith.mono {m n : Nat} {s : State} {k : ErrKind} (h : FailsWith m s k) (hmn : m ≤ n) : FailsWith n s k :=
  EndsAs.mono h hmn

theorem FailsWith.run {n : Nat} {s : State} {k : ErrKind} (h : FailsWith n s k) (hh : s.host = []) :
    ∃ w, Host.Core.run core n s = .next w ∧ w.visible = (raiseRunning k s).visible :=
  EndsAs.run h ((raiseRunning_host k s).trans hh) (by simp)

/-! ### DESERIALIZE's walk -/

/-- A token is what the decoder at the place reads. -/
theorem tokenAt_ok {cfg : Config} {site : Site} {bytes : List Byte} {i : Instr} (h : tokenAt cfg site bytes = .ok i) :
    ∃ rest, decode site bytes = .ok (i, rest) := by
  unfold tokenAt at h
  split at h
  · rename_i j rest hd
    cases h
    exact ⟨rest, hd⟩
  · split at h <;> cases h

/-- What a node token can be, and that its bytes are there (30_encoding.md R106). -/
theorem decodeTreeToken_ok {bytes rest : List Byte} {i : Instr} (h : decodeTreeToken bytes = .ok (i, rest)) :
    bytes ≠ [] ∧ (i = .nodeInternal ∨ (∃ m : Byte, 2 ≤ m.toNat ∧ i = .nodeIllegal m)
      ∨ ∃ sym, i = .nodeLeaf sym ∧ isScalar sym = true ∧ 1 + utf8Width sym ≤ bytes.length) := by
  cases bytes with
  | nil => cases h
  | cons m more =>
    refine ⟨List.cons_ne_nil m more, ?_⟩
    simp only [decodeTreeToken] at h
    by_cases h0 : m = 0
    · rw [if_pos h0] at h
      cases h
      exact .inl rfl
    · rw [if_neg h0] at h
      by_cases h1 : m = 1
      · rw [if_pos h1] at h
        cases hu : utf8Decode more with
        | ok sym w =>
          rw [hu] at h
          cases h
          obtain ⟨hsc, hw, -, hlen⟩ := utf8Decode_ok hu
          exact .inr (.inr ⟨sym, rfl, hsc, by rw [List.length_cons, ← hw]; omega⟩)
        | ended => rw [hu] at h; cases h
        | truncated => rw [hu] at h; cases h
        | invalid => rw [hu] at h; cases h
      · rw [if_neg h1] at h
        cases h
        exact .inr (.inl ⟨m, by bv_omega, rfl⟩)

/-- `Des()` once its marker has been read as `token` (44_tree_deserializer.md R181 to R184); `des` reads a subtree. -/
def desToken (cfg : Config) (des : DesRegs → Except ErrKind (Node × DesRegs)) (depth : Nat) (r : DesRegs)
    (token : Except ErrKind Instr) : Except ErrKind (Node × DesRegs) :=
  match token with
  | .error k => .error k
  | .ok (.nodeLeaf s) => do
    let n ← checkCap cfg.nMax (r.leaves + 1)
    .ok (.leaf s 0, ⟨r.cursor + 1 + utf8Width s, r.rest.drop (1 + utf8Width s), n⟩)
  | .ok .nodeInternal => do
    let _ ← checkCap cfg.stackMax (depth + 1)
    let (left, r1) ← des ⟨r.cursor + 1, r.rest.drop 1, r.leaves⟩
    let (right, r2) ← des r1
    .ok (.internal 0 left right, r2)
  | .ok _ => .error .malformedTreeMarker

section
variable (cfg : Config) (des : DesRegs → Except ErrKind (Node × DesRegs)) (turns depth : Nat) (r : DesRegs)

theorem desNode_succ : desNode cfg (turns + 1) depth r
    = desToken cfg (desNode cfg turns (depth + 1)) depth r (tokenAt cfg .treeToken r.rest) := rfl

theorem desToken_error (k : ErrKind) : desToken cfg des depth r (.error k) = .error k := rfl

theorem desToken_illegal (m : Byte) : desToken cfg des depth r (.ok (.nodeIllegal m)) = .error .malformedTreeMarker := rfl

theorem desToken_leaf (sym : Symbol) : desToken cfg des depth r (.ok (.nodeLeaf sym))
    = (checkCap cfg.nMax (r.leaves + 1)).map fun n =>
        (.leaf sym 0, ⟨r.cursor + 1 + utf8Width sym, r.rest.drop (1 + utf8Width sym), n⟩) := rfl

theorem checkCap_eq (cap : Option Nat) (n : Nat) :
    checkCap cap n = if withinCap cap n then .ok n else .error .capacityExceeded := rfl

theorem desToken_internal : desToken cfg des depth r (.ok .nodeInternal)
    = (checkCap cfg.stackMax (depth + 1)).bind fun _ =>
        (des ⟨r.cursor + 1, r.rest.drop 1, r.leaves⟩).bind fun p =>
          (des p.2).map fun q => (.internal 0 p.1 q.1, q.2) := rfl

theorem desToken_internal_full (hcap : ¬ withinCap cfg.stackMax (depth + 1) = true) :
    desToken cfg des depth r (.ok .nodeInternal) = .error .capacityExceeded := by
  rw [desToken_internal, checkCap_eq, if_neg hcap]
  rfl

variable {cfg des depth r}

theorem desToken_internal_error_left {k : ErrKind} (hcap : withinCap cfg.stackMax (depth + 1) = true)
    (hl : des ⟨r.cursor + 1, r.rest.drop 1, r.leaves⟩ = .error k) :
    desToken cfg des depth r (.ok .nodeInternal) = .error k := by
  rw [desToken_internal, checkCap_eq, if_pos hcap, hl]
  rfl

theorem desToken_internal_error_right {k : ErrKind} {left : Node} {r1 : DesRegs}
    (hcap : withinCap cfg.stackMax (depth + 1) = true)
    (hl : des ⟨r.cursor + 1, r.rest.drop 1, r.leaves⟩ = .ok (left, r1)) (hr : des r1 = .error k) :
    desToken cfg des depth r (.ok .nodeInternal) = .error k := by
  rw [desToken_internal, checkCap_eq, if_pos hcap, hl]
  simp only [Except.bind, hr, Except.map]

theorem desToken_internal_ok {left right : Node} {r1 r2 : DesRegs}
    (hcap : withinCap cfg.stackMax (depth + 1) = true)
    (hl : des ⟨r.cursor + 1, r.rest.drop 1, r.leaves⟩ = .ok (left, r1)) (hr : des r1 = .ok (right, r2)) :
    desToken cfg des depth r (.ok .nodeInternal) = .ok (.internal 0 left right, r2) := by
  rw [desToken_internal, checkCap_eq, if_pos hcap, hl]
  simp only [Except.bind, hr, Except.map]

end

/-- A complete subtree put where the walk stands: into the innermost pending Internal, or into TREE. -/
def placeNode (n : Node) (s : State) : State :=
  match closeNode s.stack n with
  | (stack, none) => { s with stack := stack }
  | (_, some root) => endWalk { s with stack := [], tree := some root }

theorem addLeaf_eq_placeNode (sym : Symbol) (s : State) :
    addLeaf sym s = placeNode (.leaf sym 0) { s with cursor := s.cursor + 1 + utf8Width sym, leaves := s.leaves + 1 } := rfl

/-- The walk stands at a node token. -/
structure AtNode (s : State) : Prop where
  host : s.host = []
  busy : s.status = .busy
  site : s.site = .treeToken

/-- The bytes of TBUF still to be read. -/
def State.treeRest (s : State) : List Byte := s.tbuf.elems.drop s.cursor

theorem AtNode.fetch {s : State} (h : AtNode s) :
    fetch s = (tokenAt s.cfg .treeToken s.treeRest).map fun i => (i, s) :=
  fetch_of_seek (by simp only [seek, h.site]) (by simp only [fetchBytes, h.site, State.treeRest])

theorem AtNode.step_error {s : State} (h : AtNode s) {k : ErrKind} (ht : tokenAt s.cfg .treeToken s.treeRest = .error k) :
    step s = .next (raiseRunning k s) :=
  step_fetch_error h.host h.busy (by simp [h.site]) (by rw [h.fetch, ht]; rfl)

theorem AtNode.step_ok {s : State} (h : AtNode s) {i : Instr} (ht : tokenAt s.cfg .treeToken s.treeRest = .ok i) :
    step s = exec i s :=
  step_fetch_ok h.host h.busy (by simp [h.site]) (by rw [h.fetch, ht]; rfl)

/-- What the walk from `s` does when `Des()` there gives the result: the subtree is placed, a byte read at least for every
step; or the error is raised. -/
def WalkGives (s : State) : Except ErrKind (Node × DesRegs) → Prop
  | .ok (n, r) =>
    r.rest = s.tbuf.elems.drop r.cursor ∧ r.rest.length < s.treeRest.length
      ∧ Reaches (s.treeRest.length - r.rest.length) s (placeNode n { s with cursor := r.cursor, leaves := r.leaves })
  | .error k => FailsWith (s.treeRest.length + 1) s k

theorem WalkGives.of_raise {s t : State} {k : ErrKind} (h : step s = .next (raiseRunning k t)) (ht : RaisesAlike s t) :
    WalkGives s (.error k) := (FailsWith.of_step h ht).mono (by omega)

/-- The walk of `s`, come to another token. -/
def State.walkAt (s : State) (stack : List Frame) (cursor leaves : Nat) : State :=
  { s with stack := stack, cursor := cursor, leaves := leaves }

theorem AtNode.walkAt {s : State} (h : AtNode s) (stack : List Frame) (cursor leaves : Nat) :
    AtNode (s.walkAt stack cursor leaves) := ⟨h.host, h.busy, h.site⟩

theorem walkAt_alike (s : State) (stack : List Frame) (cursor leaves : Nat) :
    RaisesAlike s (s.walkAt stack cursor leaves) := ⟨rfl, rfl⟩

theorem placeNode_left (l : Node) (s : State) (st : List Frame) (c n c' n' : Nat) :
    placeNode l { s.walkAt (.left :: st) c n with cursor := c', leaves := n' } = s.walkAt (.right l :: st) c' n' := rfl

theorem placeNode_right (l r : Node) (s : State) (c n c' n' : Nat) :
    placeNode r { s.walkAt (.right l :: s.stack) c n with cursor := c', leaves := n' }
      = placeNode (.internal 0 l r) { s with cursor := c', leaves := n' } := rfl

/-- An Internal's walk is its two subtrees' walks, one after the other. -/
theorem WalkGives.internal {s : State} {turns : Nat} (h : AtNode s) (hturns : s.treeRest.length < turns + 1)
    (hne : s.treeRest ≠ []) (hcap : withinCap s.cfg.stackMax (s.stack.length + 1) = true)
    (hstep : step s = .next (s.walkAt (.left :: s.stack) (s.cursor + 1) s.leaves))
    (ih : ∀ t : State, AtNode t → t.treeRest.length < turns →
      WalkGives t (desNode t.cfg turns t.stack.length ⟨t.cursor, t.treeRest, t.leaves⟩)) :
    WalkGives s (desToken s.cfg (desNode s.cfg turns (s.stack.length + 1)) s.stack.length
      ⟨s.cursor, s.treeRest, s.leaves⟩ (.ok .nodeInternal)) := by
  have hpos := List.length_pos_iff.2 hne
  have hdrop : s.treeRest.drop 1 = (s.walkAt (.left :: s.stack) (s.cursor + 1) s.leaves).treeRest := List.drop_drop
  have hlen := congrArg List.length hdrop
  rw [List.length_drop] at hlen
  have hleft := ih _ (h.walkAt (.left :: s.stack) (s.cursor + 1) s.leaves) (by omega)
  rw [← hdrop] at hleft
  cases hl : desNode s.cfg turns (s.stack.length + 1) ⟨s.cursor + 1, s.treeRest.drop 1, s.leaves⟩ with
  | error k =>
    rw [desToken_internal_error_left hcap hl]
    have hleft : WalkGives _ (.error k) := hl ▸ hleft
    exact (FailsWith.of_reaches (.step hstep) (walkAt_alike _ _ _ _) hleft).mono (by omega)
  | ok p =>
    obtain ⟨l, c1, rest1, n1⟩ := p
    have hleft : WalkGives _ (.ok (l, ⟨c1, rest1, n1⟩)) := hl ▸ hleft
    obtain ⟨hrest1, hlt1, hreach1⟩ := hleft
    rw [placeNode_left] at hreach1
    have hreach := (Reaches.step hstep).trans hreach1
    have hrest1 : rest1 = (s.walkAt (.right l :: s.stack) c1 n1).treeRest := hrest1
    have hlen1 := congrArg List.length hrest1
    simp only at hlt1 hreach hrest1
    have hright := ih _ (h.walkAt (.right l :: s.stack) c1 n1) (by omega)
    rw [← hrest1] at hright
    cases hr : desNode s.cfg turns (s.stack.length + 1) ⟨c1, rest1, n1⟩ with
    | error k =>
      rw [desToken_internal_error_right hcap hl hr]
      have hright : WalkGives _ (.error k) := hr ▸ hright
      exact (FailsWith.of_reaches hreach (walkAt_alike _ _ _ _) hright).mono (by omega)
    | ok q =>
      obtain ⟨r, r2⟩ := q
      rw [desToken_internal_ok hcap hl hr]
      have hright : WalkGives _ (.ok (r, r2)) := hr ▸ hright
      obtain ⟨hrest2, hlt2, hreach2⟩ := hright
      rw [placeNode_right] at hreach2
      exact ⟨hrest2, by omega, (hreach.trans hreach2).mono (by omega)⟩

/-- The walk over node tokens simulates `Des()` (44_tree_deserializer.md R181), its stack being the recursion. -/
theorem walkGives_desNode (turns : Nat) (s : State) (h : AtNode s) (hturns : s.treeRest.length < turns) :
    WalkGives s (desNode s.cfg turns s.stack.length ⟨s.cursor, s.treeRest, s.leaves⟩) := by
  induction turns generalizing s with
  | zero => omega
  | succ turns ih =>
    rw [desNode_succ]
    cases ht : tokenAt s.cfg .treeToken s.treeRest with
    | error k =>
      rw [desToken_error]
      exact .of_raise (h.step_error ht) ⟨rfl, rfl⟩
    | ok i =>
      have hstep := h.step_ok ht
      obtain ⟨_, hd⟩ := tokenAt_ok ht
      obtain ⟨hne, rfl | ⟨m, -, rfl⟩ | ⟨sym, rfl, -, hlen⟩⟩ := decodeTreeToken_ok hd
      · simp only [exec, execNodeInternal] at hstep
        by_cases hcap : withinCap s.cfg.stackMax (s.stack.length + 1) = true
        · rw [if_pos hcap] at hstep
          exact .internal h hturns hne hcap hstep ih
        · rw [if_neg hcap] at hstep
          rw [desToken_internal_full _ _ _ _ hcap]
          exact .of_raise hstep ⟨rfl, rfl⟩
      · rw [desToken_illegal]
        exact .of_raise hstep ⟨rfl, rfl⟩
      · rw [desToken_leaf, checkCap_eq]
        simp only [exec, execNodeLeaf] at hstep
        by_cases hcap : withinCap s.cfg.nMax (s.leaves + 1) = true
        · rw [if_pos hcap, addLeaf_eq_placeNode] at hstep
          rw [if_pos hcap]
          have hrest : s.treeRest.drop (1 + utf8Width sym) = s.tbuf.elems.drop (s.cursor + 1 + utf8Width sym) := by
            rw [State.treeRest, List.drop_drop, Nat.add_assoc]
          have hw := utf8Width_pos sym
          have hlt : (s.treeRest.drop (1 + utf8Width sym)).length < s.treeRest.length := by rw [List.length_drop]; omega
          exact ⟨hrest, hlt, (Reaches.step hstep).mono (Nat.sub_pos_of_lt hlt)⟩
        · rw [if_neg hcap] at hstep ⊢
          exact .of_raise hstep ⟨rfl, rfl⟩

end Sys2Proof.Machine
end

section
/-! What the two walks leave at their ends, and the obligations about them (O38, O59). -/

namespace Sys2Proof.Machine

/-! ### DESERIALIZE's walk from its start -/

theorem atNode_enterTreeWalk {s : State} (hh : s.host = []) (hb : s.status = .busy) : AtNode (enterTreeWalk s) :=
  ⟨hh, hb, rfl⟩

theorem walkGives_enterTreeWalk {s : State} (hh : s.host = []) (hb : s.status = .busy) :
    WalkGives (enterTreeWalk s) (deserializeBytes s.cfg s.tbuf.elems) :=
  walkGives_desNode (s.tbuf.elems.length + 1) (enterTreeWalk s) (atNode_enterTreeWalk hh hb) (Nat.lt_succ_self _)

theorem enterTreeWalk_fails {s : State} {k : ErrKind} (hh : s.host = []) (hb : s.status = .busy)
    (h : deserializeBody s = .error k) : FailsWith (s.tbuf.elems.length + 1) (enterTreeWalk s) k := by
  have hw := walkGives_enterTreeWalk hh hb
  unfold deserializeBody at h
  cases hd : deserializeBytes s.cfg s.tbuf.elems with
  | ok p => rw [hd] at h; cases h
  | error k' => rw [hd] at h hw; cases h; exact hw

/-- The walk over TBUF ends where DESERIALIZE's operation does. -/
theorem enterTreeWalk_reaches {s t : State} (hh : s.host = []) (hb : s.status = .busy) (h : deserializeBody s = .ok t) :
    Reaches s.tbuf.elems.length (enterTreeWalk s) (endWalk { t with site := .treeToken }) := by
  obtain ⟨root, r, hd, rfl⟩ := deserializeBody_ok h
  have hw := walkGives_enterTreeWalk hh hb
  rw [hd] at hw
  obtain ⟨-, -, hreach⟩ := hw
  exact hreach.mono (Nat.sub_le _ _)

/-! ### PARSE's walk -/

theorem scanTreeStart_some {l : List Byte} {k : Nat} (h : scanTreeStart l = some k) :
    ∃ rest, l.drop k = treeStartByte :: rest := by
  induction l generalizing k with
  | nil => cases h
  | cons b rest ih =>
    unfold scanTreeStart at h
    split at h
    · rename_i hb
      cases h
      exact ⟨rest, by rw [hb]; rfl⟩
    · obtain ⟨j, hj, rfl⟩ := Option.map_eq_some_iff.1 h
      exact ih hj

theorem scanTreeEnd_some {l : List Byte} {k : Nat} (h : scanTreeEnd l = some k) :
    ∃ rest, l.drop k = treeEndByte :: treeEndByte :: rest := by
  induction l generalizing k with
  | nil => cases h
  | cons b rest ih =>
    unfold scanTreeEnd at h
    split at h
    · rename_i hb
      obtain ⟨rest', hrest⟩ := List.head?_eq_some_iff.1 hb.2
      cases h
      exact ⟨rest', by rw [hb.1, hrest]; rfl⟩
    · obtain ⟨j, hj, rfl⟩ := Option.map_eq_some_iff.1 h
      exact ih hj

/-- What the spans of a blob give does not depend on anything but SRC and the capacities. -/
theorem writeSpans_eq {s t : State} (f : BlobFields) (hc : t.cfg = s.cfg) (hsrc : t.src = s.src) :
    writeSpans f t
      = (writeSpans f s).map fun u =>
          { t with validBits := u.validBits, tbuf := u.tbuf, pay := u.pay, cursor := u.cursor } := by
  simp only [writeSpans, hc, hsrc]
  cases Buffer.empty.appendAll s.cfg.tbufCap ((s.src.elems.drop f.treeAt).take (f.endAt - f.treeAt)) with
  | error k => rfl
  | ok tb =>
    simp only [bind, Except.bind]
    cases Buffer.empty.appendAll s.cfg.payCap (s.src.elems.drop (f.endAt + 2)) <;> rfl

/-- PARSE's walk is under way: the block runs, and the bytes below the length of SRC are there. -/
structure InBlob (s : State) : Prop where
  host : s.host = []
  busy : s.status = .busy
  len : s.src.elems.length = s.src.len

section
variable {s : State}

theorem decodeHeader_cons (b : Byte) (rest : List Byte) :
    decodeHeader (b :: rest) = if validBitsOk b.toNat then .ok (.validBitsHeader b, rest) else .error .badHeader := by
  simp only [decodeHeader, validBitsOk, Bool.and_eq_true, decide_eq_true_eq]

/-! #### The header byte (R220, states 0 and 1) -/

theorem InBlob.header_short (h : InBlob s) (hs : s.site = .blobHeader) (hlen : s.src.elems.length < 2) :
    step s = .next (raiseRunning .inputTooShort s) := by
  refine step_fetch_error h.host h.busy (by simp [hs]) (fetch_of_seek_error ?_)
  simp only [seek, hs]
  rw [if_pos (h.len ▸ hlen)]

theorem InBlob.header_fetch (h : InBlob s) (hs : s.site = .blobHeader) (hlen : ¬ s.src.elems.length < 2) {b : Byte}
    {rest : List Byte} (hb : s.src.elems.drop s.cursor = b :: rest) :
    fetch s = if validBitsOk b.toNat then .ok (.validBitsHeader b, s) else .error .invalidBitLength := by
  have hseek : seek s = .ok s := by
    simp only [seek, hs]
    rw [if_neg (h.len ▸ hlen)]
  rw [fetch_of_seek hseek rfl]
  simp only [fetchBytes, hs, hb, tokenAt, decode, decodeHeader_cons]
  cases validBitsOk b.toNat <;> rfl

theorem InBlob.header_bad (h : InBlob s) (hs : s.site = .blobHeader) (hlen : ¬ s.src.elems.length < 2) {b : Byte}
    {rest : List Byte} (hb : s.src.elems.drop s.cursor = b :: rest) (hv : ¬ validBitsOk b.toNat = true) :
    step s = .next (raiseRunning .invalidBitLength s) :=
  step_fetch_error h.host h.busy (by simp [hs]) (by rw [h.header_fetch hs hlen hb, if_neg hv])

theorem InBlob.header_ok (h : InBlob s) (hs : s.site = .blobHeader) (hlen : ¬ s.src.elems.length < 2) {b : Byte}
    {rest : List Byte} (hb : s.src.elems.drop s.cursor = b :: rest) (hv : validBitsOk b.toNat = true) :
    step s = .next { s with header := b, cursor := s.cursor + 1, site := .blobStart } := by
  rw [step_fetch_ok h.host h.busy (by simp [hs]) ((h.header_fetch hs hlen hb).trans (if_pos hv))]
  simp only [exec, execValidBitsHeader, if_pos hv]

/-! #### The marker (state 2) -/

theorem InBlob.start_missing (h : InBlob s) (hs : s.site = .blobStart)
    (hscan : scanTreeStart (s.src.elems.drop s.cursor) = none) :
    step s = .next (raiseRunning .treeStartNotFound s) := by
  refine step_fetch_error h.host h.busy (by simp [hs]) (fetch_of_seek_error ?_)
  simp only [seek, hs, hscan]

theorem InBlob.start_elsewhere (h : InBlob s) (hs : s.site = .blobStart) {k : Nat}
    (hscan : scanTreeStart (s.src.elems.drop s.cursor) = some k)
    (hstrict : (s.cfg.strictMarkerOffset && decide (s.cursor + k ≠ 1)) = true) :
    step s = .next (raiseRunning .treeStartNotFound s) := by
  refine step_fetch_error h.host h.busy (by simp [hs]) (fetch_of_seek_error ?_)
  simp only [seek, hs, hscan, if_pos hstrict]

theorem InBlob.start_ok (h : InBlob s) (hs : s.site = .blobStart) {k : Nat}
    (hscan : scanTreeStart (s.src.elems.drop s.cursor) = some k)
    (hstrict : ¬ (s.cfg.strictMarkerOffset && decide (s.cursor + k ≠ 1)) = true) :
    step s = .next { s with cursor := s.cursor + k + 1, treeAt := s.cursor + k + 1, site := .blobEnd } := by
  have hseek : seek s = .ok { s with cursor := s.cursor + k } := by
    simp only [seek, hs, hscan, if_neg hstrict]
  obtain ⟨rest, hrest⟩ := scanTreeStart_some hscan
  rw [List.drop_drop] at hrest
  have htok : tokenAt s.cfg s.site (fetchBytes { s with cursor := s.cursor + k }) = .ok .treeStart := by
    simp only [fetchBytes, hs, hrest, tokenAt, decode, decodeTreeStart, if_true]
  rw [step_fetch_ok h.host h.busy (by simp [hs]) (fetch_of_seek hseek htok)]
  simp only [exec, execTreeStart]

/-! #### The delimiter (states 3 to 5) -/

theorem InBlob.end_missing (h : InBlob s) (hs : s.site = .blobEnd)
    (hscan : scanTreeEnd (s.src.elems.drop s.cursor) = none) :
    step s = .next (raiseRunning .treeEndNotFound s) := by
  refine step_fetch_error h.host h.busy (by simp [hs]) (fetch_of_seek_error ?_)
  simp only [seek, hs, hscan]

theorem InBlob.end_found (h : InBlob s) (hs : s.site = .blobEnd) {j : Nat}
    (hscan : scanTreeEnd (s.src.elems.drop s.cursor) = some j) :
    step s = execTreeEnd { s with cursor := s.cursor + j } := by
  have hseek : seek s = .ok { s with cursor := s.cursor + j } := by
    simp only [seek, hs, hscan]
  obtain ⟨rest, hrest⟩ := scanTreeEnd_some hscan
  rw [List.drop_drop] at hrest
  have htok : tokenAt s.cfg s.site (fetchBytes { s with cursor := s.cursor + j }) = .ok .treeEnd := by
    simp [fetchBytes, hs, hrest, tokenAt, decode, decodeTreeEnd]
  rw [step_fetch_ok h.host h.busy (by simp [hs]) (fetch_of_seek hseek htok)]
  rfl

/-! #### The whole walk -/

/-- PARSE's walk at the delimiter it looked for (R220, state 3). -/
def State.atBlobEnd (s : State) (f : BlobFields) : State :=
  { enterBlobWalk s with header := f.header, cursor := f.endAt, treeAt := f.treeAt, site := .blobEnd }

/-- Wherever PARSE's walk stands, an error ends the same command. -/
theorem blobWalk_alike {header : Byte} {cursor treeAt : Nat} {site : Site}
    (hs : site = .blobHeader ∨ site = .blobStart ∨ site = .blobEnd) :
    RaisesAlike (enterBlobWalk s)
      { enterBlobWalk s with header := header, cursor := cursor, treeAt := treeAt, site := site } := by
  refine ⟨?_, rfl⟩
  simp only [runningCommand, enterBlobWalk]
  rcases hs with rfl | rfl | rfl <;> rfl

/-- What PARSE's walk does when its tests have the given result: the error is raised within three steps, or in its third
step the spans found are written. -/
def FieldsGive (s : State) : Except ErrKind BlobFields → Prop
  | .error k => FailsWith 3 (enterBlobWalk s) k
  | .ok f =>
    ∃ v, Reaches 2 (enterBlobWalk s) v ∧ step v = execTreeEnd (s.atBlobEnd f) ∧ f.endAt ≠ f.treeAt
      ∧ f.endAt + 2 ≠ s.src.len

theorem inBlob_enterBlobWalk (hh : s.host = []) (hb : s.status = .busy) (hlen : s.src.elems.length = s.src.len)
    (header : Byte) (cursor treeAt : Nat) (site : Site) :
    InBlob { enterBlobWalk s with header := header, cursor := cursor, treeAt := treeAt, site := site } := ⟨hh, hb, hlen⟩

/-- The tests of PARSE from its state 3 on (R220). -/
def fieldsFrom (header : Byte) (treeAt : Nat) (src : List Byte) : Except ErrKind BlobFields :=
  match scanTreeEnd (src.drop treeAt) with
  | none => .error .treeEndNotFound
  | some j =>
    if j = 0 then .error .emptyTreeBytes
    else if treeAt + j + 2 = src.length then .error .encodedDataNotFound
    else .ok ⟨header, treeAt, treeAt + j⟩

theorem fieldsGive_from (hh : s.host = []) (hb : s.status = .busy) (hlen : s.src.elems.length = s.src.len) (header : Byte)
    (treeAt : Nat)
    (hreach : Reaches 2 (enterBlobWalk s)
      { enterBlobWalk s with header := header, cursor := treeAt, treeAt := treeAt, site := .blobEnd }) :
    FieldsGive s (fieldsFrom header treeAt s.src.elems) := by
  have hw := inBlob_enterBlobWalk hh hb hlen header treeAt treeAt .blobEnd
  have halike : ∀ c, RaisesAlike (enterBlobWalk s)
      { enterBlobWalk s with header := header, cursor := c, treeAt := treeAt, site := .blobEnd } :=
    fun c => blobWalk_alike (.inr (.inr rfl))
  unfold fieldsFrom
  cases hscan : scanTreeEnd (s.src.elems.drop treeAt) with
  | none => exact .of_reaches hreach (halike _) (.of_step (hw.end_missing rfl hscan) ⟨rfl, rfl⟩)
  | some j =>
    have hstep := hw.end_found rfl hscan
    simp only
    by_cases hj : j = 0
    · rw [if_pos hj]
      refine .of_reaches hreach (halike _)
        (.of_step (t := s.atBlobEnd ⟨header, treeAt, treeAt + j⟩) (hstep.trans ?_) ⟨rfl, rfl⟩)
      rw [execTreeEnd, if_pos (by simp [hj])]
      rfl
    · rw [if_neg hj]
      by_cases hend : treeAt + j + 2 = s.src.elems.length
      · rw [if_pos hend]
        refine .of_reaches hreach (halike _)
          (.of_step (t := s.atBlobEnd ⟨header, treeAt, treeAt + j⟩) (hstep.trans ?_) ⟨rfl, rfl⟩)
        rw [execTreeEnd, if_neg (by simp [hj]), if_pos (by simp [hend, hlen])]
        rfl
      · rw [if_neg hend]
        exact ⟨_, hreach, hstep, by simp [hj], by simpa [hlen] using hend⟩

/-- PARSE's walk makes the tests of R220 in their order. -/
theorem fieldsGive_parseFields (hh : s.host = []) (hb : s.status = .busy) (hlen : s.src.elems.length = s.src.len) :
    FieldsGive s (parseFields s.cfg s.src.elems) := by
  have hw : InBlob (enterBlobWalk s) := ⟨hh, hb, hlen⟩
  unfold parseFields
  by_cases hshort : s.src.elems.length < 2
  · rw [if_pos hshort]
    exact (FailsWith.of_step (hw.header_short rfl hshort) ⟨rfl, rfl⟩).mono (by omega)
  rw [if_neg hshort]
  obtain ⟨b, rest, hsrc⟩ := List.exists_cons_of_length_pos (l := s.src.elems) (by omega)
  have hb0 : (enterBlobWalk s).src.elems.drop (enterBlobWalk s).cursor = b :: rest := hsrc
  have hhead : s.src.elems.headD 0 = b := by rw [hsrc]; rfl
  rw [hhead]
  by_cases hv : validBitsOk b.toNat = true
  · rw [if_neg (by simp [hv])]
    have h1 := Reaches.step (hw.header_ok rfl hshort hb0 hv)
    have hw1 := inBlob_enterBlobWalk hh hb hlen b 1 (enterBlobWalk s).treeAt .blobStart
    have halike : RaisesAlike (enterBlobWalk s) { enterBlobWalk s with header := b, cursor := 1, site := .blobStart } :=
      blobWalk_alike (.inr (.inl rfl))
    cases hscan : scanTreeStart (s.src.elems.drop 1) with
    | none => exact (FailsWith.of_reaches h1 halike (.of_step (hw1.start_missing rfl hscan) ⟨rfl, rfl⟩)).mono (by omega)
    | some k =>
      have hone : (s.cfg.strictMarkerOffset && decide (k ≠ 0)) = (s.cfg.strictMarkerOffset && decide (1 + k ≠ 1)) := by simp
      simp only
      rw [hone]
      by_cases hstrict : (s.cfg.strictMarkerOffset && decide (1 + k ≠ 1)) = true
      · rw [if_pos hstrict]
        exact (FailsWith.of_reaches h1 halike (.of_step (hw1.start_elsewhere rfl hscan hstrict) ⟨rfl, rfl⟩)).mono (by omega)
      · rw [if_neg hstrict]
        have h2 := h1.trans (.step (hw1.start_ok rfl hscan hstrict))
        have hat : 1 + k + 1 = k + 2 := by omega
        rw [hat] at h2
        exact fieldsGive_from hh hb hlen b (k + 2) h2
  · rw [if_pos (by simpa using hv)]
    exact (FailsWith.of_step (hw.header_bad rfl hshort hb0 hv) ⟨rfl, rfl⟩).mono (by omega)

/-- At a delimiter that leaves both spans non-empty, TREE_END writes them. -/
theorem execTreeEnd_atBlobEnd {f : BlobFields} (h1 : f.endAt ≠ f.treeAt) (h2 : f.endAt + 2 ≠ s.src.len)
    {r : Except ErrKind State} (hw : writeSpans f (s.atBlobEnd f) = r) :
    execTreeEnd (s.atBlobEnd f) = match r with
      | .error k => .next (raiseRunning k (s.atBlobEnd f))
      | .ok t => .next (endWalk t) := by
  have h1' : (s.atBlobEnd f).cursor ≠ (s.atBlobEnd f).treeAt := h1
  have h2' : (s.atBlobEnd f).cursor + 2 ≠ (s.atBlobEnd f).src.len := h2
  have hw' : writeSpans ⟨(s.atBlobEnd f).header, (s.atBlobEnd f).treeAt, (s.atBlobEnd f).cursor⟩ (s.atBlobEnd f) = r := hw
  rw [execTreeEnd, if_neg h1', if_neg h2', hw']
  cases r <;> rfl

/-- PARSE's walk that meets an error ends as PARSE does with it. -/
theorem enterBlobWalk_fails {k : ErrKind} (hh : s.host = []) (hb : s.status = .busy)
    (hlen : s.src.elems.length = s.src.len) (h : parseBody s = .error k) : FailsWith 3 (enterBlobWalk s) k := by
  have hf := fieldsGive_parseFields hh hb hlen
  unfold parseBody at h
  cases hp : parseFields s.cfg s.src.elems with
  | error k' => rw [hp] at h hf; cases h; exact hf
  | ok f =>
    rw [hp] at h hf
    obtain ⟨v, hv, hstep, h1, h2⟩ := hf
    have hspans : writeSpans f s = .error k := h
    have hw := writeSpans_eq (s := s) (t := s.atBlobEnd f) f rfl rfl
    rw [hspans] at hw
    rw [execTreeEnd_atBlobEnd h1 h2 hw] at hstep
    exact ⟨_, hv.trans (.step hstep), (blobWalk_alike (.inr (.inr rfl))).visible k⟩

/-- PARSE's walk that meets none ends with the outputs of PARSE written. -/
theorem enterBlobWalk_reaches {t : State} (hh : s.host = []) (hb : s.status = .busy)
    (hlen : s.src.elems.length = s.src.len) (h : parseBody s = .ok t) :
    ∃ v, Reaches 3 (enterBlobWalk s) (endWalk v) ∧ AlikeButSite t v := by
  have hf := fieldsGive_parseFields hh hb hlen
  obtain ⟨f, hp, hspans⟩ := parseBody_ok h
  rw [hp] at hf
  obtain ⟨v, hv, hstep, h1, h2⟩ := hf
  have hw := writeSpans_eq (s := s) (t := s.atBlobEnd f) f rfl rfl
  rw [hspans] at hw
  rw [execTreeEnd_atBlobEnd h1 h2 hw] at hstep
  refine ⟨_, hv.trans (.step hstep), ?_⟩
  obtain ⟨tb, p, -, -, rfl⟩ := writeSpans_ok hspans
  rfl

end

/-! ### The obligations about the walks -/

theorem endWalk_idle {s : State} (hp : s.phase = .pIdle) : endWalk s = ({ s with site := .command } : State).succeed := by
  rw [endWalk, hp]

theorem endWalk_dParse {s : State} (hp : s.phase = .dParse) :
    endWalk s = enterTreeWalk { s with phase := .dDeserialize } := by
  rw [endWalk, hp]

theorem endWalk_dDeserialize {s : State} (hp : s.phase = .dDeserialize) :
    endWalk s = { s with site := .command, phase := .dDerive } := by
  rw [endWalk, hp]
  rfl

/-- A command written, its walk to be run token by token. -/
def State.issued (s : State) : State := { s with status := .busy, err := 0 }

/-- DESERIALIZE's operation sees neither STATUS nor ERR. -/
theorem deserializeBody_issued (s : State) : deserializeBody s.issued = (deserializeBody s).map State.issued := by
  unfold deserializeBody
  cases h : deserializeBytes s.cfg s.tbuf.elems with
  | error k => simp [State.issued, h, bind, Except.bind, Except.map]
  | ok p => simp [State.issued, h, bind, Except.bind, Except.map]

theorem parseBody_issued (s : State) : parseBody s.issued = (parseBody s).map State.issued := by
  unfold parseBody
  cases h : parseFields s.cfg s.src.elems with
  | error k => simp [State.issued, h, bind, Except.bind, Except.map]
  | ok f =>
    have hs := writeSpans_eq (s := s) (t := s.issued) f rfl rfl
    simp only [State.issued, h, bind, Except.bind] at hs ⊢
    rw [hs]
    cases hw : writeSpans f s with
    | error k => rfl
    | ok u =>
      obtain ⟨tb, p, -, -, rfl⟩ := writeSpans_ok hw
      rfl

/-- A walk of a command that is no part of a composite ends it. -/
theorem endWalk_succeed_visible {t v : State} (hp : v.phase = .pIdle) (ht : t.site = .command)
    (hv : AlikeButSite t.issued v) : (endWalk v).visible = t.succeed.visible := by
  rw [endWalk_idle hp]
  have h : ({ v with site := .command } : State).visible.succeed = _ := congrArg State.succeed hv
  simpa only [State.succeed, State.visible, State.issued, ht] using h

theorem run_deserialize {s : State} (hh : s.host = []) (hp : s.phase = .pIdle) (hs : s.site = .command) :
    ∃ u, Host.Core.run core (s.tbuf.elems.length + 1) (enterTreeWalk s.issued) = .next u
      ∧ u.visible = (finish .deserialize s (deserializeBody s)).visible := by
  have hissued := deserializeBody_issued s
  cases hd : deserializeBody s with
  | error k =>
    rw [hd] at hissued
    obtain ⟨u, hu, hvis⟩ := (enterTreeWalk_fails (s := s.issued) hh rfl hissued).run hh
    refine ⟨u, hu, hvis.trans ?_⟩
    simp only [raiseRunning, runningCommand, enterTreeWalk, State.issued, hp, finish_error, errorEntry, emptyOutputs,
      State.report, State.visible, hs]
  | ok t =>
    rw [hd] at hissued
    obtain ⟨hc, hphase⟩ := phaseBody_control (p := .dDeserialize) hd
    obtain ⟨hout, hsite, -, -⟩ := control_eq_iff.1 hc
    have hreach := enterTreeWalk_reaches (s := s.issued) hh rfl hissued
    have hvis : (endWalk { t.issued with site := .treeToken }).visible = t.succeed.visible :=
      endWalk_succeed_visible (hphase.trans hp) (hsite.trans hs) rfl
    have hhost : t.host = [] := (host_eq_of_outside hout).trans hh
    exact EndsAs.run ⟨_, hreach.mono (Nat.le_succ _), hvis⟩ hhost (by simp)

theorem run_parse {s : State} (hh : s.host = []) (hp : s.phase = .pIdle) (hs : s.site = .command)
    (hlen : s.src.elems.length = s.src.len) :
    ∃ u, Host.Core.run core 3 (enterBlobWalk s.issued) = .next u ∧ u.visible = (finish .parse s (parseBody s)).visible := by
  have hissued := parseBody_issued s
  cases hd : parseBody s with
  | error k =>
    rw [hd] at hissued
    obtain ⟨u, hu, hvis⟩ := (enterBlobWalk_fails (s := s.issued) hh rfl hlen hissued).run hh
    refine ⟨u, hu, hvis.trans ?_⟩
    simp only [raiseRunning, runningCommand, enterBlobWalk, State.issued, hp, finish_error, errorEntry, emptyOutputs,
      State.report, State.visible, hs]
  | ok t =>
    rw [hd] at hissued
    obtain ⟨hc, hphase⟩ := phaseBody_control (p := .dParse) hd
    obtain ⟨hout, hsite, -, -⟩ := control_eq_iff.1 hc
    obtain ⟨v, hreach, hv⟩ := enterBlobWalk_reaches (s := s.issued) hh rfl hlen hissued
    have hvp : v.phase = .pIdle := hv.phase.trans (hphase.trans hp)
    have hhost : t.host = [] := (host_eq_of_outside hout).trans hh
    exact EndsAs.run ⟨_, hreach, endWalk_succeed_visible hvp (hsite.trans hs) hv⟩ hhost (by simp)

/-- Settles O38: the walk over node tokens simulates `Des()` with its stack, the walk over SRC makes PARSE's tests. -/
theorem tokenWalksMatchUnits : Obligations.TokenWalksMatchUnits := by
  refine ⟨fun s t hh hp hs h => ?_, fun s t hh hp hs hlen h => ?_⟩
  · cases h
    exact run_deserialize hh hp hs
  · cases h
    exact run_parse hh hp hs hlen

end Sys2Proof.Machine
end

section
/-! DECOMPRESS token by token (log entry 3): PARSE's walk, DESERIALIZE's walk, then the three phases left (O59). -/

namespace Sys2Proof.Machine

/-- The tree bytes PARSE finds are no more than the blob. -/
theorem parseBody_tbuf_length {s t : State} (h : parseBody s = .ok t) : t.tbuf.elems.length ≤ s.src.elems.length := by
  obtain ⟨f, -, hw⟩ := parseBody_ok h
  obtain ⟨tb, p, htb, -, rfl⟩ := writeSpans_ok hw
  rw [Buffer.appendAll_empty] at htb
  split at htb
  · cases htb
    simp only [Buffer.ofList_elems, List.length_take, List.length_drop]
    omega
  · cases htb

theorem compositeEnd_host (s : State) (r : Except ErrKind (Buffer Byte)) : (compositeEnd s r).host = s.host := by
  cases r <;> rfl

theorem compositeEnd_status (s : State) (r : Except ErrKind (Buffer Byte)) : (compositeEnd s r).status ≠ .busy := by
  cases r <;> simp [compositeEnd, State.visible]

theorem compositeEnd_visible (s : State) (r : Except ErrKind (Buffer Byte)) :
    (compositeEnd s r).visible = compositeEnd s r := by
  cases r <;> rfl

theorem advance_dParse {s : State} (hp : s.phase = .dParse) :
    advance s = (parseBody s).map fun t => { t with phase := .dDeserialize } := by
  unfold advance
  rw [hp]
  simp only [phaseBody]
  cases parseBody s <;> rfl

theorem advance_dDeserialize {s : State} (hp : s.phase = .dDeserialize) :
    advance s = (deserializeBody s).map fun t => { t with phase := .dDerive } := by
  unfold advance
  rw [hp]
  simp only [phaseBody]
  cases deserializeBody s <;> rfl

theorem runPhases_succ {s : State} (hp : s.phase ≠ .pIdle) (n : Nat) :
    runPhases (n + 1) s = (advance s).bind (runPhases n) := by
  cases h : advance s with
  | error k => exact runPhases_succ_error hp h n
  | ok t => exact runPhases_succ_ok hp h n

theorem endsAs_phases {s : State} (hh : s.host = []) (hb : s.status = .busy) (hs : s.site = .command)
    (hp : s.phase ≠ .pIdle) {n : Nat} (hn : s.phase.left ≤ n) :
    EndsAs n s (compositeEnd s ((runPhases n s).map State.dst)) := by
  obtain ⟨u, hu, hvis⟩ := run_phases hb hh hs hp hn
  exact ⟨u, ⟨n, Nat.le_refl n, hu⟩, hvis.trans (compositeEnd_visible _ _).symm⟩

theorem endsAs_of_fails {n : Nat} {s : State} {k : ErrKind} (hp : s.phase ≠ .pIdle) (h : FailsWith n s k) :
    EndsAs n s (compositeEnd s (.error k)) :=
  EndsAs.congr h ((raiseRunning_composite_visible hp k).trans (compositeEnd_visible _ _).symm)

/-- What is left of a composite command ends alike from states alike in what the phases and the end depend on. -/
theorem compositeEnd_phases_congr {s u v : State} (hout : u.outside = s.outside) (hc : u.contents = v.contents) (n : Nat) :
    compositeEnd u ((runPhases n u).map State.dst) = compositeEnd s ((runPhases n v).map State.dst) := by
  rw [compositeEnd_congr hout, runPhases_dst_congr hc]

/-- Inside DECOMPRESS, DESERIALIZE's walk and what follows it end as the phases do. -/
theorem endsAs_treeWalk {s : State} (hh : s.host = []) (hb : s.status = .busy) (hp : s.phase = .dDeserialize) :
    EndsAs (s.tbuf.elems.length + 4) (enterTreeWalk s) (compositeEnd s ((runPhases 4 s).map State.dst)) := by
  have hne : s.phase ≠ .pIdle := by rw [hp]; decide
  rw [runPhases_succ hne, advance_dDeserialize hp]
  cases hd : deserializeBody s with
  | error k =>
    have h := endsAs_of_fails (s := enterTreeWalk s) hne (enterTreeWalk_fails hh hb hd)
    exact h.mono (by omega)
  | ok t =>
    obtain ⟨hc, hphase⟩ := phaseBody_control (p := .dDeserialize) hd
    obtain ⟨hout, -, hstatus, -⟩ := control_eq_iff.1 hc
    have hreach := enterTreeWalk_reaches hh hb hd
    rw [endWalk_dDeserialize (s := { t with site := .treeToken }) (hphase.trans hp)] at hreach
    have h := endsAs_phases (s := { t with site := .command, phase := .dDerive }) ((host_eq_of_outside hout).trans hh)
      (hstatus.trans hb) rfl (by simp) (n := 3) (by simp [Phase.left])
    have hend := compositeEnd_phases_congr (s := s) (u := { t with site := .command, phase := .dDerive })
      (v := { t with phase := .dDerive }) hout rfl 3
    exact (EndsAs.of_reaches hreach (h.congr (congrArg State.visible hend))).mono (by omega)

/-- Inside DECOMPRESS, PARSE's walk and what follows it end as the phases do. -/
theorem endsAs_blobWalk {s : State} (hh : s.host = []) (hb : s.status = .busy) (hp : s.phase = .dParse)
    (hlen : s.src.elems.length = s.src.len) :
    EndsAs (s.src.elems.length + 7) (enterBlobWalk s) (compositeEnd s ((runPhases 5 s).map State.dst)) := by
  have hne : s.phase ≠ .pIdle := by rw [hp]; decide
  rw [runPhases_succ hne, advance_dParse hp]
  cases hd : parseBody s with
  | error k =>
    have h := endsAs_of_fails (s := enterBlobWalk s) hne (enterBlobWalk_fails hh hb hlen hd)
    exact h.mono (by omega)
  | ok t =>
    obtain ⟨hc, hphase⟩ := phaseBody_control (p := .dParse) hd
    obtain ⟨hout, -, hstatus, -⟩ := control_eq_iff.1 hc
    have htbuf := parseBody_tbuf_length hd
    obtain ⟨v, hreach, hv⟩ := enterBlobWalk_reaches hh hb hlen hd
    have hvout := hv.outside.trans hout
    rw [endWalk_dParse (hv.phase.trans (hphase.trans hp))] at hreach
    have h := endsAs_treeWalk (s := { v with phase := .dDeserialize }) ((host_eq_of_outside hvout).trans hh)
      (hv.status.trans (hstatus.trans hb)) rfl
    have hend := compositeEnd_phases_congr (s := s) (u := { v with phase := .dDeserialize }) hvout
      (contents_setPhase hv.contents .dDeserialize) 4
    have hsteps : v.tbuf.elems.length ≤ s.src.elems.length := hv.tbuf ▸ htbuf
    exact (EndsAs.of_reaches hreach (h.congr (congrArg State.visible hend))).mono (by simp only; omega)

/-- Settles O59: both walks and the three phases after them end as the five phases in one step do. -/
theorem tokenwiseDecompressMatchesAtomic : Obligations.TokenwiseDecompressMatchesAtomic := by
  intro s t hh hs hlen h
  cases h
  have h := endsAs_blobWalk (s := begun .dParse s) hh rfl rfl hlen
  rw [compositeEnd_phases_congr (begun_outside .dParse s) (begun_contents .dParse s)] at h
  obtain ⟨u, hu, hvis⟩ := h.run ((compositeEnd_host _ _).trans hh) (compositeEnd_status _ _)
  refine ⟨u, hu, ?_⟩
  rw [hvis, compositeEnd_visible, finish_composite_visible (.inr rfl) .dParse hs]

end Sys2Proof.Machine
end

section
/-! The host's accesses (10_state.md R40): which are refused, and what each leaves and gives (O10, O11). -/

namespace Sys2Proof.Machine

/-! ### Writes that keep the types -/

theorem withinCap_iff (cap : Option Nat) (n : Nat) : withinCap cap n = true ↔ ¬ Past cap n := by
  simp [past_iff]

theorem uniqueKeys_iff {κ ν : Type} {key : κ → Nat} (hkey : ∀ a b, key a = key b ↔ a = b) (m : List (κ × ν)) :
    Table.uniqueKeys key m = true ↔ (m.map Prod.fst).Nodup := by
  induction m with
  | nil => simp [Table.uniqueKeys]
  | cons e rest ih =>
    have hne : (∀ x ∈ rest, e.1 ≠ x.1) ↔ e.1 ∉ rest.map Prod.fst := by
      rw [List.mem_map]
      exact ⟨fun h ⟨x, hx, he⟩ => h x hx he.symm, fun h x hx he => h ⟨x, hx, he.symm⟩⟩
    rw [List.map_cons, List.nodup_cons, ← ih, ← hne]
    simp [Table.uniqueKeys, hkey]

/-- The model's test of a host write is the spec's (R40). -/
theorem writeKeepsType_iff (a : HostAction) (s : State) : writeKeepsType a s = true ↔ ¬ BreaksType s.cfg a := by
  cases a with
  | load b bytes => exact withinCap_iff _ _
  | writeByte b i v => exact withinCap_iff _ _
  | setLen b n => exact withinCap_iff _ _
  | setSymsLen n => exact withinCap_iff _ _
  | setSyms l => simp [writeKeepsType, BreaksType, symsOk, withinCap_iff]
  | writeSym i v => simp [writeKeepsType, BreaksType, withinCap_iff]
  | setFreq m =>
    simp [writeKeepsType, BreaksType, freqOk, uniqueKeys_iff symKey_eq_iff, withinCap_iff, countOk_iff]
  | setPtab m => simp [writeKeepsType, BreaksType, ptabOk, uniqueKeys_iff symKey_eq_iff, withinCap_iff]
  | setLut m => simp [writeKeepsType, BreaksType, lutOk, uniqueKeys_iff bitsKey_eq_iff, withinCap_iff]
  | setTree t =>
    cases t with
    | none => simp [writeKeepsType, BreaksType, treeOk]
    | some root => simp [writeKeepsType, BreaksType, treeOk, nodeOk_iff, withinCap_iff, and_assoc]
  | _ => simp [writeKeepsType, BreaksType]

/-! ### The host's actions one by one -/

/-- The actions that write a structure or a length: all but a wait, a command write, a read and a reset. -/
def HostAction.isWrite : HostAction → Bool
  | .wait | .writeCmd _ | .read _ | .reset => false
  | .load _ _ | .writeByte _ _ _ | .setLen _ _ | .setSyms _ | .writeSym _ _ | .setSymsLen _ | .setFreq _ | .setTree _
  | .setPtab _ | .setLut _ | .setValidBits _ => true

theorem hostAct_write {a : HostAction} (ha : a.isWrite = true) (s : State) :
    hostAct a s = if s.status = .busy then .refused .hostAccessWhileBusy
      else if writeKeepsType a s then .next (applyWrite a s)
      else .refused .hostWriteBreaksType := by
  cases a with
  | wait | writeCmd _ | read _ | reset => cases ha
  | _ => rfl

theorem isWrite_of_breaksType {cfg : Config} {a : HostAction} (h : BreaksType cfg a) : a.isWrite = true := by
  cases a with
  | wait | writeCmd _ | read _ | reset => exact h.elim
  | _ => rfl

theorem step_write {s : State} {a : HostAction} {rest : List HostAction} (hh : s.host = a :: rest)
    (ha : a.isWrite = true) : step s = hostAct a { s with host := rest } :=
  step_hostAct hh (by rintro rfl; cases ha)

/-- A host write that keeps the type is done (R40). -/
theorem step_write_kept {s : State} {a : HostAction} {rest : List HostAction} (hh : s.host = a :: rest)
    (hb : s.status ≠ .busy) (hk : ¬ BreaksType s.cfg a) (ha : a.isWrite = true) :
    step s = .next (applyWrite a { s with host := rest }) := by
  have hkeeps : writeKeepsType a { s with host := rest } = true := (writeKeepsType_iff _ _).2 hk
  rw [step_write hh ha, hostAct_write ha, if_neg hb, if_pos hkeeps]

/-- A host write that breaks the type is refused (R40, U22). -/
theorem step_write_broken {s : State} {a : HostAction} {rest : List HostAction} (hh : s.host = a :: rest)
    (hb : s.status ≠ .busy) (hk : BreaksType s.cfg a) : step s = .refused .hostWriteBreaksType := by
  have ha := isWrite_of_breaksType hk
  have hkeeps : ¬ writeKeepsType a { s with host := rest } = true := fun h => (writeKeepsType_iff _ _).1 h hk
  rw [step_write hh ha, hostAct_write ha, if_neg hb, if_neg hkeeps]

theorem hostRead_busy {r : HostRead} {s : State} (hb : s.status = .busy) (hr : r ≠ .status) :
    hostRead r s = .refused .hostAccessWhileBusy := by
  unfold hostRead
  rw [if_pos ⟨hb, hr⟩]

theorem hostRead_status (s : State) : hostRead .status s = .next (.status s.status.code) := by
  simp [hostRead]

section
variable {s : State} (hb : s.status ≠ .busy)
include hb

theorem hostRead_byte_some {b : ReadBuf} {i : Nat} {v : Byte} (hv : (s.readBuf b).read i = some v) :
    hostRead (.byte b i) s = .next (.byte v) := by
  simp [hostRead, hb, hv]

theorem hostRead_byte_none {b : ReadBuf} {i : Nat} (hv : (s.readBuf b).read i = none) :
    hostRead (.byte b i) s = .fault (.notAddressable i) := by
  simp [hostRead, hb, hv]

theorem hostRead_sym_some {i : Nat} {v : Symbol} (hv : s.syms.read i = some v) :
    hostRead (.sym i) s = .next (.sym v) := by
  simp [hostRead, hb, hv]

theorem hostRead_sym_none {i : Nat} (hv : s.syms.read i = none) : hostRead (.sym i) s = .fault (.notAddressable i) := by
  simp [hostRead, hb, hv]

/-- A read of a register, a length, a table or the tree gives its value. -/
theorem hostRead_register {r : HostRead} (h1 : ∀ b i, r ≠ .byte b i) (h2 : ∀ i, r ≠ .sym i) :
    ∃ v, hostRead r s = .next v := by
  cases r with
  | byte b i => exact absurd rfl (h1 b i)
  | sym i => exact absurd rfl (h2 i)
  | _ => simp [hostRead, hb]

theorem hostRead_not_refused (r : HostRead) (f : Refusal) : hostRead r s ≠ .refused f := by
  cases r with
  | byte b i =>
    cases hv : (s.readBuf b).read i with
    | none => simp [hostRead_byte_none hb hv]
    | some v => simp [hostRead_byte_some hb hv]
  | sym i =>
    cases hv : s.syms.read i with
    | none => simp [hostRead_sym_none hb hv]
    | some v => simp [hostRead_sym_some hb hv]
  | _ => simp [hostRead, hb]

end

/-! ### A read leaves the state (20_memory.md R62) -/

section
variable {s : State} {r : HostRead} {rest : List HostAction} (hh : s.host = .read r :: rest)
include hh

theorem step_read_next {v : HostValue} (hr : hostRead r s = .next v) : step s = .next { s with host := rest } := by
  have hr' : hostRead r { s with host := rest } = .next v := hr
  rw [step_hostAct hh (by simp), hostAct, hr']

theorem step_read_fault {f : Fault} (hr : hostRead r s = .fault f) : step s = .fault f := by
  have hr' : hostRead r { s with host := rest } = .fault f := hr
  rw [step_hostAct hh (by simp), hostAct, hr']

theorem step_read_refused {f : Refusal} (hr : hostRead r s = .refused f) : step s = .refused f := by
  have hr' : hostRead r { s with host := rest } = .refused f := hr
  rw [step_hostAct hh (by simp), hostAct, hr']

theorem step_read_keeps {t : State} (h : step s = .next t) : t = { s with host := rest } := by
  cases hr : hostRead r s with
  | next v => rw [step_read_next hh hr] at h; cases h; rfl
  | fault f => rw [step_read_fault hh hr] at h; cases h
  | refused f => rw [step_read_refused hh hr] at h; cases h

end

/-! ### Refusals -/

theorem step_refused_while_busy {s : State} {a : HostAction} {rest : List HostAction} (hh : s.host = a :: rest)
    (hb : s.status = .busy) (hwait : a ≠ .wait) (hcmd : ∀ code, a ≠ .writeCmd code) (hreset : a ≠ .reset)
    (hread : a ≠ .read .status) : step s = .refused .hostAccessWhileBusy := by
  by_cases ha : a.isWrite = true
  · rw [step_write hh ha, hostAct_write ha, if_pos hb]
  · cases a with
    | wait => exact absurd rfl hwait
    | writeCmd code => exact absurd rfl (hcmd code)
    | reset => exact absurd rfl hreset
    | read r => exact step_read_refused hh (hostRead_busy hb (fun h => hread (h ▸ rfl)))
    | _ => exact absurd rfl ha

theorem step_not_refused {s : State} {a : HostAction} {rest : List HostAction} (hh : s.host = a :: rest)
    (hb : s.status ≠ .busy) (hk : ¬ BreaksType s.cfg a) (f : Refusal) : step s ≠ .refused f := by
  by_cases ha : a.isWrite = true
  · rw [step_write_kept hh hb hk ha]
    simp
  · cases a with
    | wait => rw [step_wait hh hb]; simp
    | writeCmd code => rw [step_hostAct hh (by simp), hostAct]; simp
    | reset => rw [step_hostAct hh (by simp), hostAct]; simp
    | read r =>
      cases hr : hostRead r s with
      | next v => rw [step_read_next hh hr]; simp
      | fault g => rw [step_read_fault hh hr]; simp
      | refused g => exact absurd hr (hostRead_not_refused hb r g)
    | _ => exact absurd rfl ha

/-- Settles O10: the model's test of a host write is `BreaksType`, and it is made only while the block is not busy. -/
theorem hostAccessRefused : Obligations.HostAccessRefused := by
  intro s a rest hh
  exact ⟨fun hb hwait hcmd hreset hread => step_refused_while_busy hh hb hwait hcmd hreset hread,
    fun hb => ⟨fun hk => step_write_broken hh hb hk, fun hk f => step_not_refused hh hb hk f⟩⟩

/-! ### What tables and buffers hold after a write -/

section
variable {κ ν : Type} {key : κ → Nat}

/-- Entries with unique keys, put into a table one after the other, all stand in it. -/
theorem lookup_foldl_insert (hkey : ∀ a b, key a = key b ↔ a = b) (entries m : List (κ × ν))
    (hnodup : (entries.map Prod.fst).Nodup) (x : κ) (c : ν) :
    Table.lookup key x (entries.foldl (fun m e => Table.insert key e.1 e.2 m) m) = some c
      ↔ (x, c) ∈ entries ∨ (x ∉ entries.map Prod.fst ∧ Table.lookup key x m = some c) := by
  induction entries generalizing m with
  | nil => simp
  | cons e rest ih =>
    obtain ⟨k, v⟩ := e
    obtain ⟨hk, hrest⟩ := List.nodup_cons.1 hnodup
    rw [List.foldl_cons, ih _ hrest, Table.lookup_insert]
    by_cases hx : x = k
    · subst hx
      have hkeys : x ∉ rest.map Prod.fst := hk
      have hnot : (x, c) ∉ rest := fun h => hkeys (List.mem_map_of_mem (f := Prod.fst) h)
      rw [if_pos rfl]
      simp only [hnot, hkeys, List.mem_cons, List.map_cons, Option.some.injEq, Prod.mk.injEq]
      tauto
    · rw [if_neg (fun h => hx ((hkey x k).1 h))]
      simp [hx]

theorem lookup_ofEntries (hkey : ∀ a b, key a = key b ↔ a = b) {m : List (κ × ν)}
    (hu : Table.uniqueKeys key m = true) (x : κ) (c : ν) :
    Table.lookup key x (Table.ofEntries key m) = some c ↔ (x, c) ∈ m := by
  rw [Table.ofEntries, lookup_foldl_insert hkey m [] ((uniqueKeys_iff hkey m).1 hu)]
  simp

end

/-- Reading a dense run of cells by index gives its elements in order. -/
theorem lookup_dense {α : Type} {n k i : Nat} {m : List (Nat × α)} (h : (m.take n).map Prod.fst = List.range' k n)
    (hi : i < n) : Table.lookup id (k + i) m = ((m.take n).map Prod.snd)[i]? := by
  induction n generalizing k i m with
  | zero => omega
  | succ n ih =>
    match m with
    | [] => simp [List.range'_succ] at h
    | e :: rest =>
      simp only [List.take_succ_cons, List.map_cons, List.range'_succ, List.cons.injEq] at h
      obtain ⟨he, hrest⟩ := h
      cases i with
      | zero => simp [Table.lookup, he]
      | succ i =>
        have hne : ¬ k + (i + 1) = e.1 := by omega
        have h1 := ih hrest (Nat.lt_of_succ_lt_succ hi)
        rw [show k + 1 + i = k + (i + 1) by omega] at h1
        simp [Table.lookup, hne, h1]

/-- A read of a buffer in canonical form gives the element of that index (20_memory.md R61). -/
theorem Buffer.read_eq_elems {α : Type} {cap : Option Nat} {b : Buffer α} (h : b.wf cap = true) (i : Nat) :
    b.read i = b.elems[i]? := by
  by_cases hi : i < b.len
  · have hd := (Buffer.wf_iff.1 h).2.1
    rw [List.range_eq_range'] at hd
    have := lookup_dense hd hi
    rw [Nat.zero_add] at this
    rw [Buffer.read, if_pos hi, this, Buffer.elems]
  · rw [Buffer.read, if_neg hi, List.getElem?_eq_none (by rw [Buffer.elems_length h]; omega)]

/-! ### What the host's writes leave -/

section
variable {s : State} {rest : List HostAction} (hb : s.status ≠ .busy)
include hb

theorem step_writeByte {b : HostBuf} {i : Nat} {v : Byte} (hh : s.host = .writeByte b i v :: rest)
    (hk : ¬ BreaksType s.cfg (.writeByte b i v)) :
    ∃ nb : Buffer Byte, step s = .next ({ s with host := rest }.setHostBuf b nb) ∧ nb.len = (s.hostBuf b).len
      ∧ (∀ j, j ≠ i → nb.read j = (s.hostBuf b).read j) ∧ (i < nb.len → nb.read i = some v) := by
  refine ⟨(s.hostBuf b).writeAt i v, ?_, rfl, fun j hj => ?_, fun hi => ?_⟩
  · rw [step_write_kept hh hb hk rfl]
    cases b <;> rfl
  · rw [Buffer.read_writeAt, if_neg (fun h => hj h.1)]
  · have hlt : i < (s.hostBuf b).len := hi
    rw [Buffer.read_writeAt, if_pos ⟨rfl, hlt⟩]

theorem step_writeSym {i : Nat} {v : Symbol} (hh : s.host = .writeSym i v :: rest)
    (hk : ¬ BreaksType s.cfg (.writeSym i v)) :
    ∃ nb : Buffer Symbol, step s = .next { s with host := rest, syms := nb } ∧ nb.len = s.syms.len
      ∧ (∀ j, j ≠ i → nb.read j = s.syms.read j) ∧ (i < nb.len → nb.read i = some v) := by
  refine ⟨s.syms.writeAt i v, step_write_kept hh hb hk rfl, rfl, fun j hj => ?_, fun hi => ?_⟩
  · rw [Buffer.read_writeAt, if_neg (fun h => hj h.1)]
  · have hlt : i < s.syms.len := hi
    rw [Buffer.read_writeAt, if_pos ⟨rfl, hlt⟩]

theorem step_setFreq {m : List (Symbol × Count)} (hh : s.host = .setFreq m :: rest)
    (hk : ¬ BreaksType s.cfg (.setFreq m)) :
    ∃ f, step s = .next { s with host := rest, freq := f } ∧ Table.wf symKey f = true
      ∧ ∀ x c, Table.lookup symKey x f = some c ↔ (x, c) ∈ m := by
  have hkeeps := (writeKeepsType_iff _ _).2 hk
  have hu : Table.uniqueKeys symKey m = true := (Bool.and_eq_true_iff.1 hkeeps).1
  exact ⟨_, step_write_kept hh hb hk rfl, Table.wf_ofEntries m, lookup_ofEntries symKey_eq_iff hu⟩

theorem step_setPtab {m : List (Symbol × Bits)} (hh : s.host = .setPtab m :: rest)
    (hk : ¬ BreaksType s.cfg (.setPtab m)) :
    ∃ f, step s = .next { s with host := rest, ptab := f } ∧ Table.wf symKey f = true
      ∧ ∀ x c, Table.lookup symKey x f = some c ↔ (x, c) ∈ m := by
  have hkeeps := (writeKeepsType_iff _ _).2 hk
  have hu : Table.uniqueKeys symKey m = true := (Bool.and_eq_true_iff.1 hkeeps).1
  exact ⟨_, step_write_kept hh hb hk rfl, Table.wf_ofEntries m, lookup_ofEntries symKey_eq_iff hu⟩

theorem step_setLut {m : List (Bits × Symbol)} (hh : s.host = .setLut m :: rest)
    (hk : ¬ BreaksType s.cfg (.setLut m)) :
    ∃ f, step s = .next { s with host := rest, lut := f } ∧ Table.wf bitsKey f = true
      ∧ ∀ c x, Table.lookup bitsKey c f = some x ↔ (c, x) ∈ m := by
  have hkeeps := (writeKeepsType_iff _ _).2 hk
  have hu : Table.uniqueKeys bitsKey m = true := (Bool.and_eq_true_iff.1 hkeeps).1
  exact ⟨_, step_write_kept hh hb hk rfl, Table.wf_ofEntries m, lookup_ofEntries bitsKey_eq_iff hu⟩

/-! ### What the host's reads give -/

theorem step_readByte {b : ReadBuf} {i : Nat} {cap : Option Nat} (hh : s.host = .read (.byte b i) :: rest)
    (hwf : (s.readBuf b).wf cap = true) :
    (∀ v, (s.readBuf b).elems[i]? = some v →
        hostRead (.byte b i) s = .next (.byte v) ∧ step s = .next { s with host := rest })
      ∧ ((s.readBuf b).len ≤ i → step s = .fault (.notAddressable i)) := by
  refine ⟨fun v hv => ?_, fun hi => ?_⟩
  · have hr := hostRead_byte_some hb ((Buffer.read_eq_elems hwf i).trans hv)
    exact ⟨hr, step_read_next hh hr⟩
  · exact step_read_fault hh (hostRead_byte_none hb (by rw [Buffer.read, if_neg (Nat.not_lt.2 hi)]))

theorem step_readSym {i : Nat} {cap : Option Nat} (hh : s.host = .read (.sym i) :: rest) (hwf : s.syms.wf cap = true) :
    (∀ v, s.syms.elems[i]? = some v → hostRead (.sym i) s = .next (.sym v) ∧ step s = .next { s with host := rest })
      ∧ (s.syms.len ≤ i → step s = .fault (.notAddressable i)) := by
  refine ⟨fun v hv => ?_, fun hi => ?_⟩
  · have hr := hostRead_sym_some hb ((Buffer.read_eq_elems hwf i).trans hv)
    exact ⟨hr, step_read_next hh hr⟩
  · exact step_read_fault hh (hostRead_sym_none hb (by rw [Buffer.read, if_neg (Nat.not_lt.2 hi)]))

theorem step_readRegister {r : HostRead} (hh : s.host = .read r :: rest) (h1 : ∀ b i, r ≠ .byte b i)
    (h2 : ∀ i, r ≠ .sym i) : step s = .next { s with host := rest } := by
  obtain ⟨v, hv⟩ := hostRead_register hb h1 h2
  exact step_read_next hh hv

end

/-- Settles O11: write by write what is left, read by read what is given. -/
theorem hostAccessesTakeEffect : Obligations.HostAccessesTakeEffect := by
  refine ⟨⟨rfl, rfl, rfl, rfl⟩, fun s => ⟨rfl, rfl, rfl, rfl, rfl, rfl, rfl⟩, fun s a rest hh hb hk => ?_,
    fun s r rest hh => ?_, fun s b i cap rest hh hb hwf => step_readByte hb hh hwf,
    fun s i cap rest hh hb hwf => step_readSym hb hh hwf⟩
  · refine ⟨?_, ?_, ?_, ?_, ?_, ?_, ?_, ?_, ?_⟩
    · rintro b i v rfl
      exact step_writeByte hb hh hk
    · rintro b bytes rfl
      refine ⟨Buffer.ofList bytes, ?_, Buffer.ofList_len _, Buffer.ofList_elems _, Buffer.read_ofList _⟩
      exact step_write_kept hh hb hk rfl
    · rintro l rfl
      exact ⟨Buffer.ofList l, step_write_kept hh hb hk rfl, Buffer.ofList_len _, Buffer.ofList_elems _,
        Buffer.read_ofList _⟩
    · rintro i v rfl
      exact step_writeSym hb hh hk
    · rintro m rfl
      exact step_setFreq hb hh hk
    · rintro m rfl
      exact step_setPtab hb hh hk
    · rintro m rfl
      exact step_setLut hb hh hk
    · rintro n rfl
      exact step_write_kept hh hb hk rfl
    · rintro v rfl
      exact step_write_kept hh hb hk rfl
  · refine ⟨fun t => step_read_keeps hh, ?_, fun hb => ?_, fun hb => step_readRegister hb hh⟩
    · rintro rfl
      exact ⟨hostRead_status s, step_read_next hh (hostRead_status s)⟩
    · refine ⟨?_, ?_, ?_, ?_, ?_, ?_, ?_, ?_, ?_⟩
      · rintro b rfl
        simp [hostRead, hb]
      all_goals
        rintro rfl
        simp [hostRead, hb]

end Sys2Proof.Machine
end

section
/-! The types of the structures (10_state.md R22 to R33) as the operations of the units keep them: tables, buffers of
symbols, trees. -/

namespace Sys2Proof.Machine

/-! ### Tables -/

section
variable {κ ν : Type} {key : κ → Nat}

/-- A table of its type: canonical, every entry of its type, within the capacity. -/
structure Table.Typed (key : κ → Nat) (p : κ × ν → Bool) (cap : Option Nat) (m : List (κ × ν)) : Prop where
  wf : Table.wf key m = true
  entries : m.all p = true
  cap : withinCap cap m.length = true

theorem withinCap_zero (cap : Option Nat) : withinCap cap 0 = true := by
  cases cap <;> simp

theorem Table.Typed.nil (p : κ × ν → Bool) (cap : Option Nat) : Table.Typed key p cap [] :=
  ⟨rfl, rfl, withinCap_zero cap⟩

theorem Table.Typed.put {p : κ × ν → Bool} {cap : Option Nat} {m m' : List (κ × ν)} {k : κ} {v : ν}
    (h : Table.Typed key p cap m) (hp : p (k, v) = true) (hput : Table.put key cap k v m = .ok m') :
    Table.Typed key p cap m' := by
  rcases Table.put_cases hput with ⟨hm, hroom⟩ | ⟨hm, -, -⟩
  · cases hm
    refine ⟨Table.wf_insert k v h.wf, Table.all_insert hp h.entries, ?_⟩
    rw [Table.length_insert k v m h.wf]
    split
    · exact h.cap
    · rename_i hnone
      exact hroom.resolve_left hnone
  · cases hm

theorem Table.length_insert_le (k : κ) (v : ν) (m : List (κ × ν)) :
    (Table.insert key k v m).length ≤ m.length + 1 := by
  induction m with
  | nil => simp
  | cons e rest ih =>
    simp only [Table.insert]
    split
    · simp
    · split
      · simp
      · simpa using ih

theorem Table.Typed.ofEntries {p : κ × ν → Bool} {cap : Option Nat} {entries : List (κ × ν)}
    (hp : entries.all p = true) (hcap : withinCap cap entries.length = true) :
    Table.Typed key p cap (Table.ofEntries key entries) := by
  have hfold : ∀ (es m : List (κ × ν)), es.all p = true → m.all p = true →
      (es.foldl (fun m e => Table.insert key e.1 e.2 m) m).all p = true
        ∧ (es.foldl (fun m e => Table.insert key e.1 e.2 m) m).length ≤ m.length + es.length := by
    intro es
    induction es with
    | nil => intro m _ hm; exact ⟨hm, Nat.le_refl _⟩
    | cons e rest ih =>
      intro m hes hm
      rw [List.all_cons, Bool.and_eq_true] at hes
      have hlen := Table.length_insert_le (key := key) e.1 e.2 m
      obtain ⟨hall, hle⟩ := ih _ hes.2 (Table.all_insert (key := key) (k := e.1) (v := e.2) hes.1 hm)
      exact ⟨hall, by rw [List.foldl_cons, List.length_cons]; omega⟩
  obtain ⟨hall, hle⟩ := hfold entries [] hp rfl
  exact ⟨Table.wf_ofEntries entries, hall, withinCap_mono (hle.trans (by simp)) hcap⟩

/-- What a lookup gives stands in the table. -/
theorem Table.exists_mem_of_lookup {k : κ} {v : ν} {m : List (κ × ν)} (h : Table.lookup key k m = some v) :
    ∃ k', (k', v) ∈ m := by
  induction m with
  | nil => cases h
  | cons e rest ih =>
    simp only [Table.lookup] at h
    split at h
    · cases h
      exact ⟨e.1, List.mem_cons_self⟩
    · obtain ⟨k', hk'⟩ := ih h
      exact ⟨k', List.mem_cons_of_mem _ hk'⟩

end

/-! ### The types of the state's structures -/

/-- SYMS (R24). -/
structure SymsTyped (cfg : Config) (b : Buffer Symbol) : Prop where
  wf : b.wf cfg.symsCap = true
  scalar : ∀ e ∈ b.cells, isScalar e.2 = true

/-- FREQ (R25). -/
abbrev FreqTyped (cfg : Config) (m : List (Symbol × Count)) : Prop :=
  Table.Typed symKey (fun e => isScalar e.1 && countOk cfg e.2) cfg.nMax m

/-- PTAB (R29). -/
abbrev PtabTyped (cfg : Config) (m : List (Symbol × Bits)) : Prop :=
  Table.Typed symKey (fun e => isScalar e.1 && withinCap cfg.codeMax e.2.length) cfg.nMax m

/-- LUT (R29). -/
abbrev LutTyped (cfg : Config) (m : List (Bits × Symbol)) : Prop :=
  Table.Typed bitsKey (fun e => withinCap cfg.codeMax e.1.length && isScalar e.2) cfg.nMax m

theorem SymsTyped.empty (cfg : Config) : SymsTyped cfg Buffer.empty :=
  ⟨Buffer.wf_empty _, fun e he => by cases he⟩

theorem SymsTyped.writeAt {cfg : Config} {b : Buffer Symbol} {i : Nat} {x : Symbol} (h : SymsTyped cfg b)
    (hx : isScalar x = true) (hi : withinCap cfg.symsCap (i + 1) = true) : SymsTyped cfg (b.writeAt i x) := by
  refine ⟨Buffer.wf_writeAt h.wf hi, fun e he => ?_⟩
  rcases Table.mem_insert he with rfl | he
  · exact hx
  · exact h.scalar e he

theorem SymsTyped.append {cfg : Config} {b b' : Buffer Symbol} {x : Symbol} (h : SymsTyped cfg b)
    (hx : isScalar x = true) (hb : b.append cfg.symsCap x = .ok b') : SymsTyped cfg b' := by
  refine ⟨Buffer.wf_append h.wf hb, fun e he => ?_⟩
  unfold Buffer.append at hb
  split at hb
  · cases hb
    rcases Table.mem_insert he with rfl | he
    · exact hx
    · exact h.scalar e he
  · cases hb

theorem SymsTyped.ofList {cfg : Config} {l : List Symbol} (hl : l.all isScalar = true)
    (hcap : withinCap cfg.symsCap l.length = true) : SymsTyped cfg (Buffer.ofList l) :=
  ⟨Buffer.wf_ofList hcap, fun e he => List.all_eq_true.1 hl e.2 (Buffer.mem_ofList he).2⟩

theorem freeSymbol_isScalar (n : Nat) : isScalar (Config.freeSymbol n) = true := by
  unfold Config.freeSymbol
  split
  · assumption
  · rfl

theorem SymsTyped.setLen {cfg : Config} {b : Buffer Symbol} {n k : Nat} (h : SymsTyped cfg b)
    (hn : withinCap cfg.symsCap n = true) : SymsTyped cfg (b.setLen (fun i => Config.freeSymbol (k + i)) n) := by
  refine ⟨Buffer.wf_setLen _ h.wf hn, fun e he => ?_⟩
  unfold Buffer.setLen at he
  split at he
  · exact h.scalar e (List.mem_filter.1 he).1
  · rcases Buffer.mem_fill he with he | ⟨-, hfresh⟩
    · exact h.scalar e he
    · rw [hfresh]
      exact freeSymbol_isScalar _

/-! ### Counts (00_scope.md R10) -/

theorem countOk_of_nonneg {cfg : Config} {c : Count} (h0 : 0 ≤ c) (h : c ≤ cfg.cntMax) : countOk cfg c = true := by
  have hmin : cfg.cntMin ≤ 0 := by
    show -(2 ^ (cfg.cntW - 1) : Int) ≤ 0
    exact Int.neg_nonpos_of_nonneg (by positivity)
  simp only [countOk, Bool.and_eq_true, decide_eq_true_eq]
  exact ⟨hmin.trans h0, h⟩

theorem countOk_zero (cfg : Config) : countOk cfg 0 = true := by
  refine countOk_of_nonneg (Int.le_refl 0) ?_
  have hpow : (0 : Int) < 2 ^ (cfg.cntW - 1) := by positivity
  show (0 : Int) ≤ 2 ^ (cfg.cntW - 1) - 1
  omega

theorem checkCount_ok {cfg : Config} {c c' : Count} (h : checkCount cfg c = .ok c') : c' = c ∧ c ≤ cfg.cntMax := by
  unfold checkCount at h
  split at h
  · cases h; exact ⟨rfl, ‹_›⟩
  · cases h

theorem checkCap_ok {cap : Option Nat} {n n' : Nat} (h : checkCap cap n = .ok n') : n' = n ∧ withinCap cap n = true := by
  unfold checkCap at h
  split at h
  · cases h; exact ⟨rfl, ‹_›⟩
  · cases h

/-- A result of two operations one after the other is a result of each. -/
theorem bind_ok {α β : Type} {x : Except ErrKind α} {f : α → Except ErrKind β} {b : β} (h : x >>= f = .ok b) :
    ∃ a, x = .ok a ∧ f a = .ok b := by
  cases x with
  | error k => cases h
  | ok a => exact ⟨a, rfl, h⟩

/-! ### ANALYZE -/

theorem countSymbol_typed {cfg : Config} {x : Symbol} {m m' : List (Symbol × Count)} (h : FreqTyped cfg m)
    (hx : isScalar x = true) (hc : countSymbol cfg x m = .ok m') : FreqTyped cfg m' := by
  obtain ⟨c, hcheck, hput⟩ := bind_ok hc
  obtain ⟨rfl, hmax⟩ := checkCount_ok hcheck
  refine h.put ?_ hput
  rw [Bool.and_eq_true]
  refine ⟨hx, ?_⟩
  cases hl : Table.lookup symKey x m with
  | none =>
    rw [hl] at hmax
    exact countOk_of_nonneg (show (0 : Int) ≤ 0 + 1 by decide) hmax
  | some c0 =>
    rw [hl] at hmax
    obtain ⟨k', hmem⟩ := Table.exists_mem_of_lookup hl
    have hc0 := List.all_eq_true.1 h.entries _ hmem
    simp only [countOk, Bool.and_eq_true, decide_eq_true_eq, Option.getD_some] at hc0 hmax ⊢
    exact ⟨Int.le_add_one hc0.2.1, hmax⟩

theorem analyzeLoop_typed {cfg : Config} {turns : Nat} {bytes : List Byte} {r r' : AnalyzeRegs}
    (hs : SymsTyped cfg r.syms) (hf : FreqTyped cfg r.freq) (h : analyzeLoop cfg turns bytes r = .ok r') :
    SymsTyped cfg r'.syms ∧ FreqTyped cfg r'.freq := by
  induction turns generalizing bytes r with
  | zero => cases h; exact ⟨hs, hf⟩
  | succ turns ih =>
    unfold analyzeLoop at h
    cases hu : utf8Decode bytes with
    | ended => rw [hu] at h; cases h; exact ⟨hs, hf⟩
    | truncated => rw [hu] at h; cases h
    | invalid => rw [hu] at h; cases h
    | ok x w =>
      rw [hu] at h
      have hx := (utf8Decode_ok hu).1
      obtain ⟨syms, happend, h⟩ := bind_ok h
      obtain ⟨freq, hcount, h⟩ := bind_ok h
      exact ih (hs.append hx happend) (countSymbol_typed hf hx hcount) h

theorem analyzeText_typed {cfg : Config} {bytes : List Byte} {r : AnalyzeRegs} (h : analyzeText cfg bytes = .ok r) :
    SymsTyped cfg r.syms ∧ FreqTyped cfg r.freq :=
  analyzeLoop_typed (r := ⟨Buffer.empty, [], 0⟩) (SymsTyped.empty cfg) (.nil _ _) h

/-! ### DERIVE -/

/-- Both tables of a derivation are of their types. -/
structure CodesTyped (cfg : Config) (t : CodeTables) : Prop where
  ptab : PtabTyped cfg t.ptab
  lut : LutTyped cfg t.lut

theorem putCode_typed {cfg : Config} {x : Symbol} {code : Bits} {t t' : CodeTables} (h : CodesTyped cfg t)
    (hx : isScalar x = true) (hput : putCode cfg x code t = .ok t') : CodesTyped cfg t' := by
  obtain ⟨n, hcheck, hput⟩ := bind_ok hput
  obtain ⟨-, hcode⟩ := checkCap_ok hcheck
  obtain ⟨ptab, hptab, hput⟩ := bind_ok hput
  obtain ⟨lut, hlut, hput⟩ := bind_ok hput
  cases hput
  exact ⟨h.ptab.put (by simp [hx, hcode]) hptab, h.lut.put (by simp [hx, hcode]) hlut⟩

theorem walkCodes_typed {cfg : Config} {n : Node} {code : Bits} {t t' : CodeTables} (hn : nodeOk cfg n = true)
    (h : CodesTyped cfg t) (hw : walkCodes cfg n code t = .ok t') : CodesTyped cfg t' := by
  induction n generalizing code t t' with
  | leaf x c =>
    rw [nodeOk, Bool.and_eq_true] at hn
    exact putCode_typed h hn.1 hw
  | internal c l r ihl ihr =>
    simp only [nodeOk, Bool.and_eq_true] at hn
    obtain ⟨⟨-, hl⟩, hr⟩ := hn
    obtain ⟨_, -, hw⟩ := bind_ok hw
    obtain ⟨t1, hw1, hw2⟩ := bind_ok hw
    exact ihr hr (ihl hl h hw1) hw2

theorem deriveTables_typed {cfg : Config} {root : Node} {t : CodeTables} (hn : nodeOk cfg root = true)
    (h : deriveTables cfg root = .ok t) : CodesTyped cfg t :=
  walkCodes_typed hn ⟨.nil _ _, .nil _ _⟩ h

/-! ### BUILD -/

theorem pqInsert_perm (e : PQEntry) (q : List PQEntry) : (pqInsert e q).Perm (e :: q) := by
  induction q with
  | nil => exact .refl _
  | cons x rest ih =>
    unfold pqInsert
    split
    · exact .refl _
    · exact (ih.cons x).trans (.swap e x rest)

theorem pqOfList_perm (es : List PQEntry) : (pqOfList es).Perm es := by
  have hfold : ∀ q : List PQEntry, (es.foldl (fun q e => pqInsert e q) q).Perm (es ++ q) := by
    induction es with
    | nil => intro q; exact .refl _
    | cons e rest ih =>
      intro q
      exact (ih _).trans (((pqInsert_perm e q).append_left rest).trans List.perm_middle)
  have h := hfold []
  rwa [List.append_nil] at h

/-- A queue of nodes of their type, no count negative, `n` leaves in all. -/
structure QueueTyped (cfg : Config) (q : List PQEntry) (n : Nat) : Prop where
  node : ∀ e ∈ q, nodeOk cfg e.node = true
  count : ∀ e ∈ q, 0 ≤ e.cnt
  leaves : (q.map fun e => e.node.leafCount).sum = n

theorem QueueTyped.perm {cfg : Config} {q q' : List PQEntry} {n : Nat} (h : QueueTyped cfg q n) (hp : q'.Perm q) :
    QueueTyped cfg q' n :=
  ⟨fun e he => h.node e (hp.mem_iff.1 he), fun e he => h.count e (hp.mem_iff.1 he),
    by rw [(hp.map _).sum_eq, h.leaves]⟩

theorem mergeLoop_typed {cfg : Config} {turns n : Nat} {q q' : List PQEntry} {seq seq' : Nat} (h : QueueTyped cfg q n)
    (hm : mergeLoop cfg turns q seq = .ok (q', seq')) : QueueTyped cfg q' n := by
  induction turns generalizing q seq with
  | zero =>
    cases hm
    exact h
  | succ turns ih =>
    match q with
    | [] => cases hm; exact h
    | [a] => cases hm; exact h
    | a :: b :: rest =>
      obtain ⟨c, hcheck, hm⟩ := bind_ok hm
      obtain ⟨rfl, hmax⟩ := checkCount_ok hcheck
      have ha := h.count a (by simp)
      have hb := h.count b (by simp)
      have hleaves := h.leaves
      refine ih (QueueTyped.perm ⟨?_, ?_, ?_⟩ (pqInsert_perm _ _)) hm
      · rw [List.forall_mem_cons]
        refine ⟨?_, fun e he => h.node e (by simp [he])⟩
        simp [nodeOk, countOk_of_nonneg (Int.add_nonneg ha hb) hmax, h.node a, h.node b]
      · rw [List.forall_mem_cons]
        exact ⟨Int.add_nonneg ha hb, fun e he => h.count e (by simp [he])⟩
      · simp only [List.map_cons, List.sum_cons, Node.leafCount] at hleaves ⊢
        omega

theorem leafEntries_typed {cfg : Config} {seq : Nat} {freq : List (Symbol × Count)}
    (h : freq.all (fun e => isScalar e.1 && countOk cfg e.2) = true) (hpos : ∀ e ∈ freq, 0 < e.2) :
    QueueTyped cfg (leafEntries seq freq) freq.length := by
  induction freq generalizing seq with
  | nil => exact ⟨by simp [leafEntries], by simp [leafEntries], rfl⟩
  | cons e rest ih =>
    rw [List.all_cons, Bool.and_eq_true] at h
    rw [List.forall_mem_cons] at hpos
    obtain ⟨hnode, hcount, hleaves⟩ := ih (seq := seq + 1) h.2 hpos.2
    refine ⟨?_, ?_, ?_⟩
    · rw [leafEntries, List.forall_mem_cons]
      exact ⟨h.1, hnode⟩
    · rw [leafEntries, List.forall_mem_cons]
      exact ⟨Int.le_of_lt hpos.1, hcount⟩
    · rw [leafEntries, List.map_cons, List.sum_cons, hleaves, List.length_cons, Node.leafCount, Nat.add_comm]

theorem buildTree_ok {cfg : Config} {freq : List (Symbol × Count)} {b : BuiltTree} (h : buildTree cfg freq = .ok b) :
    (∀ e ∈ freq, 0 < e.2) ∧ ∃ e rest,
      mergeLoop cfg freq.length (pqOfList (leafEntries 0 freq)) freq.length = .ok (e :: rest, b.seq) ∧ b.root = e.node := by
  unfold buildTree at h
  split at h
  · cases h
  · split at h
    · cases h
    · rename_i hpos
      split at h
      · cases h
      · obtain ⟨⟨q, seq⟩, hm, h⟩ := bind_ok h
        cases q with
        | nil => cases h
        | cons e rest =>
          cases h
          refine ⟨fun e he => ?_, e, rest, hm, rfl⟩
          by_contra hle
          exact hpos (List.any_eq_true.2 ⟨e, he, by simpa using hle⟩)

/-- BUILD's tree is of its type: no more leaves than FREQ has entries. -/
theorem buildTree_typed {cfg : Config} {freq : List (Symbol × Count)} {b : BuiltTree} (hf : FreqTyped cfg freq)
    (h : buildTree cfg freq = .ok b) : treeOk cfg (some b.root) = true := by
  obtain ⟨hpos, e, rest, hm, hroot⟩ := buildTree_ok h
  have hq := mergeLoop_typed ((leafEntries_typed hf.entries hpos).perm (pqOfList_perm _)) hm
  have hle : e.node.leafCount ≤ freq.length := by
    have := hq.leaves
    rw [List.map_cons, List.sum_cons] at this
    omega
  rw [treeOk, hroot, Bool.and_eq_true]
  exact ⟨hq.node e List.mem_cons_self, withinCap_mono hle hf.cap⟩

end Sys2Proof.Machine
end

section
/-! The types of the structures as SERIALIZE, DESERIALIZE, ENCODE and DECODE keep them. -/

namespace Sys2Proof.Machine

/-! ### SERIALIZE, DESERIALIZE -/

theorem serNode_wf {cfg : Config} {n : Node} {depth : Nat} {b b' : Buffer Byte} (hb : b.wf cfg.tbufCap = true)
    (h : serNode cfg depth n b = .ok b') : b'.wf cfg.tbufCap = true := by
  induction n generalizing depth b b' with
  | leaf x c => exact Buffer.wf_appendAll hb h
  | internal c l r ihl ihr =>
    obtain ⟨b0, h0, h⟩ := bind_ok h
    obtain ⟨_, -, h⟩ := bind_ok h
    obtain ⟨b1, h1, h2⟩ := bind_ok h
    exact ihr (ihl (Buffer.wf_append hb h0) h1) h2

/-- What `Des()` gives is of its type, and it counts the leaves it makes. -/
theorem desNode_typed {cfg : Config} {turns depth : Nat} {r r' : DesRegs} {n : Node}
    (h : desNode cfg turns depth r = .ok (n, r')) :
    nodeOk cfg n = true ∧ r'.leaves = r.leaves + n.leafCount ∧ withinCap cfg.nMax r'.leaves = true := by
  induction turns generalizing depth r r' n with
  | zero => cases h
  | succ turns ih =>
    rw [desNode_succ] at h
    cases ht : tokenAt cfg .treeToken r.rest with
    | error k => rw [ht] at h; cases h
    | ok i =>
      rw [ht] at h
      obtain ⟨_, hd⟩ := tokenAt_ok ht
      obtain ⟨-, rfl | ⟨m, -, rfl⟩ | ⟨x, rfl, hx, -⟩⟩ := decodeTreeToken_ok hd
      · rw [desToken_internal] at h
        obtain ⟨_, -, h⟩ := bind_ok h
        obtain ⟨⟨left, r1⟩, hleft, h⟩ := bind_ok h
        cases hright : desNode cfg turns (depth + 1) r1 with
        | error k => rw [hright] at h; cases h
        | ok q =>
          obtain ⟨right, r2⟩ := q
          rw [hright] at h
          cases h
          obtain ⟨hl, hlcount, -⟩ := ih hleft
          obtain ⟨hr, hrcount, hcap⟩ := ih hright
          refine ⟨by simp [nodeOk, countOk_zero, hl, hr], ?_, hcap⟩
          rw [hrcount, hlcount, Node.leafCount, Nat.add_assoc]
      · cases h
      · rw [desToken_leaf] at h
        cases hcheck : checkCap cfg.nMax (r.leaves + 1) with
        | error k => rw [hcheck] at h; cases h
        | ok m =>
          rw [hcheck] at h
          cases h
          obtain ⟨rfl, hcap⟩ := checkCap_ok hcheck
          exact ⟨by simp [nodeOk, countOk_zero, hx], rfl, hcap⟩

theorem deserializeBytes_typed {cfg : Config} {bytes : List Byte} {root : Node} {r : DesRegs}
    (h : deserializeBytes cfg bytes = .ok (root, r)) : treeOk cfg (some root) = true := by
  obtain ⟨hn, hcount, hcap⟩ := desNode_typed h
  rw [hcount, Nat.zero_add] at hcap
  rw [treeOk, hn, hcap]
  rfl

/-! ### ENCODE, DECODE -/

theorem packBit_wf {cfg : Config} {r r' : EncodeRegs} {b : Bool} (hw : r.pay.wf cfg.payCap = true)
    (h : packBit cfg r b = .ok r') : r'.pay.wf cfg.payCap = true := by
  obtain ⟨total, -, h⟩ := bind_ok h
  split at h
  · obtain ⟨pay, happend, h⟩ := bind_ok h
    cases h
    exact Buffer.wf_append hw happend
  · cases h
    exact hw

theorem packBits_wf {cfg : Config} {r r' : EncodeRegs} {bs : Bits} (hw : r.pay.wf cfg.payCap = true)
    (h : packBits cfg r bs = .ok r') : r'.pay.wf cfg.payCap = true := by
  induction bs generalizing r with
  | nil => cases h; exact hw
  | cons b bs ih =>
    obtain ⟨r1, h1, h⟩ := bind_ok h
    exact ih (packBit_wf hw h1) h

theorem encodeLoop_wf {cfg : Config} {ptab : List (Symbol × Bits)} {r r' : EncodeRegs} {l : List Symbol}
    (hw : r.pay.wf cfg.payCap = true) (h : encodeLoop cfg ptab r l = .ok r') : r'.pay.wf cfg.payCap = true := by
  induction l generalizing r with
  | nil => cases h; exact hw
  | cons x rest ih =>
    unfold encodeLoop at h
    split at h
    · cases h
    · obtain ⟨r1, h1, h⟩ := bind_ok h
      exact ih (packBits_wf hw h1) h

theorem encodeSyms_wf {cfg : Config} {ptab : List (Symbol × Bits)} {l : List Symbol} {r : EncodeRegs}
    (h : encodeSyms cfg ptab l = .ok r) : r.pay.wf cfg.payCap = true := by
  obtain ⟨r1, h1, h⟩ := bind_ok h
  have hw := encodeLoop_wf (r := ⟨Buffer.empty, 0, 0, 0⟩) (Buffer.wf_empty _) h1
  unfold flushLast at h
  split at h
  · cases h
    exact hw
  · obtain ⟨pay, happend, h⟩ := bind_ok h
    cases h
    exact Buffer.wf_append hw happend

theorem decodeLoop_typed {cfg : Config} {lut : List (Bits × Symbol)} {bits : Bits} {r r' : DecodeRegs}
    (hlut : LutTyped cfg lut) (hs : SymsTyped cfg r.syms) (h : decodeLoop cfg lut bits r = .ok r') :
    SymsTyped cfg r'.syms := by
  induction bits generalizing r with
  | nil => cases h; exact hs
  | cons b bs ih =>
    unfold decodeLoop at h
    cases hl : Table.lookup bitsKey (r.cand ++ [b]) lut with
    | none => rw [hl] at h; exact ih (r := ⟨r.syms, r.cand ++ [b], r.bitpos + 1⟩) hs h
    | some x =>
      rw [hl] at h
      obtain ⟨syms, happend, h⟩ := bind_ok h
      obtain ⟨code, hmem⟩ := Table.exists_mem_of_lookup hl
      have hx := (Bool.and_eq_true_iff.1 (List.all_eq_true.1 hlut.entries _ hmem)).2
      exact ih (hs.append hx happend) h

theorem decodeBits_typed {cfg : Config} {lut : List (Bits × Symbol)} {bits : Bits} {r : DecodeRegs}
    (hlut : LutTyped cfg lut) (h : decodeBits cfg lut bits = .ok r) : SymsTyped cfg r.syms := by
  obtain ⟨r1, h1, h⟩ := bind_ok h
  split at h
  · cases h
    exact decodeLoop_typed (r := ⟨Buffer.empty, [], 0⟩) hlut (SymsTyped.empty cfg) h1
  · cases h

end Sys2Proof.Machine
end

section
/-! The invariant of the machine: at reset, and kept by every step (O14, O15). -/

namespace Sys2Proof.Machine

/-! ### The state -/

/-- DESERIALIZE's stack holds nodes of their type, with no more leaves than it has counted. -/
structure StackTyped (cfg : Config) (st : List Frame) (leaves : Nat) : Prop where
  node : stackOk cfg st = true
  leaves : stackLeaves st ≤ leaves

theorem StackTyped.nil (cfg : Config) (leaves : Nat) : StackTyped cfg [] leaves := ⟨rfl, Nat.zero_le _⟩

/-- The part of the invariant about the structures: each has its type and its canonical form (R22 to R33). -/
structure State.Typed (s : State) : Prop where
  src : s.src.wf s.cfg.srcCap = true
  dst : s.dst.wf s.cfg.dstCap = true
  syms : SymsTyped s.cfg s.syms
  tbuf : s.tbuf.wf s.cfg.tbufCap = true
  pay : s.pay.wf s.cfg.payCap = true
  freq : FreqTyped s.cfg s.freq
  tree : treeOk s.cfg s.tree = true
  ptab : PtabTyped s.cfg s.ptab
  lut : LutTyped s.cfg s.lut
  stack : StackTyped s.cfg s.stack s.leaves

/-- The part of the invariant about the control registers (R31, R34). -/
structure State.Ordered (s : State) : Prop where
  err_code : s.status = .err → ∃ k : ErrKind, s.err = k.code
  no_err : s.status ≠ .err → s.err = 0
  between_commands : s.status ≠ .busy → s.phase = .pIdle ∧ s.site = .command

theorem inv_iff (s : State) : s.Inv ↔ s.Typed ∧ s.Ordered := by
  constructor
  · intro h
    have hfreq := Bool.and_eq_true_iff.1 h.freq_ok
    have hptab := Bool.and_eq_true_iff.1 h.ptab_ok
    have hlut := Bool.and_eq_true_iff.1 h.lut_ok
    exact ⟨⟨h.src_wf, h.dst_wf, ⟨h.syms_wf, List.all_eq_true.1 h.syms_scalar⟩, h.tbuf_wf, h.pay_wf,
        ⟨h.freq_wf, hfreq.1, hfreq.2⟩, h.tree_ok, ⟨h.ptab_wf, hptab.1, hptab.2⟩, ⟨h.lut_wf, hlut.1, hlut.2⟩,
        ⟨h.stack_ok, h.stack_leaves⟩⟩, ⟨h.err_code, h.no_err, h.between_commands⟩⟩
  · rintro ⟨ht, ho⟩
    exact ⟨ht.src, ht.dst, ht.syms.wf, ht.tbuf, ht.pay, List.all_eq_true.2 ht.syms.scalar, ht.freq.wf,
      Bool.and_eq_true_iff.2 ⟨ht.freq.entries, ht.freq.cap⟩, ht.tree, ht.ptab.wf,
      Bool.and_eq_true_iff.2 ⟨ht.ptab.entries, ht.ptab.cap⟩, ht.lut.wf,
      Bool.and_eq_true_iff.2 ⟨ht.lut.entries, ht.lut.cap⟩, ho.err_code, ho.no_err, ho.between_commands, ht.stack.node,
      ht.stack.leaves⟩

/-! ### Units and composites keep the types -/

theorem clearWork_typed {s : State} (h : s.Typed) : (clearWork s).Typed :=
  { h with
    syms := .empty _, freq := .nil _ _, tree := rfl, ptab := .nil _ _, lut := .nil _ _, tbuf := Buffer.wf_empty _
    pay := Buffer.wf_empty _ }

theorem writeSpans_typed {f : BlobFields} {s t : State} (h : s.Typed) (hw : writeSpans f s = .ok t) : t.Typed := by
  obtain ⟨tb, p, htb, hp, rfl⟩ := writeSpans_ok hw
  exact { h with tbuf := Buffer.wf_appendAll (Buffer.wf_empty _) htb, pay := Buffer.wf_appendAll (Buffer.wf_empty _) hp }

/-- Each unit writes structures of their types. -/
theorem phaseBody_typed {p : Phase} {s t : State} (h : s.Typed) (hp : phaseBody p s = .ok t) : t.Typed := by
  cases p with
  | pIdle => cases hp; exact h
  | cAnalyze =>
    obtain ⟨r, hr, rfl⟩ := analyzeBody_ok hp
    obtain ⟨hs, hf⟩ := analyzeText_typed hr
    exact { h with syms := hs, freq := hf }
  | cBuild =>
    obtain ⟨b, c, hb, hc, rfl⟩ := buildBody_ok hp
    have htree := buildTree_typed h.freq hb
    obtain ⟨hptab, hlut⟩ := deriveTables_typed (Bool.and_eq_true_iff.1 htree).1 hc
    exact { h with tree := htree, ptab := hptab, lut := hlut }
  | cSerialize =>
    obtain ⟨root, b, -, hb, rfl⟩ := serializeBody_ok hp
    exact { h with tbuf := serNode_wf (Buffer.wf_empty _) hb }
  | cEncode =>
    obtain ⟨r, hr, rfl⟩ := encodeBody_ok hp
    exact { h with pay := encodeSyms_wf hr }
  | cAssemble =>
    obtain ⟨-, d, hd, rfl⟩ := assembleBody_ok hp
    exact { h with dst := Buffer.wf_appendAll (Buffer.wf_empty _) hd }
  | dParse =>
    obtain ⟨f, -, hw⟩ := parseBody_ok hp
    exact writeSpans_typed h hw
  | dDeserialize =>
    obtain ⟨root, r, hr, rfl⟩ := deserializeBody_ok hp
    exact { h with tree := deserializeBytes_typed hr, stack := .nil _ _ }
  | dDerive =>
    obtain ⟨root, c, hroot, hc, rfl⟩ := deriveBody_ok hp
    have htree := h.tree
    rw [hroot] at htree
    obtain ⟨hptab, hlut⟩ := deriveTables_typed (Bool.and_eq_true_iff.1 htree).1 hc
    exact { h with ptab := hptab, lut := hlut }
  | dDecode =>
    rcases decodeBody_ok hp with ⟨-, rfl⟩ | ⟨-, -, r, hr, rfl⟩
    · exact { h with syms := .empty _ }
    · exact { h with syms := decodeBits_typed h.lut hr }
  | dEmit =>
    obtain ⟨d, hd, rfl⟩ := emitBody_ok hp
    exact { h with dst := Buffer.wf_appendAll (Buffer.wf_empty _) hd }

theorem advance_typed {s t : State} (h : s.Typed) (ha : advance s = .ok t) : t.Typed := by
  obtain ⟨u, hu, rfl⟩ := advance_ok ha
  exact { phaseBody_typed h hu with }

theorem runPhases_typed {n : Nat} {s t : State} (h : s.Typed) (hr : runPhases n s = .ok t) : t.Typed := by
  induction n generalizing s with
  | zero => cases hr; exact h
  | succ n ih =>
    by_cases hp : s.phase = .pIdle
    · rw [runPhases_of_idle hp] at hr
      cases hr
      exact h
    · cases ha : advance s with
      | error k => rw [runPhases_succ_error hp ha] at hr; cases hr
      | ok u => rw [runPhases_succ_ok hp ha] at hr; exact ih (advance_typed h ha) hr

theorem beginComposite_typed {s : State} (h : s.Typed) (p : Phase) : (beginComposite p s).Typed :=
  { clearWork_typed h with dst := Buffer.wf_empty _ }

theorem endComposite_typed {s : State} (h : s.Typed) : (endComposite s).Typed := { clearWork_typed h with }

theorem commandBody_typed {i : Instr} (hi : i.site = .command) {s t : State} (h : s.Typed)
    (hb : commandBody i s = .ok t) : t.Typed := by
  rcases commandBody_cases hi with ⟨p, hp⟩ | ⟨p, hp⟩ | hc | hc
  · exact phaseBody_typed h (hp s ▸ hb)
  · obtain ⟨u, hu, rfl⟩ := compositeBody_ok (hp s ▸ hb)
    exact endComposite_typed (runPhases_typed (beginComposite_typed h p) hu)
  · rw [hc] at hb
    cases hb
    exact { clearWork_typed h with dst := Buffer.wf_empty _ }
  · rw [hc] at hb
    cases hb

/-! ### Ends keep the types -/

theorem emptyOutputs_typed {s : State} (h : s.Typed) (i : Instr) : (emptyOutputs i s).Typed := by
  cases i with
  | analyze => exact { h with syms := .empty _, freq := .nil _ _ }
  | build => exact { h with tree := rfl, ptab := .nil _ _, lut := .nil _ _ }
  | derive => exact { h with ptab := .nil _ _, lut := .nil _ _ }
  | serialize => exact { h with tbuf := Buffer.wf_empty _ }
  | deserialize | nodeInternal | nodeLeaf _ | nodeIllegal _ => exact { h with tree := rfl }
  | encode => exact { h with pay := Buffer.wf_empty _ }
  | decode => exact { h with syms := .empty _ }
  | assemble | emit => exact { h with dst := Buffer.wf_empty _ }
  | parse | treeStart | treeEnd | validBitsHeader _ => exact { h with tbuf := Buffer.wf_empty _, pay := Buffer.wf_empty _ }
  | compress | decompress | clear => exact { clearWork_typed h with dst := Buffer.wf_empty _ }
  | illegal _ => exact h

theorem succeed_typed {s : State} (h : s.Typed) : s.succeed.Typed := { h with }

theorem errorEntry_typed {s : State} (h : s.Typed) (i : Instr) (k : ErrKind) : (errorEntry i k s).Typed :=
  { emptyOutputs_typed h i with }

theorem raiseRunning_typed {s : State} (h : s.Typed) (k : ErrKind) : (raiseRunning k s).Typed :=
  { errorEntry_typed h (runningCommand s) k with }

theorem enterTreeWalk_typed {s : State} (h : s.Typed) : (enterTreeWalk s).Typed :=
  { h with tree := rfl, stack := .nil _ _ }

theorem endWalk_typed {s : State} (h : s.Typed) : (endWalk s).Typed := by
  unfold endWalk
  split
  · exact { h with }
  · exact enterTreeWalk_typed { h with }
  · exact { h with }

/-! ### The tokens -/

/-- What a complete subtree makes of the stack (R181): no leaf is lost, and what is made is of its type. -/
theorem closeNode_typed {cfg : Config} {st : List Frame} {n : Node} {leaves : Nat} (hst : StackTyped cfg st leaves)
    (hn : nodeOk cfg n = true) :
    (∀ st', closeNode st n = (st', none) → StackTyped cfg st' (leaves + n.leafCount))
      ∧ ∀ st' root, closeNode st n = (st', some root) →
          nodeOk cfg root = true ∧ root.leafCount ≤ leaves + n.leafCount := by
  induction st generalizing n leaves with
  | nil =>
    refine ⟨fun st' h => (by cases h), fun st' root h => ?_⟩
    cases h
    exact ⟨hn, Nat.le_add_left _ _⟩
  | cons f rest ih =>
    obtain ⟨hnode, hleaves⟩ := hst
    rw [stackOk, List.all_cons, Bool.and_eq_true] at hnode
    cases f with
    | left =>
      rw [stackLeaves] at hleaves
      refine ⟨fun st' h => ?_, fun st' root h => (by cases h)⟩
      cases h
      refine ⟨?_, ?_⟩
      · rw [stackOk, List.all_cons, Bool.and_eq_true]
        exact ⟨hn, hnode.2⟩
      · rw [stackLeaves]
        omega
    | right l =>
      rw [stackLeaves] at hleaves
      have hinternal : nodeOk cfg (.internal 0 l n) = true := by
        have hl : nodeOk cfg l = true := hnode.1
        simp [nodeOk, countOk_zero, hl, hn]
      have hrest : StackTyped cfg rest (leaves - l.leafCount) := ⟨hnode.2, by omega⟩
      have hsum : leaves - l.leafCount + (Node.internal 0 l n).leafCount = leaves + n.leafCount := by
        rw [Node.leafCount]
        omega
      have h := ih hrest hinternal
      rw [hsum] at h
      exact h

theorem addLeaf_typed {s : State} {sym : Symbol} (h : s.Typed) (hsym : isScalar sym = true)
    (hcap : withinCap s.cfg.nMax (s.leaves + 1) = true) : (addLeaf sym s).Typed := by
  have hleaf : nodeOk s.cfg (.leaf sym 0) = true := by simp [nodeOk, hsym, countOk_zero]
  obtain ⟨hopen, hroot⟩ := closeNode_typed h.stack hleaf
  unfold addLeaf
  split
  · rename_i st' hc
    exact { h with stack := hopen st' hc }
  · rename_i st' root hc
    obtain ⟨hn, hcount⟩ := hroot st' root hc
    have htree : treeOk s.cfg (some root) = true := by
      rw [treeOk, hn, withinCap_mono hcount hcap]
      rfl
    exact endWalk_typed { h with tree := htree, stack := .nil _ _ }

theorem execTreeEnd_typed {s t : State} (h : s.Typed) (he : execTreeEnd s = .next t) : t.Typed := by
  unfold execTreeEnd at he
  split at he
  · cases he
    exact raiseRunning_typed h _
  · split at he
    · cases he
      exact raiseRunning_typed h _
    · split at he
      · cases he
        exact raiseRunning_typed h _
      · rename_i u hu
        cases he
        exact endWalk_typed (writeSpans_typed h hu)

/-- Every well-formed instruction keeps the types. -/
theorem exec_typed {i : Instr} (hwf : i.wf = true) {s t : State} (h : s.Typed) (he : exec i s = .next t) : t.Typed := by
  by_cases hi : i.site = .command
  · rw [exec_command hi] at he
    cases he
    cases hb : commandBody i s with
    | error k => exact errorEntry_typed h i k
    | ok u => exact succeed_typed (commandBody_typed hi h hb)
  · cases i with
    | nodeInternal =>
      simp only [exec, execNodeInternal] at he
      split at he <;> cases he
      · exact { h with stack := ⟨h.stack.node, h.stack.leaves⟩ }
      · exact raiseRunning_typed h _
    | nodeLeaf sym =>
      simp only [exec, execNodeLeaf] at he
      split at he <;> cases he
      · exact addLeaf_typed h hwf ‹_›
      · exact raiseRunning_typed h _
    | nodeIllegal marker => cases he; exact raiseRunning_typed (s := { s with cursor := s.cursor + 1 }) { h with } _
    | treeStart => cases he; exact { h with }
    | treeEnd => exact execTreeEnd_typed h he
    | validBitsHeader vb =>
      simp only [exec, execValidBitsHeader] at he
      split at he <;> cases he
      · exact { h with }
      · exact raiseRunning_typed h _
    | _ => exact absurd rfl hi

/-! ### The control registers -/

theorem ordered_of_busy {s : State} (hb : s.status = .busy) (he : s.err = 0) : s.Ordered :=
  ⟨fun h => absurd (hb.symm.trans h) (by decide), fun _ => he, fun h => absurd hb h⟩

theorem succeed_ordered {s : State} (hp : s.phase = .pIdle) (hs : s.site = .command) : s.succeed.Ordered :=
  ⟨fun h => absurd h (by simp), fun _ => rfl, fun _ => ⟨hp, hs⟩⟩

theorem errorEntry_ordered {s : State} (hp : s.phase = .pIdle) (hs : s.site = .command) (i : Instr) (k : ErrKind) :
    (errorEntry i k s).Ordered := by
  refine ⟨fun _ => ⟨k, rfl⟩, fun h => absurd rfl h, fun _ => ?_⟩
  cases i with
  | compress | decompress => exact ⟨rfl, rfl⟩
  | _ => exact ⟨hp, hs⟩

theorem raiseRunning_ordered (k : ErrKind) (s : State) : (raiseRunning k s).Ordered :=
  ⟨fun _ => ⟨k, rfl⟩, fun h => absurd rfl h, fun _ => ⟨rfl, rfl⟩⟩

theorem endWalk_ordered {s : State} (hb : s.status = .busy) (he : s.err = 0) : (endWalk s).Ordered := by
  unfold endWalk
  split
  · rename_i hp
    exact succeed_ordered hp rfl
  · exact ordered_of_busy hb he
  · exact ordered_of_busy hb he

theorem addLeaf_ordered {s : State} (hb : s.status = .busy) (he : s.err = 0) (sym : Symbol) :
    (addLeaf sym s).Ordered := by
  unfold addLeaf
  split
  · exact ordered_of_busy hb he
  · exact endWalk_ordered hb he

theorem execTreeEnd_ordered {s t : State} (hb : s.status = .busy) (he : s.err = 0) (h : execTreeEnd s = .next t) :
    t.Ordered := by
  unfold execTreeEnd at h
  split at h
  · cases h
    exact raiseRunning_ordered _ s
  · split at h
    · cases h
      exact raiseRunning_ordered _ s
    · split at h
      · cases h
        exact raiseRunning_ordered _ s
      · rename_i u hu
        cases h
        obtain ⟨-, -, hstatus, herr⟩ := control_eq_iff.1 (writeSpans_control hu)
        exact endWalk_ordered (hstatus.trans hb) (herr.trans he)

theorem commandBody_phase {i : Instr} (hi : i.site = .command) {s t : State} (h : commandBody i s = .ok t)
    (hp : s.phase = .pIdle) : t.phase = .pIdle := by
  rcases commandBody_cases hi with ⟨p, hb⟩ | ⟨p, hb⟩ | hc | hc
  · exact (phaseBody_control (hb s ▸ h)).2.trans hp
  · obtain ⟨u, -, rfl⟩ := compositeBody_ok (hb s ▸ h)
    rfl
  · rw [hc] at h
    cases h
    rfl
  · rw [hc] at h
    cases h

/-- An instruction of a busy block leaves STATUS, ERR, PHASE and SITE in order; a command runs with nothing under way. -/
theorem exec_ordered {i : Instr} {s t : State} (hb : s.status = .busy) (he : s.err = 0)
    (hidle : i.site = .command → s.phase = .pIdle ∧ s.site = .command) (h : exec i s = .next t) : t.Ordered := by
  by_cases hi : i.site = .command
  · obtain ⟨hp, hs⟩ := hidle hi
    rw [exec_command hi] at h
    cases h
    cases hc : commandBody i s with
    | error k => exact errorEntry_ordered hp hs i k
    | ok u =>
      obtain ⟨-, hsite, -, -⟩ := control_eq_iff.1 (commandBody_control hi hc)
      exact succeed_ordered (commandBody_phase hi hc hp) (hsite.trans hs)
  · cases i with
    | nodeInternal =>
      simp only [exec, execNodeInternal] at h
      split at h <;> cases h
      · exact ordered_of_busy hb he
      · exact raiseRunning_ordered _ s
    | nodeLeaf sym =>
      simp only [exec, execNodeLeaf] at h
      split at h <;> cases h
      · exact addLeaf_ordered hb he sym
      · exact raiseRunning_ordered _ s
    | nodeIllegal marker => cases h; exact raiseRunning_ordered _ _
    | treeStart => cases h; exact ordered_of_busy hb he
    | treeEnd => exact execTreeEnd_ordered hb he h
    | validBitsHeader vb =>
      simp only [exec, execValidBitsHeader] at h
      split at h <;> cases h
      · exact ordered_of_busy hb he
      · exact raiseRunning_ordered _ s
    | _ => exact absurd rfl hi

end Sys2Proof.Machine
end

section
/-! The invariant at reset and after every step (O14, O15). -/

namespace Sys2Proof.Machine

/-! ### Fetching -/

theorem decode_ok {site : Site} {bytes rest : List Byte} {i : Instr} (h : decode site bytes = .ok (i, rest)) :
    i.site = site ∧ i.wf = true := by
  cases site with
  | command =>
    cases bytes with
    | nil => cases h
    | cons c rest => cases h; exact ⟨decodeCommand_site c, decodeCommand_wf c⟩
  | treeToken =>
    obtain ⟨-, rfl | ⟨m, hm, rfl⟩ | ⟨sym, rfl, hsym, -⟩⟩ := decodeTreeToken_ok h
    · exact ⟨rfl, rfl⟩
    · exact ⟨rfl, by simpa [Instr.wf] using hm⟩
    · exact ⟨rfl, hsym⟩
  | blobHeader =>
    cases bytes with
    | nil => cases h
    | cons b rest =>
      simp only [decode, decodeHeader] at h
      split at h
      · rename_i hv
        cases h
        exact ⟨rfl, by simp [Instr.wf, hv]⟩
      · cases h
  | blobStart =>
    cases bytes with
    | nil => cases h
    | cons b rest =>
      simp only [decode, decodeTreeStart] at h
      split at h <;> cases h
      exact ⟨rfl, rfl⟩
  | blobEnd =>
    match bytes with
    | [] => cases h
    | [_] => cases h
    | b :: c :: rest =>
      simp only [decode, decodeTreeEnd] at h
      split at h <;> cases h
      exact ⟨rfl, rfl⟩

/-- What is fetched is a well-formed instruction of the decoder in use. -/
theorem fetch_site_wf {s t : State} {i : Instr} (h : fetch s = .ok (i, t)) : i.site = s.site ∧ i.wf = true := by
  obtain ⟨hseek, htok⟩ := fetch_ok h
  obtain ⟨k, rfl⟩ := seek_ok hseek
  obtain ⟨rest, hd⟩ := tokenAt_ok htok
  exact decode_ok hd

/-! ### The block's move -/

theorem raiseRunning_inv {s : State} (h : s.Typed) (k : ErrKind) : (raiseRunning k s).Inv :=
  (inv_iff _).2 ⟨raiseRunning_typed h k, raiseRunning_ordered k s⟩

theorem stepPhase_inv {s t : State} (h : s.Inv) (hb : s.status = .busy) (hs : s.site = .command)
    (hstep : stepPhase s = .next t) : t.Inv := by
  obtain ⟨htyped, hord⟩ := (inv_iff s).1 h
  unfold stepPhase at hstep
  cases ha : advance s with
  | error k =>
    rw [ha] at hstep
    cases hstep
    exact raiseRunning_inv htyped k
  | ok u =>
    simp only [ha] at hstep
    have hu := advance_typed htyped ha
    obtain ⟨-, hsite, hstatus, herr⟩ := control_eq_iff.1 (advance_control ha).1
    split at hstep
    · cases hstep
      exact (inv_iff _).2 ⟨succeed_typed (endComposite_typed hu), succeed_ordered rfl (hsite.trans hs)⟩
    · cases hstep
      exact (inv_iff _).2 ⟨hu, ordered_of_busy (hstatus.trans hb) (herr.trans (hord.no_err (by simp [hb])))⟩

theorem blockMove_inv {s t : State} (h : s.Inv) (hm : blockMove s = .next t) : t.Inv := by
  obtain ⟨htyped, hord⟩ := (inv_iff s).1 h
  rcases blockMove_next hm with ⟨-, rfl⟩ | ⟨hb, hs, -, hp⟩ | ⟨hb, hidle, ⟨k, -, rfl⟩ | ⟨i, u, hf, he⟩⟩
  · exact h
  · exact stepPhase_inv h hb hs hp
  · exact raiseRunning_inv htyped k
  · obtain ⟨hsite, hwf⟩ := fetch_site_wf hf
    obtain ⟨k, rfl⟩ := seek_ok (fetch_ok hf).1
    have herr : s.err = 0 := hord.no_err (by simp [hb])
    have hcommand : i.site = .command → s.phase = .pIdle ∧ s.site = .command := fun hi =>
      have hs := hsite.symm.trans hi
      ⟨by_contra fun hp => hidle ⟨hs, hp⟩, hs⟩
    exact (inv_iff _).2 ⟨exec_typed (s := { s with cursor := s.cursor + k }) hwf { htyped with } he,
      exec_ordered (s := { s with cursor := s.cursor + k }) hb herr hcommand he⟩

/-! ### The host's move -/

theorem setHostBuf_typed {s : State} (h : s.Typed) (b : HostBuf) {v : Buffer Byte}
    (hv : v.wf (bufCap s.cfg b) = true) : (s.setHostBuf b v).Typed := by
  cases b with
  | src => exact { h with src := hv }
  | tbuf => exact { h with tbuf := hv }
  | pay => exact { h with pay := hv }

theorem hostBuf_wf {s : State} (h : s.Typed) (b : HostBuf) : (s.hostBuf b).wf (bufCap s.cfg b) = true := by
  cases b with
  | src => exact h.src
  | tbuf => exact h.tbuf
  | pay => exact h.pay

/-- A host write that keeps the types keeps them (R40). -/
theorem applyWrite_typed {a : HostAction} {s : State} (h : s.Typed) (hk : writeKeepsType a s = true) :
    (applyWrite a s).Typed := by
  cases a with
  | load b bytes => exact setHostBuf_typed h b (Buffer.wf_ofList hk)
  | writeByte b i v => exact setHostBuf_typed h b (Buffer.wf_writeAt (hostBuf_wf h b) hk)
  | setLen b n => exact { setHostBuf_typed h b (Buffer.wf_setLen _ (hostBuf_wf h b) hk) with }
  | setSyms l =>
    obtain ⟨hl, hcap⟩ := Bool.and_eq_true_iff.1 hk
    exact { h with syms := .ofList hl hcap }
  | writeSym i v =>
    obtain ⟨hv, hi⟩ := Bool.and_eq_true_iff.1 hk
    exact { h with syms := h.syms.writeAt hv hi }
  | setSymsLen n => exact { h with syms := h.syms.setLen hk }
  | setFreq m =>
    obtain ⟨hm, hcap⟩ := Bool.and_eq_true_iff.1 (Bool.and_eq_true_iff.1 hk).2
    exact { h with freq := .ofEntries hm hcap }
  | setTree t => exact { h with tree := hk }
  | setPtab m =>
    obtain ⟨hm, hcap⟩ := Bool.and_eq_true_iff.1 (Bool.and_eq_true_iff.1 hk).2
    exact { h with ptab := .ofEntries hm hcap }
  | setLut m =>
    obtain ⟨hm, hcap⟩ := Bool.and_eq_true_iff.1 (Bool.and_eq_true_iff.1 hk).2
    exact { h with lut := .ofEntries hm hcap }
  | setValidBits v => exact { h with }
  | _ => exact h

theorem ordered_congr {s t : State} (h : s.Ordered) (hstatus : t.status = s.status) (herr : t.err = s.err)
    (hphase : t.phase = s.phase) (hsite : t.site = s.site) : t.Ordered := by
  obtain ⟨h1, h2, h3⟩ := h
  exact ⟨by rwa [hstatus, herr], by rwa [hstatus, herr], by rwa [hstatus, hphase, hsite]⟩

theorem applyWrite_ordered (a : HostAction) {s : State} (h : s.Ordered) : (applyWrite a s).Ordered := by
  have hset : ∀ (b : HostBuf) (v : Buffer Byte), (s.setHostBuf b v).Ordered := fun b v => by
    cases b <;> exact ordered_congr h rfl rfl rfl rfl
  cases a with
  | load b bytes => exact hset b _
  | writeByte b i v => exact hset b _
  | setLen b n => exact ordered_congr (hset b _) rfl rfl rfl rfl
  | _ => exact ordered_congr h rfl rfl rfl rfl

theorem writeCommand_inv {s : State} (h : s.Inv) (code : Byte) : (writeCommand code s).Inv := by
  unfold writeCommand
  split
  · exact h
  · obtain ⟨htyped, -⟩ := (inv_iff s).1 h
    exact (inv_iff _).2 ⟨{ htyped with }, ordered_of_busy rfl rfl⟩

theorem afterReset_inv (s : State) : s.afterReset.Inv :=
  (inv_iff _).2 ⟨⟨Buffer.wf_empty _, Buffer.wf_empty _, .empty _, Buffer.wf_empty _, Buffer.wf_empty _, .nil _ _, rfl,
    .nil _ _, .nil _ _, .nil _ _⟩, ⟨fun h => (by cases h), fun _ => rfl, fun _ => ⟨rfl, rfl⟩⟩⟩

theorem hostAct_inv {a : HostAction} {s t : State} (h : s.Inv) (ha : hostAct a s = .next t) : t.Inv := by
  rcases hostAct_next ha with rfl | ⟨code, -, rfl⟩ | ⟨-, rfl⟩ | ⟨-, hk, rfl⟩
  · exact h
  · exact writeCommand_inv h code
  · exact afterReset_inv s
  · obtain ⟨htyped, hord⟩ := (inv_iff s).1 h
    exact (inv_iff _).2 ⟨applyWrite_typed htyped hk, applyWrite_ordered a hord⟩

/-- The invariant says nothing of the host's script. -/
theorem inv_setHost {s : State} (h : s.Inv) (rest : List HostAction) : ({ s with host := rest } : State).Inv := { h with }

theorem step_inv {s t : State} (h : s.Inv) (hs : step s = .next t) : t.Inv := by
  rcases step_next hs with ⟨-, hb⟩ | ⟨rest, -, -, rfl⟩ | ⟨a, rest, -, ha⟩
  · exact blockMove_inv h hb
  · exact inv_setHost h rest
  · exact hostAct_inv (inv_setHost h rest) ha

/-- Settles O14: the state after reset is what the reset input makes of any state of the default parameters. -/
theorem resetMeetsInvariant : Obligations.ResetMeetsInvariant := afterReset_inv State.reset

/-- Settles O15: each operation of a unit, each token and each host write keeps the types, and each end of a command the
control registers in order. -/
theorem stepKeepsInvariant : Obligations.StepKeepsInvariant := fun _ _ => step_inv

end Sys2Proof.Machine
end

section
/-! Memory (20_memory.md): what a write of a length register exposes and forgets, and the order of the payload's bits
(O12, O41). -/

namespace Sys2Proof.Machine

/-! ### Writes of a length register (10_state.md R40, log entry 6) -/

section
variable {α : Type}

theorem Table.lookup_filter_lt (n j : Nat) (m : List (Nat × α)) :
    Table.lookup id j (m.filter fun e => decide (e.1 < n)) = if j < n then Table.lookup id j m else none := by
  induction m with
  | nil => simp
  | cons e rest ih =>
    obtain ⟨i, v⟩ := e
    by_cases hji : j = i
    · subst hji
      by_cases hn : j < n <;> simp [Table.lookup, hn, ih]
    · by_cases hn : i < n <;> simp [Table.lookup, hji, hn, ih]

@[simp] theorem Buffer.len_setLen (fresh : Nat → α) (b : Buffer α) (n : Nat) : (b.setLen fresh n).len = n := by
  unfold Buffer.setLen
  split <;> rfl

/-- The cells at or beyond a lowered length are forgotten. -/
theorem Buffer.lookup_setLen_lowered {fresh : Nat → α} {b : Buffer α} {n j : Nat} (hn : n < b.len) :
    Table.lookup id j (b.setLen fresh n).cells = if j < n then Table.lookup id j b.cells else none := by
  rw [Buffer.setLen, if_pos hn]
  exact Table.lookup_filter_lt n j b.cells

/-- Below a raised length, an index with no value has its fresh one. -/
theorem Buffer.lookup_setLen_raised {fresh : Nat → α} {b : Buffer α} {n j : Nat} (hn : b.len ≤ n) (hj : j < n) :
    Table.lookup id j (b.setLen fresh n).cells = some ((Table.lookup id j b.cells).getD (fresh j)) := by
  rw [Buffer.setLen, if_neg (Nat.not_lt.2 hn)]
  exact (Buffer.lookup_fill _ _ _ _).trans (if_pos (List.mem_range.2 hj))

/-- The elements below both lengths stay. -/
theorem Buffer.read_setLen_below {cap : Option Nat} {fresh : Nat → α} {b : Buffer α} {n j : Nat} (h : b.wf cap = true)
    (hj : j < b.len) (hn : j < n) : (b.setLen fresh n).read j = b.read j := by
  rw [Buffer.read, Buffer.read, Buffer.len_setLen, if_pos hn, if_pos hj]
  rcases Nat.lt_or_ge n b.len with hlow | hraise
  · rw [Buffer.lookup_setLen_lowered hlow, if_pos hn]
  · obtain ⟨v, hv⟩ := Buffer.listed_below h hj
    obtain ⟨w, hw⟩ := Option.isSome_iff_exists.1 (Table.lookup_isSome_of_mem (List.mem_map_of_mem (f := Prod.fst) hv))
    rw [Buffer.lookup_setLen_raised hraise hn, hw, Option.getD_some]

/-- An exposed element is the one written there, or the fresh one where none was. -/
theorem Buffer.read_setLen_exposed {fresh : Nat → α} {b : Buffer α} {n j : Nat} (hj : b.len ≤ j) (hn : j < n) :
    (∃ v, Table.lookup id j b.cells = some v ∧ (b.setLen fresh n).read j = some v)
      ∨ (Table.lookup id j b.cells = none ∧ (b.setLen fresh n).read j = some (fresh j)) := by
  have hread : (b.setLen fresh n).read j = some ((Table.lookup id j b.cells).getD (fresh j)) := by
    rw [Buffer.read, Buffer.len_setLen, if_pos hn, Buffer.lookup_setLen_raised (by omega) hn]
  cases hl : Table.lookup id j b.cells with
  | none => exact .inr ⟨rfl, by rw [hread, hl, Option.getD_none]⟩
  | some v => exact .inl ⟨v, rfl, by rw [hread, hl, Option.getD_some]⟩

/-- What a length register's write does to the elements, the free values being numbered from `k`. -/
theorem Buffer.setLen_exposes_and_forgets {cap : Option Nat} {b : Buffer α} (h : b.wf cap = true) (free : Nat → α)
    (k n : Nat) :
    let nb := b.setLen (fun i => free (k + i)) n
    nb.len = n ∧ (∀ j, j < b.len → j < n → nb.read j = b.read j)
      ∧ (∀ j, b.len ≤ j → j < n →
          ((∃ v, Table.lookup id j b.cells = some v ∧ nb.read j = some v)
            ∨ (Table.lookup id j b.cells = none ∧ ∃ q, nb.read j = some (free q))))
      ∧ (n < b.len → ∀ j, n ≤ j → Table.lookup id j nb.cells = none) := by
  refine ⟨Buffer.len_setLen _ _ _, fun j hj hn => Buffer.read_setLen_below h hj hn, fun j hj hn => ?_,
    fun hn j hj => ?_⟩
  · exact (Buffer.read_setLen_exposed hj hn).imp_right fun ⟨hnone, hread⟩ => ⟨hnone, k + j, hread⟩
  · rw [Buffer.lookup_setLen_lowered hn, if_neg (Nat.not_lt.2 hj)]

end

/-- Settles O12: one account of `Buffer.setLen` serves the byte buffers and SYMS. -/
theorem lengthWritesExposeAndForget : Obligations.LengthWritesExposeAndForget := by
  refine ⟨fun s b n rest hh hb hwf hk => ⟨_, s.freeNext + n, ?_,
      Buffer.setLen_exposes_and_forgets hwf Config.freeByte s.freeNext n⟩,
    fun s n rest hh hb hwf hk => ⟨_, s.freeNext + n, ?_,
      Buffer.setLen_exposes_and_forgets hwf Config.freeSymbol s.freeNext n⟩⟩
  · rw [step_write_kept hh hb hk rfl]
    cases b <;> rfl
  · exact step_write_kept hh hb hk rfl

/-! ### The payload's bits (R64, 30_encoding.md R116) -/

@[simp] theorem byteBits_length (b : Byte) : (byteBits b).length = 8 := rfl

theorem byteBits_getElem? (b : Byte) {k : Nat} (hk : k < 8) : (byteBits b)[k]? = some (b.getLsbD (7 - k)) := by
  interval_cases k <;> rfl

theorem payloadBits_getElem? {bytes : List Byte} {k : Nat} (hk : k < 8 * bytes.length) :
    (payloadBits bytes)[k]? = (bytes[k / 8]?).map (fun b => b.getLsbD (7 - k % 8)) := by
  induction bytes generalizing k with
  | nil => simp at hk
  | cons b rest ih =>
    have hcons : payloadBits (b :: rest) = byteBits b ++ payloadBits rest := rfl
    rw [hcons]
    rcases Nat.lt_or_ge k 8 with hlt | hge
    · rw [List.getElem?_append_left (by simpa using hlt), byteBits_getElem? b hlt, Nat.div_eq_of_lt hlt,
        Nat.mod_eq_of_lt hlt]
      rfl
    · obtain ⟨i, rfl⟩ := Nat.exists_eq_add_of_le' hge
      have hi : i < 8 * rest.length := by rw [List.length_cons] at hk; omega
      rw [List.getElem?_append_right (by simp), byteBits_length, Nat.add_sub_cancel, ih hi,
        Nat.add_div_right i (by decide), Nat.add_mod_right, List.getElem?_cons_succ]

/-- VALID_BITS is the number of code bits in the last byte. -/
theorem validBitsOf_toNat (n : Nat) : (validBitsOf n).toNat = if n % 8 = 0 then 8 else n % 8 := by
  unfold validBitsOf
  split
  · rfl
  · rw [BitVec.toNat_ofNat, Nat.mod_eq_of_lt (by omega)]

theorem usableBits_validBitsOf {n : Nat} (hn : 1 ≤ n) : usableBits ((n + 7) / 8) (validBitsOf n) = n := by
  rw [usableBits, validBitsOf_toNat]
  split <;> omega

/-- Settles O41, by induction on the payload's bytes; the usable count is arithmetic. -/
theorem payloadBitOrder : Obligations.PayloadBitOrder :=
  ⟨fun _ _ => payloadBits_getElem?, fun _ => usableBits_validBitsOf⟩

end Sys2Proof.Machine
end

section
/-! The text encoding: its bytes in numbers, and that Utf8Decode accepts exactly the encodings of scalar values
(O4, O5). -/

namespace Sys2Proof

/-! ### The bytes of a symbol in numbers (30_encoding.md R103) -/

/-- Under a mark whose low `len` bits are 0, a byte is the sum of the mark and the symbol's bits. -/
theorem utf8Byte_toNat {mark : Byte} {lo len : Nat} (s : Symbol) (hmark : mark.toNat % 2 ^ len = 0) (hlen : len ≤ 6) :
    (utf8Byte mark lo len s).toNat = mark.toNat + s.toNat / 2 ^ lo % 2 ^ len := by
  have hpow : 2 ^ len ≤ 2 ^ 6 := Nat.pow_le_pow_right (by decide) hlen
  have hfield : s.toNat / 2 ^ lo % 2 ^ len < 2 ^ len := Nat.mod_lt _ (Nat.two_pow_pos len)
  have hor := Nat.two_pow_add_eq_or_of_lt hfield (mark.toNat / 2 ^ len)
  rw [Nat.mul_div_cancel' (Nat.dvd_of_mod_eq_zero hmark)] at hor
  rw [utf8Byte, BitVec.toNat_or, BitVec.toNat_setWidth, BitVec.extractLsb'_toNat, Nat.shiftRight_eq_div_pow,
    Nat.mod_eq_of_lt (by omega : s.toNat / 2 ^ lo % 2 ^ len < 2 ^ 8), hor]

/-- The byte with the six bits of place `k`, counted from the least significant: a continuation byte. -/
def utf8Cont (k : Nat) (s : Symbol) : Byte := utf8Byte 0x80 (6 * k) 6 s

theorem utf8Cont_toNat (k : Nat) (s : Symbol) : (utf8Cont k s).toNat = 0x80 + s.toNat / 64 ^ k % 64 := by
  rw [utf8Cont, utf8Byte_toNat s rfl (Nat.le_refl 6), Nat.pow_mul]
  rfl

/-- The last `k` continuation bytes of a symbol. -/
def utf8Conts (s : Symbol) : Nat → List Byte
  | 0 => []
  | k + 1 => utf8Cont k s :: utf8Conts s k

theorem utf8Encode_one {s : Symbol} (h : s.toNat ≤ 0x7F) : utf8Encode s = [s.setWidth 8] := by
  rw [utf8Encode, if_pos h]

theorem utf8Encode_two {s : Symbol} (h : 0x80 ≤ s.toNat) (h2 : s.toNat ≤ 0x7FF) :
    utf8Encode s = utf8Byte 0xC0 6 5 s :: utf8Conts s 1 := by
  rw [utf8Encode, if_neg (by omega), if_pos h2]
  rfl

theorem utf8Encode_three {s : Symbol} (h : 0x800 ≤ s.toNat) (h2 : s.toNat ≤ 0xFFFF) :
    utf8Encode s = utf8Byte 0xE0 12 4 s :: utf8Conts s 2 := by
  rw [utf8Encode, if_neg (by omega), if_neg (by omega), if_pos h2]
  rfl

theorem utf8Encode_four {s : Symbol} (h : 0x10000 ≤ s.toNat) :
    utf8Encode s = utf8Byte 0xF0 18 3 s :: utf8Conts s 3 := by
  rw [utf8Encode, if_neg (by omega), if_neg (by omega), if_neg (by omega)]
  rfl

theorem utf8Lead_two_toNat {s : Symbol} (h : s.toNat ≤ 0x7FF) :
    (utf8Byte 0xC0 6 5 s).toNat = 0xC0 + s.toNat / 64 := by
  rw [utf8Byte_toNat s rfl (by decide), Nat.mod_eq_of_lt (by omega)]
  rfl

theorem utf8Lead_three_toNat {s : Symbol} (h : s.toNat ≤ 0xFFFF) :
    (utf8Byte 0xE0 12 4 s).toNat = 0xE0 + s.toNat / 64 ^ 2 := by
  rw [utf8Byte_toNat s rfl (by decide), Nat.mod_eq_of_lt (by omega)]
  rfl

theorem utf8Lead_four_toNat (s : Symbol) : (utf8Byte 0xF0 18 3 s).toNat = 0xF0 + s.toNat / 64 ^ 3 := by
  rw [utf8Byte_toNat s rfl (by decide), Nat.mod_eq_of_lt (by omega)]
  rfl

/-! ### The loop over the continuation bytes (R101) -/

/-- The symbol `s` has the payload bits `v` above its last `k` continuation bytes, the first of which is in `lo..hi`. -/
def utf8Fits (k : Nat) (lo hi : Byte) (v s : Symbol) : Prop :=
  v.toNat = s.toNat / 64 ^ k ∧ ∀ c ∈ (utf8Conts s k).head?, lo.toNat ≤ c.toNat ∧ c.toNat ≤ hi.toNat

theorem utf8Fits_zero {lo hi : Byte} {v s : Symbol} : utf8Fits 0 lo hi v s ↔ v = s := by
  simp [utf8Fits, utf8Conts, BitVec.toNat_inj]

theorem utf8Fits_succ {k : Nat} {lo hi : Byte} {v s : Symbol} : utf8Fits (k + 1) lo hi v s ↔
    v.toNat = s.toNat / 64 ^ (k + 1) ∧ lo.toNat ≤ (utf8Cont k s).toNat ∧ (utf8Cont k s).toNat ≤ hi.toNat := by
  simp [utf8Fits, utf8Conts]

/-- Any continuation byte is in the full range. -/
theorem utf8Fits_full {k : Nat} {v s : Symbol} : utf8Fits k 0x80 0xBF v s ↔ v.toNat = s.toNat / 64 ^ k := by
  cases k with
  | zero => rw [utf8Fits_zero, pow_zero, Nat.div_one, BitVec.toNat_inj]
  | succ k =>
    rw [utf8Fits_succ, utf8Cont_toNat]
    have hmod := Nat.mod_lt (s.toNat / 64 ^ k) (by decide : 0 < 64)
    exact and_iff_left ⟨Nat.le_add_right _ _, by show _ ≤ 0xBF; omega⟩

/-- One turn of the loop: pushing a byte in range onto the payload bits reads the next continuation byte. -/
theorem utf8Fits_push {k : Nat} {lo hi : Byte} {v s : Symbol} {c : Byte} (hlo : 0x80 ≤ lo.toNat) (hhi : hi.toNat ≤ 0xBF)
    (hv : v.toNat < 2 ^ 15) :
    (lo.toNat ≤ c.toNat ∧ c.toNat ≤ hi.toNat ∧ utf8Fits k 0x80 0xBF (utf8Push v c) s)
      ↔ utf8Fits (k + 1) lo hi v s ∧ c = utf8Cont k s := by
  have hdiv : s.toNat / 64 ^ (k + 1) = s.toNat / 64 ^ k / 64 := by rw [pow_succ, Nat.div_div_eq_div_mul]
  rw [utf8Fits_full, utf8Fits_succ, utf8Push_toNat hv, hdiv, ← BitVec.toNat_inj, utf8Cont_toNat]
  omega

/-- Bits that leave room for `k + 1` continuation bytes leave, one byte later, room for `k`. -/
theorem utf8Push_room {k : Nat} {v : Symbol} (c : Byte) (hv : (v.toNat + 1) * 64 ^ (k + 1) ≤ 2 ^ 21) :
    v.toNat < 2 ^ 15 ∧ ((utf8Push v c).toNat + 1) * 64 ^ k ≤ 2 ^ 21 := by
  rw [pow_succ', ← Nat.mul_assoc] at hv
  have hone := Nat.one_le_pow k 64 (by decide)
  have h15 : v.toNat < 2 ^ 15 := by
    have := (Nat.le_mul_of_pos_right _ hone).trans hv
    omega
  refine ⟨h15, (Nat.mul_le_mul_right _ ?_).trans hv⟩
  rw [utf8Push_toNat h15]
  omega

/-- The loop succeeds exactly on the continuation bytes of the symbol it gives. -/
theorem utf8Tail_ok_iff {k w w' : Nat} {lo hi : Byte} {v s : Symbol} {bytes : List Byte} (hlo : 0x80 ≤ lo.toNat)
    (hhi : hi.toNat ≤ 0xBF) (hv : (v.toNat + 1) * 64 ^ k ≤ 2 ^ 21) :
    utf8Tail k lo hi v w bytes = .ok s w'
      ↔ w = w' ∧ utf8Fits k lo hi v s ∧ ∃ rest, bytes = utf8Conts s k ++ rest := by
  induction k generalizing lo hi v bytes with
  | zero => simp [utf8Fits_zero, utf8Conts, and_comm]
  | succ k ih =>
    rw [utf8Tail_succ_ok]
    constructor
    · rintro ⟨c, bytes', rfl, hc, hc', htail⟩
      obtain ⟨hv15, hroom⟩ := utf8Push_room c hv
      obtain ⟨rfl, hpush, rest, rfl⟩ := (ih (by decide) (by decide) hroom).1 htail
      obtain ⟨hfits, rfl⟩ := (utf8Fits_push hlo hhi hv15).1 ⟨hc, hc', hpush⟩
      exact ⟨rfl, hfits, rest, rfl⟩
    · rintro ⟨rfl, hfits, rest, rfl⟩
      obtain ⟨hv15, hroom⟩ := utf8Push_room (utf8Cont k s) hv
      obtain ⟨hc, hc', hfits⟩ := (utf8Fits_push hlo hhi hv15).2 ⟨hfits, rfl⟩
      exact ⟨_, _, rfl, hc, hc', (ih (by decide) (by decide) hroom).2 ⟨rfl, hfits, rest, rfl⟩⟩

/-- The loop's turn on a buffer that ends, or goes on. -/
theorem utf8Tail_succ_truncated {k w : Nat} {lo hi : Byte} {v : Symbol} {bytes : List Byte} :
    utf8Tail (k + 1) lo hi v w bytes = .truncated ↔
      bytes = [] ∨ ∃ c rest, bytes = c :: rest ∧ lo.toNat ≤ c.toNat ∧ c.toNat ≤ hi.toNat
        ∧ utf8Tail k 0x80 0xBF (utf8Push v c) w rest = .truncated := by
  cases bytes with
  | nil => simp [utf8Tail]
  | cons c rest =>
    simp only [utf8Tail]
    split
    · rename_i h
      simp [h]
    · rename_i h
      simp only [reduceCtorEq, List.cons.injEq, false_or, false_iff]
      rintro ⟨_, _, ⟨rfl, -⟩, hlo, hhi, -⟩
      exact h ⟨hlo, hhi⟩

/-- Some symbol has given bits and a given first byte of a range. -/
theorem utf8Fits_exists {k : Nat} {lo hi : Byte} {v : Symbol} (hlo : 0x80 ≤ lo.toNat) (hhi : hi.toNat ≤ 0xBF)
    (hle : lo.toNat ≤ hi.toNat) (hv : (v.toNat + 1) * 64 ^ (k + 1) ≤ 2 ^ 21) : ∃ s, utf8Fits (k + 1) lo hi v s := by
  obtain ⟨hv15, hroom⟩ := utf8Push_room lo hv
  have hpos : 0 < 64 ^ k := Nat.pow_pos (by decide)
  have hs : (BitVec.ofNat 21 ((utf8Push v lo).toNat * 64 ^ k)).toNat = (utf8Push v lo).toNat * 64 ^ k :=
    Nat.mod_eq_of_lt (by rw [Nat.add_mul] at hroom; omega)
  refine ⟨BitVec.ofNat 21 ((utf8Push v lo).toNat * 64 ^ k), ?_⟩
  have hcont : lo = utf8Cont k (BitVec.ofNat 21 ((utf8Push v lo).toNat * 64 ^ k)) := by
    rw [← BitVec.toNat_inj, utf8Cont_toNat, hs, Nat.mul_div_cancel _ hpos, utf8Push_toNat hv15]
    omega
  have hfull := utf8Fits_full.2 ((Nat.mul_div_cancel _ hpos).symm.trans (congrArg (· / 64 ^ k) hs.symm))
  exact ((utf8Fits_push hlo hhi hv15).1 ⟨Nat.le_refl _, hle, hfull⟩).1

/-- The loop is cut short exactly where a symbol's continuation bytes go on. -/
theorem utf8Tail_truncated_iff {k w : Nat} {lo hi : Byte} {v : Symbol} {bytes : List Byte} (hlo : 0x80 ≤ lo.toNat)
    (hhi : hi.toNat ≤ 0xBF) (hle : lo.toNat ≤ hi.toNat) (hv : (v.toNat + 1) * 64 ^ k ≤ 2 ^ 21) :
    utf8Tail k lo hi v w bytes = .truncated
      ↔ ∃ s more, utf8Fits k lo hi v s ∧ more ≠ [] ∧ utf8Conts s k = bytes ++ more := by
  induction k generalizing lo hi v bytes with
  | zero =>
    simp only [utf8Tail_zero, utf8Conts, reduceCtorEq, false_iff]
    rintro ⟨s, more, -, hmore, happ⟩
    exact hmore (List.append_eq_nil_iff.1 happ.symm).2
  | succ k ih =>
    rw [utf8Tail_succ_truncated]
    constructor
    · rintro (rfl | ⟨c, rest, rfl, hc, hc', htail⟩)
      · obtain ⟨s, hs⟩ := utf8Fits_exists hlo hhi hle hv
        exact ⟨s, utf8Conts s (k + 1), hs, List.cons_ne_nil _ _, rfl⟩
      · obtain ⟨hv15, hroom⟩ := utf8Push_room c hv
        obtain ⟨s, more, hpush, hmore, happ⟩ := (ih (by decide) (by decide) (by decide) hroom).1 htail
        obtain ⟨hfits, rfl⟩ := (utf8Fits_push hlo hhi hv15).1 ⟨hc, hc', hpush⟩
        exact ⟨s, more, hfits, hmore, by rw [utf8Conts, happ, List.cons_append]⟩
    · rintro ⟨s, more, hfits, hmore, happ⟩
      cases bytes with
      | nil => exact .inl rfl
      | cons c rest =>
        obtain ⟨rfl, htail⟩ := List.cons.inj happ
        obtain ⟨hv15, hroom⟩ := utf8Push_room (utf8Cont k s) hv
        obtain ⟨hc, hc', hfits⟩ := (utf8Fits_push hlo hhi hv15).2 ⟨hfits, rfl⟩
        exact .inr ⟨_, _, rfl, hc, hc', (ih (by decide) (by decide) (by decide) hroom).2 ⟨s, more, hfits, hmore, htail⟩⟩

/-! ### The lead byte (R101) -/

/-- What the loop needs of a lead byte's promise: ranges of continuation bytes, and room in a symbol. -/
theorem utf8Lead_bounds {b0 : Byte} {l : Utf8Lead} (h : utf8Lead b0 = some l) :
    0x80 ≤ l.lo.toNat ∧ l.hi.toNat ≤ 0xBF ∧ l.lo.toNat ≤ l.hi.toNat ∧ (l.bits.toNat + 1) * 64 ^ l.follow ≤ 2 ^ 21 := by
  rcases utf8Lead_cases h with ⟨hf, hlo, hhi, h1, h2, hb⟩ | ⟨hf, hb, hr⟩ | ⟨hf, hb, hr⟩
  · rw [hf, hlo, hhi, hb]
    exact ⟨by decide, by decide, by decide, by omega⟩
  · rcases hr with ⟨h1, hlo, hhi⟩ | ⟨h1, hlo, hhi⟩ | ⟨h1, h2, -, hlo, hhi⟩ <;> rw [hf, hlo, hhi, hb] <;>
      exact ⟨by decide, by decide, by decide, by omega⟩
  · rcases hr with ⟨h1, hlo, hhi⟩ | ⟨h1, hlo, hhi⟩ | ⟨h1, h2, hlo, hhi⟩ <;> rw [hf, hlo, hhi, hb] <;>
      exact ⟨by decide, by decide, by decide, by omega⟩

/-- A symbol that fits a lead byte's promise is a scalar value, and its encoding begins with that byte. -/
theorem utf8Encode_of_fits {b0 : Byte} {l : Utf8Lead} {s : Symbol} (h : utf8Lead b0 = some l)
    (hs : utf8Fits l.follow l.lo l.hi l.bits s) :
    isScalar s = true ∧ l.follow + 1 = utf8Width s ∧ utf8Encode s = b0 :: utf8Conts s l.follow := by
  rw [isScalar_iff, utf8Width]
  rcases utf8Lead_cases h with ⟨hf, -, -, h1, h2, hb⟩ | ⟨hf, hb, hr⟩ | ⟨hf, hb, hr⟩
  · rw [hf, utf8Fits_succ, hb] at hs
    have hlead := utf8Lead_two_toNat (s := s) (by omega)
    refine ⟨by omega, by split_ifs <;> omega, ?_⟩
    rw [utf8Encode_two (by omega) (by omega), hf, BitVec.eq_of_toNat_eq (hlead.trans (by omega : _ = b0.toNat))]
  · rw [hf, utf8Fits_succ, hb, utf8Cont_toNat] at hs
    have hrange : 0x800 ≤ s.toNat ∧ (s.toNat < 0xD800 ∨ 0xE000 ≤ s.toNat) ∧ s.toNat ≤ 0xFFFF
        ∧ 0xE0 + s.toNat / 64 ^ 2 = b0.toNat := by
      rcases hr with ⟨h1, hlo, hhi⟩ | ⟨h1, hlo, hhi⟩ | ⟨h1, h2, h3, hlo, hhi⟩ <;> rw [hlo, hhi] at hs <;>
        simp only [BitVec.reduceToNat] at hs <;> omega
    have hlead := utf8Lead_three_toNat (s := s) (by omega)
    refine ⟨by omega, by split_ifs <;> omega, ?_⟩
    rw [utf8Encode_three (by omega) (by omega), hf, BitVec.eq_of_toNat_eq (hlead.trans (by omega : _ = b0.toNat))]
  · rw [hf, utf8Fits_succ, hb, utf8Cont_toNat] at hs
    have hrange : 0x10000 ≤ s.toNat ∧ s.toNat ≤ 0x10FFFF ∧ 0xF0 + s.toNat / 64 ^ 3 = b0.toNat := by
      rcases hr with ⟨h1, hlo, hhi⟩ | ⟨h1, hlo, hhi⟩ | ⟨h1, h2, hlo, hhi⟩ <;> rw [hlo, hhi] at hs <;>
        simp only [BitVec.reduceToNat] at hs <;> omega
    have hlead := utf8Lead_four_toNat s
    refine ⟨by omega, by split_ifs <;> omega, ?_⟩
    rw [utf8Encode_four (by omega), hf, BitVec.eq_of_toNat_eq (hlead.trans (by omega : _ = b0.toNat))]

theorem utf8Lead_exists {b0 : Byte} (h : 0xC2 ≤ b0.toNat) (h2 : b0.toNat ≤ 0xF4) : ∃ l, utf8Lead b0 = some l := by
  cases hl : utf8Lead b0 with
  | some l => exact ⟨l, rfl⟩
  | none =>
    simp only [utf8Lead, ite_eq_iff, reduceCtorEq, and_false, false_or, and_true] at hl
    omega

/-- The lead byte of a symbol past the one-byte range, in numbers. -/
theorem utf8LeadByte_exists {s : Symbol} (h80 : 0x80 ≤ s.toNat)
    (hs : s.toNat < 0xD800 ∨ (0xE000 ≤ s.toNat ∧ s.toNat ≤ 0x10FFFF)) :
    ∃ b0 : Byte, 0xC2 ≤ b0.toNat ∧ b0.toNat ≤ 0xF4 ∧
      (s.toNat ≤ 0x7FF → b0.toNat = 0xC0 + s.toNat / 64 ^ 1) ∧
      (0x800 ≤ s.toNat → s.toNat ≤ 0xFFFF → b0.toNat = 0xE0 + s.toNat / 64 ^ 2) ∧
      (0x10000 ≤ s.toNat → b0.toNat = 0xF0 + s.toNat / 64 ^ 3) := by
  rcases Nat.lt_or_ge 0x7FF s.toNat with h2 | h2
  · rcases Nat.lt_or_ge 0xFFFF s.toNat with h3 | h3
    · have := utf8Lead_four_toNat s
      exact ⟨utf8Byte 0xF0 18 3 s, by omega, by omega, by omega, by omega, by omega⟩
    · have := utf8Lead_three_toNat h3
      exact ⟨utf8Byte 0xE0 12 4 s, by omega, by omega, by omega, by omega, by omega⟩
  · have := utf8Lead_two_toNat h2
    exact ⟨utf8Byte 0xC0 6 5 s, by omega, by omega, by omega, by omega, by omega⟩

/-- The encoding of a scalar value past the one-byte range begins with a lead byte whose promise it fits. -/
theorem utf8Lead_of_encode {s : Symbol} (hs : isScalar s = true) (h80 : 0x80 ≤ s.toNat) :
    ∃ b0 l, 0x80 ≤ b0.toNat ∧ utf8Lead b0 = some l ∧ utf8Fits l.follow l.lo l.hi l.bits s
      ∧ utf8Encode s = b0 :: utf8Conts s l.follow := by
  rw [isScalar_iff] at hs
  obtain ⟨b0, hC2, hF4, htwo, hthree, hfour⟩ := utf8LeadByte_exists h80 hs
  obtain ⟨l, hl⟩ := utf8Lead_exists hC2 hF4
  have hfits : utf8Fits l.follow l.lo l.hi l.bits s := by
    rcases utf8Lead_cases hl with ⟨hf, hlo, hhi, h1, h2, hb⟩ | ⟨hf, hb, hr⟩ | ⟨hf, hb, hr⟩
    · rw [hf, hlo, hhi, utf8Fits_full, hb]
      omega
    · rw [hf, utf8Fits_succ, hb, utf8Cont_toNat]
      rcases hr with ⟨h1, hlo, hhi⟩ | ⟨h1, hlo, hhi⟩ | ⟨h1, h2, h3, hlo, hhi⟩ <;> rw [hlo, hhi] <;>
        simp only [BitVec.reduceToNat] <;> omega
    · rw [hf, utf8Fits_succ, hb, utf8Cont_toNat]
      rcases hr with ⟨h1, hlo, hhi⟩ | ⟨h1, hlo, hhi⟩ | ⟨h1, h2, hlo, hhi⟩ <;> rw [hlo, hhi] <;>
        simp only [BitVec.reduceToNat] <;> omega
  obtain ⟨-, -, henc⟩ := utf8Encode_of_fits hl hfits
  exact ⟨b0, l, by omega, hl, hfits, henc⟩

/-! ### The outcomes of Utf8Decode (R101, R104) -/

theorem utf8Tail_ne_ended (k w : Nat) (lo hi : Byte) (v : Symbol) (bytes : List Byte) :
    utf8Tail k lo hi v w bytes ≠ .ended := by
  induction k generalizing lo hi v bytes with
  | zero => simp
  | succ k ih =>
    cases bytes with
    | nil => simp [utf8Tail]
    | cons c rest =>
      simp only [utf8Tail]
      split
      · exact ih _ _ _ _
      · simp

theorem utf8Decode_ascii {b0 : Byte} (h : b0.toNat ≤ 0x7F) (rest : List Byte) :
    utf8Decode (b0 :: rest) = .ok (b0.setWidth 21) 1 := if_pos h

theorem utf8Decode_lead {b0 : Byte} {l : Utf8Lead} (h : 0x80 ≤ b0.toNat) (hl : utf8Lead b0 = some l)
    (rest : List Byte) :
    utf8Decode (b0 :: rest) = utf8Tail l.follow l.lo l.hi l.bits (l.follow + 1) rest := by
  simp only [utf8Decode, if_neg (by omega : ¬ b0.toNat ≤ 0x7F), hl]

theorem utf8Decode_no_lead {b0 : Byte} (h : 0x80 ≤ b0.toNat) (hl : utf8Lead b0 = none) (rest : List Byte) :
    utf8Decode (b0 :: rest) = .invalid := by
  simp only [utf8Decode, if_neg (by omega : ¬ b0.toNat ≤ 0x7F), hl]

/-- A byte of the one-byte range is the encoding of the symbol it is read as. -/
theorem utf8Encode_ascii {b0 : Byte} (h : b0.toNat ≤ 0x7F) :
    isScalar (b0.setWidth 21) = true ∧ 1 = utf8Width (b0.setWidth 21) ∧ utf8Encode (b0.setWidth 21) = [b0] := by
  have hval : (b0.setWidth 21).toNat = b0.toNat := by rw [BitVec.toNat_setWidth]; omega
  have hback : (b0.setWidth 21).setWidth 8 = b0 := BitVec.eq_of_toNat_eq (by rw [BitVec.toNat_setWidth, hval]; omega)
  exact ⟨(isScalar_iff _).2 (.inl (by omega)), by rw [utf8Width, if_pos (by omega)],
    by rw [utf8Encode_one (by omega), hback]⟩

/-- How the encoding of a scalar value begins: with a byte of the one-byte range, which is all of it, or with a lead
byte. -/
theorem utf8Encode_cases {s : Symbol} (hs : isScalar s = true) :
    (∃ b0 : Byte, b0.toNat ≤ 0x7F ∧ s = b0.setWidth 21)
      ∨ ∃ b0 l, 0x80 ≤ b0.toNat ∧ utf8Lead b0 = some l ∧ utf8Fits l.follow l.lo l.hi l.bits s
          ∧ utf8Encode s = b0 :: utf8Conts s l.follow := by
  rcases Nat.lt_or_ge 0x7F s.toNat with h | h
  · exact .inr (utf8Lead_of_encode hs h)
  · have hval : (s.setWidth 8).toNat = s.toNat := by rw [BitVec.toNat_setWidth]; omega
    exact .inl ⟨s.setWidth 8, by omega, BitVec.eq_of_toNat_eq (by rw [BitVec.toNat_setWidth, hval]; omega)⟩

/-- Utf8Decode succeeds on the encoding of a scalar value, whatever follows it. -/
theorem utf8Decode_encode {s : Symbol} (hs : isScalar s = true) (rest : List Byte) :
    utf8Decode (utf8Encode s ++ rest) = .ok s (utf8Width s) := by
  rcases utf8Encode_cases hs with ⟨b0, hb, rfl⟩ | ⟨b0, l, hb, hl, hfits, henc⟩
  · obtain ⟨-, hw, henc⟩ := utf8Encode_ascii hb
    rw [henc, ← hw]
    exact utf8Decode_ascii hb rest
  · obtain ⟨hlo, hhi, -, hroom⟩ := utf8Lead_bounds hl
    rw [henc, List.cons_append, utf8Decode_lead hb hl]
    exact (utf8Tail_ok_iff hlo hhi hroom).2 ⟨(utf8Encode_of_fits hl hfits).2.1, hfits, rest, rfl⟩

/-- Ok: exactly on the encoding of a scalar value. -/
theorem utf8Decode_ok_iff {bytes : List Byte} {s : Symbol} {w : Nat} : utf8Decode bytes = .ok s w ↔
    isScalar s = true ∧ w = utf8Width s ∧ ∃ rest, bytes = utf8Encode s ++ rest := by
  refine ⟨fun h => ?_, ?_⟩
  · obtain ⟨hs, hw, -, -⟩ := utf8Decode_ok h
    refine ⟨hs, hw, ?_⟩
    cases bytes with
    | nil => cases h
    | cons b0 rest =>
      rcases Nat.lt_or_ge 0x7F b0.toNat with hb | hb
      · cases hl : utf8Lead b0 with
        | none => rw [utf8Decode_no_lead hb hl] at h; cases h
        | some l =>
          obtain ⟨hlo, hhi, -, hroom⟩ := utf8Lead_bounds hl
          rw [utf8Decode_lead hb hl] at h
          obtain ⟨-, hfits, more, rfl⟩ := (utf8Tail_ok_iff hlo hhi hroom).1 h
          exact ⟨more, by rw [(utf8Encode_of_fits hl hfits).2.2, List.cons_append]⟩
      · rw [utf8Decode_ascii hb] at h
        cases h
        exact ⟨rest, by rw [(utf8Encode_ascii hb).2.2, List.singleton_append]⟩
  · rintro ⟨hs, rfl, rest, rfl⟩
    exact utf8Decode_encode hs rest

/-- Truncated: exactly where the buffer ends inside the encoding of a scalar value. -/
theorem utf8Decode_truncated_iff {bytes : List Byte} : utf8Decode bytes = .truncated ↔
    bytes ≠ [] ∧ ∃ s more, isScalar s = true ∧ more ≠ [] ∧ utf8Encode s = bytes ++ more := by
  constructor
  · intro h
    cases bytes with
    | nil => cases h
    | cons b0 rest =>
      refine ⟨List.cons_ne_nil _ _, ?_⟩
      rcases Nat.lt_or_ge 0x7F b0.toNat with hb | hb
      · cases hl : utf8Lead b0 with
        | none => rw [utf8Decode_no_lead hb hl] at h; cases h
        | some l =>
          obtain ⟨hlo, hhi, hle, hroom⟩ := utf8Lead_bounds hl
          rw [utf8Decode_lead hb hl] at h
          obtain ⟨s, more, hfits, hmore, happ⟩ := (utf8Tail_truncated_iff hlo hhi hle hroom).1 h
          obtain ⟨hs, -, henc⟩ := utf8Encode_of_fits hl hfits
          exact ⟨s, more, hs, hmore, by rw [henc, happ, List.cons_append]⟩
      · rw [utf8Decode_ascii hb] at h
        cases h
  · rintro ⟨hne, s, more, hs, hmore, henc⟩
    obtain ⟨b, bytes, rfl⟩ := List.exists_cons_of_ne_nil hne
    rcases utf8Encode_cases hs with ⟨b0, hb, rfl⟩ | ⟨b0, l, hb, hl, hfits, hlead⟩
    · rw [(utf8Encode_ascii hb).2.2, List.cons_append] at henc
      exact absurd (List.append_eq_nil_iff.1 (List.cons.inj henc).2.symm).2 hmore
    · obtain ⟨hlo, hhi, hle, hroom⟩ := utf8Lead_bounds hl
      obtain ⟨rfl, happ⟩ := List.cons.inj (hlead.symm.trans henc)
      rw [utf8Decode_lead hb hl]
      exact (utf8Tail_truncated_iff hlo hhi hle hroom).2 ⟨s, more, hfits, hmore, happ⟩

/-- End: exactly on nothing. -/
theorem utf8Decode_ended_iff {bytes : List Byte} : utf8Decode bytes = .ended ↔ bytes = [] := by
  refine ⟨fun h => ?_, fun h => h ▸ rfl⟩
  cases bytes with
  | nil => rfl
  | cons b0 rest =>
    rcases Nat.lt_or_ge 0x7F b0.toNat with hb | hb
    · cases hl : utf8Lead b0 with
      | none => rw [utf8Decode_no_lead hb hl] at h; cases h
      | some l =>
        rw [utf8Decode_lead hb hl] at h
        exact absurd h (utf8Tail_ne_ended _ _ _ _ _ _)
    · rw [utf8Decode_ascii hb] at h
      cases h

/-- Settles O5: each outcome of Utf8Decode by the lead byte, and the loop after it by induction on the bytes that
follow. -/
theorem utf8DecodeOutcomes : Obligations.Utf8DecodeOutcomes :=
  fun _ => ⟨utf8Decode_ended_iff, fun _ _ => utf8Decode_ok_iff, utf8Decode_truncated_iff⟩

/-- Settles O4: the bytes in numbers, range by range, and their decoding. -/
theorem utf8EncodeDecode : Obligations.Utf8EncodeDecode := by
  refine ⟨fun s hs => ?_, fun s h => ?_, fun s h h2 => ?_, fun s h h2 => ?_, fun s h => ?_, by decide, by decide,
    by decide, by decide⟩
  · have hdec := utf8Decode_encode hs []
    rwa [List.append_nil] at hdec
  · rw [utf8Encode_one h, List.map_singleton, BitVec.toNat_setWidth, Nat.mod_eq_of_lt (by omega)]
  · rw [utf8Encode_two h h2, List.map_cons, utf8Lead_two_toNat h2]
    simp [utf8Conts, utf8Cont_toNat]
  · rw [utf8Encode_three h h2, List.map_cons, utf8Lead_three_toNat h2]
    simp [utf8Conts, utf8Cont_toNat]
  · rw [utf8Encode_four h, List.map_cons, utf8Lead_four_toNat s]
    simp [utf8Conts, utf8Cont_toNat]

end Sys2Proof
end

section
/-! Decoding and encoding agree, in both directions (O1, O2, O3), and the codes that are no command (O52). -/

namespace Sys2Proof.Machine

/-! ### Command words -/

theorem decodeCommand_of_not_listed {code : Byte} (h : code ∉ commandCodes) : decodeCommand code = .illegal code := by
  simp only [commandCodes, List.mem_cons, List.not_mem_nil, or_false, not_or] at h
  simp only [decodeCommand, h, if_false]

/-- One comparison of the command decoder. -/
theorem encode_ite {code c : Byte} {i j : Instr} (hi : encode i = [c]) (hj : encode j = [code]) :
    encode (if code = c then i else j) = [code] := by
  split
  · rename_i h; rw [hi, h]
  · exact hj

/-- A command word is the encoding of the command it is decoded to: all eight bits are compared (R91). -/
theorem encode_decodeCommand (code : Byte) : encode (decodeCommand code) = [code] := by
  unfold decodeCommand
  iterate 13 refine encode_ite rfl ?_
  rfl

theorem decode_encode_command {i : Instr} (hi : i.site = .command) (hwf : i.wf = true) (rest : List Byte) :
    decode .command (encode i ++ rest) = .ok (i, rest) := by
  cases i with
  | nodeInternal | nodeLeaf _ | nodeIllegal _ | treeStart | treeEnd | validBitsHeader _ => cases hi
  | illegal code =>
    have hcode : code ∉ commandCodes := by simpa [Instr.wf] using hwf
    show Except.ok (decodeCommand code, rest) = _
    rw [decodeCommand_of_not_listed hcode]
  | _ => rfl

/-! ### Node tokens -/

theorem decodeTreeToken_of_utf8Decode {bytes : List Byte} {sym : Symbol} {w : Nat} (h : utf8Decode bytes = .ok sym w) :
    decodeTreeToken (0x01 :: bytes) = .ok (.nodeLeaf sym, bytes.drop w) := by
  have h0 : (0x01 : Byte) ≠ 0x00 := by decide
  simp only [decodeTreeToken, if_neg h0, if_true, h]

theorem decodeTreeToken_leaf {sym : Symbol} (h : isScalar sym = true) (rest : List Byte) :
    decodeTreeToken (0x01 :: (utf8Encode sym ++ rest)) = .ok (.nodeLeaf sym, rest) := by
  rw [decodeTreeToken_of_utf8Decode (utf8Decode_encode h rest), ← utf8Encode_length, List.drop_left]

theorem decodeTreeToken_illegal {m : Byte} (h : 2 ≤ m.toNat) (rest : List Byte) :
    decodeTreeToken (m :: rest) = .ok (.nodeIllegal m, rest) := by
  have h0 : m ≠ 0x00 := by rintro rfl; exact absurd h (by decide)
  have h1 : m ≠ 0x01 := by rintro rfl; exact absurd h (by decide)
  simp only [decodeTreeToken, if_neg h0, if_neg h1]

/-- What the node-token decoder accepts starts with the token's encoding. -/
theorem decodeTreeToken_bytes {bytes rest : List Byte} {i : Instr} (h : decodeTreeToken bytes = .ok (i, rest)) :
    bytes = encode i ++ rest := by
  cases bytes with
  | nil => cases h
  | cons m tail =>
    simp only [decodeTreeToken] at h
    split_ifs at h with h0 h1
    · cases h; rw [h0]; rfl
    · split at h
      · rename_i sym w hd
        obtain ⟨-, rfl, more, rfl⟩ := utf8Decode_ok_iff.1 hd
        cases h
        rw [h1, ← utf8Encode_length, List.drop_left]
        rfl
      · cases h
      · cases h
      · cases h
    · cases h; rfl

/-! ### All formats -/

/-- Settles O1: format by format; a leaf's symbol by `utf8Decode_encode`. -/
theorem decodeEncodeRoundTrip : Obligations.DecodeEncodeRoundTrip := by
  intro i rest hwf
  cases i with
  | nodeInternal => rfl
  | nodeLeaf sym => exact decodeTreeToken_leaf hwf rest
  | nodeIllegal m => exact decodeTreeToken_illegal (by simpa [Instr.wf] using hwf) rest
  | treeStart => rfl
  | treeEnd => rfl
  | validBitsHeader vb => exact if_pos (by simpa [Instr.wf] using hwf)
  | _ => exact decode_encode_command rfl hwf rest

/-- What a decoder accepts starts with the encoding of the instruction it gives. -/
theorem decode_bytes {site : Site} {bytes rest : List Byte} {i : Instr} (h : decode site bytes = .ok (i, rest)) :
    bytes = encode i ++ rest := by
  cases site with
  | command =>
    cases bytes with
    | nil => cases h
    | cons c tail => cases h; rw [encode_decodeCommand, List.singleton_append]
  | treeToken => exact decodeTreeToken_bytes h
  | blobHeader =>
    cases bytes with
    | nil => cases h
    | cons b tail =>
      simp only [decode, decodeHeader] at h
      split_ifs at h
      cases h; rfl
  | blobStart =>
    cases bytes with
    | nil => cases h
    | cons b tail =>
      simp only [decode, decodeTreeStart] at h
      split_ifs at h with hb
      cases h; rw [hb]; rfl
  | blobEnd =>
    match bytes with
    | [] => cases h
    | [_] => cases h
    | b :: c :: tail =>
      simp only [decode, decodeTreeEnd] at h
      split_ifs at h with hb
      cases h; rw [hb.1, hb.2]; rfl

/-- Settles O2: the format and the operands' ranges are `decode_ok`; the bytes, format by format. -/
theorem decodeAcceptsOnlyEncodings : Obligations.DecodeAcceptsOnlyEncodings := by
  intro site bytes rest i h
  obtain ⟨hsite, hwf⟩ := decode_ok h
  exact ⟨hwf, hsite, decode_bytes h⟩

/-- Settles O3, by evaluation of the decoders on the fixed words. -/
theorem specWordsDecode : Obligations.SpecWordsDecode :=
  ⟨rfl, rfl, rfl, rfl, rfl, rfl, rfl, rfl, rfl, rfl, rfl, rfl, rfl, rfl⟩

/-! ### Illegal codes (R93, R257) -/

theorem writeCommand_idle {s : State} (hb : s.status ≠ .busy) (code : Byte) :
    writeCommand code s = { s with cmd := code, status := .busy, err := 0 } := if_neg hb

theorem step_illegal {s : State} (hh : s.host = []) (hb : s.status = .busy) (hp : s.phase = .pIdle)
    (hs : s.site = .command) (hcmd : s.cmd ∉ commandCodes) :
    step s = .next { s with status := .err, err := 0x81 } := by
  rw [step_of_blockTurn (.inl hh) hb, blockMove_fetch_ok hb (fun h => h.2 hp) (fetch_command hs),
    decodeCommand_of_not_listed hcmd]
  rfl

/-- Settles O52: error entry of an illegal code empties nothing; the write of CMD makes the block busy, and its next
step is that error entry. -/
theorem illegalCodesRefused : Obligations.IllegalCodesRefused := by
  intro s code hcode
  have hlist : code ∉ commandCodes := fun h => hcode (List.mem_map_of_mem (f := BitVec.toNat) h)
  refine ⟨rfl, fun hh hb hp hs => ?_⟩
  have hwrite : step s = .next { s with host := [], cmd := code, status := .busy, err := 0 } :=
    (step_hostAct hh (by simp)).trans
      (congrArg Host.Outcome.next (writeCommand_idle (s := { s with host := [] }) hb code))
  have hrun := step_illegal (s := { s with host := [], cmd := code, status := .busy, err := 0 }) rfl rfl hp hs hlist
  rw [run_succ hwrite, run_succ hrun, run_zero]

end Sys2Proof.Machine
end

section
/-! A configuration whose capacities are all unbounded, capacity by capacity (00_scope.md R7). -/

namespace Sys2Proof

/-- Unbounded, no number is past a capacity. -/
structure Config.Unbounded (cfg : Config) : Prop where
  srcCap : cfg.srcCap = none
  dstCap : cfg.dstCap = none
  symsCap : cfg.symsCap = none
  tbufCap : cfg.tbufCap = none
  payCap : cfg.payCap = none
  nMax : cfg.nMax = none
  tbW : cfg.tbW = none
  stackMax : cfg.stackMax = none

theorem Config.unbounded_iff (cfg : Config) : cfg.unbounded = true ↔ cfg.Unbounded := by
  simp only [Config.unbounded, Bool.and_eq_true, Option.isNone_iff_eq_none]
  exact ⟨fun ⟨⟨⟨⟨⟨⟨⟨h1, h2⟩, h3⟩, h4⟩, h5⟩, h6⟩, h7⟩, h8⟩ => ⟨h1, h2, h3, h4, h5, h6, h7, h8⟩,
    fun ⟨h1, h2, h3, h4, h5, h6, h7, h8⟩ => ⟨⟨⟨⟨⟨⟨⟨h1, h2⟩, h3⟩, h4⟩, h5⟩, h6⟩, h7⟩, h8⟩⟩

end Sys2Proof
end

section
/-! The node tokens and the blob tokens, one by one, as steps of the walks of DESERIALIZE and PARSE (O37, O49). -/

namespace Sys2Proof.Machine

/-! ### Closing subtrees (44_tree_deserializer.md R181) -/

/-- A finished subtree closes the pending Right children above it, innermost first. -/
def closeRights (ls : List Node) (n : Node) : Node := ls.foldl (fun n l => .internal 0 l n) n

theorem closeNode_rights (ls : List Node) (st : List Frame) (n : Node) :
    closeNode (ls.map Frame.right ++ st) n = closeNode st (closeRights ls n) := by
  induction ls generalizing n with
  | nil => rfl
  | cons l ls ih => exact ih (.internal 0 l n)

theorem closeNode_pending (ls : List Node) (rest : List Frame) (n : Node) :
    closeNode (ls.map Frame.right ++ .left :: rest) n = (.right (closeRights ls n) :: rest, none) :=
  closeNode_rights ls (.left :: rest) n

theorem closeNode_last (ls : List Node) (n : Node) :
    closeNode (ls.map Frame.right) n = ([], some (closeRights ls n)) := by
  rw [← List.append_nil (ls.map Frame.right), closeNode_rights]
  rfl

/-! ### Error entry of the command under way (60_exceptions.md R260) -/

theorem raiseRunning_treeToken {s : State} (hs : s.site = .treeToken) (hp : s.phase = .pIdle) (k : ErrKind) :
    raiseRunning k s = { s with tree := none, site := .command, status := .err, err := k.code } := by
  simp only [raiseRunning, runningCommand, hs, hp, errorEntry, emptyOutputs, State.report]

theorem raiseRunning_blobEnd {s : State} (hs : s.site = .blobEnd) (hp : s.phase = .pIdle) (k : ErrKind) :
    raiseRunning k s = { s with tbuf := Buffer.empty, pay := Buffer.empty, validBits := 8, site := .command,
                                status := .err, err := k.code } := by
  simp only [raiseRunning, runningCommand, hs, hp, errorEntry, emptyOutputs, State.report]

/-- Inside DECOMPRESS an error ends the sequence and empties all of the working set. -/
theorem raiseRunning_decompress {s : State} (hp : s.phase = .dParse ∨ s.phase = .dDeserialize) (k : ErrKind) :
    raiseRunning k s = { clearWork s with dst := Buffer.empty, phase := .pIdle, site := .command, status := .err,
                                          err := k.code } := by
  rcases hp with hp | hp <;> simp only [raiseRunning, runningCommand, hp, errorEntry, emptyOutputs, State.report]

/-! ### Node tokens (30_encoding.md R106) -/

theorem exec_nodeInternal_ok {s : State} (h : withinCap s.cfg.stackMax (s.stack.length + 1) = true) :
    exec .nodeInternal s = .next { s with cursor := s.cursor + 1, stack := .left :: s.stack } := if_pos h

theorem exec_nodeInternal_full {s : State} (h : withinCap s.cfg.stackMax (s.stack.length + 1) = false) :
    exec .nodeInternal s = .next (raiseRunning .capacityExceeded s) := if_neg (by simp [h])

theorem exec_nodeLeaf_ok {s : State} {sym : Symbol} (h : withinCap s.cfg.nMax (s.leaves + 1) = true) :
    exec (.nodeLeaf sym) s = .next (addLeaf sym s) := if_pos h

theorem exec_nodeLeaf_full {s : State} {sym : Symbol} (h : withinCap s.cfg.nMax (s.leaves + 1) = false) :
    exec (.nodeLeaf sym) s = .next (raiseRunning .capacityExceeded s) := if_neg (by simp [h])

/-- A leaf that leaves an Internal pending becomes, with the Internals it completes, that one's Left child. -/
theorem addLeaf_pending {s : State} {ls : List Node} {rest : List Frame}
    (h : s.stack = ls.map Frame.right ++ .left :: rest) (sym : Symbol) :
    addLeaf sym s = { s with cursor := s.cursor + 1 + utf8Width sym, leaves := s.leaves + 1,
                             stack := .right (closeRights ls (.leaf sym 0)) :: rest } := by
  simp only [addLeaf, h, closeNode_pending]

/-- A leaf that completes every pending Internal completes the tree. -/
theorem addLeaf_last {s : State} {ls : List Node} (h : s.stack = ls.map Frame.right) (sym : Symbol) :
    addLeaf sym s = endWalk { s with cursor := s.cursor + 1 + utf8Width sym, leaves := s.leaves + 1, stack := [],
                                     tree := some (closeRights ls (.leaf sym 0)) } := by
  simp only [addLeaf, h, closeNode_last]

/-- Settles O37: an Internal is pushed, a leaf closes what it completes, and errors are error entry of the command under
way. -/
theorem treeTokensAdvanceWalk : Obligations.TreeTokensAdvanceWalk := by
  refine ⟨fun s h => exec_nodeInternal_ok h, fun s sym ls rest hcap hst => ?_, fun s sym ls hcap hst hp => ?_,
    fun s sym ls hcap hst hp => ?_, fun s m hs hp => ?_, fun s m hp => ?_, fun s h hs hp => ?_, fun s sym h hs hp => ?_,
    fun s sym hp => ⟨fun h => ?_, fun h => ?_⟩⟩
  · rw [exec_nodeLeaf_ok hcap, addLeaf_pending hst]
    rfl
  · rw [exec_nodeLeaf_ok hcap, addLeaf_last hst]
    exact congrArg Host.Outcome.next (endWalk_idle hp)
  · rw [exec_nodeLeaf_ok hcap, addLeaf_last hst]
    exact congrArg Host.Outcome.next (endWalk_dDeserialize hp)
  · exact congrArg Host.Outcome.next (raiseRunning_treeToken (s := { s with cursor := s.cursor + 1 }) hs hp _)
  · exact congrArg Host.Outcome.next (raiseRunning_decompress (s := { s with cursor := s.cursor + 1 }) (.inr hp) _)
  · rw [exec_nodeInternal_full h, raiseRunning_treeToken hs hp]
    rfl
  · rw [exec_nodeLeaf_full h, raiseRunning_treeToken hs hp]
    rfl
  · rw [exec_nodeInternal_full h, raiseRunning_decompress (.inr hp)]
    rfl
  · rw [exec_nodeLeaf_full h, raiseRunning_decompress (.inr hp)]
    rfl

/-! ### Blob tokens (30_encoding.md R111, R112) -/

theorem Buffer.appendAll_unbounded {α : Type} (vs : List α) :
    (Buffer.empty : Buffer α).appendAll none vs = .ok (Buffer.ofList vs) := by
  rw [Buffer.appendAll_empty]
  rfl

theorem writeSpans_unbounded {s : State} (h : s.cfg.unbounded = true) (f : BlobFields) :
    writeSpans f s = .ok { s with
      validBits := f.header.setWidth 4,
      tbuf := Buffer.ofList ((s.src.elems.drop f.treeAt).take (f.endAt - f.treeAt)),
      pay := Buffer.ofList (s.src.elems.drop (f.endAt + 2)), cursor := s.src.len } := by
  have hcfg := s.cfg.unbounded_iff.1 h
  simp only [writeSpans, hcfg.tbufCap, hcfg.payCap, Buffer.appendAll_unbounded]
  rfl

theorem exec_treeEnd_empty_tree {s : State} (h : s.cursor = s.treeAt) :
    exec .treeEnd s = .next (raiseRunning .emptyTreeBytes s) := if_pos h

theorem exec_treeEnd_empty_data {s : State} (h : s.cursor ≠ s.treeAt) (hend : s.cursor + 2 = s.src.len) :
    exec .treeEnd s = .next (raiseRunning .encodedDataNotFound s) := (if_neg h).trans (if_pos hend)

/-- The delimiter, its two spans being non-empty, writes the outputs and ends the unit. -/
theorem exec_treeEnd_ok {s : State} (hcfg : s.cfg.unbounded = true) (h : s.cursor ≠ s.treeAt)
    (hend : s.cursor + 2 ≠ s.src.len) :
    exec .treeEnd s = .next (endWalk { s with
      validBits := s.header.setWidth 4,
      tbuf := Buffer.ofList ((s.src.elems.drop s.treeAt).take (s.cursor - s.treeAt)),
      pay := Buffer.ofList (s.src.elems.drop (s.cursor + 2)), cursor := s.src.len }) := by
  simp only [exec, execTreeEnd, if_neg h, if_neg hend, writeSpans_unbounded hcfg]

/-- Settles O49: the header and the marker are kept, the delimiter's outputs are those of `writeSpans`, and errors are
error entry of the command under way. -/
theorem blobTokensAdvanceWalk : Obligations.BlobTokensAdvanceWalk := by
  refine ⟨fun s vb h1 h8 => if_pos (by simp [validBitsOk, h1, h8]), fun s => rfl, fun s hcfg h hend hp => ?_,
    fun s hcfg h hend hp => ?_, fun s h hs hp => ?_, fun s h hend hs hp => ?_, fun s h hp => ?_⟩
  · rw [exec_treeEnd_ok hcfg h hend]
    exact congrArg Host.Outcome.next (endWalk_idle hp)
  · rw [exec_treeEnd_ok hcfg h hend]
    exact congrArg Host.Outcome.next (endWalk_dParse hp)
  · rw [exec_treeEnd_empty_tree h, raiseRunning_blobEnd hs hp]
    rfl
  · rw [exec_treeEnd_empty_data h hend, raiseRunning_blobEnd hs hp]
    rfl
  · by_cases htree : s.cursor = s.treeAt
    · rw [exec_treeEnd_empty_tree htree, raiseRunning_decompress (.inl hp), if_pos htree]
      rfl
    · rw [exec_treeEnd_empty_data htree (h.resolve_left htree), raiseRunning_decompress (.inl hp), if_neg htree]
      rfl

end Sys2Proof.Machine
end

section
/-! What ENCODE packs: the codes' bits, then zeros up to a whole byte; and what DECODE reads of them (O45). -/

namespace Sys2Proof.Machine

/-! ### The bits of a payload -/

theorem payloadBits_append (l m : List Byte) : payloadBits (l ++ m) = payloadBits l ++ payloadBits m :=
  List.flatMap_append

theorem payloadBits_singleton (b : Byte) : payloadBits [b] = byteBits b := List.flatMap_singleton _ _

theorem payloadBits_length (l : List Byte) : (payloadBits l).length = 8 * l.length := by
  induction l with
  | nil => rfl
  | cons b l ih =>
    rw [payloadBits, List.flatMap_cons, List.length_append, ← payloadBits, ih, byteBits_length, List.length_cons,
      Nat.mul_succ, Nat.add_comm]

/-- Two bytes that agree above their low `8 - v` bits have the same first `v` bits. -/
theorem byteBits_take_congr {a b : Byte} {v : Nat} (hv : v ≤ 8) (h : a >>> (8 - v) = b >>> (8 - v)) :
    (byteBits a).take v = (byteBits b).take v := by
  refine List.ext_getElem? fun k => ?_
  rcases Nat.lt_or_ge k v with hk | hk
  · have hbit := congrArg (fun c : Byte => c.getLsbD (v - 1 - k)) h
    simp only [BitVec.getLsbD_ushiftRight, show 8 - v + (v - 1 - k) = 7 - k by omega] at hbit
    rw [List.getElem?_take_of_lt hk, List.getElem?_take_of_lt hk, byteBits_getElem? a (by omega),
      byteBits_getElem? b (by omega), hbit]
  · simp [Nat.not_lt.2 hk]

/-- A bit shifted to place `n`, counted from bit 7 down. -/
theorem getLsbD_placed (b : Bool) {n k : Nat} (hn : n < 8) (hk : k < 8) :
    ((BitVec.ofBool b).setWidth 8 <<< (7 - n)).getLsbD (7 - k) = (decide (k = n) && b) := by
  rw [BitVec.getLsbD_shiftLeft, BitVec.getLsbD_setWidth, BitVec.getLsbD_ofBool]
  cases b with
  | false => simp
  | true =>
    rw [Bool.eq_iff_iff]
    simp only [Bool.and_eq_true, Bool.not_eq_true', decide_eq_true_eq, decide_eq_false_iff_not, and_true]
    omega

/-- One bit put at place `n` of a byte whose bits from there on are 0 (45_bit_encoder.md R191). -/
theorem byteBits_place {acc : Byte} {n : Nat} (b : Bool) (hn : n < 8)
    (hzero : (byteBits acc).drop n = List.replicate (8 - n) false) :
    byteBits (acc ||| ((BitVec.ofBool b).setWidth 8 <<< (7 - n)))
      = (byteBits acc).take n ++ b :: List.replicate (7 - n) false := by
  have hlen : ((byteBits acc).take n).length = n := by rw [List.length_take, byteBits_length]; omega
  have hacc {k : Nat} (hk : n ≤ k) (hk8 : k < 8) : acc.getLsbD (7 - k) = false := by
    have hget := congrArg (fun l => l[k - n]?) hzero
    simp only [List.getElem?_drop, Nat.add_sub_cancel' hk, byteBits_getElem? acc hk8] at hget
    rw [List.getElem?_replicate_of_lt (by omega)] at hget
    exact Option.some.inj hget
  refine List.ext_getElem? fun k => ?_
  rcases Nat.lt_or_ge k 8 with hk8 | hk8
  · rw [byteBits_getElem? _ hk8, BitVec.getLsbD_or, getLsbD_placed b hn hk8]
    rcases Nat.lt_trichotomy k n with hk | rfl | hk
    · rw [List.getElem?_append_left (by omega), List.getElem?_take_of_lt hk, byteBits_getElem? acc hk8]
      simp [hk.ne]
    · rw [List.getElem?_append_right (by omega), hlen, hacc (Nat.le_refl k) hk8]
      simp
    · rw [List.getElem?_append_right (by omega), hlen, hacc hk.le hk8]
      obtain ⟨j, hj⟩ := Nat.exists_eq_add_of_lt hk
      rw [show k - n = j + 1 by omega, List.getElem?_cons_succ, List.getElem?_replicate_of_lt (by omega)]
      simp [hk.ne']
  · rw [List.getElem?_eq_none (by simpa using hk8), List.getElem?_eq_none]
    simp; omega

/-! ### The accumulator (45_bit_encoder.md R190 to R194) -/

/-- ENCODE's registers hold the bits packed so far: whole bytes in PAY, the rest in ACC from bit 7 down, 0 below. -/
structure Packed (r : EncodeRegs) (bits : Bits) : Prop where
  pay : r.pay = Buffer.ofList r.pay.elems
  nbits : r.nbits.toNat < 8
  packed : bits = payloadBits r.pay.elems ++ (byteBits r.acc).take r.nbits.toNat
  zeros : (byteBits r.acc).drop r.nbits.toNat = List.replicate (8 - r.nbits.toNat) false
  total : r.totalBits = bits.length

theorem Packed.start : Packed ⟨Buffer.empty, 0, 0, 0⟩ [] := ⟨rfl, by decide, rfl, rfl, rfl⟩

/-- An append that succeeds to a buffer that holds exactly its elements. -/
theorem Buffer.append_ofList_ok {α : Type} {cap : Option Nat} {b : Buffer α} {l : List α} {v : α}
    (h : (Buffer.ofList l).append cap v = .ok b) : b = Buffer.ofList (l ++ [v]) := by
  rw [Buffer.append_ofList] at h
  split at h
  · exact (Except.ok.inj h).symm
  · cases h

theorem packBit_packed {cfg : Config} {r r' : EncodeRegs} {bits : Bits} {b : Bool} (hp : Packed r bits)
    (h : packBit cfg r b = .ok r') : Packed r' (bits ++ [b]) := by
  obtain ⟨hpay, hn, hbits, hzeros, htotal⟩ := hp
  have hacc := byteBits_place b hn hzeros
  have hlen : ((byteBits r.acc).take r.nbits.toNat).length = r.nbits.toNat := by
    rw [List.length_take, byteBits_length]; omega
  obtain ⟨total, hcap, h⟩ := bind_ok h
  obtain ⟨rfl, -⟩ := checkCap_ok hcap
  have hnext : (r.nbits + 1).toNat = r.nbits.toNat + 1 := by rw [BitVec.toNat_add]; simp; omega
  split at h
  · rename_i hfull
    have h7 : r.nbits.toNat = 7 := by rw [hfull] at hnext; simpa using hnext.symm
    obtain ⟨pay, happend, h⟩ := bind_ok h
    cases h
    rw [hpay] at happend
    rw [Buffer.append_ofList_ok happend]
    refine ⟨by rw [Buffer.ofList_elems], (by decide : (0 : BitVec 4).toNat < 8), ?_,
      (by decide : (byteBits 0).drop 0 = List.replicate 8 false), by simp [htotal]⟩
    rw [Buffer.ofList_elems, payloadBits_append, payloadBits_singleton, hacc, hbits, h7]
    simp
  · rename_i hfull
    cases h
    have h7 : r.nbits.toNat ≠ 7 := fun h7 => hfull (BitVec.eq_of_toNat_eq (by rw [hnext, h7]; rfl))
    refine ⟨hpay, by rw [hnext]; omega, ?_, ?_, by simp [htotal]⟩
    · rw [hnext, hacc, hbits, List.take_append, hlen]
      simp
    · rw [hnext, hacc, List.drop_append, hlen]
      simp

theorem packBits_packed {cfg : Config} {r r' : EncodeRegs} {bits bs : Bits} (hp : Packed r bits)
    (h : packBits cfg r bs = .ok r') : Packed r' (bits ++ bs) := by
  induction bs generalizing r bits with
  | nil => cases h; rwa [List.append_nil]
  | cons b bs ih =>
    obtain ⟨r1, h1, h⟩ := bind_ok h
    have := ih (packBit_packed hp h1) h
    rwa [List.append_assoc] at this

/-- The code of a symbol, empty for a symbol that has none. -/
def codeOf (ptab : List (Symbol × Bits)) (x : Symbol) : Bits := (Table.lookup symKey x ptab).getD []

theorem encodeLoop_packed {cfg : Config} {ptab : List (Symbol × Bits)} {r r' : EncodeRegs} {bits : Bits}
    {l : List Symbol} (hp : Packed r bits) (h : encodeLoop cfg ptab r l = .ok r') :
    Packed r' (bits ++ l.flatMap (codeOf ptab)) := by
  induction l generalizing r bits with
  | nil => cases h; rwa [List.flatMap_nil, List.append_nil]
  | cons x rest ih =>
    cases hx : Table.lookup symKey x ptab with
    | none => simp only [encodeLoop, hx] at h; cases h
    | some code =>
      simp only [encodeLoop, hx] at h
      obtain ⟨r1, h1, h⟩ := bind_ok h
      have := ih (packBits_packed hp h1) h
      rwa [List.append_assoc, show code = codeOf ptab x by rw [codeOf, hx]; rfl] at this

/-- A payload holds the given bits, then zeros up to a whole byte; VALID_BITS counts the bits of its last byte. -/
structure PayloadHolds (pay : Buffer Byte) (validBits : BitVec 4) (bits : Bits) : Prop where
  len : pay.len = pay.elems.length
  holds : ∃ pad < 8, payloadBits pay.elems = bits ++ List.replicate pad false
  valid : validBits = validBitsOf bits.length

theorem flushLast_holds {cfg : Config} {r r' : EncodeRegs} {bits : Bits} (hp : Packed r bits)
    (h : flushLast cfg r = .ok r') : PayloadHolds r'.pay (validBitsOf r'.totalBits) bits := by
  obtain ⟨hpay, hn, hbits, hzeros, htotal⟩ := hp
  unfold flushLast at h
  split at h
  · rename_i h0
    cases h
    rw [h0] at hbits
    exact ⟨by rw [hpay, Buffer.ofList_elems]; rfl, ⟨0, by decide, by simp [hbits]⟩, by rw [htotal]⟩
  · rename_i h0
    obtain ⟨pay, happend, h⟩ := bind_ok h
    cases h
    rw [hpay] at happend
    rw [Buffer.append_ofList_ok happend, htotal]
    have hpos : r.nbits.toNat ≠ 0 := fun h => h0 (BitVec.eq_of_toNat_eq h)
    refine ⟨by rw [Buffer.ofList_elems]; rfl, ⟨8 - r.nbits.toNat, by omega, ?_⟩, rfl⟩
    rw [Buffer.ofList_elems, payloadBits_append, payloadBits_singleton, hbits, ← hzeros, List.append_assoc,
      List.take_append_drop]

/-- What ENCODE leaves: the codes of SYMS in order. -/
theorem encodeBody_holds {s t : State} (h : encodeBody s = .ok t) :
    PayloadHolds t.pay t.validBits (s.syms.elems.flatMap (codeOf s.ptab)) := by
  obtain ⟨r, hr, rfl⟩ := encodeBody_ok h
  obtain ⟨r1, h1, h2⟩ := bind_ok hr
  exact flushLast_holds (encodeLoop_packed .start h1) h2

/-- USABLE is the number of bits that ENCODE packed (30_encoding.md R116). -/
theorem PayloadHolds.usable {pay : Buffer Byte} {validBits : BitVec 4} {bits : Bits}
    (h : PayloadHolds pay validBits bits) (hpos : pay.len ≠ 0) : usableBits pay.len validBits = bits.length := by
  obtain ⟨hlen, ⟨pad, hpad, hbits⟩, hvalid⟩ := h
  have hcount := congrArg List.length hbits
  rw [payloadBits_length, List.length_append, List.length_replicate, ← hlen] at hcount
  rw [hvalid, show pay.len = (bits.length + 7) / 8 by omega, usableBits_validBitsOf (by omega)]

/-- The bits DECODE walks are those that ENCODE packed. -/
theorem PayloadHolds.walked {pay : Buffer Byte} {validBits : BitVec 4} {bits : Bits}
    (h : PayloadHolds pay validBits bits) (hpos : pay.len ≠ 0) : walkedBits pay.elems validBits = bits := by
  obtain ⟨pad, -, hbits⟩ := h.holds
  rw [walkedBits, ← h.len, h.usable hpos, hbits, List.take_left]

/-- The bits below VALID_BITS are 0 (R117). -/
theorem PayloadHolds.padding {pay : Buffer Byte} {validBits : BitVec 4} {bits : Bits}
    (h : PayloadHolds pay validBits bits) {k : Nat} (hk : usableBits pay.len validBits ≤ k) (hk8 : k < 8 * pay.len) :
    (payloadBits pay.elems)[k]? = some false := by
  rw [h.usable (by omega)] at hk
  obtain ⟨pad, -, hbits⟩ := h.holds
  have hcount := congrArg List.length hbits
  rw [payloadBits_length, List.length_append, List.length_replicate, ← h.len] at hcount
  rw [hbits, List.getElem?_append_right hk, List.getElem?_replicate_of_lt (by omega)]

/-! ### DECODE reads the first USABLE bits (30_encoding.md R117) -/

theorem walkedBits_snoc (before : List Byte) (last : Byte) (validBits : BitVec 4) :
    walkedBits (before ++ [last]) validBits = payloadBits before ++ (byteBits last).take validBits.toNat := by
  have husable : usableBits (before ++ [last]).length validBits = (payloadBits before).length + validBits.toNat := by
    rw [usableBits, List.length_append, payloadBits_length, List.length_singleton]; omega
  rw [walkedBits, husable, payloadBits_append, payloadBits_singleton, List.take_length_add_append]

/-- DECODE's operation looks at PAY through its length and the bits it walks. -/
theorem decodeBody_setPay {s : State} {pay : Buffer Byte} (hlen : pay.len = s.pay.len)
    (hwalk : walkedBits pay.elems s.validBits = walkedBits s.pay.elems s.validBits) :
    decodeBody { s with pay := pay } = (decodeBody s).map fun u => { u with pay := pay } := by
  simp only [decodeBody, hlen, hwalk]
  split_ifs
  · rfl
  · rfl
  · cases decodeBits s.cfg s.lut (walkedBits s.pay.elems s.validBits) <;> rfl

theorem exec_decode_setPay {s t : State} {pay : Buffer Byte} (hlen : pay.len = s.pay.len)
    (hwalk : walkedBits pay.elems s.validBits = walkedBits s.pay.elems s.validBits) (h : exec .decode s = .next t) :
    exec .decode { s with pay := pay } = .next { t with pay := pay } := by
  rw [exec_command rfl] at h ⊢
  cases h
  rw [commandBody, commandBody, decodeBody_setPay hlen hwalk]
  cases decodeBody s <;> rfl

/-- Settles O45: ENCODE's accumulator is 0 below the bits packed, and DECODE's bits end where the last byte's valid
ones do. -/
theorem paddingIsZeroAndIgnored : Obligations.PaddingIsZeroAndIgnored := by
  refine ⟨fun s t k h hok hk hk8 => ?_, fun s t before last other hpay _ h8 hshift h => ?_⟩
  · obtain ⟨u, hu, rfl⟩ := exec_status_ok rfl h hok
    exact (encodeBody_holds hu).padding hk hk8
  · refine exec_decode_setPay ?_ ?_ h
    · simp [hpay]
    · rw [hpay, Buffer.ofList_elems, Buffer.ofList_elems, walkedBits_snoc, walkedBits_snoc,
        byteBits_take_congr h8 hshift]

end Sys2Proof.Machine
end

section
/-! DECODE reads back what ENCODE packed with the tables of a tree (O42). -/

namespace Sys2Proof.Machine

/-! ### The paths of a tree (42_code_derive.md R161, R162) -/

theorem Node.mem_paths_internal {c : Count} {l r : Node} {p : Bits × Symbol} : p ∈ (Node.internal c l r).paths ↔
    (∃ q ∈ l.paths, p = (false :: q.1, q.2)) ∨ ∃ q ∈ r.paths, p = (true :: q.1, q.2) := by
  simp only [Node.paths, List.mem_append, List.mem_map, eq_comm]

theorem Node.paths_symbols (n : Node) : n.paths.map Prod.snd = n.symbols := by
  induction n with
  | leaf s c => rfl
  | internal c l r hl hr =>
    simp only [Node.paths, List.map_append, List.map_map, Node.symbols, Node.leaves]
    exact congrArg₂ (· ++ ·) hl hr

/-- No path is the beginning of another. -/
theorem Node.paths_prefix_free {n : Node} {p q : Bits × Symbol} (hp : p ∈ n.paths) (hq : q ∈ n.paths)
    (h : p.1 <+: q.1) : p = q := by
  induction n generalizing p q with
  | leaf s c =>
    rw [Node.paths, List.mem_singleton] at hp hq
    rw [hp, hq]
  | internal c l r hl hr =>
    rw [Node.mem_paths_internal] at hp hq
    rcases hp with ⟨p, hp, rfl⟩ | ⟨p, hp, rfl⟩ <;> rcases hq with ⟨q, hq, rfl⟩ | ⟨q, hq, rfl⟩ <;>
      rw [List.cons_prefix_cons] at h
    · rw [hl hp hq h.2]
    · cases h.1
    · cases h.1
    · rw [hr hp hq h.2]

theorem Node.paths_nodup (n : Node) : (n.paths.map Prod.fst).Nodup := by
  induction n with
  | leaf s c => exact List.nodup_singleton _
  | internal c l r hl hr =>
    have hmap (b : Bool) (m : Node) : (m.paths.map fun p => (b :: p.1, p.2)).map Prod.fst
        = (m.paths.map Prod.fst).map (b :: ·) := by rw [List.map_map, List.map_map]; rfl
    rw [Node.paths, List.map_append, hmap, hmap]
    refine (hl.map (List.cons_injective)).append (hr.map List.cons_injective) ?_
    intro code hleft hright
    obtain ⟨_, -, rfl⟩ := List.mem_map.1 hleft
    obtain ⟨_, -, h⟩ := List.mem_map.1 hright
    cases h

/-- In a tree of two or more leaves every code has a bit. -/
theorem Node.paths_ne_nil {n : Node} (h : 2 ≤ n.symbols.length) {p : Bits × Symbol} (hp : p ∈ n.paths) : p.1 ≠ [] := by
  cases n with
  | leaf s c => exact absurd h (by simp [Node.symbols, Node.leaves])
  | internal c l r => rcases Node.mem_paths_internal.1 hp with ⟨q, -, rfl⟩ | ⟨q, -, rfl⟩ <;> exact List.cons_ne_nil _ _

/-! ### The tables of a tree, with unbounded capacities (R160, R161) -/

/-- The entries of a leaf put into both tables. -/
def CodeTables.insert (t : CodeTables) (p : Bits × Symbol) : CodeTables :=
  ⟨Table.insert symKey p.2 p.1 t.ptab, Table.insert bitsKey p.1 p.2 t.lut⟩

theorem putCode_unbounded {cfg : Config} (h : cfg.Unbounded) (t : CodeTables) (p : Bits × Symbol) :
    putCode cfg p.2 p.1 t = .ok (t.insert p) := by
  simp only [putCode, Config.codeMax, h.nMax, Table.put, checkCap, withinCap_none, Bool.or_true, Option.map_none,
    if_true]
  rfl

/-- The walk puts the leaves' paths into the tables, in pre-order. -/
theorem walkCodes_unbounded {cfg : Config} (h : cfg.Unbounded) (n : Node) (code : Bits) (t : CodeTables) :
    walkCodes cfg n code t = .ok ((n.paths.map fun p => (code ++ p.1, p.2)).foldl CodeTables.insert t) := by
  induction n generalizing code t with
  | leaf s c =>
    rw [walkCodes, putCode_unbounded h t (code, s), Node.paths]
    simp
  | internal c l r hl hr =>
    have hpre (b : Bool) (m : Node) : ((m.paths.map fun p => (b :: p.1, p.2)).map fun p => (code ++ p.1, p.2))
        = m.paths.map fun p => ((code ++ [b]) ++ p.1, p.2) := by
      rw [List.map_map]
      exact List.map_congr_left fun p _ => by simp
    rw [Node.paths, List.map_append, hpre, hpre, List.foldl_append, walkCodes, h.stackMax]
    exact (congrArg (· >>= fun t1 => walkCodes cfg r (code ++ [true]) t1) (hl _ t)).trans (hr _ _)

/-- The tables DERIVE writes for a tree. -/
def treeTables (root : Node) : CodeTables := root.paths.foldl CodeTables.insert ⟨[], []⟩

theorem deriveTables_unbounded {cfg : Config} (h : cfg.Unbounded) (root : Node) :
    deriveTables cfg root = .ok (treeTables root) := by
  rw [deriveTables, walkCodes_unbounded h]
  simp [treeTables]

theorem foldl_insert_ptab (ps : List (Bits × Symbol)) (t : CodeTables) : (ps.foldl CodeTables.insert t).ptab
    = (ps.map Prod.swap).foldl (fun m e => Table.insert symKey e.1 e.2 m) t.ptab := by
  induction ps generalizing t with
  | nil => rfl
  | cons p ps ih => exact ih (t.insert p)

theorem foldl_insert_lut (ps : List (Bits × Symbol)) (t : CodeTables) : (ps.foldl CodeTables.insert t).lut
    = ps.foldl (fun m e => Table.insert bitsKey e.1 e.2 m) t.lut := by
  induction ps generalizing t with
  | nil => rfl
  | cons p ps ih => exact ih (t.insert p)

/-- LUT holds exactly the paths. -/
theorem lookup_treeTables_lut {root : Node} {code : Bits} {x : Symbol} :
    Table.lookup bitsKey code (treeTables root).lut = some x ↔ (code, x) ∈ root.paths := by
  rw [treeTables, foldl_insert_lut, lookup_foldl_insert bitsKey_eq_iff _ _ root.paths_nodup]
  simp

/-- A key written into a table holds the value of one of its entries, the last. -/
theorem exists_lookup_foldl_insert {κ ν : Type} {key : κ → Nat} (hkey : ∀ a b, key a = key b ↔ a = b)
    (entries m : List (κ × ν)) {x : κ} (hx : x ∈ entries.map Prod.fst) :
    ∃ v, (x, v) ∈ entries ∧ Table.lookup key x (entries.foldl (fun m e => Table.insert key e.1 e.2 m) m) = some v := by
  induction entries using List.reverseRecOn with
  | nil => cases hx
  | append_singleton es e ih =>
    rw [List.foldl_append, List.foldl_cons, List.foldl_nil, Table.lookup_insert]
    by_cases he : x = e.1
    · exact ⟨e.2, by simp [he], if_pos ((hkey _ _).2 he)⟩
    · have hes : x ∈ es.map Prod.fst := by simpa [he] using hx
      obtain ⟨v, hv, hlook⟩ := ih hes
      exact ⟨v, List.mem_append_left _ hv, by rw [if_neg (fun h => he ((hkey _ _).1 h)), hlook]⟩

/-- PTAB holds a path of every symbol of the tree. -/
theorem lookup_treeTables_ptab {root : Node} {x : Symbol} (hx : x ∈ root.symbols) :
    ∃ code, (code, x) ∈ root.paths ∧ Table.lookup symKey x (treeTables root).ptab = some code := by
  have hkeys : x ∈ (root.paths.map Prod.swap).map Prod.fst := by
    rw [List.map_map, show Prod.fst ∘ Prod.swap = (Prod.snd : Bits × Symbol → Symbol) from rfl, Node.paths_symbols]
    exact hx
  obtain ⟨code, hmem, hlook⟩ := exists_lookup_foldl_insert symKey_eq_iff (root.paths.map Prod.swap) [] hkeys
  obtain ⟨p, hp, hswap⟩ := List.mem_map.1 hmem
  obtain rfl : p = (code, x) := Prod.swap_injective hswap
  exact ⟨code, hp, by rw [treeTables, foldl_insert_ptab]; exact hlook⟩

/-! ### ENCODE with unbounded capacities (45_bit_encoder.md R190) -/

theorem packBit_unbounded {cfg : Config} (h : cfg.Unbounded) (r : EncodeRegs) (b : Bool) :
    ∃ r', packBit cfg r b = .ok r' := by
  simp only [packBit, Config.bitsMax, h.tbW, h.payCap, Option.map_none, checkCap, Buffer.append, withinCap_none,
    if_true]
  split
  · exact ⟨_, rfl⟩
  · exact ⟨_, rfl⟩

theorem packBits_unbounded {cfg : Config} (h : cfg.Unbounded) (r : EncodeRegs) (bs : Bits) :
    ∃ r', packBits cfg r bs = .ok r' := by
  induction bs generalizing r with
  | nil => exact ⟨r, rfl⟩
  | cons b bs ih =>
    obtain ⟨r1, h1⟩ := packBit_unbounded h r b
    obtain ⟨r2, h2⟩ := ih r1
    exact ⟨r2, by rw [packBits, h1]; exact h2⟩

theorem encodeLoop_unbounded {cfg : Config} (h : cfg.Unbounded) {ptab : List (Symbol × Bits)} (r : EncodeRegs)
    {l : List Symbol} (hl : ∀ x ∈ l, ∃ code, Table.lookup symKey x ptab = some code) :
    ∃ r', encodeLoop cfg ptab r l = .ok r' := by
  induction l generalizing r with
  | nil => exact ⟨r, rfl⟩
  | cons x rest ih =>
    obtain ⟨code, hx⟩ := hl x List.mem_cons_self
    obtain ⟨r1, h1⟩ := packBits_unbounded h r code
    obtain ⟨r2, h2⟩ := ih r1 fun y hy => hl y (List.mem_cons_of_mem x hy)
    refine ⟨r2, ?_⟩
    simp only [encodeLoop, hx]
    rw [h1]
    exact h2

theorem flushLast_unbounded {cfg : Config} (h : cfg.Unbounded) (r : EncodeRegs) : ∃ r', flushLast cfg r = .ok r' := by
  simp only [flushLast, h.payCap, Buffer.append, withinCap_none, if_true]
  split
  · exact ⟨_, rfl⟩
  · exact ⟨_, rfl⟩

/-- ENCODE succeeds where every symbol has a code. -/
theorem encodeBody_unbounded {s : State} (h : s.cfg.Unbounded)
    (hl : ∀ x ∈ s.syms.elems, ∃ code, Table.lookup symKey x s.ptab = some code) : ∃ t, encodeBody s = .ok t := by
  obtain ⟨r1, h1⟩ := encodeLoop_unbounded h ⟨Buffer.empty, 0, 0, 0⟩ hl
  obtain ⟨r2, h2⟩ := flushLast_unbounded h r1
  have hsyms : encodeSyms s.cfg s.ptab s.syms.elems = .ok r2 := by rw [encodeSyms, h1]; exact h2
  exact ⟨_, by rw [encodeBody, hsyms]; rfl⟩

/-! ### DECODE on a run of codes (46_bit_decoder.md R202) -/

/-- The lookup reads `code` as `x`: it matches nothing before the code's end, and there it matches `x`. -/
structure ReadsAs (lut : List (Bits × Symbol)) (code : Bits) (x : Symbol) : Prop where
  ne_nil : code ≠ []
  found : Table.lookup bitsKey code lut = some x
  not_before : ∀ c, c <+: code → c ≠ code → Table.lookup bitsKey c lut = none

/-- The lookup of a tree reads its paths (R162). -/
theorem readsAs_treeTables {root : Node} (h : 2 ≤ root.symbols.length) {p : Bits × Symbol} (hp : p ∈ root.paths) :
    ReadsAs (treeTables root).lut p.1 p.2 where
  ne_nil := Node.paths_ne_nil h hp
  found := lookup_treeTables_lut.2 hp
  not_before c hc hne := by
    cases hl : Table.lookup bitsKey c (treeTables root).lut with
    | none => rfl
    | some y =>
      have heq := Node.paths_prefix_free (lookup_treeTables_lut.1 hl) hp hc
      exact absurd (congrArg Prod.fst heq) hne

/-- The rest of a code, read after the candidate `cand`, emits its symbol and empties the candidate. -/
theorem decodeLoop_code {cfg : Config} (hcap : cfg.symsCap = none) {lut : List (Bits × Symbol)} {cand rest bs : Bits}
    {x : Symbol} (h : ReadsAs lut (cand ++ rest) x) (hrest : rest ≠ []) (l : List Symbol) (pos : Nat) :
    decodeLoop cfg lut (rest ++ bs) ⟨Buffer.ofList l, cand, pos⟩
      = decodeLoop cfg lut bs ⟨Buffer.ofList (l ++ [x]), [], pos + rest.length⟩ := by
  induction rest generalizing cand pos with
  | nil => exact absurd rfl hrest
  | cons b rest ih =>
    rw [List.append_cons] at h
    rw [List.cons_append, decodeLoop]
    cases rest with
    | nil =>
      rw [List.append_nil] at h
      simp only [h.found, hcap, Buffer.append_ofList, withinCap_none, if_true]
      rfl
    | cons b' rest =>
      have hnone := h.not_before (cand ++ [b]) (List.prefix_append _ _) (by simp)
      simp only [hnone]
      rw [ih h (List.cons_ne_nil _ _)]
      simp only [List.length_cons, Nat.add_assoc, Nat.add_comm 1]

/-- A run of codes gives their symbols. -/
theorem decodeLoop_codes {cfg : Config} (hcap : cfg.symsCap = none) {lut : List (Bits × Symbol)} {f : Symbol → Bits}
    {xs : List Symbol} (h : ∀ x ∈ xs, ReadsAs lut (f x) x) (l : List Symbol) (pos : Nat) :
    ∃ pos', decodeLoop cfg lut (xs.flatMap f) ⟨Buffer.ofList l, [], pos⟩ = .ok ⟨Buffer.ofList (l ++ xs), [], pos'⟩ := by
  induction xs generalizing l pos with
  | nil => exact ⟨pos, by rw [List.append_nil]; rfl⟩
  | cons x xs ih =>
    have hx := h x List.mem_cons_self
    obtain ⟨pos', hpos⟩ := ih (fun y hy => h y (List.mem_cons_of_mem x hy)) (l ++ [x]) (pos + (f x).length)
    refine ⟨pos', ?_⟩
    rw [List.flatMap_cons, decodeLoop_code hcap (cand := []) hx hx.ne_nil, hpos, List.append_assoc,
      List.singleton_append]

theorem decodeBits_codes {cfg : Config} (hcap : cfg.symsCap = none) {lut : List (Bits × Symbol)} {f : Symbol → Bits}
    {xs : List Symbol} (h : ∀ x ∈ xs, ReadsAs lut (f x) x) :
    ∃ pos, decodeBits cfg lut (xs.flatMap f) = .ok ⟨Buffer.ofList xs, [], pos⟩ := by
  obtain ⟨pos, hpos⟩ := decodeLoop_codes hcap h [] 0
  refine ⟨pos, ?_⟩
  rw [decodeBits, ← Buffer.ofList_nil, hpos]
  rfl

theorem validBitsOk_validBitsOf (n : Nat) : validBitsOk (validBitsOf n).toNat = true := by
  rw [validBitsOf_toNat, validBitsOk, Bool.and_eq_true, decide_eq_true_eq, decide_eq_true_eq]
  split <;> omega

/-- DECODE's operation on a payload that holds a run of codes its lookup reads. -/
theorem decodeBody_codes {s : State} (hcap : s.cfg.symsCap = none) {f : Symbol → Bits} {xs : List Symbol}
    (h : ∀ x ∈ xs, ReadsAs s.lut (f x) x) (hpay : PayloadHolds s.pay s.validBits (xs.flatMap f)) :
    ∃ cand bitpos usable, decodeBody s
      = .ok { s with syms := Buffer.ofList xs, cand := cand, bitpos := bitpos, usable := usable } := by
  by_cases hlen : s.pay.len = 0
  · have hnil : xs = [] := by
      obtain ⟨pad, -, hbits⟩ := hpay.holds
      have hcount := congrArg List.length hbits
      rw [payloadBits_length, ← hpay.len, hlen, List.length_append] at hcount
      cases xs with
      | nil => rfl
      | cons x xs =>
        have hx := List.length_pos_iff.2 (h x List.mem_cons_self).ne_nil
        rw [List.flatMap_cons, List.length_append] at hcount
        omega
    exact ⟨s.cand, s.bitpos, s.usable, by rw [decodeBody, if_pos hlen, hnil]; rfl⟩
  · obtain ⟨pos, hpos⟩ := decodeBits_codes hcap h
    refine ⟨[], pos, usableBits s.pay.len s.validBits, ?_⟩
    rw [decodeBody, if_neg hlen, hpay.valid, validBitsOk_validBitsOf]
    rw [← hpay.valid, hpay.walked hlen, hpos]
    rfl

/-! ### DERIVE, ENCODE, DECODE -/

/-- A command whose operation succeeds ends with STATUS OK (10_state.md R27). -/
theorem exec_of_body_ok {i : Instr} (hi : i.site = .command) {s t : State} (h : commandBody i s = .ok t) :
    exec i s = .next t.succeed := by
  rw [exec_command hi, h, finish_ok]

/-- The state after DERIVE has written the tables of a tree. -/
def State.derived (s : State) (root : Node) : State :=
  { s with ptab := (treeTables root).ptab, lut := (treeTables root).lut }.succeed

theorem deriveBody_unbounded {s : State} {root : Node} (h : s.cfg.Unbounded) (htree : s.tree = some root) :
    deriveBody s = .ok { s with ptab := (treeTables root).ptab, lut := (treeTables root).lut } := by
  simp only [deriveBody, htree, deriveTables_unbounded h]
  rfl

/-- Settles O42: DERIVE's tables are the tree's paths, ENCODE packs the symbols' paths, and DECODE, no path being the
beginning of another, matches each path at its end. -/
theorem decodeInvertsEncode : Obligations.DecodeInvertsEncode := by
  intro s root hcfg htree hleaves hsyms
  have hunb := s.cfg.unbounded_iff.1 hcfg
  have hcode : ∀ x ∈ s.syms.elems, ∃ code, (code, x) ∈ root.paths
      ∧ Table.lookup symKey x (treeTables root).ptab = some code := fun x hx => lookup_treeTables_ptab (hsyms x hx)
  obtain ⟨u, hu⟩ := encodeBody_unbounded (s := s.derived root) hunb fun x hx => (hcode x hx).imp fun _ => And.right
  obtain ⟨hcap, hlut⟩ : u.cfg.symsCap = none ∧ u.lut = (treeTables root).lut := by
    obtain ⟨r, -, rfl⟩ := encodeBody_ok hu
    exact ⟨hunb.symsCap, rfl⟩
  have hreads : ∀ x ∈ s.syms.elems, ReadsAs u.lut (codeOf (treeTables root).ptab x) x := by
    intro x hx
    obtain ⟨code, hpath, hlook⟩ := hcode x hx
    rw [hlut, codeOf, hlook]
    exact readsAs_treeTables hleaves hpath
  obtain ⟨cand, bitpos, usable, hdec⟩ := decodeBody_codes (s := u.succeed) hcap hreads (encodeBody_holds hu)
  exact ⟨s.derived root, u.succeed, cand, bitpos, usable,
    exec_of_body_ok (i := .derive) rfl (deriveBody_unbounded hunb htree), exec_of_body_ok (i := .encode) rfl hu,
    exec_of_body_ok (i := .decode) rfl hdec⟩

end Sys2Proof.Machine
end

section
/-! What ANALYZE does on any bytes: it counts the text they begin with, and fails where no symbol goes on (O23, O24). -/

namespace Sys2Proof.Machine

/-! ### The count of each symbol of a text (40_frequency_analyzer.md R130) -/

theorem Table.lookup_below {κ ν : Type} {key : κ → Nat} {k : κ} {m : List (κ × ν)} (h : ∀ e ∈ m, key k < key e.1) :
    Table.lookup key k m = none := by
  induction m with
  | nil => rfl
  | cons e rest ih =>
    rw [Table.lookup, if_neg (Nat.ne_of_lt (h e List.mem_cons_self)), ih fun x hx => h x (List.mem_cons_of_mem e hx)]

theorem countSum_cons (e : Symbol × Count) (freq : List (Symbol × Count)) :
    countSum (e :: freq) = e.2 + countSum freq := List.sum_cons

/-- A write replaces the symbol's count in the sum, the count of a symbol with no entry being 0. -/
theorem countSum_insert (x : Symbol) (c : Count) {freq : List (Symbol × Count)} (h : Table.wf symKey freq = true) :
    countSum (Table.insert symKey x c freq) = countSum freq - (Table.lookup symKey x freq).getD 0 + c := by
  induction freq with
  | nil => simp [countSum]
  | cons e rest ih =>
    obtain ⟨hlt, hrest⟩ := Table.wf_cons.1 h
    rw [Table.insert, Table.lookup]
    split
    · rename_i hx
      rw [if_neg (Nat.ne_of_lt hx), Table.lookup_below fun y hy => hx.trans (hlt y hy), countSum_cons, Option.getD_none]
      ring
    · split
      · rw [countSum_cons, countSum_cons, Option.getD_some]
        ring
      · rw [countSum_cons, countSum_cons, ih hrest]
        ring

/-- `FREQ[x] <- FREQ[x] + 1`, or 1 for a new symbol, with no bound on counts and entries. -/
def tally (freq : List (Symbol × Count)) (x : Symbol) : List (Symbol × Count) :=
  Table.insert symKey x ((Table.lookup symKey x freq).getD 0 + 1) freq

/-- The counts of the symbols of a text. -/
def textFreq (l : List Symbol) : List (Symbol × Count) := l.foldl tally []

theorem textFreq_snoc (l : List Symbol) (x : Symbol) : textFreq (l ++ [x]) = tally (textFreq l) x := by
  rw [textFreq, List.foldl_append]
  rfl

theorem textFreq_wf (l : List Symbol) : Table.wf symKey (textFreq l) = true := by
  induction l using List.reverseRecOn with
  | nil => rfl
  | append_singleton l x ih =>
    rw [textFreq_snoc]
    exact Table.wf_insert _ _ ih

theorem lookup_textFreq (l : List Symbol) (x : Symbol) :
    Table.lookup symKey x (textFreq l) = if l.contains x then some (l.count x : Int) else none := by
  induction l using List.reverseRecOn with
  | nil => rfl
  | append_singleton l y ih =>
    rw [textFreq_snoc, tally, Table.lookup_insert]
    by_cases hxy : x = y
    · subst hxy
      by_cases hx : x ∈ l
      · simp [ih, hx]
      · simp [ih, hx, List.count_eq_zero_of_not_mem hx]
    · simp [ih, hxy, Ne.symm hxy]

/-- A symbol that is not in the text has no entry, and counts 0. -/
theorem lookup_textFreq_getD (l : List Symbol) (x : Symbol) :
    (Table.lookup symKey x (textFreq l)).getD 0 = (l.count x : Int) := by
  rw [lookup_textFreq]
  split
  · rfl
  · rename_i hx
    rw [List.count_eq_zero_of_not_mem (by simpa using hx)]
    rfl

theorem countSum_textFreq (l : List Symbol) : countSum (textFreq l) = l.length := by
  induction l using List.reverseRecOn with
  | nil => rfl
  | append_singleton l x ih =>
    rw [textFreq_snoc, tally, countSum_insert _ _ (textFreq_wf l), ih, List.length_append, List.length_singleton]
    push_cast
    ring

/-! ### The loop on a text, with unbounded capacities (R130) -/

theorem countSymbol_textFreq {cfg : Config} (hcap : cfg.nMax = none) {l : List Symbol} (x : Symbol)
    (hmax : (l.length : Int) + 1 ≤ cfg.cntMax) : countSymbol cfg x (textFreq l) = .ok (textFreq (l ++ [x])) := by
  have hcount := List.count_le_length (a := x) (l := l)
  have hcheck : checkCount cfg ((Table.lookup symKey x (textFreq l)).getD 0 + 1)
      = .ok ((Table.lookup symKey x (textFreq l)).getD 0 + 1) := by
    rw [checkCount, lookup_textFreq_getD, if_pos (show (l.count x : Int) + 1 ≤ cfg.cntMax by omega)]
  rw [countSymbol, hcheck, textFreq_snoc]
  simp [bind, Except.bind, Table.put, hcap, tally]

theorem textBytes_append (l m : List Symbol) : textBytes (l ++ m) = textBytes l ++ textBytes m :=
  List.flatMap_append

theorem textBytes_cons (x : Symbol) (l : List Symbol) : textBytes (x :: l) = utf8Encode x ++ textBytes l :=
  List.flatMap_cons

/-- A text has at least as many bytes as symbols. -/
theorem length_le_textBytes (l : List Symbol) : l.length ≤ (textBytes l).length := by
  induction l with
  | nil => exact Nat.le_refl 0
  | cons x l ih =>
    have hpos := utf8Width_pos x
    rw [textBytes_cons, List.length_append, utf8Encode_length, List.length_cons]
    omega

/-- What the loop carries after a text: its symbols, their counts, and the cursor past its bytes. -/
def textRegs (l : List Symbol) : AnalyzeRegs := ⟨Buffer.ofList l, textFreq l, (textBytes l).length⟩

/-- One turn on the encoding of a symbol. -/
theorem analyzeLoop_encode {cfg : Config} (hcfg : cfg.Unbounded) {before : List Symbol} {x : Symbol}
    (hx : isScalar x = true) (hmax : (before.length : Int) + 1 ≤ cfg.cntMax) (turns : Nat) (rest : List Byte) :
    analyzeLoop cfg (turns + 1) (utf8Encode x ++ rest) (textRegs before)
      = analyzeLoop cfg turns rest (textRegs (before ++ [x])) := by
  have hdrop : (utf8Encode x ++ rest).drop (utf8Width x) = rest := List.drop_left' (utf8Encode_length x)
  have hcursor : (textBytes (before ++ [x])).length = (textBytes before).length + utf8Width x := by
    simp [textBytes, utf8Encode_length]
  simp only [analyzeLoop, utf8Decode_encode hx, textRegs, Buffer.append_ofList, hcfg.symsCap, withinCap_none, if_true,
    countSymbol_textFreq hcfg.nMax x hmax, hdrop, hcursor]
  rfl

/-- The turns on the text the bytes begin with. -/
theorem analyzeLoop_text {cfg : Config} (hcfg : cfg.Unbounded) (before : List Symbol) {l : List Symbol}
    (hl : validText l) (hmax : ((before.length + l.length : Nat) : Int) ≤ cfg.cntMax) (turns : Nat) (rest : List Byte) :
    analyzeLoop cfg (l.length + turns) (textBytes l ++ rest) (textRegs before)
      = analyzeLoop cfg turns rest (textRegs (before ++ l)) := by
  induction l generalizing before with
  | nil => rw [List.append_nil, List.length_nil, Nat.zero_add]; rfl
  | cons x l ih =>
    obtain ⟨hx, hl⟩ := List.forall_mem_cons.1 hl
    rw [List.length_cons] at hmax
    rw [textBytes_cons, List.append_assoc, List.length_cons, Nat.add_right_comm,
      analyzeLoop_encode hcfg hx (by omega), ih _ hl (by rw [List.length_append, List.length_singleton]; omega),
      List.append_assoc, List.singleton_append]

theorem analyzeLoop_nil (cfg : Config) (turns : Nat) (r : AnalyzeRegs) : analyzeLoop cfg turns [] r = .ok r := by
  cases turns <;> rfl

/-- ANALYZE's operation on the bytes of a text. -/
theorem analyzeText_textBytes {cfg : Config} (hcfg : cfg.Unbounded) {l : List Symbol} (hl : validText l)
    (hmax : (l.length : Int) ≤ cfg.cntMax) : analyzeText cfg (textBytes l) = .ok (textRegs l) := by
  obtain ⟨turns, hturns⟩ := Nat.exists_eq_add_of_le (length_le_textBytes l)
  have hloop := analyzeLoop_text hcfg [] hl (by simpa using hmax) turns []
  rw [List.append_nil, List.nil_append, ← hturns, analyzeLoop_nil] at hloop
  exact hloop

/-! ### Bytes that are no text (R131) -/

/-- Any bytes are those of a text, followed by bytes that begin with no symbol. -/
theorem exists_text_prefix (bytes : List Byte) :
    ∃ l rest, validText l ∧ bytes = textBytes l ++ rest ∧ ∀ x w, utf8Decode rest ≠ .ok x w := by
  induction hn : bytes.length using Nat.strong_induction_on generalizing bytes with
  | _ n ih =>
    by_cases hdec : ∃ x w, utf8Decode bytes = .ok x w
    · obtain ⟨x, w, hdec⟩ := hdec
      obtain ⟨hx, -, rest, rfl⟩ := utf8Decode_ok_iff.1 hdec
      have hpos := utf8Width_pos x
      rw [List.length_append, utf8Encode_length] at hn
      obtain ⟨l, more, hl, rfl, hmore⟩ := ih rest.length (by omega) rest rfl
      exact ⟨x :: l, more, List.forall_mem_cons.2 ⟨hx, hl⟩, by rw [textBytes_cons, List.append_assoc], hmore⟩
    · exact ⟨[], bytes, List.forall_mem_nil _, rfl, fun x w h => hdec ⟨x, w, h⟩⟩

/-- A turn where bytes are left that begin with no symbol. -/
theorem analyzeLoop_no_symbol {rest : List Byte} (hne : rest ≠ []) (hrest : ∀ x w, utf8Decode rest ≠ .ok x w)
    (cfg : Config) (turns : Nat) (r : AnalyzeRegs) :
    analyzeLoop cfg (turns + 1) rest r = .error .invalidEncoding := by
  rw [analyzeLoop]
  cases hdec : utf8Decode rest with
  | ok x w => exact absurd hdec (hrest x w)
  | ended => exact absurd (utf8Decode_ended_iff.1 hdec) hne
  | truncated => rfl
  | invalid => rfl

/-- ANALYZE's operation on bytes that are no text: it counts the text they begin with, then fails. -/
theorem analyzeText_no_text {cfg : Config} (hcfg : cfg.Unbounded) {bytes : List Byte}
    (hmax : (bytes.length : Int) ≤ cfg.cntMax) (hno : ¬ ∃ l, validText l ∧ bytes = textBytes l) :
    analyzeText cfg bytes = .error .invalidEncoding := by
  obtain ⟨l, rest, hl, rfl, hrest⟩ := exists_text_prefix bytes
  have hne : rest ≠ [] := by
    rintro rfl
    exact hno ⟨l, hl, List.append_nil _⟩
  have hle := length_le_textBytes l
  have hpos := List.length_pos_iff.2 hne
  rw [List.length_append] at hmax
  obtain ⟨turns, hturns⟩ := Nat.exists_eq_add_of_le (by omega : l.length + 1 ≤ (textBytes l).length + rest.length)
  rw [analyzeText, List.length_append, hturns, Nat.add_assoc, Nat.add_comm 1]
  exact (analyzeLoop_text hcfg [] hl (by rw [List.length_nil]; omega) (turns + 1) rest).trans
    (analyzeLoop_no_symbol hne hrest cfg turns _)

/-! ### The obligations about ANALYZE -/

theorem analyzeBody_of_ok {s : State} {r : AnalyzeRegs} (h : analyzeText s.cfg s.src.elems = .ok r) :
    analyzeBody s = .ok { s with syms := r.syms, freq := r.freq, cursor := r.cursor } := by
  rw [analyzeBody, h]
  rfl

theorem analyzeBody_of_error {s : State} {k : ErrKind} (h : analyzeText s.cfg s.src.elems = .error k) :
    analyzeBody s = .error k := by
  rw [analyzeBody, h]
  rfl

/-- Settles O23: each turn of the loop takes the next symbol of the text, by induction on the text. -/
theorem analyzeCountsText : Obligations.AnalyzeCountsText := by
  intro s l hl hsrc hcfg hmax
  have htext : analyzeText s.cfg s.src.elems = .ok (textRegs l) := by
    rw [hsrc]
    exact analyzeText_textBytes (s.cfg.unbounded_iff.1 hcfg) hl hmax
  exact ⟨textFreq l, exec_of_body_ok (i := .analyze) rfl (analyzeBody_of_ok htext), textFreq_wf l, lookup_textFreq l,
    countSum_textFreq l⟩

/-- Settles O24: the bytes begin with a text, and what follows it is neither nothing nor a symbol. -/
theorem analyzeRejectsInvalidText : Obligations.AnalyzeRejectsInvalidText := by
  intro s hcfg hmax hno
  have herr := analyzeBody_of_error (analyzeText_no_text (s.cfg.unbounded_iff.1 hcfg) hmax hno)
  rw [exec_command (i := .analyze) rfl, commandBody, herr, finish_error]
  rfl

end Sys2Proof.Machine
end

section
/-! The order of BUILD's queue (41_tree_builder.md R142): on entries of different insertion numbers it is total, and a
queue filled by insertions is sorted by it (O26). -/

namespace Sys2Proof.Machine

/-- The key of an entry, in the library's lexicographic order. -/
def PQEntry.key (e : PQEntry) : Int ×ₗ Int ×ₗ Nat := toLex (e.cnt, toLex (e.symkey, e.seq))

theorem keyLess_iff_key_lt (a b : PQEntry) : keyLess a b ↔ a.key < b.key := by
  simp [keyLess, PQEntry.key, Prod.Lex.toLex_lt_toLex]

theorem PQEntry.key_ne {a b : PQEntry} (h : a.seq ≠ b.seq) : a.key ≠ b.key := by
  simp [PQEntry.key, h]

theorem keyLess_trans {a b c : PQEntry} (hab : keyLess a b) (hbc : keyLess b c) : keyLess a c := by
  rw [keyLess_iff_key_lt] at *
  exact hab.trans hbc

theorem keyLess_asymm {a b : PQEntry} (h : keyLess a b) : ¬ keyLess b a := by
  rw [keyLess_iff_key_lt] at *
  exact h.not_gt

theorem keyLess_iff_not_keyLess {a b : PQEntry} (h : a.seq ≠ b.seq) : keyLess a b ↔ ¬ keyLess b a := by
  rw [keyLess_iff_key_lt, keyLess_iff_key_lt, not_lt, (PQEntry.key_ne h).le_iff_lt]

/-- An insertion keeps the queue sorted, if the entry's insertion number is new. -/
theorem pqInsert_sorted {e : PQEntry} {q : List PQEntry} (hq : q.Pairwise keyLess) (hseq : ∀ x ∈ q, e.seq ≠ x.seq) :
    (pqInsert e q).Pairwise keyLess := by
  induction q with
  | nil => exact List.pairwise_singleton _ _
  | cons x rest ih =>
    obtain ⟨hx, hrest⟩ := List.pairwise_cons.1 hq
    obtain ⟨hex, hseq⟩ := List.forall_mem_cons.1 hseq
    rw [pqInsert]
    split
    · rename_i hbefore
      have hlt : keyLess e x := (keyLess_iff_before e x).2 hbefore
      exact List.pairwise_cons.2 ⟨List.forall_mem_cons.2 ⟨hlt, fun y hy => keyLess_trans hlt (hx y hy)⟩, hq⟩
    · rename_i hbefore
      have hlt : keyLess x e := (keyLess_iff_not_keyLess hex.symm).2 fun h => hbefore ((keyLess_iff_before e x).1 h)
      refine List.pairwise_cons.2 ⟨fun y hy => ?_, ih hrest hseq⟩
      rcases List.mem_cons.1 ((pqInsert_perm e rest).mem_iff.1 hy) with rfl | hy
      · exact hlt
      · exact hx y hy

theorem foldl_pqInsert_sorted {es q : List PQEntry} (hq : q.Pairwise keyLess)
    (hseq : ((es ++ q).map PQEntry.seq).Nodup) : (es.foldl (fun q e => pqInsert e q) q).Pairwise keyLess := by
  induction es generalizing q with
  | nil => exact hq
  | cons e es ih =>
    have hperm : (es ++ pqInsert e q).Perm (e :: es ++ q) := ((pqInsert_perm e q).append_left es).trans List.perm_middle
    refine ih (pqInsert_sorted hq fun x hx heq => ?_) ((hperm.map PQEntry.seq).nodup_iff.2 hseq)
    rw [List.cons_append, List.map_cons, List.nodup_cons, heq] at hseq
    exact hseq.1 (List.mem_map_of_mem (List.mem_append_right es hx))

theorem pqOfList_sorted {es : List PQEntry} (hseq : (es.map PQEntry.seq).Nodup) :
    (pqOfList es).Pairwise keyLess :=
  foldl_pqInsert_sorted .nil (by rwa [List.append_nil])

/-- Settles O26: an insertion puts the entry before the first one it is less than, and the order is total. -/
theorem queueHeadIsLeast : Obligations.QueueHeadIsLeast := by
  refine ⟨fun a b hseq => ?_, fun a b => (keyLess_iff_before a b).symm, fun es hseq => ⟨pqOfList_perm es, ?_⟩⟩
  · rw [← keyLess_iff_before, ← keyLess_iff_before]
    exact keyLess_iff_not_keyLess hseq
  · exact (pqOfList_sorted hseq).imp (keyLess_iff_before _ _).1

end Sys2Proof.Machine
end

section
/-! The three checks of BUILD, and that ANALYZE writes no bad count (41_tree_builder.md R141, O25). -/

namespace Sys2Proof.Machine

/-! ### The checks -/

theorem positive_iff (freq : List (Symbol × Count)) :
    positive freq ↔ freq.any (fun e => decide (e.2 ≤ 0)) = false := by
  simp [positive]

theorem buildTree_nonPositive {cfg : Config} {freq : List (Symbol × Count)} (h : ∃ e ∈ freq, e.2 ≤ 0) :
    buildTree cfg freq = .error .nonPositiveFrequency := by
  obtain ⟨e, he, hle⟩ := h
  have hne : freq.length ≠ 0 := List.length_pos_of_mem he |>.ne'
  have hany : freq.any (fun e => decide (e.2 ≤ 0)) = true := List.any_eq_true.2 ⟨e, he, decide_eq_true hle⟩
  rw [buildTree, if_neg hne, if_pos hany]

theorem buildTree_single {cfg : Config} {freq : List (Symbol × Count)} (h : freq.length = 1) (hpos : positive freq) :
    buildTree cfg freq = .error .insufficientSymbols := by
  rw [buildTree, if_neg (by omega), (positive_iff freq).1 hpos, if_neg Bool.false_ne_true, if_pos h]

theorem exec_build_of_error {s : State} {k : ErrKind} (h : buildTree s.cfg s.freq = .error k) :
    exec .build s = .next { s with tree := none, ptab := [], lut := [], status := .err, err := k.code } := by
  rw [exec_command (i := .build) rfl, commandBody, buildBody, h]
  rfl

/-! ### The counts ANALYZE writes -/

/-- A turn of ANALYZE writes a count it has raised by one. -/
theorem countSymbol_positive {cfg : Config} {x : Symbol} {m m' : List (Symbol × Count)} (h : positive m)
    (hc : countSymbol cfg x m = .ok m') : positive m' := by
  obtain ⟨c, hcheck, hput⟩ := bind_ok hc
  obtain ⟨rfl, -⟩ := checkCount_ok hcheck
  have hnew : 0 < (Table.lookup symKey x m).getD 0 + 1 := by
    cases hl : Table.lookup symKey x m with
    | none => exact Int.one_pos
    | some c =>
      obtain ⟨k, hk⟩ := Table.exists_mem_of_lookup hl
      exact Int.add_pos (h _ hk) Int.one_pos
  rcases Table.put_cases hput with ⟨hm, -⟩ | ⟨hm, -, -⟩
  · cases hm
    intro e he
    rcases Table.mem_insert he with rfl | he
    · exact hnew
    · exact h e he
  · cases hm

theorem analyzeLoop_positive {cfg : Config} {turns : Nat} {bytes : List Byte} {r r' : AnalyzeRegs}
    (hr : positive r.freq) (h : analyzeLoop cfg turns bytes r = .ok r') : positive r'.freq := by
  induction turns generalizing bytes r with
  | zero => cases h; exact hr
  | succ turns ih =>
    unfold analyzeLoop at h
    cases hu : utf8Decode bytes with
    | ended => rw [hu] at h; cases h; exact hr
    | truncated => rw [hu] at h; cases h
    | invalid => rw [hu] at h; cases h
    | ok x w =>
      rw [hu] at h
      obtain ⟨syms, -, h⟩ := bind_ok h
      obtain ⟨freq, hcount, h⟩ := bind_ok h
      exact ih (countSymbol_positive hr hcount) h

/-- FREQ after ANALYZE: the counts of its loop, or nothing after an error. -/
theorem exec_analyze_positive {s t : State} (h : exec .analyze s = .next t) : positive t.freq := by
  rw [exec_command (i := .analyze) rfl] at h
  cases h
  cases hbody : commandBody .analyze s with
  | error k => exact List.forall_mem_nil _
  | ok u =>
    obtain ⟨r, hr, rfl⟩ := analyzeBody_ok hbody
    exact analyzeLoop_positive (r := ⟨Buffer.empty, [], 0⟩) (List.forall_mem_nil _) hr

/-- Settles O25: each check raises its error where those before it pass. -/
theorem buildRejectsBadMaps : Obligations.BuildRejectsBadMaps := by
  refine ⟨fun s => ⟨fun h => ?_, fun h => ?_, fun h hpos => ?_⟩, fun s t => exec_analyze_positive⟩
  · exact exec_build_of_error (k := .emptyFrequencyMap) (by rw [h]; rfl)
  · exact exec_build_of_error (buildTree_nonPositive h)
  · exact exec_build_of_error (buildTree_single h hpos)

end Sys2Proof.Machine
end

section
/-! BUILD as a function of the map, and a DERIVE after it (41_tree_builder.md R145, R149; O29, O30). -/

namespace Sys2Proof.Machine

/-! ### What BUILD reads, and the tables it leaves -/

theorem buildBody_reads {s s' : State} (hc : s.cfg = s'.cfg) (hf : s.freq = s'.freq) :
    (buildBody s).map (fun u => (u.tree, u.ptab, u.lut)) = (buildBody s').map fun u => (u.tree, u.ptab, u.lut) := by
  simp only [buildBody, hc, hf]
  cases buildTree s'.cfg s'.freq with
  | error k => rfl
  | ok b => cases h : deriveTables s'.cfg b.root <;> simp [h, bind, Except.bind, Except.map]

/-- Where the tables are the derivation of the tree already, DERIVE's operation changes nothing. -/
theorem deriveBody_eq_self {s : State} {root : Node} (ht : s.tree = some root)
    (h : deriveTables s.cfg root = .ok ⟨s.ptab, s.lut⟩) : deriveBody s = .ok s := by
  simp only [deriveBody, ht, h]
  rw [← ht]
  rfl

/-- Settles O30: BUILD's last phase is the derivation DERIVE runs again. -/
theorem deriveAfterBuildChangesNothing : Obligations.DeriveAfterBuildChangesNothing := by
  intro s t h hok
  obtain ⟨u, hu, rfl⟩ := exec_status_ok (i := .build) rfl h hok
  obtain ⟨root, htree, htables⟩ : ∃ root, u.succeed.tree = some root
      ∧ deriveTables u.succeed.cfg root = .ok ⟨u.succeed.ptab, u.succeed.lut⟩ := by
    obtain ⟨b, c, -, hc, rfl⟩ := buildBody_ok hu
    exact ⟨b.root, rfl, hc⟩
  exact ⟨⟨root, htree, htables⟩,
    exec_of_body_ok (i := .derive) (t := u.succeed) rfl (deriveBody_eq_self htree htables)⟩

/-! ### The order in which a host writes the entries of a map (10_state.md R25) -/

section
variable {κ ν : Type} {key : κ → Nat}

theorem Table.wf_iff_pairwise (m : List (κ × ν)) : Table.wf key m = true ↔ m.Pairwise fun e x => key e.1 < key x.1 := by
  induction m with
  | nil => simp [Table.wf]
  | cons e rest ih => rw [Table.wf_cons, List.pairwise_cons, ih]

theorem Table.nodup_of_wf {m : List (κ × ν)} (h : Table.wf key m = true) : m.Nodup := by
  refine ((Table.wf_iff_pairwise m).1 h).imp ?_
  rintro e _ hlt rfl
  exact Nat.lt_irrefl _ hlt

/-- In canonical form a lookup finds exactly the entries. -/
theorem Table.lookup_iff_mem (hkey : ∀ a b, key a = key b ↔ a = b) {m : List (κ × ν)} (h : Table.wf key m = true)
    (k : κ) (v : ν) : Table.lookup key k m = some v ↔ (k, v) ∈ m := by
  induction m with
  | nil => simp
  | cons e rest ih =>
    obtain ⟨hlt, hrest⟩ := Table.wf_cons.1 h
    rw [Table.lookup, List.mem_cons]
    split
    · rename_i hk
      obtain rfl : k = e.1 := (hkey _ _).1 hk
      have hnot : (e.1, v) ∉ rest := fun hmem => Nat.lt_irrefl _ (hlt (e.1, v) hmem)
      simp [hnot, Prod.ext_iff, eq_comm]
    · rename_i hk
      have hne : (k, v) ≠ e := fun he => hk (by rw [← he])
      simp [ih hrest, hne]

/-- The map of entries with unique keys holds exactly those entries. -/
theorem Table.mem_ofEntries (hkey : ∀ a b, key a = key b ↔ a = b) {m : List (κ × ν)}
    (hu : Table.uniqueKeys key m = true) (e : κ × ν) : e ∈ Table.ofEntries key m ↔ e ∈ m := by
  rw [← Table.lookup_iff_mem hkey (Table.wf_ofEntries m), lookup_ofEntries hkey hu]

theorem Table.uniqueKeys_perm (hkey : ∀ a b, key a = key b ↔ a = b) {m1 m2 : List (κ × ν)} (hp : m1.Perm m2) :
    Table.uniqueKeys key m1 = Table.uniqueKeys key m2 := by
  rw [Bool.eq_iff_iff, uniqueKeys_iff hkey, uniqueKeys_iff hkey, (hp.map Prod.fst).nodup_iff]

/-- Two maps in canonical form with the same entries are one map. -/
theorem Table.ext_mem {m1 m2 : List (κ × ν)} (h1 : Table.wf key m1 = true) (h2 : Table.wf key m2 = true)
    (h : ∀ e, e ∈ m1 ↔ e ∈ m2) : m1 = m2 :=
  List.Perm.eq_of_pairwise (fun _ _ _ _ hab hba => absurd hab hba.not_gt) ((Table.wf_iff_pairwise m1).1 h1)
    ((Table.wf_iff_pairwise m2).1 h2) ((List.perm_ext_iff_of_nodup (Table.nodup_of_wf h1) (Table.nodup_of_wf h2)).2 h)

theorem Table.ofEntries_perm (hkey : ∀ a b, key a = key b ↔ a = b) {m1 m2 : List (κ × ν)} (hp : m1.Perm m2)
    (hu : Table.uniqueKeys key m1 = true) : Table.ofEntries key m1 = Table.ofEntries key m2 := by
  refine Table.ext_mem (Table.wf_ofEntries m1) (Table.wf_ofEntries m2) fun e => ?_
  rw [Table.mem_ofEntries hkey hu, Table.mem_ofEntries hkey (Table.uniqueKeys_perm hkey hp ▸ hu), hp.mem_iff]

end

/-- Settles O29: BUILD's operation reads `cfg` and FREQ only, and a map in canonical form does not tell the order its
entries were written in. -/
theorem buildIsAFunctionOfTheMap : Obligations.BuildIsAFunctionOfTheMap := by
  refine ⟨fun s s' t t' hc hf h h' => ?_, fun s m1 m2 hp hu => ?_⟩
  · simpa only [Prod.mk.injEq, and_assoc] using
      exec_congr _ rfl h h' (buildBody_reads hc hf) (fun _ => rfl) (fun _ => rfl)
  · have hkeeps : writeKeepsType (.setFreq m1) s = writeKeepsType (.setFreq m2) s := by
      simp only [writeKeepsType, freqOk, Table.uniqueKeys_perm symKey_eq_iff hp, hp.all_eq, hp.length_eq]
    have happly : applyWrite (.setFreq m1) s = applyWrite (.setFreq m2) s := by
      simp only [applyWrite, Table.ofEntries_perm symKey_eq_iff hp hu]
    rw [hostAct_write rfl, hostAct_write rfl, hkeeps, happly]

end Sys2Proof.Machine
end

section
/-! BUILD makes the tree of its merges (41_tree_builder.md R140, R142 to R144; O27): `Merges` has one result, the loop of
BUILD reaches it, and what the tree holds is told by induction over the merges. -/

namespace Sys2Proof.Machine

/-! ### A pop has one outcome, in whatever order the queue is kept (R142) -/

theorem PopsMin.perm {q q' rest : List PQEntry} {a : PQEntry} (h : PopsMin q a rest) (hp : q.Perm q') :
    PopsMin q' a rest :=
  ⟨hp.symm.trans h.1, h.2⟩

theorem PopsMin.of_sorted {a : PQEntry} {rest : List PQEntry} (h : (a :: rest).Pairwise keyLess) :
    PopsMin (a :: rest) a rest :=
  ⟨.refl _, (List.pairwise_cons.1 h).1⟩

theorem PopsMin.unique {q q' rest rest' : List PQEntry} {a a' : PQEntry} (h : PopsMin q a rest)
    (h' : PopsMin q' a' rest') (hp : q.Perm q') : a = a' ∧ rest.Perm rest' := by
  have hcons : (a :: rest).Perm (a' :: rest') := h.1.symm.trans (hp.trans h'.1)
  have heq : a = a' := by
    by_contra hne
    have ha : a ∈ rest' := (List.mem_cons.1 (hcons.mem_iff.1 List.mem_cons_self)).resolve_left hne
    have ha' : a' ∈ rest := (List.mem_cons.1 (hcons.mem_iff.2 List.mem_cons_self)).resolve_left (Ne.symm hne)
    exact keyLess_asymm (h.2 a' ha') (h'.2 a ha)
  subst heq
  exact ⟨rfl, hcons.cons_inv⟩

theorem PopsMin.perm_two {q q1 q2 : List PQEntry} {a b : PQEntry} (first : PopsMin q a q1) (second : PopsMin q1 b q2) :
    q.Perm (a :: b :: q2) :=
  first.1.trans (second.1.cons a)

/-! ### Merging has one result (R143) -/

theorem Merges.perm {symkey : Int} {seq : Nat} {q q' : List PQEntry} {root : Node} (h : Merges symkey seq q root)
    (hp : q.Perm q') : Merges symkey seq q' root := by
  cases h with
  | done _ e =>
    rw [← List.singleton_perm.1 hp]
    exact .done seq e
  | merge first second rest => exact .merge (first.perm hp) second rest

theorem Merges.unique {symkey : Int} {seq : Nat} {q q' : List PQEntry} {root root' : Node}
    (h : Merges symkey seq q root) (h' : Merges symkey seq q' root') (hp : q.Perm q') : root = root' := by
  induction h generalizing q' root' with
  | done seq e =>
    rw [← List.singleton_perm.1 hp] at h'
    cases h' with
    | done => rfl
    | merge first second _ => exact absurd (first.perm_two second).length_eq (by simp)
  | merge first second _ ih =>
    cases h' with
    | done => exact absurd (hp.symm.trans (first.perm_two second)).length_eq (by simp)
    | merge first' second' rest' =>
      obtain ⟨rfl, hp1⟩ := first.unique first' hp
      obtain ⟨rfl, hp2⟩ := second.unique second' hp1
      exact ih rest' (hp2.cons _)

/-! ### The tree of a merging (R144, R35 b) -/

/-- Merging keeps the leaves. -/
theorem Merges.leaves_perm {symkey : Int} {seq : Nat} {q : List PQEntry} {root : Node} (h : Merges symkey seq q root) :
    root.leaves.Perm (q.flatMap fun e => e.node.leaves) := by
  induction h with
  | done seq e => rw [List.flatMap_singleton]
  | merge first second _ ih =>
    refine ih.trans (.trans ?_ ((first.perm_two second).flatMap_right _).symm)
    rw [List.flatMap_cons, List.flatMap_cons, List.flatMap_cons, Node.leaves, List.append_assoc]

/-- Merging entries whose keys hold their nodes' counts makes every Internal's count the sum of its children's. -/
theorem Merges.sumsHold {symkey : Int} {seq : Nat} {q : List PQEntry} {root : Node} (h : Merges symkey seq q root)
    (hq : ∀ e ∈ q, e.cnt = e.node.count ∧ e.node.sumsHold) : root.sumsHold := by
  induction h with
  | done seq e => exact (hq e List.mem_cons_self).2
  | merge first second _ ih =>
    have hall := fun e he => hq e ((first.perm_two second).mem_iff.2 he)
    obtain ⟨⟨ha, hasums⟩, ⟨hb, hbsums⟩, hrest⟩ := by simpa only [List.forall_mem_cons] using hall
    exact ih (List.forall_mem_cons.2 ⟨⟨rfl, by rw [ha, hb], hasums, hbsums⟩, hrest⟩)

theorem countSum_append (m1 m2 : List (Symbol × Count)) : countSum (m1 ++ m2) = countSum m1 + countSum m2 := by
  rw [countSum, List.map_append, List.sum_append, countSum, countSum]

theorem Node.count_eq_countSum {n : Node} (h : n.sumsHold) : n.count = countSum n.leaves := by
  induction n with
  | leaf s c => simp [Node.count, Node.leaves, countSum]
  | internal c l r hl hr =>
    obtain ⟨hc, hlsums, hrsums⟩ := h
    rw [Node.count, hc, hl hlsums, hr hrsums, Node.leaves, countSum_append]

theorem Node.internals_succ (n : Node) : n.internals + 1 = n.leaves.length := by
  induction n with
  | leaf s c => rfl
  | internal c l r hl hr =>
    rw [Node.internals, Node.leaves, List.length_append, ← hl, ← hr]
    omega

/-! ### The queue of the leaves (R142) -/

theorem leafEntries_eq_zipIdx (k : Nat) (freq : List (Symbol × Count)) :
    leafEntries k freq = (freq.zipIdx k).map fun e => ⟨e.1.2, e.1.1.toNat, e.2, .leaf e.1.1 e.1.2⟩ := by
  induction freq generalizing k with
  | nil => rfl
  | cons e rest ih => rw [leafEntries, ih, List.zipIdx_cons, List.map_cons]

theorem leafEntries_eq_queueLeaves (freq : List (Symbol × Count)) : leafEntries 0 freq = queueLeaves freq :=
  leafEntries_eq_zipIdx 0 freq

theorem queueLeaves_length (freq : List (Symbol × Count)) : (queueLeaves freq).length = freq.length := by
  rw [queueLeaves, List.length_map, List.length_zipIdx]

theorem queueLeaves_seq (freq : List (Symbol × Count)) :
    (queueLeaves freq).map PQEntry.seq = List.range freq.length := by
  rw [queueLeaves, List.map_map, List.range_eq_range', ← List.zipIdx_map_snd]
  rfl

theorem queueLeaves_cnt (freq : List (Symbol × Count)) : (queueLeaves freq).map PQEntry.cnt = freq.map Prod.snd := by
  conv_rhs => rw [← List.zipIdx_map_fst 0 freq, List.map_map]
  rw [queueLeaves, List.map_map]
  rfl

theorem queueLeaves_leaves (freq : List (Symbol × Count)) :
    ((queueLeaves freq).flatMap fun e => e.node.leaves) = freq := by
  conv_rhs => rw [← List.zipIdx_map_fst 0 freq, List.map_eq_flatMap]
  rw [queueLeaves, List.flatMap_map]
  rfl

theorem queueLeaves_counts {freq : List (Symbol × Count)} {e : PQEntry} (h : e ∈ queueLeaves freq) :
    e.cnt = e.node.count ∧ e.node.sumsHold := by
  obtain ⟨x, -, rfl⟩ := List.mem_map.1 h
  exact ⟨rfl, trivial⟩

/-! ### BUILD's loop merges its queue (R143, R144) -/

theorem mergeLoop_of_le {cfg : Config} {a b : PQEntry} (h : a.cnt + b.cnt ≤ cfg.cntMax) (turns : Nat)
    (rest : List PQEntry) (seq : Nat) : mergeLoop cfg (turns + 1) (a :: b :: rest) seq
      = mergeLoop cfg turns (pqInsert ⟨a.cnt + b.cnt, internalSymkey cfg, seq,
          .internal (a.cnt + b.cnt) a.node b.node⟩ rest) (seq + 1) := by
  rw [mergeLoop, checkCount, if_pos h]
  rfl

/-- A queue of BUILD's loop whose next insertion number is `seq`: sorted, numbered below `seq`, no count negative, the
sum of the counts within CNT_MAX. -/
structure QueueReady (cfg : Config) (q : List PQEntry) (seq : Nat) : Prop where
  sorted : q.Pairwise keyLess
  below : ∀ e ∈ q, e.seq < seq
  count : ∀ e ∈ q, 0 ≤ e.cnt
  sum : (q.map PQEntry.cnt).sum ≤ cfg.cntMax

theorem QueueReady.pair_le {cfg : Config} {a b : PQEntry} {rest : List PQEntry} {seq : Nat}
    (h : QueueReady cfg (a :: b :: rest) seq) : a.cnt + b.cnt ≤ cfg.cntMax := by
  have hrest : 0 ≤ (rest.map PQEntry.cnt).sum :=
    List.sum_nonneg (List.forall_mem_map.2 fun e he => h.count e (by simp [he]))
  have hsum := h.sum
  rw [List.map_cons, List.map_cons, List.sum_cons, List.sum_cons, ← Int.add_assoc] at hsum
  exact (Int.le_add_of_nonneg_right hrest).trans hsum

/-- A merge keeps the queue ready. -/
theorem QueueReady.merged {cfg : Config} {a b : PQEntry} {rest : List PQEntry} {seq : Nat}
    (h : QueueReady cfg (a :: b :: rest) seq) (symkey : Int) (node : Node) :
    QueueReady cfg (pqInsert ⟨a.cnt + b.cnt, symkey, seq, node⟩ rest) (seq + 1) := by
  obtain ⟨hsorted, hbelow, hcount, hsum⟩ := h
  simp only [List.forall_mem_cons] at hbelow hcount
  obtain ⟨-, -, hbelow⟩ := hbelow
  obtain ⟨ha, hb, hcount⟩ := hcount
  have hperm := pqInsert_perm ⟨a.cnt + b.cnt, symkey, seq, node⟩ rest
  refine ⟨pqInsert_sorted hsorted.of_cons.of_cons fun x hx => (hbelow x hx).ne', fun e he => ?_, fun e he => ?_, ?_⟩
  · rcases List.mem_cons.1 (hperm.mem_iff.1 he) with rfl | he
    · exact Nat.lt_succ_self seq
    · exact Nat.lt_succ_of_lt (hbelow e he)
  · rcases List.mem_cons.1 (hperm.mem_iff.1 he) with rfl | he
    · exact Int.add_nonneg ha hb
    · exact hcount e he
  · rw [(hperm.map PQEntry.cnt).sum_eq, List.map_cons, List.sum_cons, Int.add_assoc]
    simpa only [List.map_cons, List.sum_cons] using hsum

/-- On a ready queue the loop ends with the one entry that merging gives, having taken a number for each merge. -/
theorem mergeLoop_merges {cfg : Config} {turns seq : Nat} {q : List PQEntry} (h : QueueReady cfg q seq) (hne : q ≠ [])
    (hturns : q.length ≤ turns) :
    ∃ e, mergeLoop cfg turns q seq = .ok ([e], seq + (q.length - 1)) ∧ Merges (internalSymkey cfg) seq q e.node := by
  induction turns generalizing q seq with
  | zero => exact absurd (List.length_eq_zero_iff.1 (Nat.le_zero.1 hturns)) hne
  | succ turns ih =>
    match q with
    | [] => exact absurd rfl hne
    | [e] => exact ⟨e, rfl, .done seq e⟩
    | a :: b :: rest =>
      rw [mergeLoop_of_le h.pair_le]
      have hready := h.merged (internalSymkey cfg) (.internal (a.cnt + b.cnt) a.node b.node)
      have hperm := pqInsert_perm ⟨a.cnt + b.cnt, internalSymkey cfg, seq, .internal (a.cnt + b.cnt) a.node b.node⟩ rest
      have hlen := hperm.length_eq
      simp only [List.length_cons] at hlen hturns
      obtain ⟨e, hloop, hmerges⟩ := ih hready (List.ne_nil_of_length_eq_add_one hlen) (by omega)
      refine ⟨e, ?_, .merge (.of_sorted h.sorted) (.of_sorted h.sorted.of_cons) (hmerges.perm hperm)⟩
      rw [hloop, hlen, List.length_cons, List.length_cons]
      congr 2
      omega

theorem queueReady_leaves {cfg : Config} {freq : List (Symbol × Count)} (hpos : positive freq)
    (hmax : countSum freq ≤ cfg.cntMax) : QueueReady cfg (pqOfList (queueLeaves freq)) freq.length := by
  have hperm := pqOfList_perm (queueLeaves freq)
  refine ⟨pqOfList_sorted (by rw [queueLeaves_seq]; exact List.nodup_range), fun e he => ?_, fun e he => ?_, ?_⟩
  · rw [← List.mem_range, ← queueLeaves_seq]
    exact List.mem_map_of_mem (hperm.mem_iff.1 he)
  · have hcnt : e.cnt ∈ freq.map Prod.snd := queueLeaves_cnt freq ▸ List.mem_map_of_mem (hperm.mem_iff.1 he)
    obtain ⟨x, hx, heq⟩ := List.mem_map.1 hcnt
    exact heq ▸ (hpos x hx).le
  · rwa [(hperm.map PQEntry.cnt).sum_eq, queueLeaves_cnt]

theorem buildTree_merges {cfg : Config} {freq : List (Symbol × Count)} (hlen : 2 ≤ freq.length) (hpos : positive freq)
    (hmax : countSum freq ≤ cfg.cntMax) : ∃ root, buildTree cfg freq = .ok ⟨root, 2 * freq.length - 1⟩
      ∧ Merges (internalSymkey cfg) freq.length (queueLeaves freq) root := by
  have hperm := pqOfList_perm (queueLeaves freq)
  have hqlen : (pqOfList (queueLeaves freq)).length = freq.length := hperm.length_eq.trans (queueLeaves_length freq)
  obtain ⟨e, hloop, hmerges⟩ := mergeLoop_merges (queueReady_leaves hpos hmax)
    (List.ne_nil_of_length_pos (by omega)) hqlen.le
  refine ⟨e.node, ?_, hmerges.perm hperm⟩
  rw [buildTree, if_neg (by omega), (positive_iff freq).1 hpos, if_neg Bool.false_ne_true, if_neg (by omega),
    leafEntries_eq_queueLeaves, hloop, hqlen, show freq.length + (freq.length - 1) = 2 * freq.length - 1 by omega]
  rfl

theorem buildBody_of_ok {s : State} {b : BuiltTree} {c : CodeTables} (hb : buildTree s.cfg s.freq = .ok b)
    (hc : deriveTables s.cfg b.root = .ok c) : buildBody s
      = .ok { s with tree := some b.root, ptab := c.ptab, lut := c.lut, pq := [], seq := b.seq } := by
  simp only [buildBody, hb, bind, Except.bind, hc]

/-- Settles O27: the loop keeps its queue sorted, so the entries it takes are the least ones, and merging has one
result. -/
theorem buildMakesTree : Obligations.BuildMakesTree := by
  intro s hcfg _ hlen hpos hmax
  obtain ⟨root, hbuild, hmerges⟩ := buildTree_merges hlen hpos hmax
  have hderive := deriveTables_unbounded (s.cfg.unbounded_iff.1 hcfg) root
  have hleaves : root.leaves.Perm s.freq := by
    rw [← queueLeaves_leaves s.freq]
    exact hmerges.leaves_perm
  have hsums : root.sumsHold := hmerges.sumsHold fun _ => queueLeaves_counts
  have hcount : root.count = countSum s.freq := (Node.count_eq_countSum hsums).trans (hleaves.map Prod.snd).sum_eq
  exact ⟨root, treeTables root, exec_of_body_ok (i := .build) rfl (buildBody_of_ok hbuild hderive), hderive, hleaves,
    hsums, hcount, root.internals_succ.trans hleaves.length_eq,
    fun r => ⟨fun h => h.unique hmerges (.refl _), fun h => h ▸ hmerges⟩⟩

end Sys2Proof.Machine
end

section
/-! The tables DERIVE writes, in every configuration: each is the map of the tree's paths (42_code_derive.md R160, R161,
R164; O31). -/

namespace Sys2Proof.Machine

/-! ### The tables of a tree as maps of its paths -/

theorem treeTables_lut (root : Node) : (treeTables root).lut = Table.ofEntries bitsKey root.paths :=
  foldl_insert_lut root.paths ⟨[], []⟩

theorem treeTables_ptab (root : Node) :
    (treeTables root).ptab = Table.ofEntries symKey (root.paths.map Prod.swap) :=
  foldl_insert_ptab root.paths ⟨[], []⟩

section
variable {κ ν : Type} {key : κ → Nat}

/-- Of the entries of one key the last one written counts. -/
theorem Table.lookup_ofEntries_eq_find? [BEq κ] [LawfulBEq κ] (hkey : ∀ a b, key a = key b ↔ a = b)
    (entries : List (κ × ν)) (k : κ) :
    Table.lookup key k (Table.ofEntries key entries) = (entries.reverse.find? fun e => e.1 == k).map Prod.snd := by
  induction entries using List.reverseRecOn with
  | nil => rfl
  | append_singleton es e ih =>
    rw [Table.ofEntries, List.foldl_append, List.foldl_cons, List.foldl_nil, Table.lookup_insert,
      List.reverse_append, List.reverse_singleton, List.singleton_append, List.find?_cons]
    by_cases he : e.1 = k
    · rw [if_pos ((hkey _ _).2 he.symm), beq_iff_eq.2 he]
      rfl
    · rw [if_neg fun h => he ((hkey _ _).1 h).symm, beq_eq_false_iff_ne.2 he]
      exact ih

/-- Where no key stands twice, the first entry of a key is the only one. -/
theorem find?_map_snd_eq_some_iff [BEq κ] [LawfulBEq κ] {entries : List (κ × ν)}
    (h : (entries.map Prod.fst).Nodup) (k : κ) (v : ν) :
    (entries.find? fun e => e.1 == k).map Prod.snd = some v ↔ (k, v) ∈ entries := by
  induction entries with
  | nil => simp
  | cons e rest ih =>
    obtain ⟨hnot, hrest⟩ := List.nodup_cons.1 h
    rw [List.find?_cons, List.mem_cons]
    by_cases he : e.1 = k
    · subst he
      have hno : (e.1, v) ∉ rest := fun hmem => hnot (List.mem_map.2 ⟨_, hmem, rfl⟩)
      simp [hno, Prod.ext_iff, eq_comm]
    · have hne : (k, v) ≠ e := fun heq => he (heq ▸ rfl)
      rw [beq_eq_false_iff_ne.2 he, or_iff_right hne]
      exact ih hrest

end

/-- LUT gives each path its leaf's symbol. -/
theorem lookup_treeTables_lut_eq_find? (root : Node) (c : Bits) :
    Table.lookup bitsKey c (treeTables root).lut = (root.paths.find? fun p => p.1 == c).map Prod.snd := by
  ext x
  rw [lookup_treeTables_lut, find?_map_snd_eq_some_iff root.paths_nodup]

/-- PTAB gives each symbol the path of its last leaf. -/
theorem lookup_treeTables_ptab_eq_find? (root : Node) (x : Symbol) :
    Table.lookup symKey x (treeTables root).ptab = (root.paths.reverse.find? fun p => p.2 == x).map Prod.fst := by
  rw [treeTables_ptab, Table.lookup_ofEntries_eq_find? symKey_eq_iff, ← List.map_reverse, List.find?_map, Option.map_map]
  rfl

/-! ### DERIVE (R160, R164) -/

theorem deriveBody_nullNode {s : State} (h : s.tree = none) : deriveBody s = .error .nullNode := by
  simp only [deriveBody, h]

theorem exec_derive_nullNode {s : State} (h : s.tree = none) :
    exec .derive s = .next { s with ptab := [], lut := [], status := .err, err := 0x10 } := by
  rw [exec_command (i := .derive) rfl, commandBody, deriveBody_nullNode h]
  rfl

theorem exec_derive_unbounded {s : State} {root : Node} (h : s.cfg.Unbounded) (htree : s.tree = some root) :
    exec .derive s = .next (s.derived root) :=
  exec_of_body_ok (i := .derive) rfl (deriveBody_unbounded h htree)

/-- Settles O31: the tables are the maps of the tree's paths, and no two leaves have one path. -/
theorem deriveWritesPaths : Obligations.DeriveWritesPaths := by
  refine ⟨fun s h => exec_derive_nullNode h, fun s root hcfg htree => ?_⟩
  refine ⟨(treeTables root).ptab, (treeTables root).lut,
    exec_derive_unbounded (s.cfg.unbounded_iff.1 hcfg) htree, ?_, ?_,
    lookup_treeTables_lut_eq_find? root, lookup_treeTables_ptab_eq_find? root⟩
  · rw [treeTables_ptab]
    exact Table.wf_ofEntries _
  · rw [treeTables_lut]
    exact Table.wf_ofEntries _

end Sys2Proof.Machine
end

section
/-! No code of a tree begins another, and together the codes are complete (42_code_derive.md R162; O32), in every
configuration in which DERIVE succeeds. -/

namespace Sys2Proof.Machine

/-! ### A successful DERIVE, whatever the capacities -/

theorem putCode_ok {cfg : Config} {x : Symbol} {code : Bits} {t t' : CodeTables} (h : putCode cfg x code t = .ok t') :
    t' = t.insert (code, x) := by
  obtain ⟨_, -, h⟩ := bind_ok h
  obtain ⟨ptab, hptab, h⟩ := bind_ok h
  obtain ⟨lut, hlut, h⟩ := bind_ok h
  cases h
  rcases Table.put_cases hptab with ⟨hp, -⟩ | ⟨hp, -⟩
  · rcases Table.put_cases hlut with ⟨hl, -⟩ | ⟨hl, -⟩
    · cases hp
      cases hl
      rfl
    · cases hl
  · cases hp

/-- The paths of a tree that hangs below `code` are those of its subtrees, which hang one bit lower. -/
theorem Node.paths_internal_below (code : Bits) (c : Count) (l r : Node) :
    ((Node.internal c l r).paths.map fun p => (code ++ p.1, p.2))
      = (l.paths.map fun p => ((code ++ [false]) ++ p.1, p.2)) ++ r.paths.map fun p => ((code ++ [true]) ++ p.1, p.2) := by
  simp [Node.paths, Function.comp_def]

theorem walkCodes_ok {cfg : Config} {n : Node} {code : Bits} {t t' : CodeTables} (h : walkCodes cfg n code t = .ok t') :
    t' = (n.paths.map fun p => (code ++ p.1, p.2)).foldl CodeTables.insert t := by
  induction n generalizing code t t' with
  | leaf s c =>
    rw [putCode_ok h, Node.paths, List.map_singleton, List.append_nil]
    rfl
  | internal c l r ihl ihr =>
    obtain ⟨_, -, h⟩ := bind_ok h
    obtain ⟨t1, hleft, hright⟩ := bind_ok h
    rw [ihr hright, ihl hleft, ← List.foldl_append, Node.paths_internal_below]

theorem deriveTables_eq_treeTables {cfg : Config} {root : Node} {t : CodeTables} (h : deriveTables cfg root = .ok t) :
    t = treeTables root := by
  rw [walkCodes_ok h, treeTables]
  simp

/-- A DERIVE that succeeds leaves the tables of its tree. -/
theorem exec_derive_ok {s t : State} (h : exec .derive s = .next t) (hok : t.status = .ok) :
    ∃ root, s.tree = some root ∧ t.ptab = (treeTables root).ptab ∧ t.lut = (treeTables root).lut := by
  obtain ⟨u, hu, rfl⟩ := exec_status_ok (i := .derive) rfl h hok
  obtain ⟨root, c, htree, hc, rfl⟩ := deriveBody_ok hu
  have htables := deriveTables_eq_treeTables hc
  exact ⟨root, htree, congrArg CodeTables.ptab htables, congrArg CodeTables.lut htables⟩

theorem mem_paths_of_lookup_ptab {root : Node} {x : Symbol} {code : Bits}
    (h : Table.lookup symKey x (treeTables root).ptab = some code) : (code, x) ∈ root.paths := by
  rw [lookup_treeTables_ptab_eq_find?, Option.map_eq_some_iff] at h
  obtain ⟨p, hfind, rfl⟩ := h
  obtain rfl : p.2 = x := by simpa using List.find?_some hfind
  exact List.mem_reverse.1 (List.mem_of_find?_eq_some hfind)

/-! ### How many entries a map of entries has -/

/-- Entries of different keys are the entries of their map. -/
theorem Table.ofEntries_perm_entries {κ ν : Type} {key : κ → Nat} (hkey : ∀ a b, key a = key b ↔ a = b)
    {entries : List (κ × ν)} (h : (entries.map Prod.fst).Nodup) : (Table.ofEntries key entries).Perm entries :=
  (List.perm_ext_iff_of_nodup (Table.nodup_of_wf (Table.wf_ofEntries entries)) h.of_map).2
    (Table.mem_ofEntries hkey ((uniqueKeys_iff hkey entries).2 h))

theorem treeTables_lut_length (root : Node) : (treeTables root).lut.length = root.paths.length := by
  rw [treeTables_lut]
  exact (Table.ofEntries_perm_entries bitsKey_eq_iff root.paths_nodup).length_eq

/-! ### The beginnings of a sequence of bits -/

theorem map_range_prefix (f : Nat → Bool) {m n : Nat} (h : m ≤ n) : (List.range m).map f <+: (List.range n).map f := by
  obtain ⟨k, rfl⟩ := Nat.exists_eq_add_of_le h
  rw [List.range_add, List.map_append]
  exact List.prefix_append _ _

/-- A beginning of the sequence without its first bit, put behind that bit, is a beginning of the sequence. -/
theorem cons_eq_map_range {f : Nat → Bool} {bits : Bits} (h : bits = (List.range bits.length).map fun i => f (i + 1)) :
    f 0 :: bits = (List.range (f 0 :: bits).length).map f := by
  rw [List.length_cons, List.range_succ_eq_map, List.map_cons, List.map_map]
  exact congrArg (f 0 :: ·) h

/-- Following the bits of a sequence down a tree leads to a leaf. -/
theorem Node.exists_path_of_sequence (n : Node) (f : Nat → Bool) :
    ∃ p ∈ n.paths, p.1 = (List.range p.1.length).map f := by
  induction n generalizing f with
  | leaf s c => exact ⟨([], s), List.mem_singleton_self _, rfl⟩
  | internal c l r ihl ihr =>
    cases h0 : f 0 with
    | false =>
      obtain ⟨p, hp, hbits⟩ := ihl fun i => f (i + 1)
      exact ⟨(false :: p.1, p.2), Node.mem_paths_internal.2 (.inl ⟨p, hp, rfl⟩), h0 ▸ cons_eq_map_range hbits⟩
    | true =>
      obtain ⟨p, hp, hbits⟩ := ihr fun i => f (i + 1)
      exact ⟨(true :: p.1, p.2), Node.mem_paths_internal.2 (.inr ⟨p, hp, rfl⟩), h0 ▸ cons_eq_map_range hbits⟩

/-- Two paths that begin one sequence are one: the shorter begins the longer. -/
theorem Node.path_of_sequence_unique {n : Node} {f : Nat → Bool} {p q : Bits × Symbol} (hp : p ∈ n.paths)
    (hq : q ∈ n.paths) (hpf : p.1 = (List.range p.1.length).map f) (hqf : q.1 = (List.range q.1.length).map f) :
    p = q := by
  rcases Nat.le_total p.1.length q.1.length with h | h
  · refine Node.paths_prefix_free hp hq ?_
    rw [hpf, hqf]
    exact map_range_prefix f h
  · refine (Node.paths_prefix_free hq hp ?_).symm
    rw [hpf, hqf]
    exact map_range_prefix f h

/-- No path begins another, position by position. -/
theorem Node.paths_pairwise (root : Node) :
    root.paths.Pairwise fun p q => p.1 ≠ q.1 ∧ ¬ p.1 <+: q.1 ∧ ¬ q.1 <+: p.1 := by
  refine (List.pairwise_map.1 root.paths_nodup).imp_of_mem fun hp hq hne => ⟨hne, fun h => hne ?_, fun h => hne ?_⟩
  · rw [Node.paths_prefix_free hp hq h]
  · rw [Node.paths_prefix_free hq hp h]

/-- Settles O32: every code of LUT and of PTAB is a path, and no path begins another; a sequence of bits leads down to one
leaf. -/
theorem codesPrefixFreeAndComplete : Obligations.CodesPrefixFreeAndComplete := by
  refine ⟨Node.paths_pairwise, fun s t c d x y h hok hx hy hne hpre => ?_, fun s t c d x y h hok hx hy hne hpre => ?_,
    fun s t root htree h hok => ?_, fun root f => ?_⟩
  · obtain ⟨root, -, -, hlut⟩ := exec_derive_ok h hok
    rw [hlut] at hx hy
    have heq := Node.paths_prefix_free (lookup_treeTables_lut.1 hx) (lookup_treeTables_lut.1 hy) hpre
    exact hne (congrArg Prod.fst heq)
  · obtain ⟨root, -, hptab, -⟩ := exec_derive_ok h hok
    rw [hptab] at hx hy
    have heq := Node.paths_prefix_free (mem_paths_of_lookup_ptab hx) (mem_paths_of_lookup_ptab hy) hpre
    exact hne (congrArg Prod.snd heq)
  · obtain ⟨root', htree', -, hlut⟩ := exec_derive_ok h hok
    cases htree.symm.trans htree'
    rw [hlut, treeTables_lut_length]
  · obtain ⟨p, hp, hpf⟩ := root.exists_path_of_sequence f
    exact ⟨p, ⟨hp, hpf⟩, fun q ⟨hq, hqf⟩ => Node.path_of_sequence_unique hq hp hqf hpf⟩

end Sys2Proof.Machine
end

section
/-! LUT and PTAB of a tree of pairwise different symbols are inverse to each other, and BUILD makes such trees
(42_code_derive.md R163, 41_tree_builder.md R143; O33). -/

namespace Sys2Proof.Machine

/-! ### The tables of a tree of pairwise different symbols -/

theorem Node.swap_paths_keys (root : Node) : (root.paths.map Prod.swap).map Prod.fst = root.symbols := by
  rw [List.map_map, ← Node.paths_symbols]
  rfl

theorem Node.paths_length (root : Node) : root.paths.length = root.symbols.length := by
  rw [← Node.paths_symbols, List.length_map]

/-- PTAB holds exactly the paths, where no symbol stands at two leaves. -/
theorem lookup_treeTables_ptab_iff {root : Node} (h : root.symbols.Nodup) {x : Symbol} {code : Bits} :
    Table.lookup symKey x (treeTables root).ptab = some code ↔ (code, x) ∈ root.paths := by
  have hkeys := (uniqueKeys_iff symKey_eq_iff (root.paths.map Prod.swap)).2 (root.swap_paths_keys.symm ▸ h)
  rw [treeTables_ptab, lookup_ofEntries symKey_eq_iff hkeys]
  exact List.mem_map_of_injective Prod.swap_injective (a := (code, x))

theorem treeTables_ptab_length {root : Node} (h : root.symbols.Nodup) :
    (treeTables root).ptab.length = root.symbols.length := by
  have hperm := Table.ofEntries_perm_entries symKey_eq_iff (root.swap_paths_keys.symm ▸ h)
  rw [treeTables_ptab, hperm.length_eq, List.length_map, root.paths_length]

/-! ### The leaves of BUILD's tree (R142, R143) -/

/-- A merge keeps the leaves in the queue. -/
theorem mergeLoop_leaves_perm {cfg : Config} {turns seq seq' : Nat} {q q' : List PQEntry}
    (h : mergeLoop cfg turns q seq = .ok (q', seq')) :
    (q'.flatMap fun e => e.node.leaves).Perm (q.flatMap fun e => e.node.leaves) := by
  induction turns generalizing q seq with
  | zero =>
    cases h
    exact .refl _
  | succ turns ih =>
    match q with
    | [] => cases h; exact .refl _
    | [e] => cases h; exact .refl _
    | a :: b :: rest =>
      obtain ⟨c, -, h⟩ := bind_ok h
      refine (ih h).trans (((pqInsert_perm _ rest).flatMap_right _).trans ?_)
      simp only [List.flatMap_cons, Node.leaves, List.append_assoc]
      exact .refl _

/-- The leaves of BUILD's tree are entries of FREQ, each taken once. -/
theorem buildTree_leaves {cfg : Config} {freq : List (Symbol × Count)} {b : BuiltTree}
    (h : buildTree cfg freq = .ok b) : ∃ others, (b.root.leaves ++ others).Perm freq := by
  obtain ⟨-, e, rest, hloop, hroot⟩ := buildTree_ok h
  refine ⟨rest.flatMap fun e => e.node.leaves, ?_⟩
  have hperm := (mergeLoop_leaves_perm hloop).trans ((pqOfList_perm _).flatMap_right _)
  rwa [leafEntries_eq_queueLeaves, queueLeaves_leaves, List.flatMap_cons, ← hroot] at hperm

/-- In canonical form no key stands twice. -/
theorem Table.keys_nodup_of_wf {κ ν : Type} {key : κ → Nat} {m : List (κ × ν)} (h : Table.wf key m = true) :
    (m.map Prod.fst).Nodup :=
  List.pairwise_map.2 (((Table.wf_iff_pairwise m).1 h).imp fun hlt heq => Nat.ne_of_lt hlt (congrArg key heq))

theorem buildTree_symbols_nodup {cfg : Config} {freq : List (Symbol × Count)} {b : BuiltTree}
    (hf : Table.wf symKey freq = true) (h : buildTree cfg freq = .ok b) : b.root.symbols.Nodup := by
  obtain ⟨others, hperm⟩ := buildTree_leaves h
  have hall := (hperm.map Prod.fst).nodup_iff.2 (Table.keys_nodup_of_wf hf)
  rw [List.map_append] at hall
  exact hall.of_append_left

/-- The tree that stands after BUILD is the one it built: an error leaves none. -/
theorem exec_build_tree {s t : State} {root : Node} (h : exec .build s = .next t) (ht : t.tree = some root) :
    ∃ b, buildTree s.cfg s.freq = .ok b ∧ b.root = root := by
  rw [exec_command (i := .build) rfl] at h
  cases h
  cases hbody : commandBody .build s with
  | error k =>
    rw [hbody] at ht
    cases ht
  | ok u =>
    obtain ⟨b, c, hb, -, rfl⟩ := buildBody_ok hbody
    rw [hbody] at ht
    cases ht
    exact ⟨b, hb, rfl⟩

/-- Settles O33: both tables hold exactly the paths of such a tree; BUILD's leaves are entries of FREQ, whose keys
differ. -/
theorem tablesAreInverse : Obligations.TablesAreInverse := by
  refine ⟨fun s t root htree hnodup h hok => ?_, fun s t root hf h ht => ?_⟩
  · obtain ⟨root', htree', hptab, hlut⟩ := exec_derive_ok h hok
    cases htree.symm.trans htree'
    rw [hptab, hlut]
    refine ⟨fun x c => ?_, treeTables_ptab_length hnodup, ?_⟩
    · rw [lookup_treeTables_ptab_iff hnodup, lookup_treeTables_lut]
    · rw [treeTables_lut_length, root.paths_length]
  · obtain ⟨b, hb, rfl⟩ := exec_build_tree h ht
    exact buildTree_symbols_nodup hf hb

end Sys2Proof.Machine
end

section
/-! The bytes SERIALIZE writes, with unbounded capacities (43_tree_serializer.md R170 to R172, 30_encoding.md R105, R107;
O34). -/

namespace Sys2Proof.Machine

/-! ### The size of a serialized tree (R107) -/

theorem Node.symbols_internal (c : Count) (l r : Node) : (Node.internal c l r).symbols = l.symbols ++ r.symbols :=
  List.map_append

/-- One marker a node, and each leaf's symbol. -/
theorem Node.bytes_length_eq_markers (n : Node) :
    n.bytes.length = n.internals + n.symbols.length + (n.symbols.map utf8Width).sum := by
  induction n with
  | leaf x c =>
    rw [Node.bytes, List.length_cons, utf8Encode_length]
    simp [Node.internals, Node.symbols, Node.leaves, Nat.add_comm]
  | internal c l r hl hr =>
    rw [Node.bytes, List.length_cons, List.length_append, hl, hr, Node.symbols_internal, Node.internals,
      List.length_append, List.map_append, List.sum_append]
    omega

theorem Node.bytes_length (n : Node) :
    n.bytes.length = 2 * n.symbols.length - 1 + (n.symbols.map utf8Width).sum := by
  have hinternals : n.internals + 1 = n.symbols.length := by
    rw [n.internals_succ, Node.symbols, List.length_map]
  have hmarkers := n.bytes_length_eq_markers
  omega

/-! ### The bytes of the walk (R171) -/

theorem Buffer.append_ofList_unbounded {α : Type} (l : List α) (v : α) :
    (Buffer.ofList l).append none v = .ok (Buffer.ofList (l ++ [v])) := by
  rw [Buffer.append_ofList, withinCap_none, if_pos rfl]

theorem Buffer.appendAll_ofList_unbounded {α : Type} (l vs : List α) :
    (Buffer.ofList l).appendAll none vs = .ok (Buffer.ofList (l ++ vs)) := by
  rw [Buffer.appendAll_ofList, withinCap_none, Bool.true_or, if_pos rfl]

/-- An Internal whose depth is within STACK_MAX writes its marker, then the Left subtree, then the Right one. -/
theorem serNode_internal {cfg : Config} {depth : Nat} {c : Count} {l r : Node} {b b0 b1 : Buffer Byte}
    (hmark : b.append cfg.tbufCap 0x00 = .ok b0) (hdepth : withinCap cfg.stackMax (depth + 1) = true)
    (hleft : serNode cfg (depth + 1) l b0 = .ok b1) :
    serNode cfg depth (.internal c l r) b = serNode cfg (depth + 1) r b1 := by
  rw [serNode, hmark, checkCap_eq, if_pos hdepth]
  exact congrArg (· >>= fun b1 => serNode cfg (depth + 1) r b1) hleft

/-- `Ser(node)` appends the bytes of the node's subtree, at any recursion depth. -/
theorem serNode_unbounded {cfg : Config} (h : cfg.Unbounded) (n : Node) (depth : Nat) (before : List Byte) :
    serNode cfg depth n (Buffer.ofList before) = .ok (Buffer.ofList (before ++ n.bytes)) := by
  induction n generalizing depth before with
  | leaf x c => rw [serNode, h.tbufCap, Buffer.appendAll_ofList_unbounded, Node.bytes]
  | internal c l r hl hr =>
    have hmark : (Buffer.ofList before).append cfg.tbufCap 0x00 = .ok (Buffer.ofList (before ++ [0x00])) := by
      rw [h.tbufCap, Buffer.append_ofList_unbounded]
    have hdepth : withinCap cfg.stackMax (depth + 1) = true := by rw [h.stackMax, withinCap_none]
    rw [serNode_internal hmark hdepth (hl _ _), hr, Node.bytes, List.append_assoc, List.append_assoc,
      List.singleton_append]

/-! ### SERIALIZE (R170, R172) -/

theorem serializeBody_nullNode {s : State} (h : s.tree = none) : serializeBody s = .error .nullNode := by
  simp only [serializeBody, h]

theorem exec_serialize_nullNode {s : State} (h : s.tree = none) :
    exec .serialize s = .next { s with tbuf := Buffer.empty, status := .err, err := 0x10 } := by
  rw [exec_command (i := .serialize) rfl, commandBody, serializeBody_nullNode h]
  rfl

theorem serializeBody_unbounded {s : State} {root : Node} (h : s.cfg.Unbounded) (htree : s.tree = some root) :
    serializeBody s = .ok { s with tbuf := Buffer.ofList root.bytes } := by
  simp only [serializeBody, htree, ← Buffer.ofList_nil, serNode_unbounded h root 0 [], List.nil_append]
  rfl

/-- Settles O34: each call of the walk appends its subtree's bytes, and a tree has one Internal fewer than leaves. -/
theorem serializeWritesTree : Obligations.SerializeWritesTree := by
  refine ⟨fun s h => exec_serialize_nullNode h, fun s root hcfg htree => ⟨?_, root.bytes_length⟩⟩
  exact exec_of_body_ok (i := .serialize) rfl (serializeBody_unbounded (s.cfg.unbounded_iff.1 hcfg) htree)

end Sys2Proof.Machine
end

section
/-! DESERIALIZE reads back the bytes SERIALIZE writes, and what it accepts are such bytes (44_tree_deserializer.md R181 to
R186; O35). -/

namespace Sys2Proof.Machine

/-! ### The symbols of a tree -/

theorem validText_leaf {x : Symbol} {c : Count} : validText (Node.leaf x c).symbols ↔ isScalar x = true :=
  List.forall_mem_singleton

theorem validText_internal {c : Count} {l r : Node} :
    validText (Node.internal c l r).symbols ↔ validText l.symbols ∧ validText r.symbols := by
  rw [Node.symbols_internal]
  exact List.forall_mem_append

/-! ### `Des()` at one node (R181, R182) -/

theorem tokenAt_of_decode_ok {site : Site} {bytes rest : List Byte} {i : Instr} (cfg : Config)
    (h : decode site bytes = .ok (i, rest)) : tokenAt cfg site bytes = .ok i := by
  simp only [tokenAt, h]

theorem drop_leaf_token (x : Symbol) (rest : List Byte) :
    (0x01 :: (utf8Encode x ++ rest)).drop (1 + utf8Width x) = rest := by
  rw [Nat.add_comm, List.drop_succ_cons, ← utf8Encode_length, List.drop_left]

/-- A leaf's marker and symbol make a leaf of count 0. -/
theorem desNode_leaf {cfg : Config} {x : Symbol} {leaves : Nat} (hx : isScalar x = true)
    (hcap : withinCap cfg.nMax (leaves + 1) = true) (turns depth cursor : Nat) (rest : List Byte) :
    desNode cfg (turns + 1) depth ⟨cursor, 0x01 :: (utf8Encode x ++ rest), leaves⟩
      = .ok (.leaf x 0, ⟨cursor + 1 + utf8Width x, rest, leaves + 1⟩) := by
  have hdecode : decode .treeToken (0x01 :: (utf8Encode x ++ rest)) = .ok (.nodeLeaf x, rest) :=
    decodeTreeToken_leaf hx rest
  rw [desNode_succ, tokenAt_of_decode_ok cfg hdecode, desToken_leaf, checkCap_eq, if_pos hcap]
  simp only [Except.map, drop_leaf_token]

/-- An Internal's marker makes an Internal of the two subtrees read after it. -/
theorem desNode_internal {cfg : Config} {turns depth cursor leaves : Nat} {rest : List Byte} {left right : Node}
    {r1 r2 : DesRegs} (hcap : withinCap cfg.stackMax (depth + 1) = true)
    (hleft : desNode cfg turns (depth + 1) ⟨cursor + 1, rest, leaves⟩ = .ok (left, r1))
    (hright : desNode cfg turns (depth + 1) r1 = .ok (right, r2)) :
    desNode cfg (turns + 1) depth ⟨cursor, 0x00 :: rest, leaves⟩ = .ok (.internal 0 left right, r2) :=
  desToken_internal_ok hcap hleft hright

/-- Where `Des()` succeeds it has read a leaf, or an Internal and its two subtrees. -/
theorem desNode_ok_cases {cfg : Config} {turns depth : Nat} {r r' : DesRegs} {n : Node}
    (h : desNode cfg (turns + 1) depth r = .ok (n, r')) :
    (∃ x, isScalar x = true ∧ n = .leaf x 0 ∧ r.rest = 0x01 :: (utf8Encode x ++ r'.rest)
        ∧ r'.cursor = r.cursor + 1 + utf8Width x)
      ∨ ∃ left right r1 rest, n = .internal 0 left right ∧ r.rest = 0x00 :: rest
          ∧ desNode cfg turns (depth + 1) ⟨r.cursor + 1, rest, r.leaves⟩ = .ok (left, r1)
          ∧ desNode cfg turns (depth + 1) r1 = .ok (right, r') := by
  rw [desNode_succ] at h
  cases htoken : tokenAt cfg .treeToken r.rest with
  | error k => rw [htoken] at h; cases h
  | ok i =>
    rw [htoken] at h
    obtain ⟨rest, hd⟩ := tokenAt_ok htoken
    have hbytes := decodeTreeToken_bytes hd
    obtain ⟨-, rfl | ⟨m, -, rfl⟩ | ⟨x, rfl, hx, -⟩⟩ := decodeTreeToken_ok hd
    · rw [desToken_internal, hbytes] at h
      obtain ⟨_, -, h⟩ := bind_ok h
      obtain ⟨⟨left, r1⟩, hleft, h⟩ := bind_ok h
      cases hright : desNode cfg turns (depth + 1) r1 with
      | error k => rw [hright] at h; cases h
      | ok q =>
        obtain ⟨right, r2⟩ := q
        rw [hright] at h
        cases h
        exact .inr ⟨left, right, r1, rest, rfl, hbytes, hleft, hright⟩
    · cases h
    · rw [desToken_leaf] at h
      cases hcheck : checkCap cfg.nMax (r.leaves + 1) with
      | error k => rw [hcheck] at h; cases h
      | ok m =>
        rw [hcheck, hbytes] at h
        cases h
        have hrest : r.rest = 0x01 :: (utf8Encode x ++ rest) := hbytes
        refine .inl ⟨x, hx, rfl, ?_, rfl⟩
        rw [hrest]
        exact congrArg (fun l => 0x01 :: (utf8Encode x ++ l)) (drop_leaf_token x rest).symm

/-! ### `Des()` on the bytes of a tree -/

/-- With unbounded capacities `Des()` reads the bytes of a subtree, whatever follows them, and stops after them; it takes
at most one turn more than there are bytes. -/
theorem desNode_bytes {cfg : Config} (h : cfg.Unbounded) {n : Node} (hn : validText n.symbols) {extra : List Byte}
    {turns : Nat} (hturns : (n.bytes ++ extra).length < turns) (depth cursor leaves : Nat) :
    desNode cfg turns depth ⟨cursor, n.bytes ++ extra, leaves⟩
      = .ok (n.zeroCounts, ⟨cursor + n.bytes.length, extra, leaves + n.symbols.length⟩) := by
  induction n generalizing turns extra depth cursor leaves with
  | leaf x c =>
    obtain ⟨turns, rfl⟩ := Nat.exists_eq_add_one_of_ne_zero (Nat.ne_zero_of_lt hturns)
    have hcap : withinCap cfg.nMax (leaves + 1) = true := by rw [h.nMax, withinCap_none]
    rw [Node.bytes, List.length_cons, utf8Encode_length, Nat.add_comm (utf8Width x), ← Nat.add_assoc]
    exact desNode_leaf (validText_leaf.1 hn) hcap turns depth cursor extra
  | internal c l r ihl ihr =>
    obtain ⟨turns, rfl⟩ := Nat.exists_eq_add_one_of_ne_zero (Nat.ne_zero_of_lt hturns)
    obtain ⟨hl, hr⟩ := validText_internal.1 hn
    have hcap : withinCap cfg.stackMax (depth + 1) = true := by rw [h.stackMax, withinCap_none]
    simp only [Node.bytes, List.cons_append, List.append_assoc, List.length_cons, List.length_append] at hturns ⊢
    have hleft := ihl hl (extra := r.bytes ++ extra) (turns := turns) (by simp only [List.length_append]; omega)
      (depth + 1) (cursor + 1) leaves
    have hright := ihr hr (extra := extra) (turns := turns) (by rw [List.length_append]; omega)
      (depth + 1) (cursor + 1 + l.bytes.length) (leaves + l.symbols.length)
    rw [desNode_internal hcap hleft hright, Node.zeroCounts, Node.symbols_internal, List.length_append]
    simp only [Nat.add_assoc, Nat.add_comm 1]

/-- What `Des()` accepts are the bytes of a tree of count 0 and nothing more, in every configuration. -/
theorem desNode_reads {cfg : Config} {turns depth : Nat} {r r' : DesRegs} {n : Node}
    (h : desNode cfg turns depth r = .ok (n, r')) :
    n.zeroCounts = n ∧ r.rest = n.bytes ++ r'.rest ∧ r'.cursor = r.cursor + n.bytes.length := by
  induction turns generalizing depth r r' n with
  | zero => cases h
  | succ turns ih =>
    obtain ⟨x, -, rfl, hrest, hcursor⟩ | ⟨left, right, r1, rest, rfl, hrest, hleft, hright⟩ := desNode_ok_cases h
    · exact ⟨rfl, hrest, by rw [hcursor, Node.bytes, List.length_cons, utf8Encode_length]; omega⟩
    · obtain ⟨hl, hlrest, hlcursor⟩ := ih hleft
      obtain ⟨hr, hrrest, hrcursor⟩ := ih hright
      refine ⟨by rw [Node.zeroCounts, hl, hr], ?_, ?_⟩
      · rw [hrest, Node.bytes, List.cons_append, List.append_assoc, ← hrrest, ← hlrest]
      · simp only [hrcursor, hlcursor, Node.bytes, List.length_cons, List.length_append]
        omega

/-! ### DESERIALIZE -/

theorem deserializeBody_of_ok {s : State} {root : Node} {r : DesRegs}
    (h : deserializeBytes s.cfg s.tbuf.elems = .ok (root, r)) :
    deserializeBody s = .ok { s with tree := some root, cursor := r.cursor, stack := [], leaves := r.leaves } := by
  rw [deserializeBody, h]
  rfl

theorem exec_deserialize_bytes {s : State} {root : Node} {extra : List Byte} (h : s.cfg.Unbounded)
    (hroot : validText root.symbols) (htbuf : s.tbuf.elems = root.bytes ++ extra) :
    exec .deserialize s = .next { s with tree := some root.zeroCounts, cursor := root.bytes.length, stack := [],
                                         leaves := root.symbols.length, status := .ok, err := 0 } := by
  have hbytes := desNode_bytes h hroot (Nat.lt_succ_self (root.bytes ++ extra).length) 0 0 0
  rw [← htbuf, Nat.zero_add, Nat.zero_add] at hbytes
  exact exec_of_body_ok (i := .deserialize) rfl (deserializeBody_of_ok hbytes)

/-- Where TBUF holds a serialized tree and nothing else, CURSOR ends at TBUF_LEN. -/
theorem exec_deserialize_whole {s : State} {root : Node} (h : s.cfg.Unbounded) (hroot : validText root.symbols)
    (htbuf : s.tbuf = Buffer.ofList root.bytes) :
    exec .deserialize s = .next { s with tree := some root.zeroCounts, cursor := s.tbuf.len, stack := [],
                                         leaves := root.symbols.length, status := .ok, err := 0 } := by
  have hlen : s.tbuf.len = root.bytes.length := by rw [htbuf, Buffer.ofList_len]
  rw [hlen]
  exact exec_deserialize_bytes (extra := []) h hroot (by rw [htbuf, Buffer.ofList_elems, List.append_nil])

/-- What DESERIALIZE accepts begins with the bytes of the tree it writes, and CURSOR is left after them. -/
theorem exec_deserialize_ok {s t : State} (h : exec .deserialize s = .next t) (hok : t.status = .ok) :
    t.cfg = s.cfg ∧ ∃ root, t.tree = some root ∧ root.zeroCounts = root ∧ validText root.symbols
      ∧ s.tbuf.elems.take t.cursor = root.bytes := by
  obtain ⟨u, hu, rfl⟩ := exec_status_ok rfl h hok
  obtain ⟨root, r, hr, rfl⟩ := deserializeBody_ok hu
  obtain ⟨hzero, hrest, hcursor⟩ := desNode_reads hr
  obtain ⟨hnode, -, -⟩ := desNode_typed hr
  refine ⟨rfl, root, rfl, hzero, ((nodeOk_iff _ root).1 hnode).1, ?_⟩
  simp only [State.succeed_cursor, hcursor, Nat.zero_add, show s.tbuf.elems = root.bytes ++ r.rest from hrest,
    List.take_left]

/-- Settles O35: `Des()` follows the grammar SERIALIZE writes, by induction on the tree; and what it accepts follows that
grammar, by induction on its turns. -/
theorem deserializeInvertsSerialize : Obligations.DeserializeInvertsSerialize := by
  refine ⟨fun s root hcfg htree hroot => ?_, fun s root extra hcfg hroot htbuf => ?_, fun s t hcfg h hok => ?_⟩
  · have hunb := s.cfg.unbounded_iff.1 hcfg
    exact ⟨_, exec_of_body_ok (i := .serialize) rfl (serializeBody_unbounded hunb htree), rfl,
      exec_deserialize_whole hunb hroot rfl⟩
  · exact exec_deserialize_bytes (s.cfg.unbounded_iff.1 hcfg) hroot htbuf
  · obtain ⟨hsame, root, htree, hzero, hroot, hread⟩ := exec_deserialize_ok h hok
    have hunb : t.cfg.Unbounded := hsame ▸ s.cfg.unbounded_iff.1 hcfg
    exact ⟨root, _, htree, hzero, hroot, exec_of_body_ok (i := .serialize) rfl (serializeBody_unbounded hunb htree), rfl,
      congrArg Buffer.ofList hread.symm⟩

end Sys2Proof.Machine
end

section
/-! A serialized tree cut short is TruncatedTree, wherever it is cut (44_tree_deserializer.md R181, R182; O36). -/

namespace Sys2Proof.Machine

/-! ### A leaf cut short (R182, D12) -/

theorem tokenAt_ended {cfg : Config} {bytes : List Byte} (h : decode .treeToken bytes = .error .ended) :
    tokenAt cfg .treeToken bytes = .error .truncatedTree := by
  simp only [tokenAt, h]

theorem tokenAt_shortSymbol {cfg : Config} {bytes : List Byte} (h : decode .treeToken bytes = .error .shortSymbol) :
    tokenAt cfg .treeToken bytes
      = .error (if cfg.shortSymbolInvalid then .invalidSymbolEncoding else .truncatedTree) := by
  simp only [tokenAt, h]

theorem tokenAt_badSymbol {cfg : Config} {bytes : List Byte} (h : decode .treeToken bytes = .error .badSymbol) :
    tokenAt cfg .treeToken bytes = .error .invalidSymbolEncoding := by
  simp only [tokenAt, h]

/-- A leaf whose symbol is cut short, or missing altogether, is TruncatedTree under D12's default. -/
theorem tokenAt_leaf_cut {cfg : Config} (hshort : cfg.shortSymbolInvalid = false) {x : Symbol} (hx : isScalar x = true)
    {k : Nat} (hk : k < (utf8Encode x).length) :
    tokenAt cfg .treeToken (0x01 :: (utf8Encode x).take k) = .error .truncatedTree := by
  cases k with
  | zero => exact tokenAt_ended rfl
  | succ k =>
    have hcut : utf8Decode ((utf8Encode x).take (k + 1)) = .truncated := by
      refine utf8Decode_truncated_iff.2 ⟨?_, x, (utf8Encode x).drop (k + 1), hx, ?_, (List.take_append_drop _ _).symm⟩
      · simp [utf8Encode_ne_nil]
      · simpa using hk
    have hdecode : decode .treeToken (0x01 :: (utf8Encode x).take (k + 1)) = .error .shortSymbol := by
      have h0 : (0x01 : Byte) ≠ 0x00 := by decide
      simp only [decode, decodeTreeToken, if_neg h0, if_true, hcut]
    rw [tokenAt_shortSymbol hdecode, hshort, if_neg Bool.false_ne_true]

/-! ### A tree cut short (R181) -/

theorem desNode_nothing (cfg : Config) (turns depth cursor leaves : Nat) :
    desNode cfg turns depth ⟨cursor, [], leaves⟩ = .error .truncatedTree := by
  cases turns <;> rfl

theorem desNode_internal_error_left {cfg : Config} {turns depth cursor leaves : Nat} {rest : List Byte} {k : ErrKind}
    (hcap : withinCap cfg.stackMax (depth + 1) = true)
    (hleft : desNode cfg turns (depth + 1) ⟨cursor + 1, rest, leaves⟩ = .error k) :
    desNode cfg (turns + 1) depth ⟨cursor, 0x00 :: rest, leaves⟩ = .error k :=
  desToken_internal_error_left hcap hleft

theorem desNode_internal_error_right {cfg : Config} {turns depth cursor leaves : Nat} {rest : List Byte} {left : Node}
    {r1 : DesRegs} {k : ErrKind} (hcap : withinCap cfg.stackMax (depth + 1) = true)
    (hleft : desNode cfg turns (depth + 1) ⟨cursor + 1, rest, leaves⟩ = .ok (left, r1))
    (hright : desNode cfg turns (depth + 1) r1 = .error k) :
    desNode cfg (turns + 1) depth ⟨cursor, 0x00 :: rest, leaves⟩ = .error k :=
  desToken_internal_error_right hcap hleft hright

/-- `Des()` on a proper beginning of the bytes of a subtree: the cut is in a leaf, or in the Left subtree of an Internal,
or in its Right one. -/
theorem desNode_cut {cfg : Config} (h : cfg.Unbounded) (hshort : cfg.shortSymbolInvalid = false) {n : Node}
    (hn : validText n.symbols) {k turns : Nat} (hk : k < n.bytes.length) (hturns : k < turns)
    (depth cursor leaves : Nat) :
    desNode cfg turns depth ⟨cursor, n.bytes.take k, leaves⟩ = .error .truncatedTree := by
  obtain ⟨turns, rfl⟩ := Nat.exists_eq_add_one_of_ne_zero (Nat.ne_zero_of_lt hturns)
  induction n generalizing k turns depth cursor leaves with
  | leaf x c =>
    cases k with
    | zero => exact desNode_nothing cfg _ _ _ _
    | succ k =>
      have htoken := tokenAt_leaf_cut hshort (validText_leaf.1 hn) (Nat.lt_of_succ_lt_succ hk)
      rw [Node.bytes, List.take_succ_cons, desNode_succ, htoken, desToken_error]
  | internal c l r ihl ihr =>
    cases k with
    | zero => exact desNode_nothing cfg _ _ _ _
    | succ k =>
      obtain ⟨turns, rfl⟩ := Nat.exists_eq_add_one_of_ne_zero (Nat.ne_zero_of_lt (Nat.lt_of_succ_lt_succ hturns))
      obtain ⟨hl, hr⟩ := validText_internal.1 hn
      have hcap : withinCap cfg.stackMax (depth + 1) = true := by rw [h.stackMax, withinCap_none]
      simp only [Node.bytes, List.length_cons, List.length_append] at hk
      rw [Node.bytes, List.take_succ_cons]
      rcases Nat.lt_or_ge k l.bytes.length with hcut | hcut
      · rw [List.take_append_of_le_length hcut.le]
        exact desNode_internal_error_left hcap (ihl hl hcut (depth + 1) (cursor + 1) leaves turns (by omega))
      · obtain ⟨j, rfl⟩ := Nat.exists_eq_add_of_le hcut
        rw [List.take_length_add_append]
        have hlen : (l.bytes ++ r.bytes.take j).length < turns + 1 := by
          rw [List.length_append, List.length_take]
          omega
        exact desNode_internal_error_right hcap (desNode_bytes h hl hlen (depth + 1) (cursor + 1) leaves)
          (ihr hr (by omega) (depth + 1) _ _ turns (by omega))

/-! ### DESERIALIZE -/

theorem exec_deserialize_of_error {s : State} {k : ErrKind} (h : deserializeBytes s.cfg s.tbuf.elems = .error k) :
    exec .deserialize s = .next { s with tree := none, status := .err, err := k.code } := by
  rw [exec_command (i := .deserialize) rfl, commandBody, deserializeBody, h]
  rfl

/-- Settles O36: a cut tree is cut inside one of its subtrees, down to a marker or a symbol that is missing or cut short,
by induction on the tree. -/
theorem treeBeginningsAreTruncated : Obligations.TreeBeginningsAreTruncated := by
  intro s root k hplain hroot hk htbuf
  obtain ⟨hunb, -, hshort, -⟩ := hplain
  have hturns : k < (root.bytes.take k).length + 1 := by rw [List.length_take_of_le hk.le]; exact Nat.lt_succ_self k
  have hcut := desNode_cut (s.cfg.unbounded_iff.1 hunb) hshort hroot hk hturns 0 0 0
  rw [← htbuf] at hcut
  exact exec_deserialize_of_error hcut

end Sys2Proof.Machine
end

section
/-! The token a walk comes to, or the error for the one it does not find (44_tree_deserializer.md R181, R182;
47_container_and_sequencer.md R220; O7, O8). -/

namespace Sys2Proof.Machine

/-! ### A step inside a walk, whether the host is done or waits (30_encoding.md R94) -/

section
variable {s : State}

theorem walkStep_of_fetch_ok {t : State} {i : Instr} (ht : s.blockTurn) (hb : s.status = .busy) (hs : s.site ≠ .command)
    (hf : fetch s = .ok (i, t)) : step s = exec i t := by
  rw [step_of_blockTurn ht hb, blockMove_fetch_ok hb (fun h => hs h.1) hf]

theorem walkStep_of_fetch_error {k : ErrKind} (ht : s.blockTurn) (hb : s.status = .busy) (hs : s.site ≠ .command)
    (hf : fetch s = .error k) : step s = .next (raiseRunning k s) := by
  rw [step_of_blockTurn ht hb, blockMove_fetch_error hb (fun h => hs h.1) hf]

/-! ### Fetching at the place the walk reads -/

theorem fetch_treeToken (hs : s.site = .treeToken) :
    fetch s = (tokenAt s.cfg .treeToken (s.tbuf.elems.drop s.cursor)).map fun i => (i, s) :=
  fetch_of_seek (by simp only [seek, hs]) (by simp only [fetchBytes, hs])

theorem fetch_blobHeader (hs : s.site = .blobHeader) (hlen : 2 ≤ s.src.len) :
    fetch s = (tokenAt s.cfg .blobHeader (s.src.elems.drop s.cursor)).map fun i => (i, s) := by
  have hseek : seek s = .ok s := by simp only [seek, hs, if_neg (Nat.not_lt.2 hlen)]
  exact fetch_of_seek hseek (by simp only [fetchBytes, hs])

theorem tokenAt_badHeader {cfg : Config} {bytes : List Byte} (h : decode .blobHeader bytes = .error .badHeader) :
    tokenAt cfg .blobHeader bytes = .error .invalidBitLength := by
  simp only [tokenAt, h]

theorem fetch_blobHeader_short (hs : s.site = .blobHeader) (hlen : s.src.len < 2) :
    fetch s = .error .inputTooShort :=
  fetch_of_seek_error (by simp only [seek, hs, if_pos hlen])

end

/-! ### The scans of PARSE (R220) -/

/-- `scan` gives the first offset at which the decoder of `site` finds its token. -/
structure ScansFor (scan : List Byte → Option Nat) (site : Site) : Prop where
  nil : scan [] = none
  found {bytes : List Byte} {r : Instr × List Byte} (h : decode site bytes = .ok r) : scan bytes = some 0
  skip {b : Byte} {bytes : List Byte} (h : ∀ r, decode site (b :: bytes) ≠ .ok r) :
    scan (b :: bytes) = (scan bytes).map (· + 1)

theorem ScansFor.eq_none {scan : List Byte → Option Nat} {site : Site} (hscan : ScansFor scan site) {bytes : List Byte}
    (h : ∀ k r, decode site (bytes.drop k) ≠ .ok r) : scan bytes = none := by
  induction bytes with
  | nil => exact hscan.nil
  | cons b bytes ih => rw [hscan.skip (h 0), ih fun k => h (k + 1), Option.map_none]

theorem ScansFor.eq_some {scan : List Byte → Option Nat} {site : Site} (hscan : ScansFor scan site) {bytes : List Byte}
    {k : Nat} {r : Instr × List Byte} (h : decode site (bytes.drop k) = .ok r)
    (hfirst : ∀ j r', j < k → decode site (bytes.drop j) ≠ .ok r') : scan bytes = some k := by
  induction k generalizing bytes with
  | zero => exact hscan.found h
  | succ k ih =>
    cases bytes with
    | nil => exact absurd h (hfirst 0 r (Nat.succ_pos k))
    | cons b bytes =>
      have hrest := ih h fun j r' hj => hfirst (j + 1) r' (Nat.succ_lt_succ hj)
      rw [hscan.skip fun r' => hfirst 0 r' (Nat.succ_pos k), hrest, Option.map_some]

theorem ScansFor.eq_none_from {scan : List Byte → Option Nat} {site : Site} (hscan : ScansFor scan site)
    {bytes : List Byte} {start : Nat} (h : ∀ k r, decode site (bytes.drop (start + k)) ≠ .ok r) :
    scan (bytes.drop start) = none :=
  hscan.eq_none fun k r => by rw [List.drop_drop]; exact h k r

theorem ScansFor.eq_some_from {scan : List Byte → Option Nat} {site : Site} (hscan : ScansFor scan site)
    {bytes : List Byte} {start k : Nat} {r : Instr × List Byte} (h : decode site (bytes.drop (start + k)) = .ok r)
    (hfirst : ∀ j r', j < k → decode site (bytes.drop (start + j)) ≠ .ok r') : scan (bytes.drop start) = some k :=
  hscan.eq_some (by rw [List.drop_drop]; exact h) fun j r' hj => by rw [List.drop_drop]; exact hfirst j r' hj

theorem scansFor_treeStart : ScansFor scanTreeStart .blobStart where
  nil := rfl
  found {bytes r} h := by
    cases bytes with
    | nil => cases h
    | cons b bytes =>
      by_cases hb : b = treeStartByte
      · exact if_pos hb
      · rw [show decode .blobStart (b :: bytes) = .error .notTreeStart from if_neg hb] at h
        cases h
  skip {b bytes} h := if_neg fun hb => h (.treeStart, bytes) (if_pos hb)

theorem scansFor_treeEnd : ScansFor scanTreeEnd .blobEnd where
  nil := rfl
  found {bytes r} h := by
    match bytes with
    | [] => cases h
    | [_] => cases h
    | b :: c :: bytes =>
      by_cases hbc : b = treeEndByte ∧ c = treeEndByte
      · exact if_pos ⟨hbc.1, congrArg some hbc.2⟩
      · rw [show decode .blobEnd (b :: c :: bytes) = .error .notTreeEnd from if_neg hbc] at h
        cases h
  skip {b bytes} h := if_neg fun ⟨hb, hhead⟩ => by
    obtain ⟨rest, rfl⟩ := List.head?_eq_some_iff.1 hhead
    exact h (.treeEnd, rest) (if_pos ⟨hb, rfl⟩)

section
variable {s : State} {k : Nat}

theorem fetch_blobStart (hs : s.site = .blobStart) (hscan : scanTreeStart (s.src.elems.drop s.cursor) = some k)
    (hstrict : s.cfg.strictMarkerOffset = false ∨ s.cursor + k = 1) :
    fetch s = (tokenAt s.cfg .blobStart (s.src.elems.drop (s.cursor + k))).map fun i =>
      (i, { s with cursor := s.cursor + k }) := by
  have hkeep : ¬(s.cfg.strictMarkerOffset && decide (s.cursor + k ≠ 1)) = true := by
    rcases hstrict with h | h <;> simp [h]
  have hseek : seek s = .ok { s with cursor := s.cursor + k } := by simp only [seek, hs, hscan, if_neg hkeep]
  exact fetch_of_seek hseek (by simp only [fetchBytes, hs])

theorem fetch_blobStart_missing (hs : s.site = .blobStart)
    (hscan : scanTreeStart (s.src.elems.drop s.cursor) = none) : fetch s = .error .treeStartNotFound :=
  fetch_of_seek_error (by simp only [seek, hs, hscan])

/-- Under STRICT_MARKER_OFFSET a marker elsewhere than at offset 1 is no marker (D19). -/
theorem fetch_blobStart_elsewhere (hs : s.site = .blobStart)
    (hscan : scanTreeStart (s.src.elems.drop s.cursor) = some k) (hstrict : s.cfg.strictMarkerOffset = true)
    (hk : s.cursor + k ≠ 1) : fetch s = .error .treeStartNotFound := by
  have hraise : (s.cfg.strictMarkerOffset && decide (s.cursor + k ≠ 1)) = true := by simp [hstrict, hk]
  exact fetch_of_seek_error (by simp only [seek, hs, hscan, if_pos hraise])

theorem fetch_blobEnd (hs : s.site = .blobEnd) (hscan : scanTreeEnd (s.src.elems.drop s.cursor) = some k) :
    fetch s = (tokenAt s.cfg .blobEnd (s.src.elems.drop (s.cursor + k))).map fun i =>
      (i, { s with cursor := s.cursor + k }) := by
  have hseek : seek s = .ok { s with cursor := s.cursor + k } := by simp only [seek, hs, hscan]
  exact fetch_of_seek hseek (by simp only [fetchBytes, hs])

theorem fetch_blobEnd_missing (hs : s.site = .blobEnd) (hscan : scanTreeEnd (s.src.elems.drop s.cursor) = none) :
    fetch s = .error .treeEndNotFound :=
  fetch_of_seek_error (by simp only [seek, hs, hscan])

end

/-! ### The obligations about the tokens of the walks -/

/-- Settles O7: what `fetch` reads at the place of each walk, the scans giving the first place at which the token
decodes. -/
theorem stepRunsDecodedToken : Obligations.StepRunsDecodedToken := by
  intro s i rest ht hb
  refine ⟨fun hs hd => ?_, fun hs hlen hd => ?_, fun k hs hstrict hd hfirst => ?_, fun k hs hd hfirst => ?_⟩ <;>
    refine walkStep_of_fetch_ok ht hb (by simp [hs]) ?_
  · rw [fetch_treeToken hs, tokenAt_of_decode_ok _ hd, Except.map]
  · rw [fetch_blobHeader hs hlen, tokenAt_of_decode_ok _ hd, Except.map]
  · rw [fetch_blobStart hs (scansFor_treeStart.eq_some_from hd hfirst) hstrict, tokenAt_of_decode_ok _ hd, Except.map]
  · rw [fetch_blobEnd hs (scansFor_treeEnd.eq_some_from hd hfirst), tokenAt_of_decode_ok _ hd, Except.map]

/-- Settles O8: where the decoder or the scan finds nothing, `fetch` is the error for what is missing. -/
theorem missingTokenRaises : Obligations.MissingTokenRaises := by
  intro s ht hb
  refine ⟨fun hs => ⟨fun hd => ?_, fun hd => ?_, fun hd => ?_⟩, fun hs => ⟨fun hlen => ?_, fun hlen hd => ?_⟩,
    fun hs hno => ?_, fun k r hs hstrict hk hd hfirst => ?_, fun hs hno => ?_⟩ <;>
    refine walkStep_of_fetch_error ht hb (by simp [hs]) ?_
  · rw [fetch_treeToken hs, tokenAt_ended hd, Except.map]
  · rw [fetch_treeToken hs, tokenAt_shortSymbol hd, Except.map]
  · rw [fetch_treeToken hs, tokenAt_badSymbol hd, Except.map]
  · exact fetch_blobHeader_short hs hlen
  · rw [fetch_blobHeader hs hlen, tokenAt_badHeader hd, Except.map]
  · exact fetch_blobStart_missing hs (scansFor_treeStart.eq_none_from hno)
  · exact fetch_blobStart_elsewhere hs (scansFor_treeStart.eq_some_from hd hfirst) hstrict hk
  · exact fetch_blobEnd_missing hs (scansFor_treeEnd.eq_none_from hno)

end Sys2Proof.Machine
end

section
/-! ENCODE in terms of the codes alone: what it writes where every symbol has one (O39). -/

namespace Sys2Proof.Machine

/-! ### What the packing leaves (45_bit_encoder.md R190 to R194) -/

theorem flushLast_exact {cfg : Config} {r r' : EncodeRegs} {bits : Bits} (hp : Packed r bits)
    (h : flushLast cfg r = .ok r') : r'.pay = Buffer.ofList r'.pay.elems ∧ r'.totalBits = bits.length := by
  unfold flushLast at h
  split at h
  · cases h
    exact ⟨hp.pay, hp.total⟩
  · obtain ⟨pay, happend, h⟩ := bind_ok h
    cases h
    rw [hp.pay] at happend
    exact ⟨by rw [Buffer.append_ofList_ok happend, Buffer.ofList_elems], hp.total⟩

/-- ENCODE's PAY lists the bytes packed and nothing else, and TOTAL_BITS counts the bits of the codes. -/
theorem encodeSyms_exact {cfg : Config} {ptab : List (Symbol × Bits)} {l : List Symbol} {r : EncodeRegs}
    (h : encodeSyms cfg ptab l = .ok r) :
    r.pay = Buffer.ofList r.pay.elems ∧ r.totalBits = (l.flatMap (codeOf ptab)).length := by
  obtain ⟨r1, h1, h2⟩ := bind_ok h
  exact flushLast_exact (encodeLoop_packed .start h1) h2

/-- PAY has the fewest bytes that hold the bits. -/
theorem PayloadHolds.elems_length {pay : Buffer Byte} {validBits : BitVec 4} {bits : Bits}
    (h : PayloadHolds pay validBits bits) : pay.elems.length = (bits.length + 7) / 8 := by
  obtain ⟨pad, hpad, hbits⟩ := h.holds
  have hcount := congrArg List.length hbits
  rw [payloadBits_length, List.length_append, List.length_replicate] at hcount
  omega

/-- After the bits, PAY is 0 to its end. -/
theorem PayloadHolds.payloadBits_eq {pay : Buffer Byte} {validBits : BitVec 4} {bits : Bits}
    (h : PayloadHolds pay validBits bits) :
    payloadBits pay.elems = bits ++ List.replicate (8 * pay.elems.length - bits.length) false := by
  obtain ⟨pad, -, hbits⟩ := h.holds
  have hcount := congrArg List.length hbits
  rw [payloadBits_length, List.length_append, List.length_replicate] at hcount
  rw [hcount, Nat.add_sub_cancel_left, hbits]

/-! ### A list of codes for a list of symbols -/

theorem eq_map_codeOf {ptab : List (Symbol × Bits)} {l : List Symbol} {codes : List Bits}
    (h : l.map (fun x => Table.lookup symKey x ptab) = codes.map some) : codes = l.map (codeOf ptab) := by
  have hcodes := congrArg (List.map fun c => c.getD []) h
  rw [List.map_map, List.map_map] at hcodes
  exact (List.map_id codes).symm.trans hcodes.symm

theorem exists_code_of_map_eq {ptab : List (Symbol × Bits)} {l : List Symbol} {codes : List Bits}
    (h : l.map (fun x => Table.lookup symKey x ptab) = codes.map some) {x : Symbol} (hx : x ∈ l) :
    ∃ code, Table.lookup symKey x ptab = some code := by
  have hmem : Table.lookup symKey x ptab ∈ codes.map some := h ▸ List.mem_map_of_mem hx
  obtain ⟨code, -, hcode⟩ := List.mem_map.1 hmem
  exact ⟨code, hcode.symm⟩

/-- Settles O39: with unbounded capacities and a code for every symbol ENCODE succeeds, and PAY holds the codes' bits,
then zeros up to a whole byte. -/
theorem encodePacksCodes : Obligations.EncodePacksCodes := by
  intro s codes hcfg hcodes
  obtain ⟨t, ht⟩ := encodeBody_unbounded (s.cfg.unbounded_iff.1 hcfg) fun _ => exists_code_of_map_eq hcodes
  have hholds := encodeBody_holds ht
  obtain ⟨r, hr, rfl⟩ := encodeBody_ok ht
  obtain ⟨hpay, htotal⟩ := encodeSyms_exact hr
  rw [List.flatMap_def, ← eq_map_codeOf hcodes] at hholds htotal
  refine ⟨r.pay.elems, validBitsOf r.totalBits, r.acc, r.nbits, ?_, hholds.elems_length, ?_, hholds.payloadBits_eq⟩
  · rw [exec_of_body_ok (i := .encode) rfl ht, ← hpay, ← htotal]
    rfl
  · rw [validBitsOf_toNat, htotal]

end Sys2Proof.Machine
end

section
/-! The errors that the units of COMPRESS can report, in every configuration (60_exceptions.md R251, R256). -/

namespace Sys2Proof.Machine

/-! ### The shared operations -/

/-- An error of two operations one after the other is an error of the first, or of the second after the first's
result. -/
theorem bind_error {α β : Type} {x : Except ErrKind α} {f : α → Except ErrKind β} {k : ErrKind}
    (h : x >>= f = .error k) : x = .error k ∨ ∃ a, x = .ok a ∧ f a = .error k := by
  cases x with
  | error k' => cases h; exact .inl rfl
  | ok a => exact .inr ⟨a, rfl, h⟩

theorem checkCap_error {cap : Option Nat} {n : Nat} {k : ErrKind} (h : checkCap cap n = .error k) :
    k = .capacityExceeded := by
  unfold checkCap at h
  split at h
  · cases h
  · cases h; rfl

theorem checkCount_error {cfg : Config} {c : Count} {k : ErrKind} (h : checkCount cfg c = .error k) :
    k = .capacityExceeded := by
  unfold checkCount at h
  split at h
  · cases h
  · cases h; rfl

theorem Buffer.append_error {α : Type} {cap : Option Nat} {b : Buffer α} {v : α} {k : ErrKind}
    (h : b.append cap v = .error k) : k = .capacityExceeded := by
  unfold Buffer.append at h
  split at h
  · cases h
  · cases h; rfl

theorem Buffer.appendAll_error {α : Type} {cap : Option Nat} {b : Buffer α} {vs : List α} {k : ErrKind}
    (h : b.appendAll cap vs = .error k) : k = .capacityExceeded := by
  induction vs generalizing b with
  | nil => cases h
  | cons v vs ih =>
    unfold Buffer.appendAll at h
    split at h
    · exact ih h
    · cases h; exact Buffer.append_error ‹_›

theorem Table.put_error {κ ν : Type} {key : κ → Nat} {cap : Option Nat} {x : κ} {v : ν} {m : List (κ × ν)}
    {k : ErrKind} (h : Table.put key cap x v m = .error k) : k = .capacityExceeded := by
  rcases Table.put_cases h with ⟨h, -⟩ | ⟨h, -, -⟩
  · cases h
  · cases h; rfl

/-! ### ANALYZE (40_frequency_analyzer.md R130) -/

theorem countSymbol_error {cfg : Config} {x : Symbol} {m : List (Symbol × Count)} {k : ErrKind}
    (h : countSymbol cfg x m = .error k) : k = .capacityExceeded := by
  rcases bind_error h with h | ⟨c, -, h⟩
  · exact checkCount_error h
  · exact Table.put_error h

theorem analyzeLoop_error {cfg : Config} {turns : Nat} {bytes : List Byte} {r : AnalyzeRegs} {k : ErrKind}
    (h : analyzeLoop cfg turns bytes r = .error k) : k ∈ [ErrKind.invalidEncoding, .capacityExceeded] := by
  induction turns generalizing bytes r with
  | zero => cases h
  | succ turns ih =>
    unfold analyzeLoop at h
    cases hu : utf8Decode bytes with
    | ended => rw [hu] at h; cases h
    | truncated => rw [hu] at h; cases h; decide
    | invalid => rw [hu] at h; cases h; decide
    | ok x w =>
      rw [hu] at h
      rcases bind_error h with h | ⟨syms, -, h⟩
      · rw [Buffer.append_error h]; decide
      · rcases bind_error h with h | ⟨freq, -, h⟩
        · rw [countSymbol_error h]; decide
        · exact ih h

theorem analyzeBody_error {s : State} {k : ErrKind} (h : analyzeBody s = .error k) :
    k ∈ [ErrKind.invalidEncoding, .capacityExceeded] := by
  rcases bind_error h with h | ⟨r, -, h⟩
  · exact analyzeLoop_error h
  · cases h

/-! ### BUILD and its derivation (41_tree_builder.md R141, 42_code_derive.md R161) -/

theorem putCode_error {cfg : Config} {x : Symbol} {code : Bits} {t : CodeTables} {k : ErrKind}
    (h : putCode cfg x code t = .error k) : k = .capacityExceeded := by
  rcases bind_error h with h | ⟨_, -, h⟩
  · exact checkCap_error h
  · rcases bind_error h with h | ⟨ptab, -, h⟩
    · exact Table.put_error h
    · rcases bind_error h with h | ⟨lut, -, h⟩
      · exact Table.put_error h
      · cases h

theorem walkCodes_error {cfg : Config} {n : Node} {code : Bits} {t : CodeTables} {k : ErrKind}
    (h : walkCodes cfg n code t = .error k) : k = .capacityExceeded := by
  induction n generalizing code t with
  | leaf x c => exact putCode_error h
  | internal c l r ihl ihr =>
    rcases bind_error h with h | ⟨_, -, h⟩
    · exact checkCap_error h
    · rcases bind_error h with h | ⟨t1, -, h⟩
      · exact ihl h
      · exact ihr h

theorem mergeLoop_error {cfg : Config} {turns seq : Nat} {q : List PQEntry} {k : ErrKind}
    (h : mergeLoop cfg turns q seq = .error k) : k = .capacityExceeded := by
  induction turns generalizing q seq with
  | zero => cases h
  | succ turns ih =>
    match q with
    | [] => cases h
    | [_] => cases h
    | a :: b :: rest =>
      rcases bind_error h with h | ⟨c, -, h⟩
      · exact checkCount_error h
      · exact ih h

theorem buildTree_error {cfg : Config} {freq : List (Symbol × Count)} {k : ErrKind}
    (h : buildTree cfg freq = .error k) :
    k ∈ [ErrKind.emptyFrequencyMap, .nonPositiveFrequency, .insufficientSymbols, .capacityExceeded] := by
  unfold buildTree at h
  split at h
  · cases h; decide
  · split at h
    · cases h; decide
    · split at h
      · cases h; decide
      · rcases bind_error h with h | ⟨⟨q, seq⟩, -, h⟩
        · rw [mergeLoop_error h]; decide
        · cases q with
          | nil => cases h; decide
          | cons e rest => cases h

theorem buildBody_error {s : State} {k : ErrKind} (h : buildBody s = .error k) :
    k ∈ [ErrKind.emptyFrequencyMap, .nonPositiveFrequency, .insufficientSymbols, .capacityExceeded] := by
  rcases bind_error h with h | ⟨b, -, h⟩
  · exact buildTree_error h
  · rcases bind_error h with h | ⟨c, -, h⟩
    · rw [walkCodes_error h]; decide
    · cases h

/-! ### SERIALIZE (43_tree_serializer.md R170, R172) -/

theorem serNode_error {cfg : Config} {depth : Nat} {n : Node} {b : Buffer Byte} {k : ErrKind}
    (h : serNode cfg depth n b = .error k) : k = .capacityExceeded := by
  induction n generalizing depth b with
  | leaf x c => exact Buffer.appendAll_error h
  | internal c l r ihl ihr =>
    rcases bind_error h with h | ⟨b0, -, h⟩
    · exact Buffer.append_error h
    · rcases bind_error h with h | ⟨_, -, h⟩
      · exact checkCap_error h
      · rcases bind_error h with h | ⟨b1, -, h⟩
        · exact ihl h
        · exact ihr h

theorem serializeBody_error {s : State} {k : ErrKind} (h : serializeBody s = .error k) :
    k ∈ [ErrKind.nullNode, .capacityExceeded] := by
  unfold serializeBody at h
  split at h
  · cases h; decide
  · rcases bind_error h with h | ⟨b, -, h⟩
    · rw [serNode_error h]; decide
    · cases h

/-! ### ENCODE (45_bit_encoder.md R193) -/

theorem packBit_error {cfg : Config} {r : EncodeRegs} {b : Bool} {k : ErrKind} (h : packBit cfg r b = .error k) :
    k = .capacityExceeded := by
  rcases bind_error h with h | ⟨total, -, h⟩
  · exact checkCap_error h
  · split at h
    · rcases bind_error h with h | ⟨pay, -, h⟩
      · exact Buffer.append_error h
      · cases h
    · cases h

theorem packBits_error {cfg : Config} {r : EncodeRegs} {bs : Bits} {k : ErrKind}
    (h : packBits cfg r bs = .error k) : k = .capacityExceeded := by
  induction bs generalizing r with
  | nil => cases h
  | cons b bs ih =>
    rcases bind_error h with h | ⟨r1, -, h⟩
    · exact packBit_error h
    · exact ih h

theorem flushLast_error {cfg : Config} {r : EncodeRegs} {k : ErrKind} (h : flushLast cfg r = .error k) :
    k = .capacityExceeded := by
  unfold flushLast at h
  split at h
  · cases h
  · rcases bind_error h with h | ⟨pay, -, h⟩
    · exact Buffer.append_error h
    · cases h

/-- UnknownSymbol comes from a symbol that has no code, and from nothing else. -/
theorem encodeLoop_error {cfg : Config} {ptab : List (Symbol × Bits)} {r : EncodeRegs} {l : List Symbol} {k : ErrKind}
    (h : encodeLoop cfg ptab r l = .error k) :
    k = .capacityExceeded ∨ k = .unknownSymbol ∧ ∃ x ∈ l, Table.lookup symKey x ptab = none := by
  induction l generalizing r with
  | nil => cases h
  | cons x rest ih =>
    cases hx : Table.lookup symKey x ptab with
    | none =>
      simp only [encodeLoop, hx] at h
      cases h
      exact .inr ⟨rfl, x, List.mem_cons_self, hx⟩
    | some code =>
      simp only [encodeLoop, hx] at h
      rcases bind_error h with h | ⟨r1, -, h⟩
      · exact .inl (packBits_error h)
      · exact (ih h).imp_right fun ⟨hk, y, hy, hnone⟩ => ⟨hk, y, List.mem_cons_of_mem x hy, hnone⟩

theorem encodeBody_error {s : State} {k : ErrKind} (h : encodeBody s = .error k) :
    k = .capacityExceeded ∨ k = .unknownSymbol ∧ ∃ x ∈ s.syms.elems, Table.lookup symKey x s.ptab = none := by
  rcases bind_error h with h | ⟨r, -, h⟩
  · rcases bind_error h with h | ⟨r, -, h⟩
    · exact encodeLoop_error h
    · exact .inl (flushLast_error h)
  · cases h

/-! ### ASSEMBLE (47_container_and_sequencer.md R216) -/

theorem assembleBody_error {s : State} {k : ErrKind} (h : assembleBody s = .error k) :
    k ∈ [ErrKind.invalidBitLength, .capacityExceeded] := by
  unfold assembleBody at h
  split at h
  · cases h; decide
  · rcases bind_error h with h | ⟨d, -, h⟩
    · rw [Buffer.appendAll_error h]; decide
    · cases h

/-! ### A composite command (10_state.md R31) -/

/-- An error in a run of phases is the first phase's, or one of those after it. -/
theorem runPhases_error {n : Nat} {p : Phase} {s : State} {k : ErrKind} (hphase : s.phase = p) (hp : p ≠ .pIdle)
    (h : runPhases (n + 1) s = .error k) :
    phaseBody p s = .error k ∨ ∃ t, phaseBody p s = .ok t ∧ runPhases n { t with phase := p.next } = .error k := by
  subst hphase
  rw [runPhases_succ hp] at h
  rcases bind_error h with h | ⟨u, hadvance, h⟩
  · rcases bind_error h with h | ⟨t, -, h⟩
    · exact .inl h
    · cases h
  · obtain ⟨t, ht, rfl⟩ := advance_ok hadvance
    exact .inr ⟨t, ht, h⟩

theorem compositeBody_error {p : Phase} {s : State} {k : ErrKind} (h : compositeBody p s = .error k) :
    runPhases 5 (beginComposite p s) = .error k := by
  rcases bind_error h with h | ⟨t, -, h⟩
  · exact h
  · cases h

end Sys2Proof.Machine
end

section
/-! UnknownSymbol: ENCODE reports it for a symbol that has no code, and inside COMPRESS every symbol has one (O40). -/

namespace Sys2Proof.Machine

/-! ### A symbol with no code (45_bit_encoder.md R193) -/

theorem encodeLoop_unknownSymbol {cfg : Config} (h : cfg.Unbounded) {ptab : List (Symbol × Bits)} (r : EncodeRegs)
    {l : List Symbol} (hl : ∃ x ∈ l, Table.lookup symKey x ptab = none) :
    encodeLoop cfg ptab r l = .error .unknownSymbol := by
  induction l generalizing r with
  | nil => simp at hl
  | cons x rest ih =>
    cases hx : Table.lookup symKey x ptab with
    | none => simp only [encodeLoop, hx]
    | some code =>
      have hrest : ∃ y ∈ rest, Table.lookup symKey y ptab = none := by simpa [hx] using hl
      obtain ⟨r1, h1⟩ := packBits_unbounded h r code
      simp only [encodeLoop, hx, h1]
      exact ih r1 hrest

theorem encodeBody_unknownSymbol {s : State} (h : s.cfg.Unbounded)
    (hl : ∃ x ∈ s.syms.elems, Table.lookup symKey x s.ptab = none) : encodeBody s = .error .unknownSymbol := by
  rw [encodeBody, encodeSyms, encodeLoop_unknownSymbol h _ hl]
  rfl

/-! ### ANALYZE counts every symbol it reads, whatever the capacities (40_frequency_analyzer.md R130) -/

theorem countSymbol_ok {cfg : Config} {x : Symbol} {m m' : List (Symbol × Count)} (h : countSymbol cfg x m = .ok m') :
    m' = tally m x := by
  obtain ⟨c, hcheck, hput⟩ := bind_ok h
  obtain ⟨rfl, -⟩ := checkCount_ok hcheck
  rcases Table.put_cases hput with ⟨hm, -⟩ | ⟨hm, -, -⟩
  · cases hm; rfl
  · cases hm

/-- ANALYZE's registers hold the symbols read so far and the counts of these. -/
def CountsRead (r : AnalyzeRegs) : Prop := ∃ l, r.syms = Buffer.ofList l ∧ r.freq = textFreq l

theorem analyzeLoop_countsRead {cfg : Config} {turns : Nat} {bytes : List Byte} {r r' : AnalyzeRegs}
    (hr : CountsRead r) (h : analyzeLoop cfg turns bytes r = .ok r') : CountsRead r' := by
  induction turns generalizing bytes r with
  | zero => cases h; exact hr
  | succ turns ih =>
    unfold analyzeLoop at h
    cases hu : utf8Decode bytes with
    | ended => rw [hu] at h; cases h; exact hr
    | truncated => rw [hu] at h; cases h
    | invalid => rw [hu] at h; cases h
    | ok x w =>
      rw [hu] at h
      obtain ⟨l, hsyms, hfreq⟩ := hr
      obtain ⟨syms, happend, h⟩ := bind_ok h
      obtain ⟨freq, hcount, h⟩ := bind_ok h
      rw [hsyms] at happend
      rw [hfreq] at hcount
      exact ih ⟨l ++ [x], Buffer.append_ofList_ok happend, (countSymbol_ok hcount).trans (textFreq_snoc l x).symm⟩ h

/-- An ANALYZE that succeeds leaves the counts of SYMS in FREQ. -/
theorem analyzeText_freq {cfg : Config} {bytes : List Byte} {r : AnalyzeRegs} (h : analyzeText cfg bytes = .ok r) :
    r.freq = textFreq r.syms.elems := by
  obtain ⟨l, hsyms, hfreq⟩ := analyzeLoop_countsRead (r := ⟨Buffer.empty, [], 0⟩) ⟨[], rfl, rfl⟩ h
  rw [hsyms, hfreq, Buffer.ofList_elems]

theorem mem_textFreq_keys {l : List Symbol} {x : Symbol} (hx : x ∈ l) : x ∈ (textFreq l).map Prod.fst := by
  have hlook : Table.lookup symKey x (textFreq l) = some (l.count x : Int) := by
    rw [lookup_textFreq, if_pos (List.contains_iff_mem.2 hx)]
  exact List.mem_map_of_mem ((Table.lookup_iff_mem symKey_eq_iff (textFreq_wf l) _ _).1 hlook)

/-! ### BUILD's tree has a leaf for every entry of FREQ (41_tree_builder.md R143, R144) -/

/-- As many turns as entries leave at most one entry. -/
theorem mergeLoop_length_le {cfg : Config} {turns seq seq' : Nat} {q q' : List PQEntry} (hq : q.length ≤ turns)
    (h : mergeLoop cfg turns q seq = .ok (q', seq')) : q'.length ≤ 1 := by
  induction turns generalizing q seq with
  | zero =>
    cases h
    exact Nat.le_succ_of_le hq
  | succ turns ih =>
    match q with
    | [] => cases h; exact Nat.zero_le 1
    | [_] => cases h; exact Nat.le_refl 1
    | a :: b :: rest =>
      obtain ⟨c, -, h⟩ := bind_ok h
      refine ih ?_ h
      rw [(pqInsert_perm _ rest).length_eq]
      exact Nat.le_of_succ_le_succ hq

theorem buildTree_leaves_perm {cfg : Config} {freq : List (Symbol × Count)} {b : BuiltTree}
    (h : buildTree cfg freq = .ok b) : b.root.leaves.Perm freq := by
  obtain ⟨-, e, rest, hloop, hroot⟩ := buildTree_ok h
  rw [leafEntries_eq_queueLeaves] at hloop
  have hqueue := pqOfList_perm (queueLeaves freq)
  have hlen := mergeLoop_length_le (hqueue.length_eq.trans (queueLeaves_length freq)).le hloop
  obtain rfl : rest = [] := List.eq_nil_of_length_eq_zero (Nat.le_zero.1 (Nat.le_of_succ_le_succ hlen))
  have hperm := (mergeLoop_leaves_perm hloop).trans (hqueue.flatMap_right _)
  rwa [queueLeaves_leaves, List.flatMap_singleton, ← hroot] at hperm

/-! ### In COMPRESS every symbol has a code (47_container_and_sequencer.md R230, R231) -/

/-- Every symbol of SYMS has a code in PTAB. -/
def State.HasCodes (s : State) : Prop := ∀ x ∈ s.syms.elems, ∃ code, Table.lookup symKey x s.ptab = some code

theorem analyzeBody_freq {s t : State} (h : analyzeBody s = .ok t) : t.freq = textFreq t.syms.elems := by
  obtain ⟨r, hr, rfl⟩ := analyzeBody_ok h
  exact analyzeText_freq hr

/-- BUILD gives a code to every entry of FREQ (R145). -/
theorem buildBody_hasCodes {s t : State} (hfreq : s.freq = textFreq s.syms.elems) (h : buildBody s = .ok t) :
    t.HasCodes := by
  obtain ⟨b, c, hb, hc, rfl⟩ := buildBody_ok h
  intro x hx
  have hkey : x ∈ s.freq.map Prod.fst := hfreq ▸ mem_textFreq_keys hx
  have hleaf : x ∈ b.root.symbols := ((buildTree_leaves_perm hb).map Prod.fst).mem_iff.2 hkey
  obtain ⟨code, -, hlook⟩ := lookup_treeTables_ptab hleaf
  exact ⟨code, by rw [deriveTables_eq_treeTables hc, hlook]⟩

theorem serializeBody_hasCodes {s t : State} (hs : s.HasCodes) (h : serializeBody s = .ok t) : t.HasCodes := by
  obtain ⟨root, b, -, -, rfl⟩ := serializeBody_ok h
  exact hs

theorem encodeBody_error_of_hasCodes {s : State} {k : ErrKind} (hs : s.HasCodes) (h : encodeBody s = .error k) :
    k = .capacityExceeded := by
  rcases encodeBody_error h with hk | ⟨-, x, hx, hnone⟩
  · exact hk
  · obtain ⟨code, hcode⟩ := hs x hx
    cases hnone.symm.trans hcode

/-- ENCODE finds the code of every symbol that ANALYZE has read, and no other unit reports UnknownSymbol. -/
theorem compressBody_error_ne {s : State} {k : ErrKind} (h : compositeBody .cAnalyze s = .error k) :
    k ≠ .unknownSymbol := by
  rintro rfl
  rcases runPhases_error (p := .cAnalyze) rfl (by decide) (compositeBody_error h) with herr | ⟨t1, h1, h⟩
  · exact absurd (analyzeBody_error herr) (by decide)
  rcases runPhases_error (p := .cBuild) rfl (by decide) h with herr | ⟨t2, h2, h⟩
  · exact absurd (buildBody_error herr) (by decide)
  rcases runPhases_error (p := .cSerialize) rfl (by decide) h with herr | ⟨t3, h3, h⟩
  · exact absurd (serializeBody_error herr) (by decide)
  rcases runPhases_error (p := .cEncode) rfl (by decide) h with herr | ⟨t4, -, h⟩
  · have hcounted : t1.freq = textFreq t1.syms.elems := analyzeBody_freq h1
    have hbuilt : t2.HasCodes := buildBody_hasCodes (s := { t1 with phase := .cBuild }) hcounted h2
    have hserialized : t3.HasCodes := serializeBody_hasCodes (s := { t2 with phase := .cSerialize }) hbuilt h3
    cases encodeBody_error_of_hasCodes (s := { t3 with phase := .cEncode }) hserialized herr
  rcases runPhases_error (p := .cAssemble) rfl (by decide) h with herr | ⟨t5, -, h⟩
  · exact absurd (assembleBody_error herr) (by decide)
  · cases h

theorem ErrKind.code_ne_of_ne_unknownSymbol {k : ErrKind} (h : k ≠ .unknownSymbol) : k.code ≠ 0x0F := by
  cases k with
  | unknownSymbol => exact absurd rfl h
  | _ => decide

theorem exec_compress_err_ne {s t : State} (h : exec .compress s = .next t) : t.err ≠ 0x0F := by
  rw [exec_command (i := .compress) rfl] at h
  cases h
  cases hbody : commandBody .compress s with
  | ok u => exact (by decide : (0 : Byte) ≠ 0x0F)
  | error k => exact ErrKind.code_ne_of_ne_unknownSymbol (compressBody_error_ne hbody)

/-- Settles O40: with unbounded capacities ENCODE stops at the first symbol with no code and nowhere before; in COMPRESS
BUILD has given every symbol that ANALYZE counted a leaf, and so a code. -/
theorem encodeUnknownSymbol : Obligations.EncodeUnknownSymbol := by
  refine ⟨fun s hcfg hl => ?_, fun s t => exec_compress_err_ne⟩
  rw [exec_command (i := .encode) rfl, commandBody, encodeBody_unknownSymbol (s.cfg.unbounded_iff.1 hcfg) hl]
  rfl

end Sys2Proof.Machine
end

section
/-! DECODE against the tree walk (46_bit_decoder.md R205, R206; O43), its checks and its end test (R201, R203, R204,
R207; O44). -/

namespace Sys2Proof.Machine

/-! ### The nodes on the way down a tree -/

/-- `n` hangs in the tree at the end of the bits `cand`: its paths are what is left of the tree's paths there. -/
def Node.HangsAt (root : Node) (cand : Bits) (n : Node) : Prop :=
  ∀ (code : Bits) (x : Symbol), (cand ++ code, x) ∈ root.paths ↔ (code, x) ∈ n.paths

theorem Node.hangsAt_nil (root : Node) : root.HangsAt [] root := fun _ _ => Iff.rfl

/-- A path of an Internal is a bit and a path of the child on its side. -/
theorem Node.cons_mem_paths_internal {b : Bool} {code : Bits} {x : Symbol} {c : Count} {l r : Node} :
    (b :: code, x) ∈ (Node.internal c l r).paths ↔ (code, x) ∈ (if b then r else l).paths := by
  rw [Node.mem_paths_internal]
  cases b <;> simp [Prod.ext_iff]

/-- One bit further down hangs the child on its side. -/
theorem Node.HangsAt.child {root : Node} {cand : Bits} {c : Count} {l r : Node}
    (h : root.HangsAt cand (.internal c l r)) (b : Bool) : root.HangsAt (cand ++ [b]) (if b then r else l) := by
  intro code x
  rw [← List.append_cons, h, Node.cons_mem_paths_internal]

/-- The lookup matches a candidate at whose end a Leaf hangs. -/
theorem Node.HangsAt.lookup_leaf {root : Node} {cand : Bits} {x : Symbol} {c : Count}
    (h : root.HangsAt cand (.leaf x c)) :
    Table.lookup bitsKey cand (treeTables root).lut = some x := by
  rw [lookup_treeTables_lut, ← List.append_nil cand, h]
  exact List.mem_singleton_self _

/-- The lookup does not match a candidate at whose end an Internal hangs. -/
theorem Node.HangsAt.lookup_internal {root : Node} {cand : Bits} {c : Count} {l r : Node}
    (h : root.HangsAt cand (.internal c l r)) : Table.lookup bitsKey cand (treeTables root).lut = none := by
  refine Option.eq_none_iff_forall_ne_some.2 fun x hx => ?_
  rw [lookup_treeTables_lut, ← List.append_nil cand, h, Node.mem_paths_internal] at hx
  rcases hx with ⟨q, -, hq⟩ | ⟨q, -, hq⟩ <;> cases hq

/-! ### The end test and the walk (R202, R203) -/

/-- The end test: a candidate left over is no code. -/
def endTest (r : DecodeRegs) : Except ErrKind DecodeRegs :=
  if r.cand = [] then .ok r else .error .undecodableBitstream

theorem decodeBits_eq (cfg : Config) (lut : List (Bits × Symbol)) (bits : Bits) :
    decodeBits cfg lut bits = decodeLoop cfg lut bits ⟨Buffer.empty, [], 0⟩ >>= endTest := rfl

theorem endTest_unmatched {r : DecodeRegs} (h : r.cand ≠ []) : endTest r = .error .undecodableBitstream := if_neg h

/-- Bits after which the lookup never matches all stay in the candidate. -/
theorem decodeLoop_unmatched (cfg : Config) {lut : List (Bits × Symbol)} {cand bits : Bits}
    (h : ∀ c, c <+: bits → c ≠ [] → Table.lookup bitsKey (cand ++ c) lut = none) (syms : Buffer Symbol) (pos : Nat) :
    decodeLoop cfg lut bits ⟨syms, cand, pos⟩ = .ok ⟨syms, cand ++ bits, pos + bits.length⟩ := by
  induction bits generalizing cand pos with
  | nil => rw [List.append_nil]; rfl
  | cons b bs ih =>
    have hb := h [b] (by simp) (List.cons_ne_nil b [])
    have hbs : ∀ c, c <+: bs → c ≠ [] → Table.lookup bitsKey (cand ++ [b] ++ c) lut = none := fun c hc _ => by
      rw [← List.append_cons]
      exact h (b :: c) (List.cons_prefix_cons.2 ⟨rfl, hc⟩) (List.cons_ne_nil b c)
    simp only [decodeLoop, hb]
    rw [ih hbs, ← List.append_cons, List.length_cons, Nat.add_assoc, Nat.add_comm 1]

/-- Bits that end in a candidate the lookup never matches are no run of codes. -/
theorem decodeBits_unmatched (cfg : Config) {lut : List (Bits × Symbol)} {bits : Bits} (hne : bits ≠ [])
    (h : ∀ c, c <+: bits → c ≠ [] → Table.lookup bitsKey c lut = none) :
    decodeBits cfg lut bits = .error .undecodableBitstream := by
  rw [decodeBits_eq, decodeLoop_unmatched cfg h]
  exact endTest_unmatched hne

/-- An empty lookup, and that of a single Leaf, match no candidate of a bit or more (R204, R207). -/
theorem lookup_without_codes {lut : List (Bits × Symbol)} (h : lut = [] ∨ ∃ x, lut = [([], x)]) {c : Bits}
    (hc : c ≠ []) : Table.lookup bitsKey c lut = none := by
  rcases h with rfl | ⟨x, rfl⟩
  · rfl
  · rw [Table.lookup, if_neg fun hkey => hc ((bitsKey_eq_iff _ _).1 hkey)]
    rfl

/-! ### The checks before the walk (R201) -/

theorem validBitsOk_iff (v : Nat) : validBitsOk v = true ↔ 1 ≤ v ∧ v ≤ 8 := by
  rw [validBitsOk, Bool.and_eq_true, decide_eq_true_eq, decide_eq_true_eq]

theorem decodeBody_noPayload {s : State} (h : s.pay.len = 0) : decodeBody s = .ok { s with syms := Buffer.empty } :=
  if_pos h

theorem decodeBody_badValidBits {s : State} (hlen : s.pay.len ≠ 0) (hv : validBitsOk s.validBits.toNat = false) :
    decodeBody s = .error .invalidBitLength := by
  rw [decodeBody, if_neg hlen, hv]
  rfl

theorem decodeBody_walks {s : State} (hlen : s.pay.len ≠ 0) (hv : validBitsOk s.validBits.toNat = true) :
    decodeBody s = (decodeBits s.cfg s.lut (walkedBits s.pay.elems s.validBits)).map fun r =>
      { s with syms := r.syms, cand := r.cand, bitpos := r.bitpos, usable := usableBits s.pay.len s.validBits } := by
  rw [decodeBody, if_neg hlen, hv]
  cases decodeBits s.cfg s.lut (walkedBits s.pay.elems s.validBits) <;> rfl

theorem usableBits_bounds {payLen : Nat} {validBits : BitVec 4} (hlen : payLen ≠ 0) (h1 : 1 ≤ validBits.toNat)
    (h8 : validBits.toNat ≤ 8) :
    8 * payLen - 7 ≤ usableBits payLen validBits ∧ usableBits payLen validBits ≤ 8 * payLen := by
  rw [usableBits]
  omega

/-- A payload of at least one byte has a bit to walk. -/
theorem walkedBits_ne_nil {pay : List Byte} {validBits : BitVec 4} (hpay : pay.length ≠ 0)
    (hv : validBitsOk validBits.toNat = true) : walkedBits pay validBits ≠ [] := by
  obtain ⟨h1, h8⟩ := (validBitsOk_iff _).1 hv
  have hbounds := usableBits_bounds hpay h1 h8
  rw [walkedBits, ← List.length_pos_iff, List.length_take, payloadBits_length]
  omega

/-- A payload of at least one byte holds no run of codes of a lookup that has no code of a bit or more. -/
theorem decodeBits_without_codes (cfg : Config) {lut : List (Bits × Symbol)} {pay : List Byte} {validBits : BitVec 4}
    (hlut : lut = [] ∨ ∃ x, lut = [([], x)]) (hpay : pay.length ≠ 0) (hv : validBitsOk validBits.toNat = true) :
    decodeBits cfg lut (walkedBits pay validBits) = .error .undecodableBitstream :=
  decodeBits_unmatched cfg (walkedBits_ne_nil hpay hv) fun _ _ hc => lookup_without_codes hlut hc

theorem exec_decode_ok {s u : State} (h : decodeBody s = .ok u) : exec .decode s = .next u.succeed :=
  exec_of_body_ok (i := .decode) rfl h

theorem exec_decode_error {s : State} {k : ErrKind} (h : decodeBody s = .error k) :
    exec .decode s = .next { s with syms := Buffer.empty, status := .err, err := k.code } := by
  rw [exec_command (i := .decode) rfl, commandBody, h]
  rfl

/-! ### The walk of the tree and the lookup (R205, R206) -/

/-- With an Internal at the end of the candidate, both algorithms go on alike: they match at the same bits. -/
theorem decodeLoop_eq_treeLoop (cfg : Config) {root : Node} {c0 : Count} {l0 r0 : Node}
    (hroot : root = .internal c0 l0 r0) (bits : Bits) {cand : Bits} {c : Count} {l r : Node}
    (h : root.HangsAt cand (.internal c l r)) (syms : Buffer Symbol) (pos : Nat) :
    (decodeLoop cfg (treeTables root).lut bits ⟨syms, cand, pos⟩ >>= endTest).map DecodeRegs.syms
      = treeLoop cfg root bits (.internal c l r) (decide (cand = [])) syms := by
  induction bits generalizing cand c l r syms pos with
  | nil =>
    by_cases hcand : cand = []
    · subst hcand
      rfl
    · rw [treeLoop, decide_eq_false hcand]
      exact congrArg (Except.map DecodeRegs.syms) (endTest_unmatched (r := ⟨syms, cand, pos⟩) hcand)
  | cons b bs ih =>
    have hchild := h.child b
    rw [treeLoop]
    cases hn : (if b then r else l) with
    | leaf x cnt =>
      rw [hn] at hchild
      simp only [decodeLoop, hchild.lookup_leaf]
      cases syms.append cfg.symsCap x with
      | error k => rfl
      | ok syms1 =>
        subst hroot
        exact ih (Node.hangsAt_nil _) syms1 (pos + 1)
    | internal c1 l1 r1 =>
      rw [hn] at hchild
      simp only [decodeLoop, hchild.lookup_internal]
      rw [ih hchild, decide_eq_false (List.append_ne_nil_of_right_ne_nil cand (List.cons_ne_nil b []))]

theorem treeTables_leaf_lut (x : Symbol) (c : Count) : (treeTables (.leaf x c)).lut = [([], x)] := rfl

/-- DECODE's operation with the lookup of a tree gives what the walk of the tree gives. -/
theorem decodeBody_eq_decodeByTree {s : State} {root : Node} (hpay : s.pay.elems.length = s.pay.len)
    (hlut : s.lut = (treeTables root).lut) :
    (decodeBody s).map State.syms = decodeByTree s.cfg root s.pay.elems s.validBits := by
  unfold decodeByTree
  rw [hpay]
  by_cases hlen : s.pay.len = 0
  · rw [decodeBody_noPayload hlen, if_pos hlen]
    rfl
  rw [if_neg hlen]
  cases hv : validBitsOk s.validBits.toNat with
  | false => rw [decodeBody_badValidBits hlen hv]; rfl
  | true =>
    have hmap : (decodeBody s).map State.syms
        = (decodeBits s.cfg s.lut (walkedBits s.pay.elems s.validBits)).map DecodeRegs.syms := by
      rw [decodeBody_walks hlen hv]
      cases decodeBits s.cfg s.lut (walkedBits s.pay.elems s.validBits) <;> rfl
    rw [hmap, hlut]
    cases root with
    | leaf x c =>
      rw [treeTables_leaf_lut, decodeBits_without_codes s.cfg (.inr ⟨x, rfl⟩) (hpay ▸ hlen) hv]
      rfl
    | internal c l r => exact decodeLoop_eq_treeLoop s.cfg rfl _ (Node.hangsAt_nil _) Buffer.empty 0

/-- Settles O43: going down the tree bit by bit, the candidate is the path of the current node, and the lookup matches
it exactly where that node is a Leaf. -/
theorem treeWalkEqualsLookup : Obligations.TreeWalkEqualsLookup := by
  intro s t root c hpay hc hlut ht
  rw [deriveTables_eq_treeTables hc] at hlut
  rw [← decodeBody_eq_decodeByTree hpay hlut]
  cases hbody : decodeBody s with
  | ok u =>
    rw [exec_decode_ok hbody] at ht
    cases ht
    exact ⟨fun b hb => ⟨rfl, rfl, Except.ok.inj hb⟩, nofun⟩
  | error e =>
    rw [exec_decode_error hbody] at ht
    cases ht
    exact ⟨nofun, fun k hk => ⟨rfl, congrArg ErrKind.code (Except.error.inj hk), rfl⟩⟩

/-! ### Runs of codes (R203) -/

/-- A run of codes gives their symbols, whatever bits follow. -/
theorem decodeLoop_run {cfg : Config} (hcap : cfg.symsCap = none) {lut : List (Bits × Symbol)}
    {run : List (Bits × Symbol)} (h : ∀ w ∈ run, ReadsAs lut w.1 w.2) (bits : Bits) (l : List Symbol) (pos : Nat) :
    decodeLoop cfg lut ((run.map Prod.fst).flatten ++ bits) ⟨Buffer.ofList l, [], pos⟩
      = decodeLoop cfg lut bits
          ⟨Buffer.ofList (l ++ run.map Prod.snd), [], pos + (run.map Prod.fst).flatten.length⟩ := by
  induction run generalizing l pos with
  | nil => simp
  | cons w run ih =>
    have hw := h w List.mem_cons_self
    rw [List.map_cons, List.flatten_cons, List.append_assoc, decodeLoop_code hcap (cand := []) hw hw.ne_nil,
      ih fun v hv => h v (List.mem_cons_of_mem w hv)]
    simp only [List.map_cons, List.append_assoc, List.singleton_append, List.length_append, Nat.add_assoc]

theorem decodeBits_run {cfg : Config} (hcap : cfg.symsCap = none) {lut : List (Bits × Symbol)}
    {run : List (Bits × Symbol)} (h : ∀ w ∈ run, ReadsAs lut w.1 w.2) :
    decodeBits cfg lut (run.map Prod.fst).flatten
      = .ok ⟨Buffer.ofList (run.map Prod.snd), [], (run.map Prod.fst).flatten.length⟩ := by
  have hloop := decodeLoop_run hcap h [] [] 0
  rw [List.append_nil, List.nil_append, Nat.zero_add] at hloop
  rw [decodeBits_eq, ← Buffer.ofList_nil, hloop]
  rfl

/-- A run of codes, then a non-empty proper beginning of a code: the candidate is left over. -/
theorem decodeBits_run_part {cfg : Config} (hcap : cfg.symsCap = none) {lut : List (Bits × Symbol)}
    {run : List (Bits × Symbol)} (h : ∀ w ∈ run, ReadsAs lut w.1 w.2) {part code : Bits} {x : Symbol}
    (hcode : ReadsAs lut code x) (hpart : part <+: code) (hne : part ≠ []) (hproper : part ≠ code) :
    decodeBits cfg lut ((run.map Prod.fst).flatten ++ part) = .error .undecodableBitstream := by
  have hnone : ∀ c, c <+: part → c ≠ [] → Table.lookup bitsKey c lut = none := fun c hc _ =>
    hcode.not_before c (hc.trans hpart) fun heq =>
      hproper (hpart.eq_of_length_le (heq ▸ hc.length_le))
  rw [decodeBits_eq, ← Buffer.ofList_nil, decodeLoop_run hcap h, decodeLoop_unmatched cfg hnone]
  exact endTest_unmatched hne

/-- A tree with a path of a bit or more has two leaves or more. -/
theorem Node.two_le_symbols_of_path {n : Node} {p : Bits × Symbol} (hp : p ∈ n.paths) (hne : p.1 ≠ []) :
    2 ≤ n.symbols.length := by
  cases n with
  | leaf s c =>
    rw [Node.paths, List.mem_singleton] at hp
    exact absurd (congrArg Prod.fst hp) hne
  | internal c l r =>
    have hl := l.internals_succ
    have hr := r.internals_succ
    rw [Node.symbols_internal, List.length_append, Node.symbols, Node.symbols, List.length_map, List.length_map]
    omega

/-- Bits go down a tree past a leaf, or end before one. -/
theorem Node.path_or_beginning (n : Node) (bits : Bits) :
    (∃ p ∈ n.paths, p.1 <+: bits) ∨ ∃ p ∈ n.paths, bits <+: p.1 ∧ bits ≠ p.1 := by
  obtain ⟨p, hp, hpath⟩ := n.exists_path_of_sequence fun i => bits.getD i false
  have hbits : bits = (List.range bits.length).map fun i => bits.getD i false :=
    List.ext_getElem (by simp) fun i h _ => by simp [h]
  rcases Nat.lt_or_ge bits.length p.1.length with hlt | hle
  · have hpre := map_range_prefix (fun i => bits.getD i false) hlt.le
    rw [← hpath, ← hbits] at hpre
    exact .inr ⟨p, hp, hpre, fun heq => hlt.ne (congrArg List.length heq)⟩
  · have hpre := map_range_prefix (fun i => bits.getD i false) hle
    rw [← hpath, ← hbits] at hpre
    exact .inl ⟨p, hp, hpre⟩

/-- Any bits are a run of a tree's codes and a proper beginning of one (R162): the tree is complete. -/
theorem Node.exists_run {root : Node} (h : 2 ≤ root.symbols.length) (bits : Bits) :
    ∃ (run : List (Bits × Symbol)) (part : Bits), (∀ w ∈ run, w ∈ root.paths)
      ∧ bits = (run.map Prod.fst).flatten ++ part ∧ ∃ p ∈ root.paths, part <+: p.1 ∧ part ≠ p.1 := by
  induction hlen : bits.length using Nat.strong_induction_on generalizing bits with
  | _ n ih =>
    rcases root.path_or_beginning bits with ⟨p, hp, rest, rfl⟩ | hpart
    · have hpos := List.length_pos_iff.2 (Node.paths_ne_nil h hp)
      rw [List.length_append] at hlen
      obtain ⟨run, part, hrun, hrest, hpart⟩ := ih rest.length (by omega) rest rfl
      refine ⟨p :: run, part, List.forall_mem_cons.2 ⟨hp, hrun⟩, ?_, hpart⟩
      rw [List.map_cons, List.flatten_cons, List.append_assoc, ← hrest]
    · exact ⟨[], bits, List.forall_mem_nil _, rfl, hpart⟩

/-- DECODE, with the lookup of a tree, on a run of its codes. -/
theorem exec_decode_run {s : State} {root : Node} {run : List (Bits × Symbol)} (hcap : s.cfg.symsCap = none)
    (hlut : s.lut = (treeTables root).lut) (hlen : s.pay.len ≠ 0) (hpay : s.pay.elems.length = s.pay.len)
    (hok : validBitsOk s.validBits.toNat = true) (hrun : ∀ w ∈ run, w ∈ root.paths)
    (hwalked : walkedBits s.pay.elems s.validBits = (run.map Prod.fst).flatten) :
    ∃ cand bitpos usable, exec .decode s
      = .next { s with syms := Buffer.ofList (run.map Prod.snd), cand := cand, bitpos := bitpos, usable := usable,
                       status := .ok, err := 0 } := by
  obtain ⟨code, hcode, hne⟩ := List.flatten_ne_nil_iff.1 (hwalked ▸ walkedBits_ne_nil (hpay ▸ hlen) hok)
  obtain ⟨w, hw, rfl⟩ := List.mem_map.1 hcode
  have htwo := Node.two_le_symbols_of_path (hrun w hw) hne
  have hreads : ∀ v ∈ run, ReadsAs s.lut v.1 v.2 := fun v hv => hlut ▸ readsAs_treeTables htwo (hrun v hv)
  have hbody := decodeBody_walks hlen hok
  rw [hwalked, decodeBits_run hcap hreads] at hbody
  exact ⟨_, _, _, exec_decode_ok hbody⟩

/-- DECODE, with the lookup of a tree, on a run of its codes that a non-empty proper beginning of a code follows. -/
theorem exec_decode_run_part {s : State} {root : Node} {run : List (Bits × Symbol)} {part : Bits} {p : Bits × Symbol}
    (hcap : s.cfg.symsCap = none) (hlut : s.lut = (treeTables root).lut) (hlen : s.pay.len ≠ 0)
    (hok : validBitsOk s.validBits.toNat = true) (hrun : ∀ w ∈ run, w ∈ root.paths) (hne : part ≠ [])
    (hp : p ∈ root.paths) (hpart : part <+: p.1) (hproper : part ≠ p.1)
    (hwalked : walkedBits s.pay.elems s.validBits = (run.map Prod.fst).flatten ++ part) :
    exec .decode s = .next { s with syms := Buffer.empty, status := .err, err := 0x0E } := by
  have htwo := Node.two_le_symbols_of_path hp fun h => hne (List.prefix_nil.1 (h ▸ hpart))
  have hreads {w : Bits × Symbol} (hw : w ∈ root.paths) := readsAs_treeTables htwo hw
  refine exec_decode_error (k := .undecodableBitstream) ?_
  rw [decodeBody_walks hlen hok, hwalked, hlut,
    decodeBits_run_part hcap (fun w hw => hreads (hrun w hw)) (hreads hp) hpart hne hproper]
  rfl

/-- Settles O44: the checks are DECODE's first two branches, a run of codes is matched code by code, a proper beginning
of a code matches nothing, and a tree of two or more leaves is complete. -/
theorem decodeChecksAndEndTest : Obligations.DecodeChecksAndEndTest := by
  refine ⟨fun s => ⟨fun hlen => exec_decode_ok (decodeBody_noPayload hlen), fun hlen hv => ?_,
    fun hlen hpay h1 h8 => ?_⟩, fun s root c run part hcfg hc hlut hlen hpay h1 h8 hrun hbits => ?_,
    fun root bits h => Node.exists_run h bits⟩
  · refine exec_decode_error (decodeBody_badValidBits hlen (Bool.eq_false_iff.2 fun hok => ?_))
    have hrange := (validBitsOk_iff _).1 hok
    omega
  · obtain ⟨hlow, hhigh⟩ := usableBits_bounds hlen h1 h8
    have hok := (validBitsOk_iff _).2 ⟨h1, h8⟩
    refine ⟨hlow, hhigh, fun hlut => exec_decode_error (k := .undecodableBitstream) ?_⟩
    rw [decodeBody_walks hlen hok, decodeBits_without_codes s.cfg hlut (hpay ▸ hlen) hok]
    rfl
  · have hcap := (s.cfg.unbounded_iff.1 hcfg).symsCap
    have hok := (validBitsOk_iff _).2 ⟨h1, h8⟩
    rw [deriveTables_eq_treeTables hc] at hlut
    rw [← hpay, ← walkedBits] at hbits
    refine ⟨fun hnil => ?_, fun hne ⟨p, hp, hpart, hproper⟩ => ?_⟩
    · rw [hnil, List.append_nil] at hbits
      exact exec_decode_run hcap hlut hlen hpay hok hrun hbits
    · exact exec_decode_run_part hcap hlut hlen hok hrun hne hp hpart hproper hbits

end Sys2Proof.Machine
end

section
/-! COMPRESS and DECOMPRESS against their scripts of unit commands (47_container_and_sequencer.md R245; O53): each unit
of the script works on the contents the phase works on. -/

namespace Sys2Proof.Machine

/-! ### The units do not see PHASE -/

/-- The state at another phase. -/
def State.atPhase (q : Phase) (s : State) : State := { s with phase := q }

theorem writeSpans_atPhase (f : BlobFields) (q : Phase) (s : State) :
    writeSpans f (s.atPhase q) = (writeSpans f s).map (State.atPhase q) := by
  rw [writeSpans_eq (s := s) (t := s.atPhase q) f rfl rfl]
  cases hw : writeSpans f s with
  | error k => rfl
  | ok u =>
    obtain ⟨tb, pay, -, -, rfl⟩ := writeSpans_ok hw
    rfl

theorem phaseBody_atPhase (p q : Phase) (s : State) :
    phaseBody p (s.atPhase q) = (phaseBody p s).map (State.atPhase q) := by
  unfold State.atPhase
  cases p with
  | pIdle => rfl
  | cAnalyze =>
    simp only [phaseBody, analyzeBody]
    cases analyzeText s.cfg s.src.elems <;> rfl
  | cBuild =>
    simp only [phaseBody, buildBody, bind, Except.bind]
    cases buildTree s.cfg s.freq with
    | error k => rfl
    | ok b => simp only; cases deriveTables s.cfg b.root <;> rfl
  | cSerialize =>
    simp only [phaseBody, serializeBody]
    cases s.tree with
    | none => rfl
    | some root => simp only; cases serNode s.cfg 0 root Buffer.empty <;> rfl
  | cEncode =>
    simp only [phaseBody, encodeBody]
    cases encodeSyms s.cfg s.ptab s.syms.elems <;> rfl
  | cAssemble =>
    simp only [phaseBody, assembleBody]
    split
    · rfl
    · cases Buffer.empty.appendAll s.cfg.dstCap (blobBytes s.validBits s.tbuf.elems s.pay.elems) <;> rfl
  | dParse =>
    simp only [phaseBody, parseBody]
    cases parseFields s.cfg s.src.elems with
    | error k => rfl
    | ok f => exact writeSpans_atPhase f q s
  | dDeserialize =>
    simp only [phaseBody, deserializeBody]
    cases deserializeBytes s.cfg s.tbuf.elems <;> rfl
  | dDerive =>
    simp only [phaseBody, deriveBody]
    cases s.tree with
    | none => rfl
    | some root => simp only; cases deriveTables s.cfg root <;> rfl
  | dDecode =>
    simp only [phaseBody, decodeBody]
    split
    · rfl
    · split
      · rfl
      · cases decodeBits s.cfg s.lut (walkedBits s.pay.elems s.validBits) <;> rfl
  | dEmit =>
    simp only [phaseBody, emitBody]
    cases Buffer.empty.appendAll s.cfg.dstCap (s.syms.elems.flatMap utf8Encode) <;> rfl

/-! ### The script, phase by phase -/

/-- The unit command that does what a phase does (10_state.md R31). -/
def Phase.unit : Phase → Instr
  | .pIdle => .clear
  | .cAnalyze => .analyze
  | .cBuild => .build
  | .cSerialize => .serialize
  | .cEncode => .encode
  | .cAssemble => .assemble
  | .dParse => .parse
  | .dDeserialize => .deserialize
  | .dDerive => .derive
  | .dDecode => .decode
  | .dEmit => .emit

theorem exec_unit {p : Phase} (hp : p ≠ .pIdle) (s : State) :
    exec p.unit s = .next (finish p.unit s (phaseBody p s)) := by
  cases p with
  | pIdle => exact absurd rfl hp
  | _ => rfl

/-- The unit commands of the phases from `p` on, at most `n`. -/
def phaseScript : Nat → Phase → List Instr
  | 0, _ => []
  | n + 1, p => if p = .pIdle then [] else p.unit :: phaseScript n p.next

theorem compressScript_eq : compressScript = .clear :: phaseScript 5 .cAnalyze := rfl

theorem decompressScript_eq : decompressScript = .clear :: phaseScript 5 .dParse := rfl

/-- What the host sees after a script from `s` on whose units left `r` in DST, the working set aside. -/
def scriptEnd (s : State) (r : Except ErrKind (Buffer Byte)) : State :=
  match r with
  | .ok d => { clearWork s with dst := d, status := .ok, err := 0 }.visible
  | .error k => { clearWork s with dst := Buffer.empty, status := .err, err := k.code }.visible

/-- What a script keeps from one unit to the next. -/
theorem scriptEnd_congr {s t : State} (hout : t.outside = s.outside) (hsite : t.site = s.site)
    (hphase : t.phase = s.phase) (r : Except ErrKind (Buffer Byte)) : scriptEnd t r = scriptEnd s r := by
  obtain ⟨hsrc, hcmd, hcfg, hhost, hfree⟩ := outside_eq_iff.1 hout
  cases r <;> simp only [scriptEnd, State.visible, clearWork, hsrc, hcmd, hcfg, hhost, hfree, hsite, hphase]

theorem clearWork_visible_of_ok {s : State} (hstatus : s.status = .ok) (herr : s.err = 0) {d : Buffer Byte}
    (hd : d = s.dst) : (clearWork s).visible = scriptEnd s (.ok d) := by
  simp only [scriptEnd, State.visible, clearWork, hstatus, herr, hd]

/-- A unit of the script that fails ends it, with DST empty. -/
theorem runScript_unit_error {p : Phase} (hp : p ≠ .pIdle) {s : State} {k : ErrKind} (h : phaseBody p s = .error k)
    (rest : List Instr) : (clearWork (runScript (p.unit :: rest) s)).visible = scriptEnd s (.error k) := by
  rw [runScript, exec_unit hp, h]
  cases p with
  | pIdle => exact absurd rfl hp
  | _ => rfl

theorem runScript_unit_ok {p : Phase} (hp : p ≠ .pIdle) {s t : State} (h : phaseBody p s = .ok t) (rest : List Instr) :
    runScript (p.unit :: rest) s = runScript rest t.succeed := by
  rw [runScript, exec_unit hp, h]
  rfl

/-- The units of a script, run one after the other, end as the phases do that start from the same contents. -/
theorem runScript_phases {n : Nat} {u v : State} (hstatus : v.status = .ok) (herr : v.err = 0)
    (h : u.contents = (v.atPhase u.phase).contents) :
    (clearWork (runScript (phaseScript n u.phase) v)).visible = scriptEnd v ((runPhases n u).map State.dst) := by
  induction n generalizing u v with
  | zero => exact clearWork_visible_of_ok hstatus herr (dst_eq_of_contents h :)
  | succ n ih =>
    by_cases hp : u.phase = .pIdle
    · rw [phaseScript, if_pos hp, runPhases_of_idle hp]
      exact clearWork_visible_of_ok hstatus herr (dst_eq_of_contents h :)
    have hbody := phaseBody_congr u.phase h
    rw [phaseBody_atPhase] at hbody
    rw [phaseScript, if_neg hp, runPhases_succ hp, advance]
    cases hv : phaseBody u.phase v with
    | error k =>
      rw [hv] at hbody
      rcases except_map_eq hbody with ⟨_, hu, hk⟩ | ⟨_, _, _, hk, _⟩
      · cases hk
        rw [runScript_unit_error hp hv, hu]
        rfl
      · cases hk
    | ok v' =>
      rw [hv] at hbody
      rcases except_map_eq hbody with ⟨_, _, hk⟩ | ⟨u', _, hu, hk, hcont⟩
      · cases hk
      cases hk
      obtain ⟨hctl, hphase⟩ := phaseBody_control hv
      obtain ⟨hout, hsite, -, -⟩ := control_eq_iff.1 hctl
      have hrest := ih (u := u'.atPhase u.phase.next) (v := v'.succeed) rfl rfl (contents_setPhase hcont u.phase.next)
      rw [runScript_unit_ok hp hv, hu]
      exact hrest.trans (scriptEnd_congr hout hsite hphase _)

/-! ### The composite commands -/

/-- The state CLEAR leaves. -/
def State.cleared (s : State) : State :=
  { clearWork s with dst := Buffer.empty, phase := .pIdle, status := .ok, err := 0 }

theorem exec_clear (s : State) : exec .clear s = .next s.cleared := rfl

/-- A composite command, the decoder in use aside, ends as its script does. -/
theorem finish_composite_scriptEnd {i : Instr} (hi : i = .compress ∨ i = .decompress) (p : Phase) (s : State) :
    ({ finish i s (compositeBody p s) with site := s.site }).visible
      = scriptEnd s.cleared ((runPhases 5 (beginComposite p s)).map State.dst) := by
  unfold compositeBody
  cases hr : runPhases 5 (beginComposite p s) with
  | error k => rcases hi with rfl | rfl <;> rfl
  | ok v =>
    obtain ⟨hout, -, -, -⟩ := control_eq_iff.1 (runPhases_control hr)
    have hv : ({ v with site := s.site } : State).outside = s.outside := hout
    exact endComposite_succeed_visible hv rfl

theorem composite_eq_script {i : Instr} (hi : i = .compress ∨ i = .decompress) (p : Phase) (s : State) :
    ({ finish i s (compositeBody p s) with site := s.site }).visible
      = (clearWork (runScript (.clear :: phaseScript 5 p) s)).visible := by
  rw [finish_composite_scriptEnd hi, runScript, exec_clear]
  exact (runScript_phases (u := beginComposite p s) (v := s.cleared) rfl rfl rfl).symm

/-- Settles O53: phase by phase a composite command and its script work on the same contents and fail together; what is
left when the working set is cleared is the same state. -/
theorem compositeEqualsScript : Obligations.CompositeEqualsScript := by
  intro s t
  have key : ∀ {w : State}, ({ t with site := s.site } : State).visible = (clearWork w).visible →
      t.dst = w.dst ∧ t.status = w.status ∧ t.err = w.err
        ∧ ({ t with site := s.site } : State).visible = (clearWork w).visible := fun h =>
    ⟨(congrArg State.dst h :), (congrArg State.status h :), (congrArg State.err h :), h⟩
  refine ⟨fun h => key ?_, fun h => key ?_⟩
  · cases h
    rw [compressScript_eq]
    exact composite_eq_script (.inl rfl) .cAnalyze s
  · cases h
    rw [decompressScript_eq]
    exact composite_eq_script (.inr rfl) .dParse s

end Sys2Proof.Machine
end

section
/-! The container framer: the blob ASSEMBLE writes, how PARSE splits a blob and each error it meets instead
(47_container_and_sequencer.md R215 to R221; O46, O47, O48), and CLEAR (R240; O51). -/

namespace Sys2Proof.Machine

/-! ### ASSEMBLE (R215, R216) -/

theorem assembleBody_unbounded {s : State} (h : s.cfg.Unbounded) (hv : validBitsOk s.validBits.toNat = true) :
    assembleBody s = .ok { s with dst := Buffer.ofList (blobBytes s.validBits s.tbuf.elems s.pay.elems) } := by
  simp only [assembleBody, hv, h.dstCap, Buffer.appendAll_unbounded]
  rfl

theorem validBitsOk_eq_false {v : Nat} (h : v = 0 ∨ 8 < v) : validBitsOk v = false := by
  rw [Bool.eq_false_iff]
  intro hok
  have hrange := (validBitsOk_iff v).1 hok
  omega

/-- Settles O46: the valid-bit count is ASSEMBLE's one test, and the appends never meet a capacity. -/
theorem assembleWritesBlob : Obligations.AssembleWritesBlob := by
  intro s hcfg
  refine ⟨fun h1 h8 => ?_, fun hbad => ?_⟩
  · have hbody := assembleBody_unbounded (s.cfg.unbounded_iff.1 hcfg) ((validBitsOk_iff _).2 ⟨h1, h8⟩)
    rw [exec_of_body_ok (i := .assemble) rfl hbody]
    simp only [blobBytes, List.cons_append, List.nil_append, List.append_assoc]
    rfl
  · rw [exec_command (i := .assemble) rfl, commandBody, assembleBody, validBitsOk_eq_false hbad]
    rfl

/-! ### Bytes without the delimiter (30_encoding.md R111) -/

/-- No two bytes next to each other are the delimiter's. -/
def NoDelimiter (l : List Byte) : Prop := l.IsChain fun a b => ¬ (a = 0x25 ∧ b = 0x25)

theorem noDelimiter_iff (l : List Byte) :
    NoDelimiter l ↔ ∀ i : Nat, ¬ (l[i]? = some 0x25 ∧ l[i + 1]? = some 0x25) := by
  rw [NoDelimiter, List.isChain_iff_getElem]
  refine ⟨fun h i ⟨h1, h2⟩ => ?_, fun h i hi ⟨h1, h2⟩ => h i ?_⟩
  · obtain ⟨hi, h2⟩ := List.getElem?_eq_some_iff.1 h2
    obtain ⟨_, h1⟩ := List.getElem?_eq_some_iff.1 h1
    exact h i hi ⟨h1, h2⟩
  · exact ⟨List.getElem?_eq_some_iff.2 ⟨Nat.lt_of_succ_lt hi, h1⟩, List.getElem?_eq_some_iff.2 ⟨hi, h2⟩⟩

/-- The scan for the delimiter finds none in such bytes. -/
theorem scanTreeEnd_of_noDelimiter {l : List Byte} (h : NoDelimiter l) : scanTreeEnd l = none := by
  induction l with
  | nil => rfl
  | cons b rest ih =>
    rw [scanTreeEnd, ih h.of_cons]
    refine if_neg fun ⟨hb, hhead⟩ => ?_
    obtain ⟨more, rfl⟩ := List.head?_eq_some_iff.1 hhead
    exact (List.isChain_cons_cons.1 h).1 ⟨hb, rfl⟩

/-- The scan for the delimiter finds it after bytes that, with its first byte, do not hold it. -/
theorem scanTreeEnd_append {l : List Byte} (h : NoDelimiter (l ++ [0x25])) (rest : List Byte) :
    scanTreeEnd (l ++ 0x25 :: 0x25 :: rest) = some l.length := by
  induction l with
  | nil => rfl
  | cons b l ih =>
    rw [List.cons_append, scanTreeEnd, ih h.of_cons]
    refine if_neg fun ⟨hb, hhead⟩ => ?_
    cases l with
    | nil => exact (List.isChain_cons_cons.1 h).1 ⟨hb, rfl⟩
    | cons c l => exact (List.isChain_cons_cons.1 h).1 ⟨hb, Option.some.inj hhead⟩

/-- The first delimiter in `tree ++ [0x25, 0x25]` is the one at its end. -/
theorem noDelimiter_of_first {tree : List Byte} (h : ∀ i, i < tree.length →
    ¬ ((tree ++ [0x25, 0x25])[i]? = some 0x25 ∧ (tree ++ [0x25, 0x25])[i + 1]? = some 0x25)) :
    NoDelimiter (tree ++ [0x25]) := by
  refine (noDelimiter_iff _).2 fun i ⟨h1, h2⟩ => ?_
  have hi := (List.getElem?_eq_some_iff.1 h2).1
  rw [List.length_append, List.length_singleton] at hi
  refine h i (by omega) ?_
  have hlen : (tree ++ [(0x25 : Byte)]).length = tree.length + 1 := List.length_append
  rw [List.append_cons tree (0x25 : Byte) [0x25], List.getElem?_append_left (l₁ := tree ++ [0x25]) (by omega),
    List.getElem?_append_left (l₁ := tree ++ [0x25]) (by omega)]
  exact ⟨h1, h2⟩

/-! ### The scans of PARSE (R220) -/

theorem scanTreeStart_of_not_mem {l : List Byte} (h : 0x1F ∉ l) : scanTreeStart l = none := by
  cases hscan : scanTreeStart l with
  | none => rfl
  | some k =>
    obtain ⟨rest, hrest⟩ := scanTreeStart_some hscan
    exact absurd (List.mem_of_mem_drop (hrest ▸ List.mem_cons_self)) h

theorem scanTreeStart_append {skip : List Byte} (h : 0x1F ∉ skip) (rest : List Byte) :
    scanTreeStart (skip ++ 0x1F :: rest) = some skip.length := by
  induction skip with
  | nil => rfl
  | cons b skip ih =>
    rw [List.cons_append, scanTreeStart, if_neg fun hb => h (List.mem_cons.2 (.inl hb.symm)),
      ih fun hmem => h (List.mem_cons_of_mem b hmem)]
    rfl

theorem scanTreeEnd_of_no_split {l : List Byte} (h : ∀ a b, l ≠ a ++ 0x25 :: 0x25 :: b) : scanTreeEnd l = none := by
  cases hscan : scanTreeEnd l with
  | none => rfl
  | some k =>
    obtain ⟨rest, hrest⟩ := scanTreeEnd_some hscan
    exact absurd (hrest ▸ (List.take_append_drop k l).symm) (h (l.take k) rest)

/-! ### The tests of PARSE (R220) -/

theorem parseFields_short {cfg : Config} {src : List Byte} (h : src.length < 2) :
    parseFields cfg src = .error .inputTooShort := if_pos h

section
variable {cfg : Config} {vb : Byte} {after : List Byte} (hafter : after ≠ [])
include hafter

theorem parseFields_cons : parseFields cfg (vb :: after)
    = if !validBitsOk vb.toNat then .error .invalidBitLength
      else match scanTreeStart after with
        | none => .error .treeStartNotFound
        | some k =>
          if cfg.strictMarkerOffset && decide (k ≠ 0) then .error .treeStartNotFound
          else fieldsFrom vb (k + 2) (vb :: after) := by
  have hlen := List.length_pos_iff.2 hafter
  rw [parseFields, if_neg (by rw [List.length_cons]; omega)]
  rfl

theorem parseFields_badHeader (h : validBitsOk vb.toNat = false) :
    parseFields cfg (vb :: after) = .error .invalidBitLength := by
  rw [parseFields_cons hafter, h]
  rfl

theorem parseFields_noMarker (hv : validBitsOk vb.toNat = true) (h : 0x1F ∉ after) :
    parseFields cfg (vb :: after) = .error .treeStartNotFound := by
  rw [parseFields_cons hafter, hv, scanTreeStart_of_not_mem h]
  rfl

end

/-- A blob up to its marker, the bytes between the header and the marker skipped, and what follows the marker. -/
def markedBlob (vb : Byte) (skip rest : List Byte) : List Byte := vb :: (skip ++ 0x1F :: rest)

theorem markedBlob_length (vb : Byte) (skip rest : List Byte) :
    (markedBlob vb skip rest).length = skip.length + 2 + rest.length := by
  simp only [markedBlob, List.length_cons, List.length_append]
  omega

theorem drop_markedBlob (vb : Byte) (skip rest : List Byte) :
    (markedBlob vb skip rest).drop (skip.length + 2) = rest := by
  have hlen : (vb :: (skip ++ [0x1F])).length = skip.length + 2 := by
    rw [List.length_cons, List.length_append, List.length_singleton]
  have hsplit : markedBlob vb skip rest = (vb :: (skip ++ [0x1F])) ++ rest := by
    rw [markedBlob, List.append_cons, List.cons_append]
  rw [hsplit, ← hlen, List.drop_left]

section
variable {cfg : Config} {vb : Byte} {skip : List Byte} (hv : validBitsOk vb.toNat = true) (hskip : 0x1F ∉ skip)
include hv hskip

theorem parseFields_markerElsewhere (hstrict : cfg.strictMarkerOffset = true) (hne : skip ≠ []) (rest : List Byte) :
    parseFields cfg (markedBlob vb skip rest) = .error .treeStartNotFound := by
  rw [markedBlob, parseFields_cons (by simp), hv, scanTreeStart_append hskip]
  simp [hstrict, hne]

variable (hstrict : cfg.strictMarkerOffset = false ∨ skip = [])
include hstrict

theorem parseFields_marked (rest : List Byte) : parseFields cfg (markedBlob vb skip rest)
    = fieldsFrom vb (skip.length + 2) (markedBlob vb skip rest) := by
  rw [markedBlob, parseFields_cons (by simp), hv, scanTreeStart_append hskip]
  rcases hstrict with h | h <;> simp [h]

theorem parseFields_noDelimiter {rest : List Byte} (h : scanTreeEnd rest = none) :
    parseFields cfg (markedBlob vb skip rest) = .error .treeEndNotFound := by
  rw [parseFields_marked hv hskip hstrict, fieldsFrom, drop_markedBlob, h]

theorem parseFields_emptyTree (pay : List Byte) :
    parseFields cfg (markedBlob vb skip (0x25 :: 0x25 :: pay)) = .error .emptyTreeBytes := by
  rw [parseFields_marked hv hskip hstrict, fieldsFrom, drop_markedBlob]
  rfl

theorem parseFields_delimited {tree : List Byte} (hne : tree ≠ []) (h : NoDelimiter (tree ++ [0x25]))
    (pay : List Byte) : parseFields cfg (markedBlob vb skip (tree ++ 0x25 :: 0x25 :: pay))
      = if pay = [] then .error .encodedDataNotFound
        else .ok ⟨vb, skip.length + 2, skip.length + 2 + tree.length⟩ := by
  have hne' : tree.length ≠ 0 := List.length_eq_zero_iff.not.2 hne
  rw [parseFields_marked hv hskip hstrict, fieldsFrom, drop_markedBlob, scanTreeEnd_append h]
  simp only [if_neg hne', markedBlob_length, List.length_append, List.length_cons]
  refine if_congr ?_ rfl rfl
  rw [← List.length_eq_zero_iff]
  omega

end

/-! ### PARSE (R219 to R221) -/

theorem exec_parse_error {s : State} {k : ErrKind} (h : parseFields s.cfg s.src.elems = .error k) :
    exec .parse s = .next { s with tbuf := Buffer.empty, pay := Buffer.empty, validBits := 8, status := .err,
                                   err := k.code } := by
  rw [exec_command (i := .parse) rfl, commandBody, parseBody, h]
  rfl

/-- PARSE's operation on a whole blob: the tree's bytes, the payload, and the count of the header byte. -/
theorem parseBody_delimited {s : State} (hcfg : s.cfg.unbounded = true) {vb : Byte} {skip tree pay : List Byte}
    (hsrc : s.src.elems = markedBlob vb skip (tree ++ 0x25 :: 0x25 :: pay)) (hv : validBitsOk vb.toNat = true)
    (hskip : 0x1F ∉ skip) (hstrict : s.cfg.strictMarkerOffset = false ∨ skip = []) (htree : tree ≠ [])
    (hfirst : NoDelimiter (tree ++ [0x25])) (hpay : pay ≠ []) :
    parseBody s = .ok { s with validBits := vb.setWidth 4, tbuf := Buffer.ofList tree, pay := Buffer.ofList pay,
                               cursor := s.src.len } := by
  have hfields : parseFields s.cfg s.src.elems = .ok ⟨vb, skip.length + 2, skip.length + 2 + tree.length⟩ := by
    rw [hsrc, parseFields_delimited hv hskip hstrict htree hfirst, if_neg hpay]
  have htb : (s.src.elems.drop (skip.length + 2)).take (skip.length + 2 + tree.length - (skip.length + 2)) = tree := by
    rw [hsrc, drop_markedBlob, Nat.add_sub_cancel_left, List.take_left]
  have hp : s.src.elems.drop (skip.length + 2 + tree.length + 2) = pay := by
    rw [hsrc, Nat.add_assoc _ tree.length, ← List.drop_drop, drop_markedBlob, List.drop_length_add_append]
    rfl
  rw [parseBody, hfields]
  exact (writeSpans_unbounded hcfg _).trans (by rw [htb, hp])

/-- Settles O47: the first marker ends the skipped bytes, and the first delimiter the tree's. -/
theorem parseSplitsBlob : Obligations.ParseSplitsBlob := by
  intro s vb skip tree pay hcfg hstrict hsrc h1 h8 hskip htree hpay hfirst
  exact exec_of_body_ok (i := .parse) rfl (parseBody_delimited hcfg hsrc ((validBitsOk_iff _).2 ⟨h1, h8⟩) hskip hstrict
    htree (noDelimiter_of_first hfirst) hpay)

/-- Settles O48: each case is one test of PARSE, those before it having passed. -/
theorem parseErrorsInOrder : Obligations.ParseErrorsInOrder := by
  intro s
  refine ⟨fun hlen => exec_parse_error (parseFields_short hlen), fun vb after hsrc hafter => ⟨fun hbad => ?_,
    fun h1 h8 => ⟨fun hmark => ?_, fun skip rest hrest hskip => ⟨fun hstrict hne => ?_, fun hstrict =>
      ⟨fun hno => ?_, fun b hb => ?_, fun tree htree hne hfirst => ?_⟩⟩⟩⟩⟩
  · exact exec_parse_error (hsrc ▸ parseFields_badHeader hafter (validBitsOk_eq_false hbad))
  all_goals have hv := (validBitsOk_iff vb.toNat).2 ⟨h1, h8⟩
  · exact exec_parse_error (hsrc ▸ parseFields_noMarker hafter hv hmark)
  all_goals
    have hblob : s.src.elems = markedBlob vb skip rest := by rw [hsrc, hrest]; rfl
  · exact exec_parse_error (hblob ▸ parseFields_markerElsewhere hv hskip hstrict hne rest)
  · exact exec_parse_error (hblob ▸ parseFields_noDelimiter hv hskip hstrict (scanTreeEnd_of_no_split hno))
  · exact exec_parse_error (hblob ▸ hb ▸ parseFields_emptyTree hv hskip hstrict b)
  · refine exec_parse_error (k := .encodedDataNotFound) ?_
    rw [htree] at hfirst
    rw [hblob, htree, parseFields_delimited hv hskip hstrict hne (noDelimiter_of_first hfirst), if_pos rfl]

/-! ### CLEAR (R240) -/

/-- Settles O51: CLEAR's next state has no tree and an empty map. -/
theorem clearEmptiesWorkingSet : Obligations.ClearEmptiesWorkingSet := by
  refine ⟨rfl, exec_clear, rfl, fun s t h => ?_⟩
  cases h
  exact ⟨⟨_, exec_serialize_nullNode rfl, rfl, rfl⟩, ⟨_, exec_build_of_error (k := .emptyFrequencyMap) rfl, rfl, rfl⟩⟩

end Sys2Proof.Machine
end

section
/-! What ANALYZE reads when it succeeds, in every configuration, and EMIT, which writes it again
(40_frequency_analyzer.md R130, 47_container_and_sequencer.md R225; O50). -/

namespace Sys2Proof.Machine

/-- The loop, with turns enough, succeeds only on the bytes of a text, and appends its symbols. -/
theorem analyzeLoop_ok {cfg : Config} {turns : Nat} {bytes : List Byte} {before : List Symbol} {r r' : AnalyzeRegs}
    (hturns : bytes.length ≤ turns) (hr : r.syms = Buffer.ofList before) (h : analyzeLoop cfg turns bytes r = .ok r') :
    ∃ l, validText l ∧ bytes = textBytes l ∧ r'.syms = Buffer.ofList (before ++ l) := by
  induction turns generalizing bytes before r with
  | zero =>
    cases h
    exact ⟨[], List.forall_mem_nil _, List.length_eq_zero_iff.1 (Nat.le_zero.1 hturns), by rw [hr, List.append_nil]⟩
  | succ turns ih =>
    unfold analyzeLoop at h
    cases hu : utf8Decode bytes with
    | ended =>
      rw [hu] at h
      cases h
      exact ⟨[], List.forall_mem_nil _, utf8Decode_ended_iff.1 hu, by rw [hr, List.append_nil]⟩
    | truncated => rw [hu] at h; cases h
    | invalid => rw [hu] at h; cases h
    | ok x w =>
      rw [hu] at h
      obtain ⟨hx, rfl, rest, rfl⟩ := utf8Decode_ok_iff.1 hu
      obtain ⟨syms, happend, h⟩ := bind_ok h
      obtain ⟨freq, -, h⟩ := bind_ok h
      rw [hr] at happend
      rw [List.drop_left' (utf8Encode_length x)] at h
      have hpos := utf8Width_pos x
      rw [List.length_append, utf8Encode_length] at hturns
      obtain ⟨l, hl, rfl, hsyms⟩ := ih (by omega) (Buffer.append_ofList_ok happend) h
      exact ⟨x :: l, List.forall_mem_cons.2 ⟨hx, hl⟩, (textBytes_cons x l).symm, by rw [hsyms, ← List.append_cons]⟩

theorem analyzeText_ok {cfg : Config} {bytes : List Byte} {r : AnalyzeRegs} (h : analyzeText cfg bytes = .ok r) :
    ∃ l, validText l ∧ bytes = textBytes l ∧ r.syms = Buffer.ofList l :=
  analyzeLoop_ok (before := []) (Nat.le_refl _) rfl h

theorem emitBody_unbounded {s : State} (h : s.cfg.Unbounded) :
    emitBody s = .ok { s with dst := Buffer.ofList (textBytes s.syms.elems) } := by
  simp only [emitBody, h.dstCap, Buffer.appendAll_unbounded]
  rfl

/-- Settles O50: EMIT appends the encodings of SYMS, and what ANALYZE has read into SYMS is the text SRC holds. -/
theorem emitWritesText : Obligations.EmitWritesText := by
  have hemit : ∀ s : State, s.cfg.unbounded = true →
      exec .emit s = .next { s with dst := Buffer.ofList (textBytes s.syms.elems), status := .ok, err := 0 } :=
    fun s hcfg => exec_of_body_ok (i := .emit) rfl (emitBody_unbounded (s.cfg.unbounded_iff.1 hcfg))
  refine ⟨hemit, fun s t u hcfg hs hok ht => ?_⟩
  obtain ⟨v, hv, rfl⟩ := exec_status_ok (i := .analyze) rfl hs hok
  obtain ⟨r, hr, rfl⟩ := analyzeBody_ok hv
  obtain ⟨l, -, hsrc, hsyms⟩ := analyzeText_ok hr
  cases ht.symm.trans (hemit _ hcfg)
  rw [hsrc, ← Buffer.ofList_elems l, ← hsyms]
  exact Buffer.ofList_elems _

end Sys2Proof.Machine
end

section
/-! Where the byte of the delimiter stands in a serialized tree: as the symbol `%` and nowhere else, so never twice in a
row, and at the end exactly when the last leaf is `%` (70_reset_and_hazards.md R290; the second half of O57). -/

namespace Sys2Proof.Machine

/-- A symbol is one byte of its value, or bytes of 0x80 and above only (30_encoding.md R103). -/
theorem utf8Encode_small_or_high (x : Symbol) :
    (x.toNat ≤ 0x7F ∧ utf8Encode x = [x.setWidth 8]) ∨ 0x7F < x.toNat ∧ ∀ b ∈ utf8Encode x, 0x80 ≤ b.toNat := by
  have hcont : ∀ k, ∀ b ∈ utf8Conts x k, 0x80 ≤ b.toNat := fun k => by
    induction k with
    | zero => exact List.forall_mem_nil _
    | succ k ih => exact List.forall_mem_cons.2 ⟨by rw [utf8Cont_toNat]; exact Nat.le_add_right _ _, ih⟩
  rcases Nat.lt_or_ge 0x7F x.toNat with h1 | h1
  · refine .inr ⟨h1, ?_⟩
    rcases Nat.lt_or_ge 0x7FF x.toNat with h2 | h2
    · rcases Nat.lt_or_ge 0xFFFF x.toNat with h3 | h3
      · rw [utf8Encode_four h3]
        exact List.forall_mem_cons.2 ⟨by rw [utf8Lead_four_toNat]; omega, hcont 3⟩
      · rw [utf8Encode_three h2 h3]
        exact List.forall_mem_cons.2 ⟨by rw [utf8Lead_three_toNat h3]; omega, hcont 2⟩
    · rw [utf8Encode_two h1 h2]
      exact List.forall_mem_cons.2 ⟨by rw [utf8Lead_two_toNat h2]; omega, hcont 1⟩
  · exact .inl ⟨h1, utf8Encode_one h1⟩

/-- The delimiter's byte in the encoding of a symbol is the whole of `%`. -/
theorem mem_utf8Encode_percent {x : Symbol} (h : 0x25 ∈ utf8Encode x) : x = 0x25 := by
  rcases utf8Encode_small_or_high x with ⟨hx, henc⟩ | ⟨-, hhigh⟩
  · rw [henc, List.mem_singleton] at h
    have hval : 0x25 = x.toNat % 2 ^ 8 := congrArg BitVec.toNat h
    refine BitVec.eq_of_toNat_eq ?_
    rw [Nat.mod_eq_of_lt (Nat.lt_of_le_of_lt hx (by decide))] at hval
    exact hval.symm
  · exact absurd (hhigh _ h) (by decide)

theorem utf8Encode_getLast?_percent (x : Symbol) : (utf8Encode x).getLast? = some 0x25 ↔ x = 0x25 := by
  refine ⟨fun h => mem_utf8Encode_percent (List.mem_of_getLast? h), ?_⟩
  rintro rfl
  rfl

theorem utf8Encode_noDelimiter (x : Symbol) : NoDelimiter (utf8Encode x) := by
  by_cases hx : x = 0x25
  · rw [hx]
    exact List.isChain_singleton _
  · refine (noDelimiter_iff _).2 fun i ⟨h, _⟩ => hx (mem_utf8Encode_percent (List.mem_of_getElem? h))

/-! ### Trees (30_encoding.md R105) -/

theorem noDelimiter_cons {b : Byte} (hb : b ≠ 0x25) {l : List Byte} (h : NoDelimiter l) : NoDelimiter (b :: l) :=
  List.isChain_cons.2 ⟨fun _ _ hd => hb hd.1, h⟩

/-- A part that ends in no byte of the delimiter, or before a part that begins with none. -/
theorem noDelimiter_append {l m : List Byte} (hl : NoDelimiter l) (hm : NoDelimiter m)
    (h : l.getLast? ≠ some 0x25 ∨ m.head? ≠ some 0x25) : NoDelimiter (l ++ m) := by
  refine List.isChain_append.2 ⟨hl, hm, fun x hx y hy ⟨h1, h2⟩ => ?_⟩
  subst h1 h2
  exact h.elim (fun h => h hx) fun h => h hy

/-- Every tree begins with a marker. -/
theorem Node.bytes_head? (n : Node) : n.bytes.head? ≠ some 0x25 := by
  cases n <;> simp [Node.bytes]

theorem Node.bytes_noDelimiter (n : Node) : NoDelimiter n.bytes := by
  induction n with
  | leaf x c => exact noDelimiter_cons (by decide) (utf8Encode_noDelimiter x)
  | internal c l r ihl ihr =>
    exact noDelimiter_cons (by decide) (noDelimiter_append ihl ihr (.inr r.bytes_head?))

theorem Node.bytes_ne_nil (n : Node) : n.bytes ≠ [] := by
  cases n <;> exact List.cons_ne_nil _ _

theorem Node.bytes_getLast?_percent (n : Node) : n.bytes.getLast? = some 0x25 ↔ n.lastSymbol = 0x25 := by
  induction n with
  | leaf x c =>
    rw [Node.bytes, List.getLast?_cons_of_ne_nil (utf8Encode_ne_nil x)]
    exact utf8Encode_getLast?_percent x
  | internal c l r _ ihr =>
    rw [Node.bytes, ← List.cons_append, List.getLast?_append_of_ne_nil _ r.bytes_ne_nil]
    exact ihr

/-- The bytes of a tree whose last leaf is not `%` hold no delimiter, its first byte after them included. -/
theorem Node.bytes_noDelimiter_before {n : Node} (h : n.lastSymbol ≠ 0x25) : NoDelimiter (n.bytes ++ [0x25]) :=
  noDelimiter_append n.bytes_noDelimiter (List.isChain_singleton _)
    (.inl fun hlast => h (n.bytes_getLast?_percent.1 hlast))

/-- A tree whose last leaf is `%` ends in that byte, and there are bytes before it. -/
theorem Node.bytes_of_lastSymbol_percent {n : Node} (h : n.lastSymbol = 0x25) :
    ∃ front, front ≠ [] ∧ n.bytes = front ++ [0x25] := by
  obtain ⟨front, hfront⟩ := List.getLast?_eq_some_iff.1 (n.bytes_getLast?_percent.2 h)
  refine ⟨front, ?_, hfront⟩
  rintro rfl
  exact n.bytes_head? (hfront ▸ rfl)

end Sys2Proof.Machine
end

section
/-! COMPRESS with unbounded capacities: its result told by what ANALYZE and BUILD's tree give, the three later phases
never failing (47_container_and_sequencer.md R230, R231, R244; O55). -/

namespace Sys2Proof.Machine

/-! ### Running phases -/

theorem advance_of_ok {p : Phase} {s t : State} (hp : s.phase = p) (h : phaseBody p s = .ok t) :
    advance s = .ok (t.atPhase p.next) := by
  subst hp
  rw [advance, h]
  rfl

theorem runPhases_unit_ok (p : Phase) {s t : State} (hp : s.phase = p) (hne : p ≠ .pIdle) (h : phaseBody p s = .ok t)
    (n : Nat) : runPhases (n + 1) s = runPhases n (t.atPhase p.next) :=
  runPhases_succ_ok (hp ▸ hne) (advance_of_ok hp h) n

theorem runPhases_unit_error (p : Phase) {s : State} {k : ErrKind} (hp : s.phase = p) (hne : p ≠ .pIdle)
    (h : phaseBody p s = .error k) (n : Nat) : runPhases (n + 1) s = .error k := by
  subst hp
  refine runPhases_succ_error hne ?_ n
  rw [advance, h]
  rfl

theorem compositeBody_of_error {p : Phase} {s : State} {k : ErrKind} (h : runPhases 5 (beginComposite p s) = .error k) :
    compositeBody p s = .error k := by
  rw [compositeBody, h]
  rfl

theorem compositeBody_of_ok {p : Phase} {s t : State} (h : runPhases 5 (beginComposite p s) = .ok t) :
    compositeBody p s = .ok (endComposite t) := by
  rw [compositeBody, h]
  rfl

/-! ### The phases of COMPRESS (R230) -/

/-- What COMPRESS has written when ANALYZE has left `r`. -/
def State.analyzed (s : State) (r : AnalyzeRegs) : State :=
  { beginComposite .cAnalyze s with syms := r.syms, freq := r.freq, cursor := r.cursor, phase := .cBuild }

/-- What COMPRESS has written when BUILD has made the tree of `b` as well. -/
def State.built (s : State) (r : AnalyzeRegs) (b : BuiltTree) : State :=
  { s.analyzed r with tree := some b.root, ptab := (treeTables b.root).ptab, lut := (treeTables b.root).lut, pq := [],
                      seq := b.seq, phase := .cSerialize }

/-- What COMPRESS has written when SERIALIZE has written that tree. -/
def State.serialized (s : State) (r : AnalyzeRegs) (b : BuiltTree) : State :=
  { s.built r b with tbuf := Buffer.ofList b.root.bytes, phase := .cEncode }

theorem compress_analyze_error {s : State} {k : ErrKind} (h : analyzeText s.cfg s.src.elems = .error k) :
    compositeBody .cAnalyze s = .error k :=
  compositeBody_of_error (runPhases_unit_error .cAnalyze rfl (by decide)
    (analyzeBody_of_error (s := beginComposite .cAnalyze s) h) 4)

/-- The bytes of a blob that holds a tree and the codes of a text by it (30_encoding.md R110). -/
def BlobOf (root : Node) (l : List Symbol) (bytes : List Byte) : Prop :=
  ∃ (vb : BitVec 4) (pay : Buffer Byte), bytes = blobBytes vb root.bytes pay.elems
    ∧ PayloadHolds pay vb (l.flatMap (codeOf (treeTables root).ptab))

section
variable {s : State} {r : AnalyzeRegs} (hr : analyzeText s.cfg s.src.elems = .ok r)
include hr

theorem compress_runs_analyze : runPhases 5 (beginComposite .cAnalyze s) = runPhases 4 (s.analyzed r) :=
  runPhases_unit_ok .cAnalyze rfl (by decide) (analyzeBody_of_ok (s := beginComposite .cAnalyze s) hr) 4

theorem compress_build_error {k : ErrKind} (hb : buildTree s.cfg r.freq = .error k) :
    compositeBody .cAnalyze s = .error k := by
  have hbody : buildBody (s.analyzed r) = .error k := by
    rw [buildBody, show buildTree (s.analyzed r).cfg (s.analyzed r).freq = .error k from hb]
    rfl
  exact compositeBody_of_error ((compress_runs_analyze hr).trans (runPhases_unit_error .cBuild rfl (by decide) hbody 3))

theorem compress_runs_build (hcfg : s.cfg.Unbounded) {b : BuiltTree} (hb : buildTree s.cfg r.freq = .ok b) :
    runPhases 5 (beginComposite .cAnalyze s) = runPhases 3 (s.built r b) ∧ (s.built r b).HasCodes := by
  have hbuild := buildBody_of_ok (s := s.analyzed r) hb (deriveTables_unbounded hcfg b.root)
  have hcodes := buildBody_hasCodes (s := s.analyzed r) (analyzeText_freq hr) hbuild
  exact ⟨(compress_runs_analyze hr).trans (runPhases_unit_ok .cBuild rfl (by decide) hbuild 3), hcodes⟩

/-- When ANALYZE and BUILD's tree succeed, COMPRESS succeeds, and DST holds the tree and the text. -/
theorem compress_built (hcfg : s.cfg.Unbounded) {b : BuiltTree} (hb : buildTree s.cfg r.freq = .ok b) :
    ∃ u bytes, compositeBody .cAnalyze s = .ok u ∧ u.dst = Buffer.ofList bytes ∧ BlobOf b.root r.syms.elems bytes := by
  obtain ⟨hbuilt, hcodes⟩ := compress_runs_build hr hcfg hb
  have hserialize := serializeBody_unbounded (s := s.built r b) hcfg rfl
  obtain ⟨t, hencode⟩ := encodeBody_unbounded (s := s.serialized r b) hcfg hcodes
  have hpay : PayloadHolds t.pay t.validBits (r.syms.elems.flatMap (codeOf (treeTables b.root).ptab)) :=
    encodeBody_holds hencode
  obtain ⟨hcap, htbuf⟩ : t.cfg.Unbounded ∧ t.tbuf.elems = b.root.bytes := by
    obtain ⟨e, -, rfl⟩ := encodeBody_ok hencode
    exact ⟨hcfg, Buffer.ofList_elems _⟩
  have hassemble := assembleBody_unbounded (s := t.atPhase .cAssemble) hcap
    (hpay.valid ▸ validBitsOk_validBitsOf _)
  have hrun3 := runPhases_unit_ok .cSerialize (s := s.built r b) rfl (by decide) hserialize 2
  have hrun4 := runPhases_unit_ok .cEncode rfl (by decide) hencode 1
  have hrun5 := runPhases_unit_ok .cAssemble rfl (by decide) hassemble 0
  exact ⟨_, _, compositeBody_of_ok (hbuilt.trans (hrun3.trans (hrun4.trans hrun5))), rfl, t.validBits, t.pay,
    congrArg (blobBytes t.validBits · t.pay.elems) htbuf, hpay⟩

end

/-! ### The errors of COMPRESS (R231, R244) -/

theorem mem_textFreq_keys_iff {l : List Symbol} {x : Symbol} : x ∈ (textFreq l).map Prod.fst ↔ x ∈ l := by
  refine ⟨fun h => ?_, mem_textFreq_keys⟩
  obtain ⟨e, he, rfl⟩ := List.mem_map.1 h
  have hlook := (Table.lookup_iff_mem symKey_eq_iff (textFreq_wf l) e.1 e.2).2 he
  rw [lookup_textFreq] at hlook
  by_contra hx
  rw [if_neg (by simpa using hx)] at hlook
  cases hlook

theorem textFreq_keys_nodup (l : List Symbol) : ((textFreq l).map Prod.fst).Nodup :=
  Table.keys_nodup_of_wf (textFreq_wf l)

theorem textFreq_length_of_distinct {l : List Symbol} (h : ∃ x ∈ l, ∃ y ∈ l, x ≠ y) : 2 ≤ (textFreq l).length := by
  obtain ⟨x, hx, y, hy, hne⟩ := h
  have hsub : [x, y] ⊆ (textFreq l).map Prod.fst :=
    List.cons_subset.2 ⟨mem_textFreq_keys hx, List.cons_subset.2 ⟨mem_textFreq_keys hy, List.nil_subset _⟩⟩
  have hnodup : [x, y].Nodup := by simpa using hne
  simpa using (List.subperm_of_subset hnodup hsub).length_le

theorem textFreq_length_of_replicate (x : Symbol) (n : Nat) : (textFreq (List.replicate (n + 1) x)).length = 1 := by
  have hsub : (textFreq (List.replicate (n + 1) x)).map Prod.fst ⊆ [x] := fun y hy =>
    List.mem_singleton.2 (List.eq_of_mem_replicate (mem_textFreq_keys_iff.1 hy))
  have hle := (List.subperm_of_subset (textFreq_keys_nodup _) hsub).length_le
  have hpos := List.length_pos_of_mem (mem_textFreq_keys (l := List.replicate (n + 1) x) (x := x) (by simp))
  simp only [List.length_map, List.length_singleton] at hle hpos
  omega

theorem textFreq_positive (l : List Symbol) : positive (textFreq l) := by
  intro e he
  have hlook := (Table.lookup_iff_mem symKey_eq_iff (textFreq_wf l) e.1 e.2).2 he
  have hmem := mem_textFreq_keys_iff.1 (List.mem_map_of_mem (f := Prod.fst) he)
  rw [lookup_textFreq, if_pos (by simpa using hmem)] at hlook
  have hcount := List.count_pos_iff.2 hmem
  exact Option.some.inj hlook ▸ Int.natCast_pos.2 hcount

theorem buildTree_of_text {cfg : Config} {l : List Symbol} (hmax : (l.length : Int) ≤ cfg.cntMax)
    (h : 2 ≤ (textFreq l).length) : ∃ b, buildTree cfg (textFreq l) = .ok b := by
  obtain ⟨root, hroot, -⟩ := buildTree_merges h (textFreq_positive l) (by rw [countSum_textFreq]; exact hmax)
  exact ⟨_, hroot⟩

section
variable {s : State} {l : List Symbol} (hcfg : s.cfg.Unbounded) (hl : validText l) (hsrc : s.src.elems = textBytes l)
  (hmax : (l.length : Int) ≤ s.cfg.cntMax)
include hcfg hl hsrc hmax

theorem analyzeText_of_src : analyzeText s.cfg s.src.elems = .ok (textRegs l) := by
  rw [hsrc]
  exact analyzeText_textBytes hcfg hl hmax

/-- A text with no symbol (R244). -/
theorem compress_no_symbol (h : (textFreq l).length = 0) : compositeBody .cAnalyze s = .error .emptyFrequencyMap :=
  compress_build_error (analyzeText_of_src hcfg hl hsrc hmax) (if_pos h)

/-- A text of one distinct symbol (R244). -/
theorem compress_one_symbol (h : (textFreq l).length = 1) : compositeBody .cAnalyze s = .error .insufficientSymbols :=
  compress_build_error (analyzeText_of_src hcfg hl hsrc hmax) (buildTree_single h (textFreq_positive l))

/-- Two distinct symbols or more are enough. -/
theorem compress_more_symbols (h : 2 ≤ (textFreq l).length) : ∃ u, compositeBody .cAnalyze s = .ok u := by
  obtain ⟨b, hb⟩ := buildTree_of_text hmax h
  obtain ⟨u, _, hu, -⟩ := compress_built (analyzeText_of_src hcfg hl hsrc hmax) hcfg hb
  exact ⟨u, hu⟩

end

theorem exec_compress_error {s t : State} {k : ErrKind} (h : exec .compress s = .next t)
    (hk : compositeBody .cAnalyze s = .error k) : t = errorEntry .compress k s := by
  rw [exec_command (i := .compress) rfl, commandBody, hk, finish_error] at h
  cases h
  rfl

/-- Settles O55: the bytes are a text or not, and a text has no symbol, one, or more; in the last case BUILD has a tree
and COMPRESS succeeds. -/
theorem compressErrors : Obligations.CompressErrors := by
  intro s t hcfg hmax h
  have hunb := s.cfg.unbounded_iff.1 hcfg
  have hle {l : List Symbol} (hsrc : s.src.elems = textBytes l) : (l.length : Int) ≤ s.cfg.cntMax := by
    have hlen := length_le_textBytes l
    rw [hsrc] at hmax
    omega
  have hnone (hno : ¬ ∃ l, validText l ∧ s.src.elems = textBytes l) : t = errorEntry .compress .invalidEncoding s :=
    exec_compress_error h (compress_analyze_error (analyzeText_no_text hunb hmax hno))
  have hzero {l : List Symbol} (hl : validText l) (hsrc : s.src.elems = textBytes l) (hlen : (textFreq l).length = 0) :
      t = errorEntry .compress .emptyFrequencyMap s :=
    exec_compress_error h (compress_no_symbol hunb hl hsrc (hle hsrc) hlen)
  have hone {l : List Symbol} (hl : validText l) (hsrc : s.src.elems = textBytes l) (hlen : (textFreq l).length = 1) :
      t = errorEntry .compress .insufficientSymbols s :=
    exec_compress_error h (compress_one_symbol hunb hl hsrc (hle hsrc) hlen)
  refine ⟨fun hno => ?_, fun hsrc => ?_, fun x n hx hsrc => ?_, fun herr => ?_⟩
  · exact hnone hno ▸ ⟨rfl, rfl⟩
  · exact hzero (l := []) (List.forall_mem_nil _) hsrc rfl ▸ ⟨rfl, rfl⟩
  · have hl : validText (List.replicate (n + 1) x) := fun y hy => List.eq_of_mem_replicate hy ▸ hx
    exact hone hl hsrc (textFreq_length_of_replicate x n) ▸ ⟨rfl, rfl⟩
  · obtain ⟨k, hk, rfl⟩ : ∃ k ∈ [ErrKind.invalidEncoding, .emptyFrequencyMap, .insufficientSymbols],
        t = errorEntry .compress k s := by
      by_cases htext : ∃ l, validText l ∧ s.src.elems = textBytes l
      · obtain ⟨l, hl, hsrc⟩ := htext
        obtain hlen | hlen | hlen :
            (textFreq l).length = 0 ∨ (textFreq l).length = 1 ∨ 2 ≤ (textFreq l).length := by omega
        · exact ⟨_, by decide, hzero hl hsrc hlen⟩
        · exact ⟨_, by decide, hone hl hsrc hlen⟩
        · obtain ⟨u, hu⟩ := compress_more_symbols hunb hl hsrc (hle hsrc) hlen
          cases h.symm.trans (exec_of_body_ok (i := .compress) rfl hu)
          cases herr
      · exact ⟨_, by decide, hnone htext⟩
    refine ⟨?_, rfl, rfl, rfl, rfl, rfl, rfl, rfl, rfl, rfl⟩
    rw [errorEntry_err]
    simp only [List.mem_cons, List.not_mem_nil, or_false] at hk
    rcases hk with rfl | rfl | rfl <;> decide

end Sys2Proof.Machine
end

section
/-! DECOMPRESS on a blob of COMPRESS, whole, with the hazard of R290, and cut short (47_container_and_sequencer.md R235,
R241, R243; O54, O57). -/

namespace Sys2Proof.Machine

/-! ### The tree COMPRESS builds -/

theorem buildTree_ok_length {cfg : Config} {freq : List (Symbol × Count)} {b : BuiltTree}
    (h : buildTree cfg freq = .ok b) : 2 ≤ freq.length := by
  unfold buildTree at h
  split at h
  · cases h
  split at h
  · cases h
  split at h
  · cases h
  omega

section
variable {cfg : Config} {l : List Symbol} {b : BuiltTree} (hb : buildTree cfg (textFreq l) = .ok b)
include hb

theorem built_symbols_perm : b.root.symbols.Perm ((textFreq l).map Prod.fst) := (buildTree_leaves_perm hb).map Prod.fst

theorem mem_built_symbols {x : Symbol} : x ∈ b.root.symbols ↔ x ∈ l :=
  (built_symbols_perm hb).mem_iff.trans mem_textFreq_keys_iff

theorem two_le_built_symbols : 2 ≤ b.root.symbols.length := by
  rw [(built_symbols_perm hb).length_eq, List.length_map]
  exact buildTree_ok_length hb

end

/-- Paths, and so tables, are the same whatever the counts (44_tree_deserializer.md R183). -/
theorem Node.paths_zeroCounts (n : Node) : n.zeroCounts.paths = n.paths := by
  induction n with
  | leaf x c => rfl
  | internal c l r ihl ihr => rw [Node.zeroCounts, Node.paths, Node.paths, ihl, ihr]

theorem treeTables_zeroCounts (root : Node) : treeTables root.zeroCounts = treeTables root := by
  rw [treeTables, Node.paths_zeroCounts, treeTables]

/-- The lookup of a tree reads the code its other table has for a symbol. -/
theorem readsAs_codeOf {root : Node} (h : 2 ≤ root.symbols.length) {x : Symbol} (hx : x ∈ root.symbols) :
    ReadsAs (treeTables root).lut (codeOf (treeTables root).ptab x) x := by
  obtain ⟨code, hpath, hlook⟩ := lookup_treeTables_ptab hx
  rw [codeOf, hlook]
  exact readsAs_treeTables h hpath

/-! ### The phases of DECOMPRESS (R235) -/

theorem blobBytes_eq_markedBlob (vb : BitVec 4) (tree pay : List Byte) :
    blobBytes vb tree pay = markedBlob (vb.setWidth 8) [] (tree ++ 0x25 :: 0x25 :: pay) := rfl

theorem validBitsOk_setWidth {vb : BitVec 4} (h : validBitsOk vb.toNat = true) :
    validBitsOk (vb.setWidth 8).toNat = true := by
  rwa [BitVec.toNat_setWidth_of_le (by decide)]

theorem setWidth_setWidth_header (vb : BitVec 4) : (vb.setWidth 8).setWidth 4 = vb := by
  rw [BitVec.setWidth_setWidth_of_le vb (by decide), BitVec.setWidth_eq]

/-- What DECOMPRESS has written when PARSE has split the blob. -/
def State.parsed (s : State) (vb : BitVec 4) (tree pay : List Byte) : State :=
  { beginComposite .dParse s with validBits := vb, tbuf := Buffer.ofList tree, pay := Buffer.ofList pay,
                                  cursor := s.src.len, phase := .dDeserialize }

/-- What DECOMPRESS has written when DESERIALIZE has read the tree. -/
def State.treeRead (s : State) (vb : BitVec 4) (root : Node) (pay : List Byte) : State :=
  { s.parsed vb root.bytes pay with tree := some root.zeroCounts, cursor := root.bytes.length, stack := [],
                                    leaves := root.symbols.length, phase := .dDerive }

/-- What DECOMPRESS has written when DERIVE has made the tables. -/
def State.tablesMade (s : State) (vb : BitVec 4) (root : Node) (pay : List Byte) : State :=
  { s.treeRead vb root pay with ptab := (treeTables root).ptab, lut := (treeTables root).lut, phase := .dDecode }

theorem decompress_parse_error {s : State} {k : ErrKind} (h : parseFields s.cfg s.src.elems = .error k) :
    compositeBody .dParse s = .error k := by
  have hfields : parseFields (beginComposite .dParse s).cfg (beginComposite .dParse s).src.elems = .error k := h
  have hbody : parseBody (beginComposite .dParse s) = .error k := by
    rw [parseBody, hfields]
    rfl
  exact compositeBody_of_error (runPhases_unit_error .dParse rfl (by decide) hbody 4)

section
variable {s : State} (hcfg : s.cfg.unbounded = true) {vb : BitVec 4} (hv : validBitsOk vb.toNat = true)
include hcfg hv

theorem decompress_runs_parse {tree pay : List Byte} (hsrc : s.src.elems = blobBytes vb tree pay) (htree : tree ≠ [])
    (hfirst : NoDelimiter (tree ++ [0x25])) (hpay : pay ≠ []) :
    runPhases 5 (beginComposite .dParse s) = runPhases 4 (s.parsed vb tree pay) := by
  have hbody := parseBody_delimited (s := beginComposite .dParse s) hcfg
    (hsrc.trans (blobBytes_eq_markedBlob vb tree pay)) (validBitsOk_setWidth hv)
    List.not_mem_nil (.inr rfl) htree hfirst hpay
  rw [setWidth_setWidth_header] at hbody
  exact runPhases_unit_ok .dParse rfl (by decide) hbody 4

/-- The hazard of R290: the last byte of a tree whose last leaf is `%` is taken for the first of the delimiter, and the
tree is one byte short. -/
theorem decompress_hazard (hshort : s.cfg.shortSymbolInvalid = false) {root : Node} (hroot : validText root.symbols)
    (hlast : root.lastSymbol = 0x25) {pay : List Byte} (hpay : pay ≠ [])
    (hsrc : s.src.elems = vb.setWidth 8 :: 0x1F :: (root.bytes ++ 0x25 :: pay)) :
    compositeBody .dParse s = .error .truncatedTree := by
  obtain ⟨front, hne, hbytes⟩ := Node.bytes_of_lastSymbol_percent hlast
  have hblob : s.src.elems = blobBytes vb front pay := by
    rw [hsrc, hbytes, List.append_assoc]
    rfl
  have hcut := desNode_cut (s.cfg.unbounded_iff.1 hcfg) hshort hroot (k := front.length) (turns := front.length + 1)
    (by rw [hbytes, List.length_append, List.length_singleton]; omega) (Nat.lt_succ_self _) 0 0 0
  rw [hbytes, List.take_left] at hcut
  have hbody : deserializeBody (s.parsed vb front pay) = .error .truncatedTree := by
    have hdes : deserializeBytes s.cfg (Buffer.ofList front).elems = .error .truncatedTree := by
      rw [deserializeBytes, Buffer.ofList_elems]
      exact hcut
    rw [deserializeBody]
    exact congrArg (· >>= _) hdes
  exact compositeBody_of_error ((decompress_runs_parse hcfg hv hblob hne (hbytes ▸ root.bytes_noDelimiter) hpay).trans
    (runPhases_unit_error .dDeserialize rfl (by decide) hbody 3))

end

theorem PayloadHolds.ofList {pay : Buffer Byte} {vb : BitVec 4} {bits : Bits} (h : PayloadHolds pay vb bits) :
    PayloadHolds (Buffer.ofList pay.elems) vb bits where
  len := by rw [Buffer.ofList_len, Buffer.ofList_elems]
  holds := by rw [Buffer.ofList_elems]; exact h.holds
  valid := h.valid

theorem PayloadHolds.elems_ne_nil {pay : Buffer Byte} {vb : BitVec 4} {bits : Bits} (h : PayloadHolds pay vb bits)
    (hbits : bits ≠ []) : pay.elems ≠ [] := by
  have hlen := h.elems_length
  have hpos := List.length_pos_iff.2 hbits
  refine List.ne_nil_of_length_pos ?_
  omega

theorem deserializeBytes_tree {cfg : Config} (h : cfg.Unbounded) {root : Node} (hroot : validText root.symbols) :
    deserializeBytes cfg root.bytes = .ok (root.zeroCounts, ⟨root.bytes.length, [], root.symbols.length⟩) := by
  have hdes := desNode_bytes h hroot (Nat.lt_succ_self (root.bytes ++ []).length) 0 0 0
  rwa [List.append_nil, Nat.zero_add, Nat.zero_add] at hdes

/-- DECOMPRESS gives back the text of a blob whose tree does not end in `%`. -/
theorem decompress_blob {s : State} (hcfg : s.cfg.unbounded = true) {root : Node} {l : List Symbol}
    (hroot : validText root.symbols) (hleaves : 2 ≤ root.symbols.length) (hl : ∀ x ∈ l, x ∈ root.symbols) (hne : l ≠ [])
    (hlast : root.lastSymbol ≠ 0x25) (hblob : BlobOf root l s.src.elems) :
    ∃ u, compositeBody .dParse s = .ok u ∧ u.dst = Buffer.ofList (textBytes l) := by
  obtain ⟨vb, pay, hsrc, hholds⟩ := hblob
  have hunb := s.cfg.unbounded_iff.1 hcfg
  have hreads : ∀ x ∈ l, ReadsAs (treeTables root).lut (codeOf (treeTables root).ptab x) x :=
    fun x hx => readsAs_codeOf hleaves (hl x hx)
  have hpay : pay.elems ≠ [] := hholds.elems_ne_nil fun hnil => by
    obtain ⟨x, hx⟩ := List.exists_mem_of_ne_nil l hne
    exact (hreads x hx).ne_nil (List.flatMap_eq_nil_iff.1 hnil x hx)
  have hparsed := decompress_runs_parse hcfg (hholds.valid ▸ validBitsOk_validBitsOf _) hsrc root.bytes_ne_nil
    (Node.bytes_noDelimiter_before hlast) hpay
  have hdes := deserializeBody_of_ok (s := s.parsed vb root.bytes pay.elems)
    ((congrArg _ (Buffer.ofList_elems _)).trans (deserializeBytes_tree hunb hroot))
  have hderive := deriveBody_unbounded (s := s.treeRead vb root pay.elems) hunb rfl
  rw [treeTables_zeroCounts] at hderive
  obtain ⟨v, hdecode, hsyms, hcap⟩ : ∃ v, decodeBody (s.tablesMade vb root pay.elems) = .ok v
      ∧ v.syms = Buffer.ofList l ∧ v.cfg.Unbounded := by
    obtain ⟨_, _, _, hdecode⟩ := decodeBody_codes (s := s.tablesMade vb root pay.elems) hunb.symsCap hreads
      hholds.ofList
    exact ⟨_, hdecode, rfl, hunb⟩
  have hrun2 := runPhases_unit_ok .dDeserialize (s := s.parsed vb root.bytes pay.elems) rfl (by decide) hdes 3
  have hrun3 := runPhases_unit_ok .dDerive (s := s.treeRead vb root pay.elems) rfl (by decide) hderive 2
  have hrun4 := runPhases_unit_ok .dDecode (s := s.tablesMade vb root pay.elems) rfl (by decide) hdecode 1
  have hrun5 := runPhases_unit_ok .dEmit (s := v.atPhase .dEmit) rfl (by decide) (emitBody_unbounded hcap) 0
  refine ⟨_, compositeBody_of_ok (hparsed.trans (hrun2.trans (hrun3.trans (hrun4.trans hrun5)))), ?_⟩
  exact congrArg (fun b => Buffer.ofList (textBytes b)) (hsyms ▸ Buffer.ofList_elems l)

/-! ### The round trip (R241, R290) -/

theorem exec_decompress_error {s : State} {k : ErrKind} (h : compositeBody .dParse s = .error k) :
    exec .decompress s = .next (errorEntry .decompress k s) := by
  rw [exec_command (i := .decompress) rfl, commandBody, h, finish_error]

/-- Settles O54: the blob holds the tree of the text and the text's codes by it, and the last leaf alone decides whether
PARSE finds the delimiter where ASSEMBLE has put it. -/
theorem roundTripExceptHazard : Obligations.RoundTripExceptHazard := by
  intro s l hplain hl hsrc htwo hmax
  obtain ⟨hcfg, -, hshort, -⟩ := hplain
  have hunb := s.cfg.unbounded_iff.1 hcfg
  have hanalyze := analyzeText_of_src hunb hl hsrc hmax
  obtain ⟨b, hb⟩ := buildTree_of_text hmax (textFreq_length_of_distinct htwo)
  obtain ⟨t, bytes, hbody, hdst, hblob⟩ := compress_built hanalyze hunb hb
  rw [show (textRegs l).syms.elems = l from Buffer.ofList_elems l] at hblob
  have hroot : validText b.root.symbols := fun x hx => hl x ((mem_built_symbols hb).1 hx)
  refine ⟨t.succeed, textRegs l, b, exec_of_body_ok (i := .compress) rfl hbody, rfl, rfl,
    compositeBody_ok_visible hbody, hanalyze, hb, fun u hucfg husrc => ?_⟩
  have hbytes : u.src.elems = bytes := husrc.trans ((congrArg Buffer.elems hdst).trans (Buffer.ofList_elems bytes))
  rw [← hbytes] at hblob
  rw [← hucfg] at hcfg hshort
  refine ⟨fun hlast => ?_, fun hlast => ?_⟩
  · obtain ⟨x, hx, -⟩ := htwo
    obtain ⟨v, hv, hvdst⟩ := decompress_blob hcfg hroot (two_le_built_symbols hb)
      (fun y hy => (mem_built_symbols hb).2 hy) (List.ne_nil_of_mem hx) hlast hblob
    exact ⟨v.succeed, exec_of_body_ok (i := .decompress) rfl hv, hvdst ▸ compositeBody_ok_visible hv⟩
  · obtain ⟨vb, pay, hblob, hholds⟩ := hblob
    exact exec_decompress_error (decompress_hazard hcfg (hholds.valid ▸ validBitsOk_validBitsOf _) hshort hroot hlast
      (List.cons_ne_nil 0x25 pay.elems) hblob)

/-! ### A blob cut before its payload (R243) -/

theorem take_blobBytes (vb : BitVec 4) (tree pay : List Byte) (n : Nat) :
    (blobBytes vb tree pay).take (n + 2) = markedBlob (vb.setWidth 8) [] ((tree ++ 0x25 :: 0x25 :: pay).take n) := rfl

/-- What a cut leaves of the bytes after the marker, when it leaves all of the tree. -/
theorem take_after_tree (tree pay : List Byte) (n : Nat) :
    (tree ++ 0x25 :: 0x25 :: pay).take (tree.length + n) = tree ++ (0x25 :: 0x25 :: pay).take n :=
  List.take_length_add_append n

section
variable {s : State} {vb : BitVec 4} (hv : validBitsOk vb.toNat = true) {root : Node} {pay : List Byte}
include hv

theorem decompress_cut_in_tree {n : Nat} (hn : n ≤ root.bytes.length)
    (hsrc : s.src.elems = (blobBytes vb root.bytes pay).take (n + 2)) :
    compositeBody .dParse s = .error .treeEndNotFound := by
  rw [take_blobBytes, List.take_append_of_le_length hn] at hsrc
  refine decompress_parse_error (hsrc ▸ parseFields_noDelimiter (validBitsOk_setWidth hv) List.not_mem_nil (.inr rfl)
    ?_)
  exact scanTreeEnd_of_noDelimiter (root.bytes_noDelimiter.take n)

/-- A cut in the middle of the delimiter. -/
theorem decompress_cut_in_delimiter
    (hsrc : s.src.elems = (blobBytes vb root.bytes pay).take (root.bytes.length + 1 + 2)) :
    compositeBody .dParse s = .error (if root.lastSymbol = 0x25 then .encodedDataNotFound else .treeEndNotFound) := by
  rw [take_blobBytes, take_after_tree] at hsrc
  replace hsrc : s.src.elems = markedBlob (vb.setWidth 8) [] (root.bytes ++ [0x25]) := hsrc
  have hheader := validBitsOk_setWidth hv
  split
  · rename_i hlast
    obtain ⟨front, hne, hbytes⟩ := Node.bytes_of_lastSymbol_percent hlast
    rw [hbytes, List.append_assoc] at hsrc
    refine decompress_parse_error (hsrc ▸ ?_)
    exact (parseFields_delimited hheader List.not_mem_nil (.inr rfl) hne (hbytes ▸ root.bytes_noDelimiter) []).trans
      (if_pos rfl)
  · rename_i hlast
    exact decompress_parse_error (hsrc ▸ parseFields_noDelimiter hheader List.not_mem_nil (.inr rfl)
      (scanTreeEnd_of_noDelimiter (Node.bytes_noDelimiter_before hlast)))

/-- A cut after the delimiter. -/
theorem decompress_cut_before_payload (hcfg : s.cfg.unbounded = true) (hshort : s.cfg.shortSymbolInvalid = false)
    (hroot : validText root.symbols)
    (hsrc : s.src.elems = (blobBytes vb root.bytes pay).take (root.bytes.length + 2 + 2)) :
    compositeBody .dParse s = .error (if root.lastSymbol = 0x25 then .truncatedTree else .encodedDataNotFound) := by
  rw [take_blobBytes, take_after_tree] at hsrc
  split
  · rename_i hlast
    exact decompress_hazard hcfg hv hshort hroot hlast (List.cons_ne_nil 0x25 []) hsrc
  · rename_i hlast
    refine decompress_parse_error (hsrc ▸ ?_)
    exact (parseFields_delimited (validBitsOk_setWidth hv) List.not_mem_nil (.inr rfl) root.bytes_ne_nil
      (Node.bytes_noDelimiter_before hlast) []).trans (if_pos rfl)

end

theorem decompress_too_short {s : State} (h : s.src.elems.length < 2) :
    compositeBody .dParse s = .error .inputTooShort :=
  decompress_parse_error (parseFields_short h)

/-- Settles O57: the cut leaves no header, a part of the tree, a part of the delimiter, or no payload; and the bytes
of a tree hold no delimiter, by induction on the tree. -/
theorem cutBlobsAreRejected : Obligations.CutBlobsAreRejected := by
  refine ⟨fun s t u _ r b k hplain _ _ ht _ hr hb hucfg husrc => ?_, fun root =>
    ⟨(noDelimiter_iff _).1 root.bytes_noDelimiter, root.bytes_getLast?_percent⟩⟩
  obtain ⟨hcfg, -, hshort, -⟩ := hplain
  obtain ⟨v, bytes, hbody, hdst, vb, pay, rfl, hholds⟩ := compress_built hr (s.cfg.unbounded_iff.1 hcfg) hb
  cases ht.symm.trans (exec_of_body_ok (i := .compress) rfl hbody)
  have hcut : u.src.elems = (blobBytes vb b.root.bytes pay.elems).take k := by
    rw [husrc, State.succeed_dst, hdst, Buffer.ofList_elems]
  obtain ⟨text, htext, -, hsyms⟩ := analyzeText_ok hr
  rw [analyzeText_freq hr, hsyms, Buffer.ofList_elems] at hb
  have hroot : validText b.root.symbols := fun x hx => htext x ((mem_built_symbols hb).1 hx)
  have hv : validBitsOk vb.toNat = true := hholds.valid ▸ validBitsOk_validBitsOf _
  have herr {e : ErrKind} (h : compositeBody .dParse u = .error e) :
      (finish .decompress u (commandBody .decompress u)).status = .err
        ∧ (finish .decompress u (commandBody .decompress u)).err = e.code := by
    rw [commandBody, h, finish_error]
    exact ⟨rfl, rfl⟩
  refine ⟨_, exec_command (i := .decompress) rfl u, fun hk => ?_, fun h2 hk => ?_, fun hk => ?_, fun hk => ?_⟩
  · refine herr (decompress_too_short ?_)
    rw [hcut, List.length_take]
    omega
  · obtain ⟨n, rfl⟩ := Nat.exists_eq_add_of_le' h2
    exact herr (decompress_cut_in_tree hv (by omega) hcut)
  · rw [hk, show 3 + b.root.bytes.length = b.root.bytes.length + 1 + 2 by omega] at hcut
    obtain ⟨hstatus, hcode⟩ := herr (decompress_cut_in_delimiter hv hcut)
    exact ⟨hstatus, hcode.trans (apply_ite ErrKind.code _ _ _)⟩
  · rw [hk, show 4 + b.root.bytes.length = b.root.bytes.length + 2 + 2 by omega] at hcut
    rw [← hucfg] at hcfg hshort
    obtain ⟨hstatus, hcode⟩ := herr (decompress_cut_before_payload hv hcfg hshort hroot hcut)
    exact ⟨hstatus, hcode.trans (apply_ite ErrKind.code _ _ _)⟩

end Sys2Proof.Machine
end

section
/-! The reset input, a block fresh from it, the document's scenarios, and the ends of instructions: every one has a next
state (10_state.md R41; 60_exceptions.md R262, R265; 70_reset_and_hazards.md R280, R282; O13, O17, O28, O60). -/

namespace Sys2Proof.Machine

/-! ### Reset -/

theorem step_reset {s : State} {rest : List HostAction} (hh : s.host = .reset :: rest) :
    step s = .next ({ s with host := rest } : State).afterReset :=
  step_hostAct hh (by decide)

/-- Settles O13: a host's reset is no access that BUSY could refuse, and leaves the values of State.reset. -/
theorem resetGivesSpecValues : Obligations.ResetGivesSpecValues := by
  refine ⟨fun s rest hh => ⟨_, step_reset hh, ?_⟩, ?_⟩
  · exact ⟨rfl, rfl, rfl, rfl, rfl, rfl, rfl, rfl, rfl, rfl, rfl, rfl, rfl, rfl⟩
  · exact ⟨rfl, rfl, rfl, rfl, rfl, rfl, rfl, rfl, rfl, rfl, rfl, rfl, rfl, rfl⟩

/-- Settles O60: each command evaluated on the reset state. -/
theorem freshBlockResults : Obligations.FreshBlockResults :=
  ⟨⟨_, rfl, rfl, rfl⟩, ⟨_, rfl, rfl, rfl⟩, ⟨_, rfl, rfl, rfl⟩, ⟨_, rfl, rfl, rfl⟩, ⟨_, rfl, rfl, rfl⟩,
    ⟨_, rfl, rfl, rfl⟩, ⟨_, rfl, rfl, rfl⟩, ⟨_, rfl, rfl, rfl⟩, ⟨_, rfl, rfl, rfl⟩⟩

/-! ### The document's scenarios -/

/-- Settles O28: the three commands evaluated on the document's map, text and blob. -/
theorem documentVectors : Obligations.DocumentVectors := by
  refine ⟨⟨_, rfl, ?_⟩, ⟨_, rfl, ?_⟩, ⟨_, rfl, ?_⟩⟩
  · exact ⟨by decide +kernel, by decide +kernel⟩
  · decide +kernel
  · decide +kernel

/-! ### Every instruction ends -/

theorem exists_exec_next (i : Instr) (s : State) : ∃ t, exec i s = .next t := by
  cases i with
  | nodeInternal => simp only [exec, execNodeInternal]; split <;> exact ⟨_, rfl⟩
  | nodeLeaf sym => simp only [exec, execNodeLeaf]; split <;> exact ⟨_, rfl⟩
  | validBitsHeader vb => simp only [exec, execValidBitsHeader]; split <;> exact ⟨_, rfl⟩
  | treeEnd =>
    simp only [exec, execTreeEnd]
    split
    · exact ⟨_, rfl⟩
    · split
      · exact ⟨_, rfl⟩
      · split <;> exact ⟨_, rfl⟩
  | _ => exact ⟨_, rfl⟩

theorem exists_stepPhase_next (s : State) : ∃ t, stepPhase s = .next t := by
  unfold stepPhase
  split
  · exact ⟨_, rfl⟩
  · split <;> exact ⟨_, rfl⟩

theorem exists_blockMove_next {s : State} (hb : s.status = .busy) : ∃ t, blockMove s = .next t := by
  by_cases hp : s.site = .command ∧ s.phase ≠ .pIdle
  · exact blockMove_phase hb hp.1 hp.2 ▸ exists_stepPhase_next s
  · cases hf : fetch s with
    | error k => exact ⟨_, blockMove_fetch_error hb hp hf⟩
    | ok p => exact blockMove_fetch_ok hb hp hf ▸ exists_exec_next p.1 p.2

theorem finish_status (i : Instr) (s : State) (r : Except ErrKind State) :
    (finish i s r).status = .ok ∨ (finish i s r).status = .err := by
  cases r with
  | ok t => exact .inl rfl
  | error k => exact .inr rfl

/-- Settles O17: no instruction and no move of the block has a case that stops. -/
theorem everyInstructionEnds : Obligations.EveryInstructionEnds := by
  refine ⟨fun i s => ?_, fun s hh => ?_⟩
  · obtain ⟨t, ht⟩ := exists_exec_next i s
    refine ⟨t, ht, fun hi => ?_⟩
    cases ht.symm.trans (exec_command hi s)
    exact finish_status i s _
  · by_cases hb : s.status = .busy
    · exact step_of_blockTurn (.inl hh) hb ▸ exists_blockMove_next hb
    · exact ⟨s, step_idle hh hb⟩

end Sys2Proof.Machine
end

section
/-! Error entry (60_exceptions.md R260, R261): what a command that ends in ERR leaves, and that the same command again
changes nothing (O18, O20). -/

namespace Sys2Proof.Machine

/-- A command that ends with STATUS ERR is error entry on its operation's error. -/
theorem exec_status_err {i : Instr} (hi : i.site = .command) {s t : State} (h : exec i s = .next t)
    (herr : t.status = .err) : ∃ k, commandBody i s = .error k ∧ t = errorEntry i k s := by
  rw [exec_command hi] at h
  cases h
  cases hb : commandBody i s with
  | error k => exact ⟨k, rfl, rfl⟩
  | ok u => rw [hb] at herr; cases herr

/-- Settles O18: an error leaves error entry, which empties the outputs of its command. -/
theorem errorEmptiesOutputs : Obligations.ErrorEmptiesOutputs := by
  intro s t herr
  have hentry {i : Instr} (hi : i.site = .command) (h : exec i s = .next t) : ∃ k, t = errorEntry i k s := by
    obtain ⟨k, -, ht⟩ := exec_status_err hi h herr
    exact ⟨k, ht⟩
  refine ⟨fun i hi h => ?_, fun h => ?_, fun h => ?_, fun h => ?_, fun h => ?_, fun h => ?_, fun h => ?_, fun h => ?_,
    fun h => ?_, fun h => ?_, fun h => ?_, fun h => ?_, fun code h => ?_⟩
  case refine_1 => obtain ⟨k, rfl⟩ := hentry hi h; exact ⟨k, rfl⟩
  case refine_12 => rcases h with h | h <;> obtain ⟨k, rfl⟩ := hentry rfl h <;> rfl
  all_goals obtain ⟨k, rfl⟩ := hentry rfl h; rfl

/-! ### The same command again (R261) -/

theorem error_of_map_eq {α β : Type} {f : α → β} {r r' : Except ErrKind α} {k : ErrKind} (hr : r = .error k)
    (h : r.map f = r'.map f) : r' = .error k := by
  subst hr
  cases r' with
  | error k' => cases h; rfl
  | ok a => cases h

/-- No command reads what it writes, so its error is the same once its outputs are empty. -/
theorem commandBody_errorEntry {i : Instr} (hi : i.site = .command) {s : State} {k : ErrKind}
    (h : commandBody i s = .error k) (e : ErrKind) : commandBody i (errorEntry i e s) = .error k := by
  cases i with
  | analyze => exact error_of_map_eq h (analyzeBody_reads rfl rfl)
  | build => exact error_of_map_eq h (buildBody_reads rfl rfl)
  | derive => exact error_of_map_eq h (deriveBody_reads rfl rfl)
  | serialize => exact error_of_map_eq h (serializeBody_reads rfl rfl)
  | deserialize => exact error_of_map_eq h (deserializeBody_reads rfl rfl)
  | encode => exact error_of_map_eq h (encodeBody_reads rfl rfl rfl)
  | decode => exact error_of_map_eq h (decodeBody_reads rfl rfl rfl rfl rfl)
  | assemble => exact error_of_map_eq h (assembleBody_reads rfl rfl rfl rfl)
  | parse => exact error_of_map_eq h (parseBody_reads rfl rfl)
  | emit => exact error_of_map_eq h (emitBody_reads rfl rfl)
  | compress => exact error_of_map_eq h (compositeBody_reads (s := s) (s' := errorEntry .compress e s) rfl _ rfl)
  | decompress => exact error_of_map_eq h (compositeBody_reads (s := s) (s' := errorEntry .decompress e s) rfl _ rfl)
  | clear => cases h
  | illegal code => exact h
  | _ => cases hi

theorem errorEntry_errorEntry (i : Instr) (k e : ErrKind) (s : State) :
    errorEntry i k (errorEntry i e s) = errorEntry i k s := by
  cases i <;> rfl

/-- Settles O20: the operation fails in the same way, and error entry on its own result changes nothing. -/
theorem retryGivesSameError : Obligations.RetryGivesSameError := by
  intro i s t hi h herr
  obtain ⟨k, hk, rfl⟩ := exec_status_err hi h herr
  rw [exec_command hi, commandBody_errorEntry hi hk, finish_error, errorEntry_errorEntry]

end Sys2Proof.Machine
end

section
/-! Which errors each command can report, in every configuration (60_exceptions.md R251, R256;
47_container_and_sequencer.md R231, R236; O21): CapacityExceeded only where some capacity is bounded, or a count too
large. -/

namespace Sys2Proof.Machine

/-- An error is one of the kinds `ks`, or CapacityExceeded on a machine with a bounded capacity (R256). -/
def ErrorAmong (cfg : Config) (ks : List ErrKind) (k : ErrKind) : Prop :=
  k ∈ ks ∨ (k = .capacityExceeded ∧ ¬ cfg.Unbounded)

section
variable {cfg : Config} {ks ks' : List ErrKind} {k : ErrKind}

theorem ErrorAmong.mono (h : ErrorAmong cfg ks k) (hks : ks ⊆ ks') : ErrorAmong cfg ks' k := h.imp_left fun hk => hks hk

theorem ErrorAmong.mem (h : ErrorAmong cfg ks k) : k ∈ ks ++ [.capacityExceeded] :=
  List.mem_append.2 (h.imp_right fun ⟨hk, _⟩ => List.mem_singleton.2 hk)

theorem ErrorAmong.mem_of_unbounded (h : ErrorAmong cfg ks k) (hcfg : cfg.Unbounded) : k ∈ ks :=
  h.resolve_right fun ⟨_, hbounded⟩ => hbounded hcfg

end

/-! ### DERIVE and SERIALIZE (42_code_derive.md R164, 43_tree_serializer.md R172) -/

theorem deriveBody_error {s : State} {k : ErrKind} (h : deriveBody s = .error k) :
    (s.tree = none ∧ k = .nullNode) ∨ ErrorAmong s.cfg [] k := by
  cases htree : s.tree with
  | none =>
    rw [deriveBody_nullNode htree] at h
    cases h
    exact .inl ⟨rfl, rfl⟩
  | some root =>
    refine .inr (.inr ⟨?_, fun hcfg => ?_⟩)
    · simp only [deriveBody, htree] at h
      rcases bind_error h with h | ⟨c, -, h⟩
      · exact walkCodes_error h
      · cases h
    · cases h.symm.trans (deriveBody_unbounded hcfg htree)

theorem deriveBody_error_mem {s : State} {k : ErrKind} (h : deriveBody s = .error k) :
    k ∈ [ErrKind.nullNode, .capacityExceeded] := by
  rcases deriveBody_error h with ⟨-, rfl⟩ | he
  · decide
  · exact List.mem_cons_of_mem _ he.mem

theorem serializeBody_error_tree {s : State} {k : ErrKind} (h : serializeBody s = .error k) :
    (s.tree = none ∧ k = .nullNode) ∨ ErrorAmong s.cfg [] k := by
  cases htree : s.tree with
  | none =>
    rw [serializeBody_nullNode htree] at h
    cases h
    exact .inl ⟨rfl, rfl⟩
  | some root =>
    refine .inr (.inr ⟨?_, fun hcfg => ?_⟩)
    · simp only [serializeBody, htree] at h
      rcases bind_error h with h | ⟨b, -, h⟩
      · exact serNode_error h
      · cases h
    · cases h.symm.trans (serializeBody_unbounded hcfg htree)

/-! ### DESERIALIZE (44_tree_deserializer.md R181, R182, R184) -/

theorem tokenAt_treeToken_error {cfg : Config} {bytes : List Byte} {k : ErrKind}
    (h : tokenAt cfg .treeToken bytes = .error k) : k ∈ [ErrKind.truncatedTree, .invalidSymbolEncoding] := by
  cases hd : decode .treeToken bytes with
  | ok p => simp only [tokenAt, hd] at h; cases h
  | error e =>
    simp only [tokenAt, hd] at h
    cases e with
    | shortSymbol => cases h; split <;> decide
    | badSymbol => cases h; decide
    | _ => cases h; decide

theorem checkCap_error_bounded {cap : Option Nat} {n : Nat} {k : ErrKind} (h : checkCap cap n = .error k) :
    cap ≠ none := by
  rintro rfl
  cases h

theorem desNode_error {cfg : Config} {turns depth : Nat} {r : DesRegs} {k : ErrKind}
    (h : desNode cfg turns depth r = .error k) :
    ErrorAmong cfg [.truncatedTree, .malformedTreeMarker, .invalidSymbolEncoding] k := by
  induction turns generalizing depth r with
  | zero => cases h; exact .inl (by decide)
  | succ turns ih =>
    rw [desNode_succ] at h
    cases htoken : tokenAt cfg .treeToken r.rest with
    | error e =>
      rw [htoken] at h
      cases h
      exact .mono (.inl (tokenAt_treeToken_error htoken)) (by decide)
    | ok i =>
      rw [htoken] at h
      obtain ⟨rest, hd⟩ := tokenAt_ok htoken
      obtain ⟨-, rfl | ⟨m, -, rfl⟩ | ⟨x, rfl, -⟩⟩ := decodeTreeToken_ok hd
      · rcases bind_error h with h | ⟨_, -, h⟩
        · exact .inr ⟨checkCap_error h, fun hcfg => checkCap_error_bounded h hcfg.stackMax⟩
        · rcases bind_error h with h | ⟨p, -, h⟩
          · exact ih h
          · rcases bind_error h with h | ⟨q, -, h⟩
            · exact ih h
            · cases h
      · cases h; exact .inl (by decide)
      · rcases bind_error h with h | ⟨n, -, h⟩
        · exact .inr ⟨checkCap_error h, fun hcfg => checkCap_error_bounded h hcfg.nMax⟩
        · cases h

theorem deserializeBody_error {s : State} {k : ErrKind} (h : deserializeBody s = .error k) :
    ErrorAmong s.cfg [.truncatedTree, .malformedTreeMarker, .invalidSymbolEncoding] k := by
  rcases bind_error h with h | ⟨p, -, h⟩
  · exact desNode_error h
  · cases h

/-! ### ENCODE and DECODE (45_bit_encoder.md R193, 46_bit_decoder.md R201, R203) -/

theorem encodeBody_errorAmong {s : State} {k : ErrKind} (h : encodeBody s = .error k) :
    ErrorAmong s.cfg [.unknownSymbol] k := by
  rcases encodeBody_error h with hk | ⟨rfl, -⟩
  · refine .inr ⟨hk, fun hcfg => ?_⟩
    by_cases hl : ∀ x ∈ s.syms.elems, ∃ code, Table.lookup symKey x s.ptab = some code
    · obtain ⟨t, ht⟩ := encodeBody_unbounded hcfg hl
      cases h.symm.trans ht
    · push Not at hl
      obtain ⟨x, hx, hnone⟩ := hl
      have := encodeBody_unknownSymbol hcfg ⟨x, hx, Option.eq_none_iff_forall_ne_some.2 hnone⟩
      rw [hk, this] at h
      cases h
  · exact .inl (List.mem_singleton_self _)

theorem decodeLoop_error {cfg : Config} {lut : List (Bits × Symbol)} {bits : Bits} {r : DecodeRegs} {k : ErrKind}
    (h : decodeLoop cfg lut bits r = .error k) : ErrorAmong cfg [] k := by
  induction bits generalizing r with
  | nil => cases h
  | cons b bs ih =>
    cases hl : Table.lookup bitsKey (r.cand ++ [b]) lut with
    | none =>
      simp only [decodeLoop, hl] at h
      exact ih h
    | some x =>
      simp only [decodeLoop, hl] at h
      rcases bind_error h with h | ⟨syms, -, h⟩
      · refine .inr ⟨Buffer.append_error h, fun hcfg => ?_⟩
        rw [hcfg.symsCap] at h
        cases h
      · exact ih h

theorem decodeBody_error {s : State} {k : ErrKind} (h : decodeBody s = .error k) :
    ErrorAmong s.cfg [.invalidBitLength, .undecodableBitstream] k := by
  unfold decodeBody at h
  split at h
  · cases h
  · split at h
    · cases h; exact .inl (by decide)
    · rcases bind_error h with h | ⟨r, -, h⟩
      · rcases bind_error h with h | ⟨r, -, h⟩
        · exact (decodeLoop_error h).mono (List.nil_subset _)
        · split at h
          · cases h
          · cases h; exact .inl (by decide)
      · cases h

/-! ### ASSEMBLE, PARSE, EMIT (47_container_and_sequencer.md R216, R220) -/

theorem assembleBody_errorAmong {s : State} {k : ErrKind} (h : assembleBody s = .error k) :
    (validBitsOk s.validBits.toNat = false ∧ k = .invalidBitLength) ∨ ErrorAmong s.cfg [] k := by
  cases hv : validBitsOk s.validBits.toNat with
  | false =>
    simp only [assembleBody, hv] at h
    cases h
    exact .inl ⟨rfl, rfl⟩
  | true =>
    refine .inr (.inr ⟨?_, fun hcfg => ?_⟩)
    · simp only [assembleBody, hv] at h
      rcases bind_error h with h | ⟨d, -, h⟩
      · exact Buffer.appendAll_error h
      · cases h
    · cases h.symm.trans (assembleBody_unbounded hcfg hv)

theorem parseFields_error {cfg : Config} {src : List Byte} {k : ErrKind} (h : parseFields cfg src = .error k) :
    k ∈ [ErrKind.inputTooShort, .invalidBitLength, .treeStartNotFound, .treeEndNotFound, .emptyTreeBytes,
      .encodedDataNotFound] := by
  unfold parseFields at h
  split at h
  · cases h; decide
  split at h
  · cases h; decide
  split at h
  · cases h; decide
  split at h
  · cases h; decide
  split at h
  · cases h; decide
  split at h
  · cases h; decide
  split at h
  · cases h; decide
  · cases h

theorem writeSpans_error {f : BlobFields} {s : State} {k : ErrKind} (h : writeSpans f s = .error k) :
    ErrorAmong s.cfg [] k := by
  refine .inr ⟨?_, fun hcfg => ?_⟩
  · rcases bind_error h with h | ⟨tbuf, -, h⟩
    · exact Buffer.appendAll_error h
    · rcases bind_error h with h | ⟨pay, -, h⟩
      · exact Buffer.appendAll_error h
      · cases h
  · cases h.symm.trans (writeSpans_unbounded (s.cfg.unbounded_iff.2 hcfg) f)

theorem parseBody_error {s : State} {k : ErrKind} (h : parseBody s = .error k) :
    ErrorAmong s.cfg [.inputTooShort, .invalidBitLength, .treeStartNotFound, .treeEndNotFound, .emptyTreeBytes,
      .encodedDataNotFound] k := by
  rcases bind_error h with h | ⟨f, -, h⟩
  · exact .inl (parseFields_error h)
  · exact (writeSpans_error h).mono (List.nil_subset _)

theorem emitBody_error {s : State} {k : ErrKind} (h : emitBody s = .error k) : ErrorAmong s.cfg [] k := by
  refine .inr ⟨?_, fun hcfg => ?_⟩
  · rcases bind_error h with h | ⟨d, -, h⟩
    · exact Buffer.appendAll_error h
    · cases h
  · cases h.symm.trans (emitBody_unbounded hcfg)

/-! ### COMPRESS and DECOMPRESS (47_container_and_sequencer.md R231, R236) -/

theorem phaseBody_cfg {p : Phase} {s t : State} (h : phaseBody p s = .ok t) : t.cfg = s.cfg :=
  congrArg Outside.cfg (outside_of_control (phaseBody_control h).1)

theorem buildTree_error_of_positive {cfg : Config} {freq : List (Symbol × Count)} {k : ErrKind} (hpos : positive freq)
    (h : buildTree cfg freq = .error k) : k ∈ [ErrKind.emptyFrequencyMap, .insufficientSymbols, .capacityExceeded] := by
  rw [buildTree, (positive_iff freq).1 hpos, if_neg Bool.false_ne_true] at h
  split at h
  · cases h; decide
  split at h
  · cases h; decide
  rcases bind_error h with h | ⟨⟨q, seq⟩, -, h⟩
  · rw [mergeLoop_error h]; decide
  · cases q with
    | nil => cases h; decide
    | cons e rest => cases h

theorem buildBody_error_of_positive {s : State} {k : ErrKind} (hpos : positive s.freq) (h : buildBody s = .error k) :
    k ∈ [ErrKind.emptyFrequencyMap, .insufficientSymbols, .capacityExceeded] := by
  rcases bind_error h with h | ⟨b, -, h⟩
  · exact buildTree_error_of_positive hpos h
  · rcases bind_error h with h | ⟨c, -, h⟩
    · rw [walkCodes_error h]; decide
    · cases h

theorem analyzeBody_positive {s t : State} (h : analyzeBody s = .ok t) : positive t.freq := by
  obtain ⟨r, hr, rfl⟩ := analyzeBody_ok h
  exact analyzeLoop_positive (r := ⟨Buffer.empty, [], 0⟩) (List.forall_mem_nil _) hr

theorem buildBody_tree {s t : State} (h : buildBody s = .ok t) : t.tree ≠ none := by
  obtain ⟨b, c, -, -, rfl⟩ := buildBody_ok h
  exact Option.some_ne_none b.root

theorem deserializeBody_tree {s t : State} (h : deserializeBody s = .ok t) : t.tree ≠ none := by
  obtain ⟨root, r, -, rfl⟩ := deserializeBody_ok h
  exact Option.some_ne_none root

/-- ENCODE leaves a valid-bit count that ASSEMBLE accepts. -/
theorem encodeBody_validBitsOk {s t : State} (h : encodeBody s = .ok t) : validBitsOk t.validBits.toNat = true := by
  obtain ⟨r, -, rfl⟩ := encodeBody_ok h
  exact validBitsOk_validBitsOf r.totalBits

/-- In COMPRESS no count is below 1, BUILD leaves a tree, every symbol has a code, and ENCODE a valid count. -/
theorem compressBody_error {s : State} {k : ErrKind} (h : compositeBody .cAnalyze s = .error k) :
    k ∈ [ErrKind.invalidEncoding, .emptyFrequencyMap, .insufficientSymbols, .capacityExceeded] := by
  have hne := compressBody_error_ne h
  have hcap {cfg : Config} (he : ErrorAmong cfg [] k) :
      k ∈ [ErrKind.invalidEncoding, .emptyFrequencyMap, .insufficientSymbols, .capacityExceeded] :=
    List.mem_append_right [ErrKind.invalidEncoding, .emptyFrequencyMap, .insufficientSymbols] he.mem
  rcases runPhases_error (p := .cAnalyze) rfl (by decide) (compositeBody_error h) with herr | ⟨t1, h1, h⟩
  · have hsub : [ErrKind.invalidEncoding, .capacityExceeded]
        ⊆ [ErrKind.invalidEncoding, .emptyFrequencyMap, .insufficientSymbols, .capacityExceeded] := by decide
    exact hsub (analyzeBody_error herr)
  have hpos : positive t1.freq := analyzeBody_positive h1
  rcases runPhases_error (p := .cBuild) rfl (by decide) h with herr | ⟨t2, h2, h⟩
  · exact List.mem_cons_of_mem _ (buildBody_error_of_positive (s := { t1 with phase := .cBuild }) hpos herr)
  have htree : t2.tree ≠ none := buildBody_tree h2
  rcases runPhases_error (p := .cSerialize) rfl (by decide) h with herr | ⟨t3, -, h⟩
  · exact hcap ((serializeBody_error_tree (s := { t2 with phase := .cSerialize }) herr).resolve_left
      fun ⟨hnone, _⟩ => htree hnone)
  rcases runPhases_error (p := .cEncode) rfl (by decide) h with herr | ⟨t4, h4, h⟩
  · rcases encodeBody_error herr with rfl | ⟨rfl, -⟩
    · decide
    · exact absurd rfl hne
  have hvalid : validBitsOk t4.validBits.toNat = true := encodeBody_validBitsOk h4
  rcases runPhases_error (p := .cAssemble) rfl (by decide) h with herr | ⟨t5, -, h⟩
  · exact hcap ((assembleBody_errorAmong (s := { t4 with phase := .cAssemble }) herr).resolve_left
      fun ⟨hbad, _⟩ => Bool.false_ne_true (hbad.symm.trans hvalid))
  · cases h

/-- In DECOMPRESS the tree DERIVE reads is the one DESERIALIZE has made. -/
theorem decompressBody_error {s : State} {k : ErrKind} (h : compositeBody .dParse s = .error k) :
    ErrorAmong s.cfg [.inputTooShort, .invalidBitLength, .treeStartNotFound, .treeEndNotFound, .emptyTreeBytes,
      .encodedDataNotFound, .truncatedTree, .malformedTreeMarker, .invalidSymbolEncoding, .undecodableBitstream] k := by
  rcases runPhases_error (p := .dParse) rfl (by decide) (compositeBody_error h) with herr | ⟨t1, h1, h⟩
  · exact (parseBody_error (s := beginComposite .dParse s) herr).mono (by decide)
  have hc1 : t1.cfg = s.cfg := (phaseBody_cfg h1 : t1.cfg = (beginComposite .dParse s).cfg)
  rcases runPhases_error (p := .dDeserialize) rfl (by decide) h with herr | ⟨t2, h2, h⟩
  · exact hc1 ▸ (deserializeBody_error (s := { t1 with phase := .dDeserialize }) herr).mono (by decide)
  have hc2 : t2.cfg = s.cfg := Eq.trans (phaseBody_cfg h2) hc1
  have htree : t2.tree ≠ none := deserializeBody_tree h2
  rcases runPhases_error (p := .dDerive) rfl (by decide) h with herr | ⟨t3, h3, h⟩
  · exact hc2 ▸ ((deriveBody_error (s := { t2 with phase := .dDerive }) herr).resolve_left
      fun ⟨hnone, _⟩ => htree hnone).mono (List.nil_subset _)
  have hc3 : t3.cfg = s.cfg := Eq.trans (phaseBody_cfg h3) hc2
  rcases runPhases_error (p := .dDecode) rfl (by decide) h with herr | ⟨t4, h4, h⟩
  · exact hc3 ▸ (decodeBody_error (s := { t3 with phase := .dDecode }) herr).mono (by decide)
  have hc4 : t4.cfg = s.cfg := Eq.trans (phaseBody_cfg h4) hc3
  rcases runPhases_error (p := .dEmit) rfl (by decide) h with herr | ⟨t5, -, h⟩
  · exact hc4 ▸ (emitBody_error (s := { t4 with phase := .dEmit }) herr).mono (List.nil_subset _)
  · cases h

/-! ### The codes in ERR (R251) -/

/-- ERR holds the code of the operation's error. -/
theorem exec_err_mem {i : Instr} (hi : i.site = .command) {s t : State} (h : exec i s = .next t)
    (herr : t.status = .err) {ks : List ErrKind} {codes : List Byte} (hkinds : ∀ {k}, commandBody i s = .error k → k ∈ ks)
    (hcodes : ks.map ErrKind.code = codes) : t.err ∈ codes := by
  obtain ⟨k, hk, rfl⟩ := exec_status_err hi h herr
  exact hcodes ▸ List.mem_map_of_mem (hkinds hk)

/-- Settles O21: each command's operation has its kinds of error. -/
theorem errorsOfEachCommand : Obligations.ErrorsOfEachCommand := by
  intro s t herr
  refine ⟨fun h => ?_, fun h => ?_, fun h => ?_, fun h => ?_, fun h => ?_, fun h => ?_, fun h => ?_, fun h => ?_,
    fun h => ?_, fun h => ?_, fun h => ?_, fun code h => ?_, fun h => ?_, fun h => ?_⟩
  · exact exec_err_mem rfl h herr (fun hk => analyzeBody_error hk) rfl
  · exact exec_err_mem rfl h herr (fun hk => buildBody_error hk) rfl
  · exact exec_err_mem rfl h herr (fun hk => deriveBody_error_mem hk) rfl
  · exact exec_err_mem rfl h herr (fun hk => serializeBody_error hk) rfl
  · exact exec_err_mem rfl h herr (fun hk => (deserializeBody_error hk).mem) rfl
  · exact exec_err_mem rfl h herr (fun hk => (encodeBody_errorAmong hk).mem) rfl
  · exact exec_err_mem rfl h herr (fun hk => (decodeBody_error hk).mem) rfl
  · exact exec_err_mem rfl h herr (fun hk => assembleBody_error hk) rfl
  · exact exec_err_mem rfl h herr (fun hk => (parseBody_error hk).mem) rfl
  · exact List.mem_singleton.1 (exec_err_mem rfl h herr (fun hk => (emitBody_error hk).mem) rfl)
  · exact exec_err_mem rfl h herr (fun hk => compressBody_error hk) rfl
  · obtain ⟨k, hk, rfl⟩ := exec_status_err rfl h herr
    cases hk
    rfl
  · exact exec_err_mem rfl h herr (fun hk => (decompressBody_error hk).mem) rfl
  · obtain ⟨k, hk, -⟩ := exec_status_err rfl h herr
    cases hk

end Sys2Proof.Machine
end

section
/-! An operation under capacities against the same operation without them (60_exceptions.md R256): a relation that the
parts of an operation compose, and the operations that look at a capacity. -/

namespace Sys2Proof.Machine

variable {α β : Type}

/-- `r'` is an operation's result without capacities, and `r` its result under them: the same where it fits,
CapacityExceeded where it does not, and where the operation fails anyway CapacityExceeded may come before that error. The
operation has begun within capacity when `start` holds, as it must have where its result fits. -/
structure Limits (start : Prop) (fits : α → Prop) (r r' : Except ErrKind α) : Prop where
  of_fits : ∀ {a}, r' = .ok a → fits a → start ∧ r = .ok a
  of_exceeds : ∀ {a}, start → r' = .ok a → ¬ fits a → r = .error .capacityExceeded
  of_fails : ∀ {k}, start → r' = .error k → r = .error k ∨ r = .error .capacityExceeded

section
variable {start start' : Prop} {fits fits' : α → Prop} {r r' : Except ErrKind α}

theorem Limits.pure (a : α) : Limits (fits a) fits (.ok a) (.ok a) where
  of_fits h hf := by cases h; exact ⟨hf, rfl⟩
  of_exceeds hs h hne := by cases h; exact absurd hs hne
  of_fails _ h := by cases h

theorem Limits.error (k : ErrKind) : Limits start fits (.error k) (.error k) where
  of_fits h := by cases h
  of_exceeds _ h := by cases h
  of_fails _ h := .inl h

/-- An operation that looks at no capacity. -/
theorem Limits.refl (r : Except ErrKind α) : Limits start (fun _ => start) r r where
  of_fits h hf := ⟨hf, h⟩
  of_exceeds hs _ hne := absurd hs hne
  of_fails _ h := .inl h

theorem Limits.congr (h : Limits start fits r r') (hs : start ↔ start') (hf : ∀ a, r' = .ok a → (fits a ↔ fits' a)) :
    Limits start' fits' r r' where
  of_fits ha hfa := (h.of_fits ha ((hf _ ha).2 hfa)).imp_left hs.1
  of_exceeds hs' ha hne := h.of_exceeds (hs.2 hs') ha fun hfa => hne ((hf _ ha).1 hfa)
  of_fails hs' hk := h.of_fails (hs.2 hs') hk

theorem Limits.begun (h : Limits start fits r r') (hs : start) : Limits True fits r r' :=
  h.congr (iff_true_intro hs) fun _ _ => Iff.rfl

/-- A condition the operation does not touch holds afterwards as before. -/
theorem Limits.frame (h : Limits start fits r r') (c : Prop) : Limits (start ∧ c) (fun a => fits a ∧ c) r r' where
  of_fits ha hfa := let ⟨hs, hr⟩ := h.of_fits ha hfa.1; ⟨⟨hs, hfa.2⟩, hr⟩
  of_exceeds hs ha hne := h.of_exceeds hs.1 ha fun hfa => hne ⟨hfa, hs.2⟩
  of_fails hs hk := h.of_fails hs.1 hk

theorem Limits.frame_left (h : Limits start fits r r') (c : Prop) : Limits (c ∧ start) (fun a => c ∧ fits a) r r' :=
  (h.frame c).congr and_comm fun _ _ => and_comm

theorem Limits.bind {gits : β → Prop} {f f' : α → Except ErrKind β} (h : Limits start fits r r')
    (hf : ∀ a, r' = .ok a → Limits (fits a) gits (f a) (f' a)) : Limits start gits (r >>= f) (r' >>= f') where
  of_fits hb hg := by
    obtain ⟨a, ha, hb⟩ := bind_ok hb
    obtain ⟨hfa, hfr⟩ := (hf a ha).of_fits hb hg
    obtain ⟨hs, rfl⟩ := h.of_fits ha hfa
    exact ⟨hs, hfr⟩
  of_exceeds hs hb hg := by
    obtain ⟨a, ha, hb⟩ := bind_ok hb
    by_cases hfa : fits a
    · obtain ⟨-, rfl⟩ := h.of_fits ha hfa
      exact (hf a ha).of_exceeds hfa hb hg
    · rw [h.of_exceeds hs ha hfa]
      rfl
  of_fails hs hk := by
    rcases bind_error hk with hk | ⟨a, ha, hk⟩
    · rcases h.of_fails hs hk with rfl | rfl
      · exact .inl rfl
      · exact .inr rfl
    · by_cases hfa : fits a
      · obtain ⟨-, rfl⟩ := h.of_fits ha hfa
        exact (hf a ha).of_fails hfa hk
      · rw [h.of_exceeds hs ha hfa]
        exact .inr rfl

theorem Limits.map {gits : β → Prop} (h : Limits start fits r r') (g : α → β)
    (hg : ∀ a, r' = .ok a → (fits a ↔ gits (g a))) : Limits start gits (r.map g) (r'.map g) := by
  have hbind : Limits start gits (r >>= fun a => .ok (g a)) (r' >>= fun a => .ok (g a)) :=
    h.bind fun a ha => (Limits.pure (fits := gits) (g a)).congr (hg a ha).symm fun _ _ => Iff.rfl
  cases r <;> cases r' <;> exact hbind

/-- What an operation does that does not report CapacityExceeded is what it does without capacities. -/
theorem Limits.eq_of_ne (h : Limits True fits r r') (hne : r ≠ .error .capacityExceeded) : r = r' := by
  cases hr : r' with
  | error k => exact (h.of_fails trivial hr).resolve_right hne
  | ok a =>
    by_cases hfa : fits a
    · exact (h.of_fits hr hfa).2
    · exact absurd (h.of_exceeds trivial hr hfa) hne

end

/-! ### The checks -/

/-- A check against a capacity adds its condition. -/
theorem checkCap_limits (cap : Option Nat) (n : Nat) {start : Prop} :
    Limits start (fun _ => start ∧ withinCap cap n = true) (checkCap cap n) (checkCap none n) where
  of_fits := by
    rintro a ha ⟨hs, hn⟩
    exact ⟨hs, (if_pos hn).trans ha⟩
  of_exceeds hs _ hne := if_neg fun hn => hne ⟨hs, hn⟩
  of_fails _ hk := by cases hk

/-- A check of a number that has risen takes the place of the condition on it. -/
theorem checkCap_limits_mono (cap : Option Nat) {m n : Nat} (h : m ≤ n) :
    Limits (withinCap cap m = true) (fun _ => withinCap cap n = true) (checkCap cap n) (checkCap none n) :=
  (checkCap_limits cap n).congr Iff.rfl fun _ _ => and_iff_right_of_imp (withinCap_mono h)

theorem Buffer.append_limits (cap : Option Nat) (b : Buffer α) (v : α) :
    Limits (withinCap cap b.len = true) (fun b' => withinCap cap b'.len = true) (b.append cap v) (b.append none v) where
  of_fits ha hn := by
    cases ha
    exact ⟨withinCap_mono (Nat.le_succ b.len) hn, if_pos hn⟩
  of_exceeds _ ha hne := by
    cases ha
    exact if_neg hne
  of_fails _ hk := by cases hk

theorem Buffer.appendAll_limits (cap : Option Nat) (b : Buffer α) (vs : List α) :
    Limits (withinCap cap b.len = true) (fun b' => withinCap cap b'.len = true) (b.appendAll cap vs)
      (b.appendAll none vs) := by
  induction vs generalizing b with
  | nil => exact Limits.pure (fits := fun b' => withinCap cap b'.len = true) b
  | cons v vs ih =>
    have hbind : ∀ cap, b.appendAll cap (v :: vs) = b.append cap v >>= fun b' => b'.appendAll cap vs := fun cap => by
      rw [Buffer.appendAll]
      cases b.append cap v <;> rfl
    rw [hbind, hbind]
    exact (Buffer.append_limits cap b v).bind fun b' _ => ih b'

theorem Table.put_limits {κ ν : Type} (key : κ → Nat) (cap : Option Nat) (k : κ) (v : ν) (m : List (κ × ν))
    {start : Prop} :
    Limits start (fun _ => start ∧ ((Table.lookup key k m).isSome = true ∨ withinCap cap (m.length + 1) = true))
      (Table.put key cap k v m) (Table.put key none k v m) where
  of_fits := by
    rintro a ha ⟨hs, hroom⟩
    have hwide : Table.put key none k v m = .ok (Table.insert key k v m) := if_pos (Bool.or_true _)
    exact ⟨hs, (if_pos (by simpa using hroom)).trans (hwide.symm.trans ha)⟩
  of_exceeds hs _ hne := if_neg fun hroom => hne ⟨hs, by simpa using hroom⟩
  of_fails _ hk := by
    have hwide : Table.put key none k v m = .ok (Table.insert key k v m) := if_pos (Bool.or_true _)
    cases hwide.symm.trans hk

/-- In a table in canonical form an insertion fits when the table does afterwards. -/
theorem Table.put_limits_length {κ ν : Type} {key : κ → Nat} (cap : Option Nat) (k : κ) (v : ν) {m : List (κ × ν)}
    (hwf : Table.wf key m = true) :
    Limits (withinCap cap m.length = true) (fun m' => withinCap cap m'.length = true) (Table.put key cap k v m)
      (Table.put key none k v m) := by
  refine (Table.put_limits key cap k v m).congr Iff.rfl fun m' hm' => ?_
  obtain rfl : m' = Table.insert key k v m := by
    rcases Table.put_cases hm' with ⟨h, -⟩ | ⟨h, -⟩ <;> cases h
    rfl
  rw [Table.length_insert k v m hwf]
  split
  · rename_i hsome
    exact and_iff_left (.inl hsome)
  · rename_i hnone
    refine ⟨fun ⟨_, h⟩ => h.resolve_left hnone, fun h => ⟨withinCap_mono (Nat.le_succ _) h, .inr h⟩⟩

end Sys2Proof.Machine
end

section
/-! The units' loops and walks under capacities (60_exceptions.md R256): each gives its result where that fits the
capacities, and CapacityExceeded where it does not. -/

namespace Sys2Proof.Machine

/-! ### ANALYZE (40_frequency_analyzer.md R130) -/

theorem countSymbol_limits (cfg : Config) (x : Symbol) {m : List (Symbol × Count)} (hwf : Table.wf symKey m = true) :
    Limits (withinCap cfg.nMax m.length = true) (fun m' => withinCap cfg.nMax m'.length = true)
      (countSymbol cfg x m) (countSymbol cfg.widened x m) :=
  (Limits.refl (checkCount cfg ((Table.lookup symKey x m).getD 0 + 1))).bind fun c _ =>
    Table.put_limits_length cfg.nMax x c hwf

/-- SYMS and FREQ are within capacity. -/
def AnalyzeRegs.Fits (cfg : Config) (r : AnalyzeRegs) : Prop :=
  withinCap cfg.symsCap r.syms.len = true ∧ withinCap cfg.nMax r.freq.length = true

theorem analyzeLoop_limits (cfg : Config) (turns : Nat) (bytes : List Byte) {r : AnalyzeRegs}
    (hwf : Table.wf symKey r.freq = true) :
    Limits (r.Fits cfg) (AnalyzeRegs.Fits cfg) (analyzeLoop cfg turns bytes r)
      (analyzeLoop cfg.widened turns bytes r) := by
  induction turns generalizing bytes r with
  | zero => exact Limits.pure r
  | succ turns ih =>
    simp only [analyzeLoop]
    cases utf8Decode bytes with
    | ended => exact Limits.pure r
    | truncated => exact Limits.error _
    | invalid => exact Limits.error _
    | ok x w =>
      refine ((Buffer.append_limits cfg.symsCap r.syms x).frame _).bind fun syms _ => ?_
      refine ((countSymbol_limits cfg x hwf).frame_left _).bind fun freq hfreq => ?_
      exact ih (r := ⟨syms, freq, r.cursor + w⟩) _ (countSymbol_ok hfreq ▸ Table.wf_insert x _ hwf)

theorem analyzeText_limits (cfg : Config) (bytes : List Byte) :
    Limits True (AnalyzeRegs.Fits cfg) (analyzeText cfg bytes) (analyzeText cfg.widened bytes) :=
  (analyzeLoop_limits cfg _ _ rfl).begun ⟨withinCap_zero _, withinCap_zero _⟩

/-! ### ENCODE (45_bit_encoder.md R190) -/

/-- PAY and TOTAL_BITS are within capacity. -/
def EncodeRegs.Fits (cfg : Config) (r : EncodeRegs) : Prop :=
  withinCap cfg.payCap r.pay.len = true ∧ withinCap cfg.bitsMax r.totalBits = true

theorem packBit_limits (cfg : Config) (r : EncodeRegs) (b : Bool) :
    Limits (r.Fits cfg) (EncodeRegs.Fits cfg) (packBit cfg r b) (packBit cfg.widened r b) := by
  refine ((checkCap_limits_mono cfg.bitsMax (Nat.le_succ r.totalBits)).frame_left _).bind fun total htotal => ?_
  obtain ⟨rfl, -⟩ := checkCap_ok htotal
  split
  · exact ((Buffer.append_limits cfg.payCap r.pay _).frame _).bind fun pay _ =>
      Limits.pure (fits := EncodeRegs.Fits cfg) ⟨pay, 0, 0, r.totalBits + 1⟩
  · exact Limits.pure (fits := EncodeRegs.Fits cfg) ⟨r.pay, _, r.nbits + 1, r.totalBits + 1⟩

theorem packBits_limits (cfg : Config) (r : EncodeRegs) (bs : Bits) :
    Limits (r.Fits cfg) (EncodeRegs.Fits cfg) (packBits cfg r bs) (packBits cfg.widened r bs) := by
  induction bs generalizing r with
  | nil => exact Limits.pure r
  | cons b bs ih => exact (packBit_limits cfg r b).bind fun r1 _ => ih r1

theorem encodeLoop_limits (cfg : Config) (ptab : List (Symbol × Bits)) (r : EncodeRegs) (l : List Symbol) :
    Limits (r.Fits cfg) (EncodeRegs.Fits cfg) (encodeLoop cfg ptab r l) (encodeLoop cfg.widened ptab r l) := by
  induction l generalizing r with
  | nil => exact Limits.pure r
  | cons x rest ih =>
    simp only [encodeLoop]
    cases Table.lookup symKey x ptab with
    | none => exact Limits.error _
    | some code => exact (packBits_limits cfg r code).bind fun r1 _ => ih r1

theorem flushLast_limits (cfg : Config) (r : EncodeRegs) :
    Limits (r.Fits cfg) (EncodeRegs.Fits cfg) (flushLast cfg r) (flushLast cfg.widened r) := by
  unfold flushLast
  split
  · exact Limits.pure r
  · exact ((Buffer.append_limits cfg.payCap r.pay _).frame _).bind fun pay _ =>
      Limits.pure (fits := EncodeRegs.Fits cfg) ⟨pay, r.acc, r.nbits, r.totalBits⟩

theorem encodeSyms_limits (cfg : Config) (ptab : List (Symbol × Bits)) (l : List Symbol) :
    Limits True (EncodeRegs.Fits cfg) (encodeSyms cfg ptab l) (encodeSyms cfg.widened ptab l) :=
  ((encodeLoop_limits cfg ptab _ l).bind fun r _ => flushLast_limits cfg r).begun ⟨withinCap_zero _, withinCap_zero _⟩

/-! ### DECODE (46_bit_decoder.md R202) -/

/-- SYMS is within capacity. -/
def DecodeRegs.Fits (cfg : Config) (r : DecodeRegs) : Prop := withinCap cfg.symsCap r.syms.len = true

theorem decodeLoop_limits (cfg : Config) (lut : List (Bits × Symbol)) (bits : Bits) (r : DecodeRegs) :
    Limits (r.Fits cfg) (DecodeRegs.Fits cfg) (decodeLoop cfg lut bits r) (decodeLoop cfg.widened lut bits r) := by
  induction bits generalizing r with
  | nil => exact Limits.pure r
  | cons b bs ih =>
    simp only [decodeLoop]
    cases Table.lookup bitsKey (r.cand ++ [b]) lut with
    | none => exact ih ⟨r.syms, r.cand ++ [b], r.bitpos + 1⟩
    | some x => exact (Buffer.append_limits cfg.symsCap r.syms x).bind fun syms _ => ih ⟨syms, [], r.bitpos + 1⟩

theorem endTest_limits (cfg : Config) (r : DecodeRegs) :
    Limits (r.Fits cfg) (DecodeRegs.Fits cfg) (endTest r) (endTest r) := by
  unfold endTest
  split
  · exact Limits.pure r
  · exact Limits.error _

theorem decodeBits_limits (cfg : Config) (lut : List (Bits × Symbol)) (bits : Bits) :
    Limits True (DecodeRegs.Fits cfg) (decodeBits cfg lut bits) (decodeBits cfg.widened lut bits) :=
  ((decodeLoop_limits cfg lut bits _).bind fun r _ => endTest_limits cfg r).begun (withinCap_zero _)

/-! ### BUILD's tree (41_tree_builder.md R140) looks at no capacity -/

theorem mergeLoop_widened (cfg : Config) (turns : Nat) (q : List PQEntry) (seq : Nat) :
    mergeLoop cfg.widened turns q seq = mergeLoop cfg turns q seq := by
  induction turns generalizing q seq with
  | zero => rfl
  | succ turns ih =>
    match q with
    | [] => rfl
    | [_] => rfl
    | a :: b :: rest => exact congrArg (checkCount cfg (a.cnt + b.cnt) >>= ·) (funext fun c => ih _ _)

theorem buildTree_widened (cfg : Config) (freq : List (Symbol × Count)) :
    buildTree cfg.widened freq = buildTree cfg freq := by
  simp only [buildTree, mergeLoop_widened]

/-! ### How deep a tree goes -/

/-- Every leaf of a tree that hangs at `depth` is within a capacity. -/
def Node.PathsFit (cap : Option Nat) (depth : Nat) (n : Node) : Prop :=
  ∀ p ∈ n.paths, withinCap cap (depth + p.1.length) = true

theorem Node.pathsFit_leaf {cap : Option Nat} {depth : Nat} {x : Symbol} {c : Count} :
    (Node.leaf x c).PathsFit cap depth ↔ withinCap cap depth = true := by
  simp [Node.PathsFit, Node.paths]

theorem Node.pathsFit_internal {cap : Option Nat} {depth : Nat} {c : Count} {l r : Node} :
    (Node.internal c l r).PathsFit cap depth ↔ l.PathsFit cap (depth + 1) ∧ r.PathsFit cap (depth + 1) := by
  simp only [Node.PathsFit, Node.paths, List.forall_mem_append, List.forall_mem_map, List.length_cons,
    Nat.add_right_comm, ← Nat.add_assoc]

/-- A tree with a leaf within a capacity hangs within it. -/
theorem Node.PathsFit.start {cap : Option Nat} {depth : Nat} {n : Node} (h : n.PathsFit cap depth) :
    withinCap cap depth = true := by
  obtain ⟨p, hp, -⟩ := n.exists_path_of_sequence fun _ => false
  exact withinCap_mono (Nat.le_add_right depth _) (h p hp)

/-! ### SERIALIZE (43_tree_serializer.md R171) -/

theorem serNode_limits (cfg : Config) (n : Node) (depth : Nat) (b : Buffer Byte) :
    Limits (withinCap cfg.tbufCap b.len = true ∧ withinCap cfg.stackMax depth = true)
      (fun b' => withinCap cfg.tbufCap b'.len = true ∧ n.PathsFit cfg.stackMax depth)
      (serNode cfg depth n b) (serNode cfg.widened depth n b) := by
  induction n generalizing depth b with
  | leaf x c =>
    exact ((Buffer.appendAll_limits cfg.tbufCap b _).frame _).congr Iff.rfl fun _ _ =>
      and_congr_right' Node.pathsFit_leaf.symm
  | internal c l r ihl ihr =>
    refine ((Buffer.append_limits cfg.tbufCap b 0x00).frame _).bind fun b0 _ => ?_
    refine ((checkCap_limits_mono cfg.stackMax (Nat.le_succ depth)).frame_left _).bind fun _ _ => ?_
    refine (ihl (depth + 1) b0).bind fun b1 _ => ?_
    refine ((ihr (depth + 1) b1).frame (l.PathsFit cfg.stackMax (depth + 1))).congr ?_ fun b2 _ => ?_
    · exact ⟨fun ⟨⟨hb, _⟩, hl⟩ => ⟨hb, hl⟩, fun ⟨hb, hl⟩ => ⟨⟨hb, hl.start⟩, hl⟩⟩
    · rw [Node.pathsFit_internal, and_assoc, and_comm (a := r.PathsFit _ _)]

/-! ### DESERIALIZE (44_tree_deserializer.md R181 to R184) -/

theorem desNode_limits (cfg : Config) (turns depth : Nat) (r : DesRegs) :
    Limits (withinCap cfg.nMax r.leaves = true ∧ withinCap cfg.stackMax depth = true)
      (fun q => withinCap cfg.nMax q.2.leaves = true ∧ q.1.PathsFit cfg.stackMax depth)
      (desNode cfg turns depth r) (desNode cfg.widened turns depth r) := by
  induction turns generalizing depth r with
  | zero => exact Limits.error _
  | succ turns ih =>
    rw [desNode_succ, desNode_succ, show tokenAt cfg.widened = tokenAt cfg from rfl]
    cases htoken : tokenAt cfg .treeToken r.rest with
    | error k => exact Limits.error k
    | ok i =>
      obtain ⟨rest, hd⟩ := tokenAt_ok htoken
      obtain ⟨-, rfl | ⟨m, -, rfl⟩ | ⟨x, rfl, -⟩⟩ := decodeTreeToken_ok hd
      · rw [desToken_internal, desToken_internal]
        refine ((checkCap_limits_mono cfg.stackMax (Nat.le_succ depth)).frame_left _).bind fun _ _ => ?_
        refine (ih (depth + 1) ⟨r.cursor + 1, r.rest.drop 1, r.leaves⟩).bind fun p _ => ?_
        refine (((ih (depth + 1) p.2).frame (p.1.PathsFit cfg.stackMax (depth + 1))).map _ fun q _ => ?_).congr ?_
          fun _ _ => Iff.rfl
        · rw [Node.pathsFit_internal, and_assoc, and_comm (a := q.1.PathsFit _ _)]
        · exact ⟨fun ⟨⟨hn, _⟩, hl⟩ => ⟨hn, hl⟩, fun ⟨hn, hl⟩ => ⟨⟨hn, hl.start⟩, hl⟩⟩
      · exact Limits.error _
      · rw [desToken_leaf, desToken_leaf]
        refine ((checkCap_limits_mono cfg.nMax (Nat.le_succ r.leaves)).frame _).map _ fun n hn => ?_
        obtain ⟨rfl, -⟩ := checkCap_ok hn
        exact and_congr_right' Node.pathsFit_leaf.symm

theorem deserializeBytes_limits (cfg : Config) (bytes : List Byte) :
    Limits True (fun q => withinCap cfg.nMax q.1.leafCount = true ∧ q.1.PathsFit cfg.stackMax 0)
      (deserializeBytes cfg bytes) (deserializeBytes cfg.widened bytes) := by
  refine ((desNode_limits cfg _ 0 ⟨0, bytes, 0⟩).begun ⟨withinCap_zero _, withinCap_zero _⟩).congr Iff.rfl
    fun q hq => ?_
  obtain ⟨-, hleaves, -⟩ := desNode_typed hq
  rw [hleaves, Nat.zero_add]

/-! ### DERIVE (42_code_derive.md R161) -/

/-- The tables that hold the given entries, put one after the other. -/
def tablesOf (ps : List (Bits × Symbol)) : CodeTables := ps.foldl CodeTables.insert ⟨[], []⟩

theorem tablesOf_append (ps qs : List (Bits × Symbol)) :
    tablesOf (ps ++ qs) = qs.foldl CodeTables.insert (tablesOf ps) := List.foldl_append ..

section
variable {ps : List (Bits × Symbol)}

theorem tablesOf_ptab_length_le : (tablesOf ps).ptab.length ≤ ps.length := by
  induction ps using List.reverseRecOn with
  | nil => exact Nat.le_refl 0
  | append_singleton ps p ih =>
    rw [tablesOf_append, List.length_append]
    exact (Table.length_insert_le _ _ _).trans (Nat.succ_le_succ ih)

theorem tablesOf_lut_perm (h : (ps.map Prod.fst).Nodup) : (tablesOf ps).lut.Perm ps := by
  rw [tablesOf, foldl_insert_lut]
  exact Table.ofEntries_perm_entries bitsKey_eq_iff h

theorem lookup_tablesOf_lut_fresh {code : Bits} (h : (ps.map Prod.fst).Nodup) (hcode : code ∉ ps.map Prod.fst) :
    Table.lookup bitsKey code (tablesOf ps).lut = none := by
  refine Option.eq_none_iff_forall_ne_some.2 fun x hx => ?_
  rw [tablesOf, foldl_insert_lut, lookup_foldl_insert bitsKey_eq_iff ps [] h] at hx
  rcases hx with hmem | ⟨-, hx⟩
  · exact hcode (List.mem_map_of_mem hmem)
  · cases hx

end

/-- A new code fits when its length does and LUT has room for it: PTAB is never the longer table. -/
theorem putCode_limits (cfg : Config) (x : Symbol) (code : Bits) {ps : List (Bits × Symbol)}
    (h : ((ps ++ [(code, x)]).map Prod.fst).Nodup) :
    Limits (withinCap cfg.nMax ps.length = true)
      (fun _ => withinCap cfg.nMax (ps.length + 1) = true ∧ withinCap cfg.codeMax code.length = true)
      (putCode cfg x code (tablesOf ps)) (putCode cfg.widened x code (tablesOf ps)) := by
  rw [List.map_append, List.map_singleton, List.nodup_append] at h
  obtain ⟨hps, -, hnew⟩ := h
  have hfresh := lookup_tablesOf_lut_fresh hps fun hmem => hnew _ hmem _ (List.mem_singleton_self _) rfl
  refine Limits.congr ((checkCap_limits cfg.codeMax code.length).bind fun _ _ =>
    (Table.put_limits symKey cfg.nMax x code (tablesOf ps).ptab).bind fun ptab _ =>
      (Table.put_limits bitsKey cfg.nMax code x (tablesOf ps).lut).bind fun lut _ =>
        Limits.refl (.ok (CodeTables.mk ptab lut))) Iff.rfl fun _ _ => ?_
  rw [hfresh, (tablesOf_lut_perm hps).length_eq]
  constructor
  · rintro ⟨⟨⟨hstart, hcode⟩, -⟩, hsome | hroom⟩
    · cases hsome
    · exact ⟨hroom, hcode⟩
  · rintro ⟨hroom, hcode⟩
    exact ⟨⟨⟨withinCap_mono (Nat.le_succ _) hroom, hcode⟩,
      .inr (withinCap_mono (Nat.succ_le_succ tablesOf_ptab_length_le) hroom)⟩, .inr hroom⟩

/-- The paths of a tree that hangs below `code`. -/
def Node.pathsBelow (code : Bits) (n : Node) : List (Bits × Symbol) := n.paths.map fun p => (code ++ p.1, p.2)

theorem Node.pathsBelow_length (code : Bits) (n : Node) : (n.pathsBelow code).length = n.paths.length :=
  List.length_map _

theorem walkCodes_limits (cfg : Config) (n : Node) (code : Bits) {ps : List (Bits × Symbol)}
    (h : ((ps ++ n.pathsBelow code).map Prod.fst).Nodup) :
    Limits (withinCap cfg.nMax ps.length = true ∧ withinCap cfg.stackMax code.length = true)
      (fun _ => withinCap cfg.nMax (ps.length + n.paths.length) = true ∧ n.PathsFit cfg.stackMax code.length
        ∧ n.PathsFit cfg.codeMax code.length)
      (walkCodes cfg n code (tablesOf ps)) (walkCodes cfg.widened n code (tablesOf ps)) := by
  induction n generalizing code ps with
  | leaf x c =>
    have hput : ((ps ++ [(code, x)]).map Prod.fst).Nodup := by simpa [Node.pathsBelow, Node.paths] using h
    refine ((putCode_limits cfg x code hput).frame _).congr Iff.rfl fun _ _ => ?_
    rw [Node.pathsFit_leaf, Node.pathsFit_leaf, and_assoc, and_comm (b := withinCap cfg.stackMax _ = true)]
    rfl
  | internal c l r ihl ihr =>
    have hbelow : (Node.internal c l r).pathsBelow code
        = l.pathsBelow (code ++ [false]) ++ r.pathsBelow (code ++ [true]) :=
      Node.paths_internal_below code c l r
    have hpaths : (Node.internal c l r).paths.length = l.paths.length + r.paths.length := by simp [Node.paths]
    rw [hbelow, ← List.append_assoc] at h
    have hleft := ihl (code ++ [false]) (h.sublist (List.sublist_append_left _ _ |>.map _))
    have hright := ihr (code ++ [true]) h
    simp only [List.length_append, List.length_singleton, Node.pathsBelow_length] at hleft hright
    refine ((checkCap_limits_mono cfg.stackMax (Nat.le_succ code.length)).frame_left _).bind fun _ _ => ?_
    refine hleft.bind fun t1 ht1 => ?_
    obtain rfl : t1 = tablesOf (ps ++ l.pathsBelow (code ++ [false])) :=
      (walkCodes_ok ht1).trans (tablesOf_append _ _).symm
    refine (hright.frame (l.PathsFit cfg.stackMax (code.length + 1)
      ∧ l.PathsFit cfg.codeMax (code.length + 1))).congr ?_ fun _ _ => ?_
    · exact ⟨fun ⟨⟨hn, _⟩, hl⟩ => ⟨hn, hl⟩, fun ⟨hn, hl⟩ => ⟨⟨hn, hl.1.start⟩, hl⟩⟩
    · rw [Node.pathsFit_internal, Node.pathsFit_internal, hpaths, Nat.add_assoc]
      tauto

theorem deriveTables_limits (cfg : Config) (root : Node) :
    Limits True (fun _ => withinCap cfg.nMax root.paths.length = true ∧ root.PathsFit cfg.stackMax 0
        ∧ root.PathsFit cfg.codeMax 0) (deriveTables cfg root) (deriveTables cfg.widened root) := by
  have hnodup : (([] ++ root.pathsBelow []).map Prod.fst).Nodup := by simpa [Node.pathsBelow] using root.paths_nodup
  refine ((walkCodes_limits cfg root [] hnodup).begun ⟨withinCap_zero _, withinCap_zero _⟩).congr Iff.rfl fun _ _ => ?_
  rw [List.length_nil, Nat.zero_add]
  rfl

end Sys2Proof.Machine
end

section
/-! The commands under capacities (60_exceptions.md R256): each unit's whole result against `Fits`, and what every
command does that does not report CapacityExceeded. -/

namespace Sys2Proof.Machine

/-! ### Operations on the state -/

/-- The same state of the machine with every capacity unbounded. -/
def State.widen (s : State) : State := { s with cfg := s.cfg.widened }

section
variable {α : Type} {start : Prop} {fits : α → Prop} {gits : State → Prop} {x x' : Except ErrKind α}

theorem Limits.of_eq (h : x = x') : Limits start (fun _ => start) x x' := h ▸ Limits.refl x

/-- A part of a unit's operation, and the rest of it. -/
theorem Limits.bind_state {f f' : α → Except ErrKind State} (h : Limits start fits x x')
    (hf : ∀ a, x' = .ok a → Limits (fits a) gits ((f a).map State.widen) (f' a)) :
    Limits start gits ((x >>= f).map State.widen) (x' >>= f') := by
  have hbind := h.bind (f := fun a => (f a).map State.widen) hf
  cases x <;> exact hbind

/-- The last part of a unit's operation, and what the unit then writes. -/
theorem Limits.write {f f' : α → State} (h : Limits start fits x x') (hf : ∀ a, (f a).widen = f' a)
    (hg : ∀ a, x' = .ok a → (fits a ↔ gits (f' a))) :
    Limits start gits ((x >>= fun a => .ok (f a)).map State.widen) (x' >>= fun a => .ok (f' a)) :=
  h.bind_state fun a ha => hf a ▸ (Limits.pure (fits := gits) (f' a)).congr (hg a ha).symm fun _ _ => Iff.rfl

end

/-! ### The units -/

/-- The lookup of a tree is within capacity when its leaves are, their number and the lengths of their paths. -/
theorem fits_tables_iff {cfg : Config} {root : Node} {t : State} (ht : t.lut = (treeTables root).lut) :
    Fits cfg .derive t ↔ withinCap cfg.nMax root.paths.length = true ∧ root.PathsFit cfg.stackMax 0
      ∧ root.PathsFit cfg.codeMax 0 := by
  have hperm : t.lut.Perm root.paths := ht ▸ tablesOf_lut_perm root.paths_nodup
  simp only [Fits, Node.PathsFit, Nat.zero_add, hperm.length_eq, hperm.mem_iff, forall_and]
  tauto

theorem deriveTables_fits {cfg : Config} {root : Node} {c : CodeTables} (hc : deriveTables cfg.widened root = .ok c)
    {t : State} (ht : t.lut = c.lut) :
    (withinCap cfg.nMax root.paths.length = true ∧ root.PathsFit cfg.stackMax 0 ∧ root.PathsFit cfg.codeMax 0)
      ↔ Fits cfg .derive t :=
  (fits_tables_iff (ht.trans (congrArg CodeTables.lut (deriveTables_eq_treeTables hc)))).symm

section
variable (s : State)

theorem analyzeBody_limits :
    Limits True (Fits s.cfg .analyze) ((analyzeBody s).map State.widen) (analyzeBody s.widen) :=
  (analyzeText_limits s.cfg s.src.elems).write (fun _ => rfl) fun _ _ => Iff.rfl

theorem buildBody_limits : Limits True (Fits s.cfg .build) ((buildBody s).map State.widen) (buildBody s.widen) :=
  (Limits.of_eq (buildTree_widened s.cfg s.freq).symm).bind_state fun b _ =>
    (deriveTables_limits s.cfg b.root).write (fun _ => rfl) fun _ hc => deriveTables_fits hc rfl

theorem deriveBody_limits : Limits True (Fits s.cfg .derive) ((deriveBody s).map State.widen) (deriveBody s.widen) := by
  simp only [deriveBody, State.widen]
  cases s.tree with
  | none => exact Limits.error _
  | some root => exact (deriveTables_limits s.cfg root).write (fun _ => rfl) fun _ hc => deriveTables_fits hc rfl

theorem serializeBody_limits :
    Limits True (Fits s.cfg .serialize) ((serializeBody s).map State.widen) (serializeBody s.widen) := by
  cases htree : s.tree with
  | none =>
    rw [serializeBody_nullNode htree, serializeBody_nullNode (s := s.widen) htree]
    exact Limits.error _
  | some root =>
    simp only [serializeBody, State.widen, htree]
    refine ((serNode_limits s.cfg root 0 Buffer.empty).begun ⟨withinCap_zero _, withinCap_zero _⟩).write (fun _ => rfl)
      fun _ _ => ?_
    simp only [Fits, Node.PathsFit, Nat.zero_add, Option.some.injEq, forall_eq']

theorem deserializeBody_limits :
    Limits True (Fits s.cfg .deserialize) ((deserializeBody s).map State.widen) (deserializeBody s.widen) := by
  refine (deserializeBytes_limits s.cfg s.tbuf.elems).write
    (f := fun q => { s with tree := some q.1, cursor := q.2.cursor, stack := [], leaves := q.2.leaves })
    (fun _ => rfl) fun _ _ => ?_
  simp only [Fits, State.widen, Node.PathsFit, Nat.zero_add, Option.some.injEq, forall_eq']

theorem encodeBody_limits : Limits True (Fits s.cfg .encode) ((encodeBody s).map State.widen) (encodeBody s.widen) :=
  (encodeSyms_limits s.cfg s.ptab s.syms.elems).write (fun _ => rfl) fun _ _ => Iff.rfl

theorem decodeBody_limits : Limits True (Fits s.cfg .decode) ((decodeBody s).map State.widen) (decodeBody s.widen) := by
  by_cases hlen : s.pay.len = 0
  · rw [decodeBody_noPayload hlen, decodeBody_noPayload (s := s.widen) hlen]
    exact (Limits.pure (fits := Fits s.cfg .decode) { s.widen with syms := Buffer.empty }).begun (withinCap_zero _)
  · cases hv : validBitsOk s.validBits.toNat with
    | false =>
      rw [decodeBody_badValidBits hlen hv, decodeBody_badValidBits (s := s.widen) hlen hv]
      exact Limits.error _
    | true =>
      simp only [decodeBody, State.widen, if_neg hlen, hv]
      exact (decodeBits_limits s.cfg s.lut (walkedBits s.pay.elems s.validBits)).write (fun _ => rfl) fun _ _ => Iff.rfl

/-- A buffer written from length 0. -/
theorem Buffer.write_limits {α : Type} (cap : Option Nat) (vs : List α) :
    Limits True (fun b => withinCap cap b.len = true) (Buffer.empty.appendAll cap vs)
      (Buffer.empty.appendAll none vs) :=
  (Buffer.appendAll_limits cap Buffer.empty vs).begun (withinCap_zero cap)

theorem assembleBody_limits :
    Limits True (Fits s.cfg .assemble) ((assembleBody s).map State.widen) (assembleBody s.widen) := by
  cases hv : validBitsOk s.validBits.toNat with
  | false =>
    simp only [assembleBody, State.widen, hv]
    exact Limits.error _
  | true =>
    simp only [assembleBody, State.widen, hv]
    exact (Buffer.write_limits s.cfg.dstCap _).write (fun _ => rfl) fun _ _ => Iff.rfl

theorem parseBody_limits : Limits True (Fits s.cfg .parse) ((parseBody s).map State.widen) (parseBody s.widen) := by
  refine (Limits.of_eq (x := parseFields s.cfg s.src.elems) rfl).bind_state fun f _ => ?_
  refine (Buffer.write_limits s.cfg.tbufCap _).bind_state fun tb _ => ?_
  refine (Limits.congr ((Buffer.write_limits s.cfg.payCap _).frame_left (withinCap s.cfg.tbufCap tb.len = true)) ?_
    fun _ _ => Iff.rfl).write (fun _ => rfl) fun _ _ => Iff.rfl
  rw [and_true]

theorem emitBody_limits : Limits True (Fits s.cfg .emit) ((emitBody s).map State.widen) (emitBody s.widen) :=
  (Buffer.write_limits s.cfg.dstCap _).write (fun _ => rfl) fun _ _ => Iff.rfl

end

/-- Every command but the composite ones ends in success exactly when what it leaves fits. -/
theorem commandBody_limits {i : Instr} (hi : i.site = .command) (hc : i ≠ .compress) (hd : i ≠ .decompress)
    (s : State) : Limits True (Fits s.cfg i) ((commandBody i s).map State.widen) (commandBody i s.widen) := by
  cases i with
  | analyze => exact analyzeBody_limits s
  | build => exact buildBody_limits s
  | derive => exact deriveBody_limits s
  | serialize => exact serializeBody_limits s
  | deserialize => exact deserializeBody_limits s
  | encode => exact encodeBody_limits s
  | decode => exact decodeBody_limits s
  | assemble => exact assembleBody_limits s
  | parse => exact parseBody_limits s
  | emit => exact emitBody_limits s
  | clear => exact (Limits.pure (fits := Fits s.cfg .clear) _).begun trivial
  | compress => exact absurd rfl hc
  | decompress => exact absurd rfl hd
  | illegal code => exact Limits.error _
  | _ => cases hi

/-! ### Every command -/

/-- An operation that does not report CapacityExceeded does what it does without capacities. -/
def AgreesWidened (f : State → Except ErrKind State) : Prop :=
  ∀ s, f s ≠ .error .capacityExceeded → f s.widen = (f s).map State.widen

theorem AgreesWidened.of_limits {f : State → Except ErrKind State} {fits : State → State → Prop}
    (h : ∀ s, Limits True (fits s) ((f s).map State.widen) (f s.widen)) : AgreesWidened f := by
  intro s hne
  refine ((h s).eq_of_ne fun herr => ?_).symm
  cases hf : f s with
  | error k => rw [hf] at herr hne; exact hne herr
  | ok t => rw [hf] at herr; cases herr

theorem AgreesWidened.bind {f g : State → Except ErrKind State} (hf : AgreesWidened f) (hg : AgreesWidened g) :
    AgreesWidened fun s => f s >>= g := by
  intro s (hne : f s >>= g ≠ _)
  have hfs := hf s
  change f s.widen >>= g = (f s >>= g).map State.widen
  cases h : f s with
  | error k =>
    rw [h] at hne hfs
    rw [hfs hne]
    rfl
  | ok t =>
    rw [h] at hne hfs
    rw [hfs (by simp)]
    exact hg t hne

theorem unit_agrees {i : Instr} (hi : i.site = .command) (hc : i ≠ .compress) (hd : i ≠ .decompress) :
    AgreesWidened (commandBody i) := .of_limits (commandBody_limits hi hc hd)

theorem phaseBody_agrees (p : Phase) : AgreesWidened (phaseBody p) := by
  cases p with
  | pIdle => exact fun _ _ => rfl
  | cAnalyze => exact unit_agrees (i := .analyze) rfl (by decide) (by decide)
  | cBuild => exact unit_agrees (i := .build) rfl (by decide) (by decide)
  | cSerialize => exact unit_agrees (i := .serialize) rfl (by decide) (by decide)
  | cEncode => exact unit_agrees (i := .encode) rfl (by decide) (by decide)
  | cAssemble => exact unit_agrees (i := .assemble) rfl (by decide) (by decide)
  | dParse => exact unit_agrees (i := .parse) rfl (by decide) (by decide)
  | dDeserialize => exact unit_agrees (i := .deserialize) rfl (by decide) (by decide)
  | dDerive => exact unit_agrees (i := .derive) rfl (by decide) (by decide)
  | dDecode => exact unit_agrees (i := .decode) rfl (by decide) (by decide)
  | dEmit => exact unit_agrees (i := .emit) rfl (by decide) (by decide)

theorem advance_agrees : AgreesWidened advance := fun s =>
  (phaseBody_agrees s.phase).bind (g := fun t => .ok { t with phase := s.phase.next }) (fun _ _ => rfl) s

theorem runPhases_agrees (n : Nat) : AgreesWidened (runPhases n) := by
  induction n with
  | zero => exact fun _ _ => rfl
  | succ n ih =>
    intro s hne
    by_cases hp : s.phase = .pIdle
    · rw [runPhases_of_idle hp, runPhases_of_idle (s := s.widen) hp]
      rfl
    · rw [runPhases_succ hp] at hne ⊢
      rw [runPhases_succ (s := s.widen) hp]
      exact advance_agrees.bind ih s hne

theorem compositeBody_agrees (p : Phase) : AgreesWidened (compositeBody p) := fun s =>
  (runPhases_agrees 5).bind (g := fun t => .ok (endComposite t)) (fun _ _ => rfl) (beginComposite p s)

theorem commandBody_agrees {i : Instr} (hi : i.site = .command) : AgreesWidened (commandBody i) := by
  rcases commandBody_cases hi with ⟨p, h⟩ | ⟨p, h⟩ | h | h
  · exact funext h ▸ phaseBody_agrees p
  · exact funext h ▸ compositeBody_agrees p
  · exact funext h ▸ fun _ _ => rfl
  · exact funext h ▸ fun _ _ => rfl

end Sys2Proof.Machine
end

section
/-! CapacityExceeded is reported exactly past a capacity, or past CNT_MAX (00_scope.md R7, 60_exceptions.md R256;
O22). -/

namespace Sys2Proof.Machine

theorem ErrKind.code_eq_capacityExceeded (k : ErrKind) : k.code = 0x80 ↔ k = .capacityExceeded := by
  cases k <;> decide

/-- ERR holds the code of CapacityExceeded when the command's operation has raised it. -/
theorem exec_err_ne_iff {i : Instr} (hi : i.site = .command) {s t : State} (h : exec i s = .next t) :
    t.err ≠ 0x80 ↔ commandBody i s ≠ .error .capacityExceeded := by
  rw [exec_command hi] at h
  cases h
  cases commandBody i s with
  | ok u => exact iff_of_true (by rw [finish_ok, State.succeed_err]; decide) (by simp)
  | error k => rw [finish_error, errorEntry_err, ne_eq, ErrKind.code_eq_capacityExceeded, ne_eq, Except.error.injEq]

theorem exec_of_body_error {i : Instr} (hi : i.site = .command) {s : State} {k : ErrKind}
    (h : commandBody i s = .error k) : exec i s = .next (errorEntry i k s) := by
  rw [exec_command hi, h, finish_error]

/-! ### Unbounded capacities -/

section
variable {s : State} (hcfg : s.cfg.Unbounded)
include hcfg

theorem analyzeBody_ne_capacityExceeded (hmax : (s.src.elems.length : Int) ≤ s.cfg.cntMax) :
    analyzeBody s ≠ .error .capacityExceeded := by
  intro h
  by_cases htext : ∃ l, validText l ∧ s.src.elems = textBytes l
  · obtain ⟨l, hl, hsrc⟩ := htext
    have hle := length_le_textBytes l
    have hok := analyzeText_of_src hcfg hl hsrc (by rw [hsrc] at hmax; omega)
    cases h.symm.trans (analyzeBody_of_ok hok)
  · cases h.symm.trans (analyzeBody_of_error (analyzeText_no_text hcfg hmax htext))

theorem buildBody_ne_capacityExceeded (hmax : countSum s.freq ≤ s.cfg.cntMax) :
    buildBody s ≠ .error .capacityExceeded := by
  intro h
  rcases bind_error h with h | ⟨b, -, h⟩
  · by_cases hpos : positive s.freq
    · obtain hlen | hlen | hlen : s.freq.length = 0 ∨ s.freq.length = 1 ∨ 2 ≤ s.freq.length := by omega
      · cases h.symm.trans (if_pos hlen)
      · cases h.symm.trans (buildTree_single hlen hpos)
      · obtain ⟨root, hroot, -⟩ := buildTree_merges hlen hpos hmax
        cases h.symm.trans hroot
    · simp only [positive, not_forall, not_lt] at hpos
      obtain ⟨e, he, hle⟩ := hpos
      cases h.symm.trans (buildTree_nonPositive ⟨e, he, hle⟩)
  · rw [deriveTables_unbounded hcfg] at h
    cases h

theorem compressBody_ne_capacityExceeded (hmax : (s.src.elems.length : Int) ≤ s.cfg.cntMax) :
    compositeBody .cAnalyze s ≠ .error .capacityExceeded := by
  intro h
  obtain ⟨-, -, -, herrs⟩ := compressErrors s _ (s.cfg.unbounded_iff.2 hcfg) hmax
    (exec_of_body_error (i := .compress) rfl h)
  obtain ⟨hmem, -⟩ := herrs rfl
  exact absurd hmem (by rw [errorEntry_err]; decide)

theorem commandBody_ne_capacityExceeded {i : Instr} (hi : i.site = .command)
    (hsrc : i = .analyze ∨ i = .compress → (s.src.elems.length : Int) ≤ s.cfg.cntMax)
    (hfreq : i = .build → countSum s.freq ≤ s.cfg.cntMax) : commandBody i s ≠ .error .capacityExceeded := by
  intro h
  cases i with
  | analyze => exact analyzeBody_ne_capacityExceeded hcfg (hsrc (.inl rfl)) h
  | build => exact buildBody_ne_capacityExceeded hcfg (hfreq rfl) h
  | derive =>
    rcases deriveBody_error h with ⟨-, hk⟩ | he
    · cases hk
    · exact absurd (he.mem_of_unbounded hcfg) List.not_mem_nil
  | serialize =>
    rcases serializeBody_error_tree h with ⟨-, hk⟩ | he
    · cases hk
    · exact absurd (he.mem_of_unbounded hcfg) List.not_mem_nil
  | deserialize => exact absurd ((deserializeBody_error h).mem_of_unbounded hcfg) (by decide)
  | encode => exact absurd ((encodeBody_errorAmong h).mem_of_unbounded hcfg) (by decide)
  | decode => exact absurd ((decodeBody_error h).mem_of_unbounded hcfg) (by decide)
  | assemble =>
    rcases assembleBody_errorAmong h with ⟨-, hk⟩ | he
    · cases hk
    · exact absurd (he.mem_of_unbounded hcfg) List.not_mem_nil
  | parse => exact absurd ((parseBody_error h).mem_of_unbounded hcfg) (by decide)
  | emit => exact absurd ((emitBody_error h).mem_of_unbounded hcfg) List.not_mem_nil
  | clear => cases h
  | compress => exact compressBody_ne_capacityExceeded hcfg (hsrc (.inr rfl)) h
  | decompress => exact absurd ((decompressBody_error h).mem_of_unbounded hcfg) (by decide)
  | illegal code => cases h
  | _ => cases hi

end

/-! ### Within and past the capacities -/

theorem commandBody_cfg {i : Instr} (hi : i.site = .command) {s t : State} (h : commandBody i s = .ok t) :
    t.cfg = s.cfg :=
  congrArg Outside.cfg (outside_of_control (commandBody_control hi h))

theorem errorEntry_widen (i : Instr) (k : ErrKind) (s : State) : errorEntry i k s.widen = (errorEntry i k s).widen := by
  cases i <;> rfl

theorem exec_widen {i : Instr} (hi : i.site = .command) {s : State}
    (h : commandBody i s ≠ .error .capacityExceeded) :
    exec i s.widen = .next (finish i s (commandBody i s)).widen := by
  rw [exec_command hi, commandBody_agrees hi s h]
  cases commandBody i s with
  | ok u => rfl
  | error k => exact congrArg Host.Outcome.next (errorEntry_widen i k s)

theorem fits_succeed (cfg : Config) (i : Instr) (u : State) : Fits cfg i u.succeed ↔ Fits cfg i u := by
  cases i <;> exact Iff.rfl

theorem exec_of_fits {i : Instr} (hi : i.site = .command) (hc : i ≠ .compress) (hd : i ≠ .decompress) {s u : State}
    (hu : commandBody i s.widen = .ok u) (hfits : Fits s.cfg i u) :
    exec i s = .next { u.succeed with cfg := s.cfg } := by
  obtain ⟨-, hmap⟩ := (commandBody_limits hi hc hd s).of_fits hu hfits
  cases hb : commandBody i s with
  | error k => rw [hb] at hmap; cases hmap
  | ok v =>
    rw [hb] at hmap
    cases hmap
    rw [exec_of_body_ok hi hb, ← commandBody_cfg hi hb]
    rfl

theorem exec_of_not_fits {i : Instr} (hi : i.site = .command) (hc : i ≠ .compress) (hd : i ≠ .decompress) {s u : State}
    (hu : commandBody i s.widen = .ok u) (hfits : ¬ Fits s.cfg i u) :
    exec i s = .next (errorEntry i .capacityExceeded s) := by
  have hmap := (commandBody_limits hi hc hd s).of_exceeds trivial hu hfits
  cases hb : commandBody i s with
  | error k => rw [hb] at hmap; cases hmap; exact exec_of_body_error hi hb
  | ok v => rw [hb] at hmap; cases hmap

/-! ### ASSEMBLE (47_container_and_sequencer.md R215) -/

theorem widened_unbounded (cfg : Config) : cfg.widened.Unbounded := ⟨rfl, rfl, rfl, rfl, rfl, rfl, rfl, rfl⟩

theorem blobBytes_length (vb : BitVec 4) (tree pay : List Byte) :
    (blobBytes vb tree pay).length = 4 + tree.length + pay.length := by
  simp only [blobBytes, List.length_cons, List.length_append]
  omega

theorem exec_assemble_capacity {s : State} {cap : Nat} (hv : validBitsOk s.validBits.toNat = true)
    (hcap : s.cfg.dstCap = some cap) : cap < 4 + s.tbuf.elems.length + s.pay.elems.length
      ↔ exec .assemble s = .next { s with dst := Buffer.empty, status := .err, err := 0x80 } := by
  have hu : commandBody .assemble s.widen = .ok { s.widen with
      dst := Buffer.ofList (blobBytes s.validBits s.tbuf.elems s.pay.elems) } :=
    assembleBody_unbounded (s := s.widen) (widened_unbounded s.cfg) hv
  by_cases hlt : cap < 4 + s.tbuf.elems.length + s.pay.elems.length
  · refine iff_of_true hlt (exec_of_not_fits (i := .assemble) rfl (by decide) (by decide) hu ?_)
    rw [Fits, hcap, withinCap_some, Buffer.ofList_len, blobBytes_length, decide_eq_true_eq]
    exact Nat.not_le.2 hlt
  · refine iff_of_false hlt fun h => ?_
    have hok := exec_of_fits (i := .assemble) (s := s) rfl (by decide) (by decide) hu (by
      rw [Fits, hcap, withinCap_some, Buffer.ofList_len, blobBytes_length, decide_eq_true_eq]
      exact Nat.not_lt.1 hlt)
    cases congrArg State.status (Host.Outcome.next.inj (h.symm.trans hok))

/-! ### Counts past CNT_MAX (R12) -/

/-- On the bytes of a text ANALYZE stops at the first number past a capacity, or counts every symbol within CNT_MAX. -/
theorem analyzeLoop_counts {cfg : Config} {l : List Symbol} (hl : validText l) {before : List Symbol} {turns : Nat}
    (hturns : l.length ≤ turns) {r : AnalyzeRegs} (hr : r.freq = textFreq before) :
    analyzeLoop cfg turns (textBytes l) r = .error .capacityExceeded
      ∨ ∀ x ∈ l, ((before ++ l).count x : Int) ≤ cfg.cntMax := by
  induction l generalizing before turns r with
  | nil => exact .inr (List.forall_mem_nil _)
  | cons x l ih =>
    obtain ⟨hx, hl⟩ := List.forall_mem_cons.1 hl
    obtain ⟨turns, rfl⟩ := Nat.exists_eq_add_one_of_ne_zero (Nat.ne_zero_of_lt hturns)
    have hdrop : (utf8Encode x ++ textBytes l).drop (utf8Width x) = textBytes l := List.drop_left' (utf8Encode_length x)
    simp only [textBytes_cons, analyzeLoop, utf8Decode_encode hx, hdrop]
    cases happend : r.syms.append cfg.symsCap x with
    | error k => exact .inl (congrArg Except.error (Buffer.append_error happend))
    | ok syms =>
      cases hcount : countSymbol cfg x r.freq with
      | error k =>
        simp only [bind, Except.bind]
        exact .inl (congrArg Except.error (countSymbol_error hcount))
      | ok freq =>
        simp only [bind, Except.bind]
        have hfreq : freq = textFreq (before ++ [x]) := by rw [countSymbol_ok hcount, hr, textFreq_snoc]
        refine (ih hl (Nat.le_of_succ_le_succ hturns) hfreq).imp_right fun hrest y hy => ?_
        rw [List.append_cons]
        by_cases hyl : y ∈ l
        · exact hrest y hyl
        · obtain rfl : y = x := (List.mem_cons.1 hy).resolve_right hyl
          obtain ⟨c, hcheck, -⟩ := bind_ok hcount
          obtain ⟨-, hmax⟩ := checkCount_ok hcheck
          rw [hr, lookup_textFreq_getD] at hmax
          simpa [List.count_append, List.count_eq_zero_of_not_mem hyl] using hmax

theorem cntMax_nonneg (cfg : Config) : 0 ≤ cfg.cntMax := Int.sub_nonneg.2 (Int.pow_pos (by decide))

theorem analyzeText_count_exceeded {cfg : Config} {l : List Symbol} (hl : validText l) {x : Symbol}
    (hmax : cfg.cntMax < (l.count x : Int)) : analyzeText cfg (textBytes l) = .error .capacityExceeded := by
  refine (analyzeLoop_counts hl (before := []) (length_le_textBytes l) rfl).resolve_right fun hall => ?_
  by_cases hx : x ∈ l
  · exact Int.not_lt.2 (hall x hx) hmax
  · rw [List.count_eq_zero_of_not_mem hx] at hmax
    exact Int.not_lt.2 (cntMax_nonneg cfg) hmax

/-- Every merge of BUILD is checked, and the last one has the sum of all counts. -/
theorem mergeLoop_sum_le {cfg : Config} {turns seq : Nat} {q : List PQEntry} {p : List PQEntry × Nat}
    (hlen : 2 ≤ q.length) (hturns : q.length ≤ turns + 1) (h : mergeLoop cfg turns q seq = .ok p) :
    (q.map PQEntry.cnt).sum ≤ cfg.cntMax := by
  induction turns generalizing q seq with
  | zero => omega
  | succ turns ih =>
    match q with
    | a :: b :: rest =>
      obtain ⟨c, hcheck, h⟩ := bind_ok h
      obtain ⟨rfl, hmax⟩ := checkCount_ok hcheck
      cases rest with
      | nil => simpa using hmax
      | cons e rest =>
        have hperm := pqInsert_perm ⟨a.cnt + b.cnt, internalSymkey cfg, seq, .internal (a.cnt + b.cnt) a.node b.node⟩
          (e :: rest)
        have hlength := hperm.length_eq
        simp only [List.length_cons] at hturns hlength
        have hsum := ih (by omega) (by omega) h
        rw [(hperm.map PQEntry.cnt).sum_eq] at hsum
        simpa only [List.map_cons, List.sum_cons, Int.add_assoc] using hsum

theorem buildTree_count_exceeded {cfg : Config} {freq : List (Symbol × Count)} (hlen : 2 ≤ freq.length)
    (hpos : positive freq) (hmax : cfg.cntMax < countSum freq) : buildTree cfg freq = .error .capacityExceeded := by
  have hperm := pqOfList_perm (queueLeaves freq)
  have hqlen : (pqOfList (queueLeaves freq)).length = freq.length := hperm.length_eq.trans (queueLeaves_length freq)
  rw [buildTree, if_neg (by omega), (positive_iff freq).1 hpos, if_neg Bool.false_ne_true, if_neg (by omega),
    leafEntries_eq_queueLeaves]
  cases hm : mergeLoop cfg freq.length (pqOfList (queueLeaves freq)) freq.length with
  | error k => rw [mergeLoop_error hm]; rfl
  | ok p =>
    have hsum := mergeLoop_sum_le (by omega) (by omega) hm
    rw [(hperm.map PQEntry.cnt).sum_eq, queueLeaves_cnt] at hsum
    exact absurd hmax (Int.not_lt.2 hsum)

/-- Settles O22: without capacities no check fails; under them each unit gives its unbounded result where that fits and
CapacityExceeded where it does not, and the composite commands run the units. -/
theorem capacityExceededOnlyPastACapacity : Obligations.CapacityExceededOnlyPastACapacity := by
  refine ⟨fun i s t hi hcfg hsrc hfreq h => ?_, fun i s t hi h hne => ?_, fun i s t hi hc hd h hok => ?_,
    fun s cap hv hcap => exec_assemble_capacity hv hcap, fun s l x hl hsrc hmax => ?_, fun s hlen hpos hmax => ?_⟩
  · exact (exec_err_ne_iff hi h).2
      (commandBody_ne_capacityExceeded (s.cfg.unbounded_iff.1 hcfg) hi hsrc hfreq)
  · have hwide := exec_widen hi ((exec_err_ne_iff hi h).1 hne)
    have hcfg : t.cfg = s.cfg := (outside_eq_iff.1 (exec_outside h)).2.2.1
    cases h.symm.trans (exec_command hi s)
    rw [State.widen, State.widen, hcfg] at hwide
    exact hwide
  · obtain ⟨u, hu, rfl⟩ := exec_status_ok hi h hok
    rw [fits_succeed]
    exact ⟨exec_of_fits hi hc hd hu, fun hfits => ⟨_, exec_of_not_fits hi hc hd hu hfits, rfl, rfl⟩⟩
  · have herr : analyzeBody s = .error .capacityExceeded :=
      analyzeBody_of_error (hsrc ▸ analyzeText_count_exceeded hl hmax)
    exact ⟨_, exec_of_body_error (i := .analyze) rfl herr, rfl, rfl⟩
  · exact ⟨_, exec_build_of_error (buildTree_count_exceeded hlen hpos hmax), rfl, rfl⟩

end Sys2Proof.Machine
end
